-- ==== Sys2Proof/Word.lean ====
section
/-! DEFINITION. The words of the engine: command words, coefficient patterns, binary64
patterns, complex lanes, slot numbers, and the names of draws. -/

namespace Sys2Proof

/-- A command: one 128-bit word (R70). -/
abbrev Command := BitVec 128

/-- A coefficient pattern (R8). The configured width W is 8, 16, 32 or 64; a narrower pattern is
kept with its upper bits 0. -/
abbrev Coef := BitVec 64

/-- A binary64 pattern in the interchange encoding: sign 63, exponent 62:52, fraction 51:0 (R52). -/
abbrev F64 := BitVec 64

/-- One complex lane of a FrequencyPoly: a pair of binary64 patterns (R24). -/
structure Cplx where
  /-- real part: element 2k of the FREQ space (R52) -/
  re : F64
  /-- imaginary part: element 2k + 1 of the FREQ space (R52) -/
  im : F64
  deriving DecidableEq, Repr

/-- A Poly slot number as a command carries it: 8 bits, unsigned (R72(c)). -/
abbrev PolySlot := BitVec 8

/-- A FrequencyPoly slot number as a command carries it: 8 bits, unsigned (R72(c)). -/
abbrev FreqSlot := BitVec 8

/-- The name of one draw (R15): the machine's draw counter and the place inside the command at
which the free value is taken. Two occurrences have two names. -/
abbrev Draw := List Nat

end Sys2Proof
end

