-- ==== Sys2Proof/Config.lean ====
section
/-! DEFINITION. What one implementation fixes, and the free values. The OPEN sizes of R6 stand in
State as the constant CAPS register (`Machine.Caps`); their default values are here. -/

namespace Sys2Proof.Config

/-- The free values: `anyBits d` is the 64-bit value of the draw named `d` (R15). It has no body:
nothing can be proved of it, so a claim that holds of the model holds under every draw. -/
opaque anyBits : Draw → BitVec 64

/-- Which of two neighbouring binary64 values the Twiddle Table holds for cos(π·y / 2^logn), where
`Machine.nearestOf` cannot tell; free (log entry 8). -/
opaque twiddleRoundsUp : (logn y : Nat) → Bool

/-- Default of the OPEN parameter NP (R6). -/
def defaultNP : Nat := 16
/-- Default of the OPEN parameter NF (R6). -/
def defaultNF : Nat := 16
/-- Default of the OPEN parameter MIN_LOGN (R6). -/
def defaultMinLogn : Nat := 3
/-- Default of the OPEN parameter MAX_LOGN (R6). -/
def defaultMaxLogn : Nat := 16
/-- Default of the OPEN parameter NCMD (R6). -/
def defaultNCMD : Nat := 256

/-- SAFE_BITS or RT_BITS (R6): a safe-precision budget, 0 to 52 bits for each LOGN. OPEN with no default:
an argument of the claims that assume `SafeProduct`, `RoundTrip` or `PermRoundTrip`. -/
abbrev Budget := Nat → Fin 53

end Sys2Proof.Config
end

