-- ==== Sys2Proof/Machine/Coefficient.lean ====
section
/-! DEFINITION. Coefficient values (R8), bit reversal (R9) and the residues of immediates (R72). -/

namespace Sys2Proof.Machine

/-- `uval` of R8. -/
def uval (c : Coef) : Nat := c.toNat

/-- `sval` of R8: two's complement of the W-bit pattern. -/
def sval (W : Nat) (c : Coef) : Int :=
  if 2 ^ (W - 1) ≤ c.toNat then (c.toNat : Int) - (2 ^ W : Nat) else c.toNat

/-- `val` of R8: read by SGN. -/
def val (W : Nat) (sgn : Bool) (c : Coef) : Int := if sgn then sval W c else uval c

/-- `wrap_W(z) = z mod 2^W` of R8. -/
def wrap (W : Nat) (z : Int) : Coef := BitVec.ofNat 64 (z % (2 ^ W : Nat)).toNat

/-- `ANY_W`: the W-bit free value of the draw `d` (R15). -/
def anyCoef (W : Nat) (d : Draw) : Coef := wrap W (Config.anyBits d).toNat

/-- `brev_k(i)` of R9. -/
def brev : (k : Nat) → (i : Nat) → Nat
  | 0, _ => 0
  | k + 1, i => i % 2 * 2 ^ k + brev k (i / 2)

/-- Coefficient `j` of a Poly's list of coefficients. -/
def coefAt (a : List Coef) (j : Nat) : Coef := a.getD j 0

end Sys2Proof.Machine
end

