-- ==== Sys2Proof/Syntax.lean ====
section
/-! DEFINITION. The commands of the engine: one constructor per row of the opcode table (R75). -/

namespace Sys2Proof

/-- The nineteen commands of R75. Slot operands are named as in the rules: p a Poly slot, f a
FrequencyPoly slot, d the destination (RD), a the first source (RA), b the second (RB). -/
inductive Instr where
  /-- `END` (R92) -/
  | endCmd
  /-- `CFG` with the fields of R73 (R91) -/
  | cfg (logn : BitVec 6) (wsel : BitVec 2) (sgn : Bool) (strat : BitVec 2)
      (limbBits : BitVec 7) (limbCount : BitVec 8) (logKt : BitVec 6)
  /-- `FFT fd, pa` (R106) -/
  | fft (fd : FreqSlot) (pa : PolySlot)
  /-- `IFFT pd, fa` (R109) -/
  | ifft (pd : PolySlot) (fa : FreqSlot)
  /-- `FMUL fd, fa, fb` (R130) -/
  | fmul (fd fa fb : FreqSlot)
  /-- `FMAC fd, fa, fb` (R131) -/
  | fmac (fd fa fb : FreqSlot)
  /-- `MUL pd, pa, pb` (R152) -/
  | mul (pd pa pb : PolySlot)
  /-- `MULADD pd, pa, pb` (R153) -/
  | muladd (pd pa pb : PolySlot)
  /-- `MULSUB pd, pa, pb` (R154) -/
  | mulsub (pd pa pb : PolySlot)
  /-- `MULS pd, pa, pb` (R155) -/
  | muls (pd pa pb : PolySlot)
  /-- `MULSADD pd, pa, pb` (R156) -/
  | mulsadd (pd pa pb : PolySlot)
  /-- `MULSSUB pd, pa, pb` (R157) -/
  | mulssub (pd pa pb : PolySlot)
  /-- `PADD pd, pa, pb` (R190) -/
  | padd (pd pa pb : PolySlot)
  /-- `PSUB pd, pa, pb` (R191) -/
  | psub (pd pa pb : PolySlot)
  /-- `PNEG pd, pa` (R192) -/
  | pneg (pd pa : PolySlot)
  /-- `PSCL pd, pa, #c` (R193) -/
  | pscl (pd pa : PolySlot) (imm : BitVec 64)
  /-- `MONO pd, pa, #d` (R200) -/
  | mono (pd pa : PolySlot) (imm : BitVec 64)
  /-- `PERM pd, pa, #d` (R201) -/
  | perm (pd pa : PolySlot) (imm : BitVec 64)
  /-- `FPERM fd, fa, #d` (R202) -/
  | fperm (fd fa : FreqSlot) (imm : BitVec 64)
  deriving DecidableEq, Repr

end Sys2Proof
end

