-- ==== Sys2Proof/Machine/State.lean ====
section
/-! DEFINITION. The state of one engine (R20 to R32), its faults and refusals, and the state after
reset. Everything here is plain data. -/

namespace Sys2Proof.Machine

/-- STRAT (R21): 0 AUTO, 1 SPLIT, 2 KARA; 3 is never stored. -/
inductive Strat where
  /-- 0 AUTO -/
  | auto
  /-- 1 SPLIT -/
  | split
  /-- 2 KARA -/
  | kara
  deriving DecidableEq, Repr

/-- RUNSTATE (R27): 0 IDLE, 1 BUSY, 2 DONE, 3 ERR. -/
inductive RunState where
  /-- 0 IDLE -/
  | idle
  /-- 1 BUSY -/
  | busy
  /-- 2 DONE -/
  | done
  /-- 3 ERR -/
  | err
  deriving DecidableEq, Repr

/-- ERRCODE (R220): codes 0 to 7; codes 8 to 255 are never written. -/
inductive ErrCode where
  /-- 0: no error recorded -/
  | none
  /-- 1 `ConfigError` -/
  | configError
  /-- 2 `DegreeMismatch` -/
  | degreeMismatch
  /-- 3 `InvalidDegree` -/
  | invalidDegree
  /-- 4 `Overlap` -/
  | overlap
  /-- 5 `IllegalCommand` -/
  | illegalCommand
  /-- 6 `NotConfigured` -/
  | notConfigured
  /-- 7 `BadSlot` -/
  | badSlot
  deriving DecidableEq, Repr

/-- The configuration registers (R21). -/
structure Conf where
  /-- 1 when the engine has been constructed -/
  cfgd : Bool
  /-- log2 of the ring degree N -/
  logn : BitVec 6
  /-- W = 8 · 2^WSEL -/
  wsel : BitVec 2
  /-- 1: coefficients are read signed -/
  sgn : Bool
  /-- multiply strategy -/
  strat : Strat
  /-- width of one limb -/
  limbBits : BitVec 7
  /-- limbs per coefficient -/
  limbCount : BitVec 8
  /-- log2 of the Karatsuba threshold -/
  logKt : BitVec 6
  deriving DecidableEq, Repr

/-- The content of an allocated Poly slot: the log-degree of its tag and its coefficients (R22). -/
structure Poly where
  /-- `PTAG[s].logn` -/
  logn : BitVec 6
  /-- `P[s][0]`, `P[s][1]`, … -/
  coefs : List Coef
  deriving DecidableEq, Repr

/-- The content of an allocated FrequencyPoly slot: the log-degree of its tag and its lanes (R24). -/
structure FreqPoly where
  /-- `FTAG[s].logn` -/
  logn : BitVec 6
  /-- `F[s][0]`, `F[s][1]`, … -/
  lanes : List Cplx
  deriving DecidableEq, Repr

/-- The constant CAPS register (R28): the OPEN sizes of R6, fixed for one engine. -/
structure Caps where
  /-- number of Poly slots -/
  np : Nat
  /-- number of FrequencyPoly slots -/
  nf : Nat
  /-- log2 of the least degree -/
  minLogn : Nat
  /-- log2 of the largest degree -/
  maxLogn : Nat
  /-- number of command memory entries -/
  ncmd : Nat
  deriving DecidableEq, Repr

/-- One element-addressed space (R50): the elements that are present, by rising address. An entry
that is not listed is absent: a command never written since reset, a slot whose tag is not valid. -/
abbrev Memory (α : Type) := List (Nat × α)

/-- One access of the host agent (R51 to R54); an address names one whole element (R50). An element of the
POLY and FREQ spaces is named by its pair (slot, index) or by its flat address (R50). -/
inductive HostOp where
  /-- `MemRead(CMD, a, 128)` -/
  | readCmd (a : Nat)
  /-- `MemWrite(CMD, a, 128, w)` -/
  | writeCmd (a : Nat) (w : Command)
  /-- `HostReadCoef(s, j)` -/
  | readCoef (s j : Nat)
  /-- `HostWriteCoef(s, j, v)` -/
  | writeCoef (s j : Nat) (v : BitVec 64)
  /-- `HostReadLane(s, e)` -/
  | readLane (s e : Nat)
  /-- `HostWriteLane(s, e, v)` -/
  | writeLane (s e : Nat) (v : F64)
  /-- `MemRead(POLY, a, W)` by the flat address a of R50 -/
  | readPoly (a : Nat)
  /-- `MemWrite(POLY, a, W, v)` by the flat address a of R50 -/
  | writePoly (a : Nat) (v : BitVec 64)
  /-- `MemRead(FREQ, a, 64)` by the flat address a of R50 -/
  | readFreq (a : Nat)
  /-- `MemWrite(FREQ, a, 64, v)` by the flat address a of R50 -/
  | writeFreq (a : Nat) (v : F64)
  /-- `MemRead(TAG, t, 7)` -/
  | readTag (t : Nat)
  /-- `MemWrite(TAG, t, 7, v)`: allocate or free a slot -/
  | writeTag (t : Nat) (v : BitVec 7)
  /-- `MemRead(CSR, r, 64)` -/
  | readCsr (r : Nat)
  /-- `MemWrite(CSR, r, 64, v)` -/
  | writeCsr (r : Nat) (v : BitVec 64)
  deriving DecidableEq, Repr

/-- Whose move is next: the engine's, one host access, or the reset input (R20, R250). -/
inductive Turn where
  /-- the engine takes one step (R90) -/
  | engine
  /-- the host makes one access (R51 to R54) -/
  | host (op : HostOp)
  /-- the reset input is asserted and released (R250) -/
  | hardReset
  deriving DecidableEq, Repr

/-- The state of one engine, and the moves of its environment still to come. -/
structure State where
  /-- configuration registers (R21) -/
  conf : Conf
  /-- RUNSTATE (R27) -/
  runstate : RunState
  /-- ERRCODE (R27) -/
  errcode : ErrCode
  /-- command pointer CP (R26) -/
  cp : BitVec 32
  /-- command memory CMD (R26) -/
  cmd : Memory Command
  /-- Poly slot file with its tags (R22) -/
  polys : Memory Poly
  /-- FrequencyPoly slot file with its tags (R24) -/
  freqs : Memory FreqPoly
  /-- CAPS, constant (R28) -/
  caps : Caps
  /-- the MODEL's own: how many commands have taken draws; names the draws of R15 (log entry 3) -/
  draws : Nat
  /-- the MODEL's own: the environment's moves, next first; empty: only the engine moves (log entry 2) -/
  turns : List Turn
  /-- the MODEL's own: the element the last host read returned, zero-extended (log entry 2) -/
  hostData : BitVec 128
  deriving DecidableEq, Repr

/-- What stops the machine outside the engine's own error stop (R223), which is a next state. -/
inductive Fault where
  /-- Raised by the engine's fetch of a command memory entry never written since reset: U6 asks for a
  fault, since the entry holds an unspecified word. Safe. -/
  | unwrittenCommand
  deriving DecidableEq, Repr

/-- Moves to which the model gives no meaning. -/
inductive Refusal where
  /-- Raised by an arm of exec whose command has no meaning yet; no arm is left. Safe. -/
  | notModelled (mnemonic : String)
  /-- Raised by a host access that R62 and U7 do not allow while the engine is BUSY. Safe. -/
  | hostAccessWhileBusy
  /-- Raised by a host read whose result the spec leaves unspecified (R51, R52, R53, U5). Safe. -/
  | hostReadUnspecified
  deriving DecidableEq, Repr

/-- The outcome of a move. -/
abbrev Out := Host.Outcome State Fault Refusal

/-- The configuration registers after reset (R32). -/
def Conf.reset : Conf := ⟨false, 0, 0, false, .auto, 0, 0, 0⟩

/-- CAPS with the default parameters of R6. -/
def Caps.default : Caps :=
  ⟨Config.defaultNP, Config.defaultNF, Config.defaultMinLogn, Config.defaultMaxLogn, Config.defaultNCMD⟩

/-- The state after reset (R32, R250): unconfigured, idle, CP = 0, no slot allocated, no command
written. -/
def State.reset : State where
  conf := Conf.reset
  runstate := .idle
  errcode := .none
  cp := 0
  cmd := []
  polys := []
  freqs := []
  caps := Caps.default
  draws := 0
  turns := []
  hostData := 0

end Sys2Proof.Machine
end

