-- ==== Sys2Proof/Machine/Ops.lean ====
section
/-! DEFINITION. The named operations over the spaces, the slots, the command pointer and the run
state: everything a meaning reads or writes goes through these. -/

namespace Sys2Proof.Machine

/-! ## One element-addressed space (R50) -/

section
variable {α : Type}

/-- The canonical form: addresses strictly rising. -/
def Memory.wf : Memory α → Bool
  | [] => true
  | (k, _) :: r => r.all (fun e => decide (k < e.1)) && Memory.wf r

/-- The element at address `a`, if it is present. -/
def Memory.read : Memory α → Nat → Option α
  | [], _ => none
  | (k, x) :: r, a => if a = k then some x else Memory.read r a

/-- Write one element; the canonical form is kept. -/
def Memory.write : Memory α → Nat → α → Memory α
  | [], a, v => [(a, v)]
  | (k, x) :: r, a, v =>
    if a < k then (a, v) :: (k, x) :: r
    else if a = k then (a, v) :: r
    else (k, x) :: Memory.write r a v

/-- Make the element at address `a` absent. -/
def Memory.free : Memory α → Nat → Memory α
  | [], _ => []
  | (k, x) :: r, a => if a = k then r else (k, x) :: Memory.free r a

end

/-! ## Configuration (R21) -/

/-- LOGN as a number. -/
def Conf.log (c : Conf) : Nat := c.logn.toNat
/-- The ring degree N = 2^LOGN. -/
def Conf.degree (c : Conf) : Nat := 2 ^ c.log
/-- The number of lanes n = N / 2. -/
def Conf.laneCount (c : Conf) : Nat := 2 ^ (c.log - 1)
/-- The coefficient width W = 8 · 2^WSEL. -/
def Conf.width (c : Conf) : Nat := 8 * 2 ^ c.wsel.toNat

/-! ## Slots and tags (R22, R24) -/

/-- A slot operand: which file it names is fixed by the opcode (R71). -/
inductive Slot where
  /-- a Poly slot -/
  | poly (n : PolySlot)
  /-- a FrequencyPoly slot -/
  | freq (n : FreqSlot)
  deriving DecidableEq, Repr

/-- The slot number is below NP, respectively NF (R72(c)). -/
def State.slotExists (s : State) : Slot → Bool
  | .poly n => decide (n.toNat < s.caps.np)
  | .freq n => decide (n.toNat < s.caps.nf)

/-- The logn of the slot's tag when the tag is valid (R22, R24). -/
def State.tagLogn (s : State) : Slot → Option (BitVec 6)
  | .poly n => (s.polys.read n.toNat).map Poly.logn
  | .freq n => (s.freqs.read n.toNat).map FreqPoly.logn

/-- The coefficients of a Poly slot; none are readable where the tag is not valid (R22). -/
def State.coefs (s : State) (n : PolySlot) : List Coef :=
  match s.polys.read n.toNat with
  | some p => p.coefs
  | none => []

/-- The lanes of a FrequencyPoly slot; none are readable where the tag is not valid (R24). -/
def State.lanes (s : State) (n : FreqSlot) : List Cplx :=
  match s.freqs.read n.toNat with
  | some f => f.lanes
  | none => []

/-- A command's destination Poly: the tag becomes (1, LOGN) and every coefficient is written (R30). -/
def State.writePoly (s : State) (n : PolySlot) (a : List Coef) : State :=
  { s with polys := s.polys.write n.toNat ⟨s.conf.logn, a⟩ }

/-- A command's destination FrequencyPoly: the tag becomes (1, LOGN) and every lane is written (R30). -/
def State.writeFreq (s : State) (n : FreqSlot) (c : List Cplx) : State :=
  { s with freqs := s.freqs.write n.toNat ⟨s.conf.logn, c⟩ }

/-! ## Draws (R15) -/

/-- The name all draws of the command now executing begin from. -/
def State.draw (s : State) : Draw := [s.draws]

/-- A command that may have taken draws has its own name for them; the next one has another. -/
def State.nextDraw (s : State) : State := { s with draws := s.draws + 1 }

/-! ## Completion, error stop and resume -/

/-- A command other than END that completes: CP <- CP + 1 (R26, R90 step 7). -/
def State.advance (s : State) : State := { s with cp := s.cp + 1 }

/-- The error stop, this machine's trap entry (R223): RUNSTATE <- ERR, ERRCODE <- code(E), nothing
else; CP keeps the index of the failing command. -/
def State.raise (s : State) (e : ErrCode) : State := { s with runstate := .err, errcode := e }

/-- The resume, this machine's trap return (R224): the effect of CTRL.GO = 1 (R28). -/
def State.go (s : State) : State :=
  match s.runstate with
  | .busy => s
  | .idle | .done | .err => { s with runstate := .busy, errcode := ErrCode.none }

/-- The stop of END (R92): RUNSTATE <- DONE, CP unchanged. -/
def State.stop (s : State) : State := { s with runstate := .done }

/-- What both resets do (R250, R251): configuration, run state, ERRCODE, CP and every tag take the
values of R32. -/
def State.resetCore (s : State) : State :=
  { s with conf := Conf.reset, runstate := .idle, errcode := ErrCode.none, cp := 0, polys := [], freqs := [] }

/-- The soft reset (R251): command memory stays as it is. -/
def State.softReset (s : State) : State := s.resetCore

/-- The hard reset (R250): besides, every command memory entry is unspecified until it is written. -/
def State.hardReset (s : State) : State := { s.resetCore with cmd := [] }

end Sys2Proof.Machine
end

