-- ==== Sys2Proof/Machine/Operands.lean ====
section
/-! DEFINITION. Operand forms (R71, R72) and the checks a ring command makes before any effect, in
the order of R222. -/

namespace Sys2Proof.Machine

/-- The slot operands of a command. -/
structure Operands where
  /-- RD, the destination -/
  rd : Slot
  /-- the command reads its destination (R30) -/
  readsRd : Bool
  /-- RA and RB, as the format uses them -/
  srcs : List Slot
  deriving DecidableEq, Repr

/-- The slot is out of range, or it must be valid and is not. -/
def State.badOperand (s : State) (mustBeValid : Bool) (x : Slot) : Bool :=
  !s.slotExists x || (mustBeValid && (s.tagLogn x).isNone)

/-- `BadSlot` (R221), examining RD, RA, RB (R222(4)). -/
def State.badSlot (s : State) (o : Operands) : Bool :=
  s.badOperand o.readsRd o.rd || o.srcs.any (s.badOperand true)

/-- The slot's tag is valid and its logn is not the configured LOGN. -/
def State.wrongDegree (s : State) (x : Slot) : Bool :=
  match s.tagLogn x with
  | some l => l != s.conf.logn
  | none => false

/-- `DegreeMismatch` (R221), examining RD, RA, RB (R222(5)). -/
def State.degreeMismatch (s : State) (o : Operands) : Bool :=
  s.wrongDegree o.rd || o.srcs.any s.wrongDegree

/-- Checks (2), (4) and (5) of R222, then the command's own checks `extra` ((6) and (7)): the error
of the first that fails. -/
def State.ringError (s : State) (o : Operands) (extra : Option ErrCode) : Option ErrCode :=
  if !s.conf.cfgd then some .notConfigured
  else if s.badSlot o then some .badSlot
  else if s.degreeMismatch o then some .degreeMismatch
  else extra

/-- Steps 4 to 7 of R90 for a ring command: the first error stops the engine, otherwise the
command's writes `effect` are performed and CP advances. -/
def ringCommand (s : State) (o : Operands) (extra : Option ErrCode) (effect : State) : Out :=
  match s.ringError o extra with
  | some e => .next (s.raise e)
  | none => .next effect.advance

/-- The scalar of PSCL: c = IMM mod 2^W (R72(a)). -/
def scalarOf (W : Nat) (imm : BitVec 64) : Nat := imm.toNat % 2 ^ W

/-- The degree immediate: d' = d mod 2N = IMM[LOGN:0] (R72(b)). -/
def degreeOf (logn : Nat) (imm : BitVec 64) : Nat := imm.toNat % 2 ^ (logn + 1)

/-- `Overlap` of MONO (R204): RD = RA, compared as slot numbers. -/
def overlapError (rd ra : BitVec 8) : Option ErrCode := if rd = ra then some .overlap else none

/-- `InvalidDegree`, then `Overlap`, of PERM and FPERM (R204, R222(6) and (7)). -/
def automorphismError (rd ra : BitVec 8) (imm : BitVec 64) : Option ErrCode :=
  if imm.getLsbD 0 = false then some .invalidDegree else overlapError rd ra

end Sys2Proof.Machine
end

