-- ==== Sys2Proof/Machine/Control.lean ====
section
/-! DEFINITION. CFG and END (R91, R92). -/

namespace Sys2Proof.Machine

/-- STRAT of a CFG command; 3 is reserved (R73). -/
def stratOf (v : BitVec 2) : Option Strat :=
  match v.toNat with
  | 0 => some .auto
  | 1 => some .split
  | 2 => some .kara
  | _ => none

/-- The conditions of R91, in its order; any of them raises `ConfigError`. -/
def configError (k : Caps) (logn : BitVec 6) (wsel : BitVec 2) (limbBits : BitVec 7)
    (limbCount : BitVec 8) (logKt : BitVec 6) : Bool :=
  decide (logn.toNat < k.minLogn) || decide (k.maxLogn < logn.toNat)
    || decide (limbCount.toNat = 0)
    || (decide (limbBits.toNat = 0) || decide (64 < limbBits.toNat))
    || decide (limbCount.toNat * limbBits.toNat < 8 * 2 ^ wsel.toNat)
    || (decide (logKt.toNat = 0) || decide (62 < logKt.toNat))

/-- A successful construction: the configuration is written and every slot is freed (R91). -/
def State.construct (s : State) (c : Conf) : State := { s with conf := c, polys := [], freqs := [] }

/-- `CFG` (R91). STRAT = 3 is the illegal encoding of R76(d): the decoder never yields it, and a
command that carries it stops with `IllegalCommand`. -/
def execCfg (logn : BitVec 6) (wsel : BitVec 2) (sgn : Bool) (strat : BitVec 2) (limbBits : BitVec 7)
    (limbCount : BitVec 8) (logKt : BitVec 6) (s : State) : Out :=
  match stratOf strat with
  | none => .next (s.raise .illegalCommand)
  | some st =>
    if configError s.caps logn wsel limbBits limbCount logKt then .next (s.raise .configError)
    else .next (s.construct ⟨true, logn, wsel, sgn, st, limbBits, limbCount, logKt⟩).advance

/-- `END` (R92): legal also while CFGD = 0. -/
def execEnd (s : State) : Out := .next s.stop

end Sys2Proof.Machine
end

