-- ==== Sys2Proof/Machine/Linear.lean ====
section
/-! DEFINITION. The coefficient-wise commands PADD, PSUB, PNEG, PSCL (R190 to R194). -/

namespace Sys2Proof.Machine

/-- `wrap_W(uval(x) + uval(y))` (R190). -/
def addCoef (W : Nat) (x y : Coef) : Coef := wrap W ((uval x : Int) + uval y)
/-- `wrap_W(uval(x) − uval(y))` (R191). -/
def subCoef (W : Nat) (x y : Coef) : Coef := wrap W ((uval x : Int) - uval y)
/-- `wrap_W(−uval(x))` (R192). -/
def negCoef (W : Nat) (x : Coef) : Coef := wrap W (-(uval x : Int))
/-- `wrap_W(uval(x) · c)` (R193). -/
def sclCoef (W c : Nat) (x : Coef) : Coef := wrap W (uval x * c : Nat)

/-- `PADD pd, pa, pb` (R190). -/
def execPadd (pd pa pb : PolySlot) (s : State) : Out :=
  ringCommand s ⟨.poly pd, false, [.poly pa, .poly pb]⟩ none
    (s.writePoly pd (List.zipWith (addCoef s.conf.width) (s.coefs pa) (s.coefs pb)))

/-- `PSUB pd, pa, pb`: the minuend is pa (R191). -/
def execPsub (pd pa pb : PolySlot) (s : State) : Out :=
  ringCommand s ⟨.poly pd, false, [.poly pa, .poly pb]⟩ none
    (s.writePoly pd (List.zipWith (subCoef s.conf.width) (s.coefs pa) (s.coefs pb)))

/-- `PNEG pd, pa` (R192). -/
def execPneg (pd pa : PolySlot) (s : State) : Out :=
  ringCommand s ⟨.poly pd, false, [.poly pa]⟩ none
    (s.writePoly pd ((s.coefs pa).map (negCoef s.conf.width)))

/-- `PSCL pd, pa, #c` (R193). -/
def execPscl (pd pa : PolySlot) (imm : BitVec 64) (s : State) : Out :=
  ringCommand s ⟨.poly pd, false, [.poly pa]⟩ none
    (s.writePoly pd ((s.coefs pa).map (sclCoef s.conf.width (scalarOf s.conf.width imm))))

end Sys2Proof.Machine
end

