-- ==== Sys2Proof/Machine/Karatsuba.lean ====
section
/-! DEFINITION. The Karatsuba Multiplier (R170 to R176): integer arithmetic modulo 2^W only. -/

namespace Sys2Proof.Machine

/-- Add the sequence `m` into `r` at offset `g`, modulo 2^W (R173). -/
def addAt (W : Nat) : (g : Nat) → (m r : List Coef) → List Coef
  | _, _, [] => []
  | _, [], r => r
  | 0, x :: m, y :: r => addCoef W y x :: addAt W 0 m r
  | g + 1, m, y :: r => y :: addAt W g m r

/-- `wrap_W(x·y)` (R172). -/
def mulCoef (W : Nat) (x y : Coef) : Coef := wrap W (uval x * uval y : Nat)

/-- `School(h, x, y)` (R172): row u of the loop adds x[u]·y at offset u into zeros. -/
def school (W : Nat) : (x y : List Coef) → List Coef
  | [], y => List.replicate y.length 0
  | u :: x, y => addAt W 0 (y.map (mulCoef W u)) (0 :: school W x y)

/-- The middle band `d2 − d0 − d1` (R173). -/
def middleBand (W : Nat) (d0 d1 d2 : List Coef) : List Coef :=
  List.zipWith (subCoef W) (List.zipWith (subCoef W) d2 d0) d1

/-- Assembly of a node of size h = 2g (R173): `d0` low, `d2 − d0 − d1` at offset g, `d1` high. -/
def assemble (W g : Nat) (d0 d1 d2 : List Coef) : List Coef :=
  addAt W g (middleBand W d0 d1 d2) (d0 ++ d1)

/-- `KMul(h, x, y)` with h = 2^l and KTHRESH = 2^kt (R171); a single coefficient is always below the
threshold. -/
def kmul (W kt : Nat) : (l : Nat) → (x y : List Coef) → List Coef
  | 0, x, y => school W x y
  | l + 1, x, y =>
    if l + 1 < kt then school W x y
    else
      let g := 2 ^ l
      let d0 := kmul W kt l (x.take g) (y.take g)
      let d1 := kmul W kt l (x.drop g) (y.drop g)
      let d2 := kmul W kt l (List.zipWith (addCoef W) (x.take g) (x.drop g))
        (List.zipWith (addCoef W) (y.take g) (y.drop g))
      assemble W g d0 d1 d2

/-- The negacyclic fold at the root: `prodw[j] = wrap_W(r[j] − r[j + N])` (R174). -/
def negacyclicFold (W N : Nat) (r : List Coef) : List Coef :=
  List.zipWith (subCoef W) (r.take N) (r.drop N)

/-- The product under KARA (R171 to R174). -/
def karaProduct (c : Conf) (a q : List Coef) : List Coef :=
  negacyclicFold c.width c.degree (kmul c.width c.logKt.toNat c.log a q)

/-! ## The scratch tree (R175, R176): hidden, read by no other rule -/

/-- The flat number `ν(δ, ι) = (3^δ − 1)/2 + ι` (R175). -/
def scratchNumber (depth index : Nat) : Nat := (3 ^ depth - 1) / 2 + index

/-- What one node holds during a multiplication (R176). -/
structure ScratchNode where
  /-- flat number ν -/
  number : Nat
  /-- the node's result -/
  res : List Coef
  /-- x0 + x1; empty in a leaf -/
  sx : List Coef
  /-- y0 + y1; empty in a leaf -/
  sy : List Coef
  deriving DecidableEq, Repr

/-- The nodes of the tree under (δ, ι), the node itself first, its children 3ι, 3ι + 1, 3ι + 2
computing d0, d1, d2 in that order (R175, R176). -/
def scratchTree (W kt : Nat) : (l depth index : Nat) → (x y : List Coef) → List ScratchNode
  | 0, depth, index, x, y => [⟨scratchNumber depth index, school W x y, [], []⟩]
  | l + 1, depth, index, x, y =>
    if l + 1 < kt then [⟨scratchNumber depth index, school W x y, [], []⟩]
    else
      let g := 2 ^ l
      let sx := List.zipWith (addCoef W) (x.take g) (x.drop g)
      let sy := List.zipWith (addCoef W) (y.take g) (y.drop g)
      ⟨scratchNumber depth index, kmul W kt (l + 1) x y, sx, sy⟩ ::
        (scratchTree W kt l (depth + 1) (3 * index) (x.take g) (y.take g)
          ++ scratchTree W kt l (depth + 1) (3 * index + 1) (x.drop g) (y.drop g)
          ++ scratchTree W kt l (depth + 1) (3 * index + 2) sx sy)

end Sys2Proof.Machine
end

