-- ==== Sys2Proof/Machine/LaneOps.lean ====
section
/-! DEFINITION. The butterfly networks of R105 and R107, written once over the arithmetic of the
lanes: the engine runs them on binary64 pairs (`floatOps`), the exact layer of R102 and R109 is the
same network over the complex numbers. -/

namespace Sys2Proof.Machine

/-- The arithmetic of one kind of lane: each operation takes the name of its draw (R15), which an
exact arithmetic ignores. -/
structure LaneOps (α : Type) where
  /-- sum of two lanes -/
  add : Draw → α → α → α
  /-- difference of two lanes -/
  sub : Draw → α → α → α
  /-- product of two lanes -/
  mul : Draw → α → α → α

variable {α : Type}

/-- Multiply lane j by root j, starting at lane number `j` (R104, R108). -/
def mulRoots (R : LaneOps α) (root : Nat → α) (d : Draw) : (j : Nat) → List α → List α
  | _, [] => []
  | j, c :: cs => R.mul (j :: d) c (root j) :: mulRoots R root d (j + 1) cs

/-- The lanes `U + V` and `U − V` of the forward butterflies of one block, V already multiplied by
the block's root (R105). `j` is the lane number of the head, which names the draw. -/
def sums (R : LaneOps α) (d : Draw) (j : Nat) : List α → List α → List α
  | U :: Us, V :: Vs => R.add (j :: d) U V :: sums R d (j + 1) Us Vs
  | _, _ => []

/-- The differences of one block: see `sums`. -/
def diffs (R : LaneOps α) (d : Draw) (j : Nat) : List α → List α → List α
  | U :: Us, V :: Vs => R.sub (j :: d) U V :: diffs R d (j + 1) Us Vs
  | _, _ => []

/-- One forward stage (R105): `m` blocks are left, block `u` is the next, each of 2t lanes. -/
def fwdStage (R : LaneOps α) (twf : Nat → α) (t : Nat) (d : Draw) : (m u : Nat) → List α → List α
  | 0, _, _ => []
  | m + 1, u, c =>
    let U := c.take t
    let V := mulRoots R (fun _ => twf u) (0 :: d) (2 * u * t + t) ((c.drop t).take t)
    sums R (1 :: d) (2 * u * t) U V ++ diffs R (1 :: d) (2 * u * t + t) U V
      ++ fwdStage R twf t d m (u + 1) (c.drop (2 * t))

/-- The forward stages still to do when `l` stages are left: m = 2^done blocks of 2t = 2^l lanes;
pair distance t = n/2, n/4, …, 1 (R105). -/
def fwdStages (R : LaneOps α) (twf : Nat → α) (d : Draw) : (l done : Nat) → List α → List α
  | 0, _, c => c
  | l + 1, done, c => fwdStages R twf d l (done + 1) (fwdStage R twf (2 ^ l) ((done + 1) :: d) (2 ^ done) 0 c)

/-- One inverse stage (R107): `c[j] = U + V`, `c[j+t] = (U − V)·TWI[u]`. -/
def invStage (R : LaneOps α) (twi : Nat → α) (t : Nat) (d : Draw) : (m u : Nat) → List α → List α
  | 0, _, _ => []
  | m + 1, u, c =>
    let U := c.take t
    let V := (c.drop t).take t
    sums R (0 :: d) (2 * u * t) U V
      ++ mulRoots R (fun _ => twi u) (1 :: d) (2 * u * t + t) (diffs R (0 :: d) (2 * u * t + t) U V)
      ++ invStage R twi t d m (u + 1) (c.drop (2 * t))

/-- The inverse stages: `l` stages left, `done` done; t = 1, 2, …, n/2 and m = n/2, …, 1 (R107). -/
def invStages (R : LaneOps α) (twi : Nat → α) (d : Draw) : (l done : Nat) → List α → List α
  | 0, _, c => c
  | l + 1, done, c => invStages R twi d l (done + 1) (invStage R twi (2 ^ done) ((done + 1) :: d) (2 ^ l) 0 c)

/-- Scale lane after lane, starting at lane number `j` (R107: "divides by N/2 at the end"). -/
def scaleLanes (scale : Draw → α → α) (d : Draw) : (j : Nat) → List α → List α
  | _, [] => []
  | j, c :: cs => scale (j :: d) c :: scaleLanes scale d (j + 1) cs

/-- Twist and transform of folded lanes (R104, R105). -/
def fwdTransform (R : LaneOps α) (twist twf : Nat → α) (logn : Nat) (d : Draw) (c : List α) : List α :=
  fwdStages R twf d (logn - 1) 0 (mulRoots R twist (0 :: d) 0 c)

/-- Inverse stages, scaling and untwist (R107, R108). -/
def invTransform (R : LaneOps α) (untwist twi : Nat → α) (scale : Draw → α → α) (logn : Nat) (d : Draw)
    (c : List α) : List α :=
  mulRoots R untwist (200 :: d) 0 (scaleLanes scale (100 :: d) 0 (invStages R twi d (logn - 1) 0 c))

end Sys2Proof.Machine
end

