-- ==== Sys2Proof/Machine/Binary64.lean ====
section
/-! DEFINITION. IEEE 754 binary64 as R11 and R12 use it: addition, subtraction and multiplication
rounded once to nearest, ties to even, no fused operation, no flush to zero, no flags. A NaN result
is a free NaN pattern (U13). -/

namespace Sys2Proof.Machine

/-! ## Fields of a pattern -/

/-- Sign bit 63 of a binary64 pattern (R52). -/
def fsign (x : F64) : Bool := x.toNat / 2 ^ 63 == 1
/-- Biased exponent, bits 62:52 (R52). -/
def fexp (x : F64) : Nat := x.toNat / 2 ^ 52 % 2 ^ 11
/-- Fraction, bits 51:0 (R52). -/
def ffrac (x : F64) : Nat := x.toNat % 2 ^ 52

/-- A NaN pattern. -/
def isNaN (x : F64) : Bool := fexp x == 2047 && ffrac x != 0
/-- An infinity. -/
def isInf (x : F64) : Bool := fexp x == 2047 && ffrac x == 0
/-- A finite number (zero, subnormal or normal). -/
def isFinite (x : F64) : Bool := fexp x != 2047

/-- Integer significand of a finite pattern: its value is ± `fsig x` · 2^(`fscaleExp x` − 1075). -/
def fsig (x : F64) : Nat := if fexp x = 0 then ffrac x else 2 ^ 52 + ffrac x
/-- Exponent of the significand's unit, biased by 1075. -/
def fscaleExp (x : F64) : Nat := if fexp x = 0 then 1 else fexp x
/-- The signed significand. -/
def fsigned (x : F64) : Int := if fsign x then -(fsig x : Int) else fsig x

/-- A pattern from its sign and its lower 63 bits. -/
def fpack (neg : Bool) (bits : Nat) : F64 := BitVec.ofNat 64 (if neg then 2 ^ 63 + bits else bits)

/-! ## Rounding -/

/-- m / 2^d rounded to the nearest integer, ties to the even one. -/
def roundShift (m d : Nat) : Nat :=
  let q := m / 2 ^ d
  let r := m % 2 ^ d
  if 2 ^ d < 2 * r ∨ (2 * r = 2 ^ d ∧ q % 2 = 1) then q + 1 else q

/-- Exponent of the unit in which the value m · 2^q is rounded: 53 significant bits, and never
below the subnormal unit 2^(−1074). -/
def roundUnit (m : Nat) (q : Int) : Int := max ((Nat.log2 m : Int) + q - 52) (-1074)

/-- The binary64 nearest to ± m · 2^q, ties to even; infinity beyond the largest finite value. -/
def roundDyadic (neg : Bool) (m : Nat) (q : Int) : F64 :=
  if m = 0 then fpack neg 0
  else
    let k := roundUnit m q
    let M := if k ≤ q then m * 2 ^ (q - k).toNat else roundShift m (k - q).toNat
    let bits := (k + 1074).toNat * 2 ^ 52 + M
    fpack neg (if 2047 * 2 ^ 52 ≤ bits then 2047 * 2 ^ 52 else bits)

/-! ## The primitives of R11 -/

/-- The NaN a floating operation returns: any NaN pattern, named by its draw (U13). -/
def anyNaN (d : Draw) : F64 :=
  let r := Config.anyBits d
  fpack (fsign r) (2047 * 2 ^ 52 + (if ffrac r = 0 then 1 else ffrac r))

/-- `fneg` of R11: the sign bit is inverted, nothing else. -/
def fneg (x : F64) : F64 := x ^^^ BitVec.ofNat 64 (2 ^ 63)

/-- `fadd` of R11. -/
def fadd (d : Draw) (x y : F64) : F64 :=
  if isNaN x || isNaN y then anyNaN d
  else if isInf x then (if isInf y && fsign x != fsign y then anyNaN d else x)
  else if isInf y then y
  else
    let e := min (fscaleExp x) (fscaleExp y)
    let z := fsigned x * (2 ^ (fscaleExp x - e) : Nat) + fsigned y * (2 ^ (fscaleExp y - e) : Nat)
    if z = 0 then fpack (fsign x && fsign y) 0
    else roundDyadic (decide (z < 0)) z.natAbs ((e : Int) - 1075)

/-- `fsub` of R11: x − y is x + (−y), rounded once. -/
def fsub (d : Draw) (x y : F64) : F64 := fadd d x (fneg y)

/-- `fmul` of R11. -/
def fmul (d : Draw) (x y : F64) : F64 :=
  if isNaN x || isNaN y then anyNaN d
  else if isInf x || isInf y then
    (if fsig x = 0 || fsig y = 0 then anyNaN d else fpack (fsign x != fsign y) (2047 * 2 ^ 52))
  else roundDyadic (fsign x != fsign y) (fsig x * fsig y)
    ((fscaleExp x + fscaleExp y : Nat) - 2150 : Int)

/-- `fscale(x, k)` of R11: x · 2^(−k), rounded as `fmul(x, 2^(−k))`. -/
def fscale (d : Draw) (x : F64) (k : Nat) : F64 := fmul d x (roundDyadic false 1 (-(k : Int)))

/-- `i2f(z)` of R11: the binary64 nearest to the integer z, ties to even. -/
def i2f (z : Int) : F64 := roundDyadic (decide (z < 0)) z.natAbs 0

/-- `rnd(x)` of R11 for finite x: the nearest integer, ties to the even one. -/
def rnd (x : F64) : Int :=
  let m := if 1075 ≤ fscaleExp x then fsig x * 2 ^ (fscaleExp x - 1075)
    else roundShift (fsig x) (1075 - fscaleExp x)
  if fsign x then -(m : Int) else m

/-- `f2z(x)` of R108: the rounded integer, or no value when x is NaN, infinite or |rnd(x)| ≥ 2^63. -/
def f2z (x : F64) : Option Int :=
  if isFinite x && decide ((rnd x).natAbs < 2 ^ 63) then some (rnd x) else none

/-! ## The complex primitives of R12 -/

/-- `cadd` of R12. -/
def cadd (d : Draw) (a b : Cplx) : Cplx := ⟨fadd (0 :: d) a.re b.re, fadd (1 :: d) a.im b.im⟩

/-- `csub` of R12. -/
def csub (d : Draw) (a b : Cplx) : Cplx := ⟨fsub (0 :: d) a.re b.re, fsub (1 :: d) a.im b.im⟩

/-- `cmul` of R12: four products and two sums, each rounded once. -/
def cmul (d : Draw) (a b : Cplx) : Cplx :=
  ⟨fsub (0 :: d) (fmul (1 :: d) a.re b.re) (fmul (2 :: d) a.im b.im),
   fadd (3 :: d) (fmul (4 :: d) a.re b.im) (fmul (5 :: d) a.im b.re)⟩

/-- `cconj` of R12. -/
def cconj (a : Cplx) : Cplx := ⟨a.re, fneg a.im⟩

/-- `cscale` of R12. -/
def cscale (d : Draw) (a : Cplx) (k : Nat) : Cplx := ⟨fscale (0 :: d) a.re k, fscale (1 :: d) a.im k⟩

end Sys2Proof.Machine
end

