-- ==== Sys2Proof/Machine/Twiddle.lean ====
section
/-! DEFINITION. The Twiddle Table `TT(LOGN)` (R25, R100, R101): a constant function of LOGN. Each
component is the binary64 nearest to the exact real (`TwCorrect`), an exact zero is +0.0. The value
is computed in fixed point with 256 fraction bits; where its error bound leaves two neighbouring
values, the choice between them is free (log entries 6 and 8). -/

namespace Sys2Proof.Machine

/-- Fraction bits of the fixed-point computation. -/
def twPrec : Nat := 256

/-- floor(π · 2^300). -/
def piFix : Nat := 0x3243f6a8885a308d313198a2e03707344a4093822299f31d0082efa98ec4e6c89452821e638d

/-- Alternating Taylor sum t − t·θ²/((k+1)(k+2)) + … in fixed point; `th2` is θ². -/
def taylor (th2 : Nat) : (fuel : Nat) → (k : Nat) → (t : Nat) → Int
  | 0, _, _ => 0
  | fuel + 1, k, t => (t : Int) - taylor th2 fuel (k + 2) (t * th2 / 2 ^ twPrec / ((k + 1) * (k + 2)))

/-- θ = π·y / 2^logn in fixed point. -/
def thetaFix (logn y : Nat) : Nat := piFix * y / 2 ^ (logn + (300 - twPrec))

/-- cos θ in fixed point, 0 ≤ θ ≤ π/4. -/
def cosFix (th : Nat) : Nat := (taylor (th * th / 2 ^ twPrec) 32 0 (2 ^ twPrec)).toNat

/-- sin θ in fixed point, 0 ≤ θ ≤ π/4. -/
def sinFix (th : Nat) : Nat := (taylor (th * th / 2 ^ twPrec) 32 1 th).toNat

/-- The binary64 nearest to the real that lies within 2^16 units of v / 2^256; `roundsUp` decides
where that interval does not settle it. -/
def nearestOf (roundsUp : Bool) (v : Nat) : F64 :=
  let lo := roundDyadic false (v - 2 ^ 16) (-(twPrec : Int))
  let hi := roundDyadic false (v + 2 ^ 16) (-(twPrec : Int))
  if lo = hi then lo else if roundsUp then hi else lo

/-- cos(π·y / 2^logn) for 0 ≤ y ≤ 2^(logn−1), as binary64. -/
def cosFirstQuadrant (logn y : Nat) : F64 :=
  if y = 0 then roundDyadic false 1 0
  else if 2 * y = 2 ^ logn then 0
  else nearestOf (Config.twiddleRoundsUp logn y)
    (if 4 * y ≤ 2 ^ logn then cosFix (thetaFix logn y) else sinFix (thetaFix logn (2 ^ (logn - 1) - y)))

/-- The stored component for cos(π·x / 2^logn), x any integer (R101): reduced to the first quadrant
by cos(−θ) = cos θ, cos(θ + 2π) = cos θ and cos(π − θ) = −cos θ; a zero is +0.0. -/
def cosBits (logn : Nat) (x : Int) : F64 :=
  let r := (x % (2 ^ (logn + 1) : Nat)).toNat
  let y := if 2 ^ logn < r then 2 ^ (logn + 1) - r else r
  if 2 ^ logn < 2 * y then fneg (cosFirstQuadrant logn (2 ^ logn - y)) else cosFirstQuadrant logn y

/-- The stored component for sin(π·x / 2^logn) = cos(π/2 − π·x / 2^logn), for logn ≥ 1. -/
def sinBits (logn : Nat) (x : Int) : F64 := cosBits logn ((2 ^ (logn - 1) : Nat) - x)

/-- The stored pair for cis(π·x / 2^logn) (R101). -/
def cisBits (logn : Nat) (x : Int) : Cplx := ⟨cosBits logn x, sinBits logn x⟩

/-- Exponent of ζ in `TWF[u] = cis(S·2π·brev_(L−1)(u)/n)`, S = −1: cis(−2πr/n) = ζ^(−4r) (R100). -/
def twfExp (logn u : Nat) : Int := -(4 * brev (logn - 2) u : Nat)

/-- Forward roots `TWF[u]`, 0 ≤ u < n/2 (R100). -/
def TWF (logn u : Nat) : Cplx := cisBits logn (twfExp logn u)
/-- Inverse roots `TWI[u] = conj(TWF[u])` (R100); a zero imaginary part is +0.0 (R101). -/
def TWI (logn u : Nat) : Cplx := cisBits logn (-twfExp logn u)
/-- Twist roots `TWIST[j] = ζ^j`, 0 ≤ j < n (R100). -/
def TWIST (logn j : Nat) : Cplx := cisBits logn j
/-- Untwist roots `UNTWIST[j] = conj(TWIST[j])` (R100). -/
def UNTWIST (logn j : Nat) : Cplx := cisBits logn (-(j : Int))

/-! ## The permutation index table (R203) -/

/-- Evaluation exponent of lane k: `e_k = (1 − 4·brev_L(k)) mod 2N` (R102). -/
def laneExp (logn k : Nat) : Nat :=
  ((1 - 4 * brev (logn - 1) k : Int) % (2 ^ (logn + 1) : Nat)).toNat

/-- `PCONJ(d')` of R203: conjugate when d' ≡ 3 (mod 4). -/
def PCONJ (d : Nat) : Bool := d % 4 == 3

/-- `PIDX(d')[k]` of R203. -/
def PIDX (logn d k : Nat) : Nat :=
  let e : Int := if PCONJ d then -(laneExp logn k * d : Nat) else (laneExp logn k * d : Nat)
  let e' := e % (2 ^ (logn + 1) : Nat)
  let q := ((1 - e') / 4 % (2 ^ (logn - 1) : Nat)).toNat
  brev (logn - 1) q

end Sys2Proof.Machine
end

