-- ==== Sys2Proof/Machine/Transform.lean ====
section
/-! DEFINITION. The negacyclic FFT butterfly engine and the inverse FFT core at the float layer
(R103 to R108, form (a) of R111), and the commands FFT and IFFT. -/

namespace Sys2Proof.Machine

/-- The binary64 arithmetic of a lane (R12). -/
def floatOps : LaneOps Cplx := ⟨cadd, csub, cmul⟩

/-- Fold (R103): coefficient j and coefficient j + n become lane j; the integers are read by `i2f`. -/
def fold (n : Nat) (z : List Int) : List Cplx :=
  List.zipWith (fun x y => ⟨i2f x, i2f y⟩) (z.take n) (z.drop n)

/-- `FwdFloatInt(z)`: fold, twist, transform (R103, R104, R105, R145). -/
def fwdFloatInt (logn : Nat) (d : Draw) (z : List Int) : List Cplx :=
  fwdTransform floatOps (TWIST logn) (TWF logn) logn d (fold (2 ^ (logn - 1)) z)

/-- The lanes of the inverse transform before rounding; the scaling is by 2^(−L) (R107, R108). -/
def invLanes (logn : Nat) (d : Draw) (Y : List Cplx) : List Cplx :=
  invTransform floatOps (UNTWIST logn) (TWI logn) (fun e c => cscale e c (logn - 1)) logn d Y

/-- `InvFloatZ(Y)`: unfold and round (R108); `none` is ⊥. -/
def invFloatZ (logn : Nat) (d : Draw) (Y : List Cplx) : List (Option Int) :=
  let c := invLanes logn d Y
  c.map (fun x => f2z x.re) ++ c.map (fun x => f2z x.im)

/-- The pattern stored for one rounded value: `f2i`, or `ANY_W` for ⊥ (R108). -/
def storeRounded (W : Nat) (d : Draw) : Option Int → Coef
  | some z => wrap W z
  | none => anyCoef W d

/-- The patterns stored for a list of rounded values; the head is coefficient `j`, which names the
draw. -/
def storeAll (W : Nat) (d : Draw) : (j : Nat) → List (Option Int) → List Coef
  | _, [] => []
  | j, z :: zs => storeRounded W (j :: d) z :: storeAll W d (j + 1) zs

/-- `FFT fd, pa` (R106). -/
def execFft (fd : FreqSlot) (pa : PolySlot) (s : State) : Out :=
  ringCommand s ⟨.freq fd, false, [.poly pa]⟩ none
    (s.writeFreq fd (fwdFloatInt s.conf.log s.draw
      ((s.coefs pa).map (val s.conf.width s.conf.sgn)))).nextDraw

/-- `IFFT pd, fa` (R109). -/
def execIfft (pd : PolySlot) (fa : FreqSlot) (s : State) : Out :=
  ringCommand s ⟨.poly pd, false, [.freq fa]⟩ none
    (s.writePoly pd (storeAll s.conf.width (300 :: s.draw) 0
      (invFloatZ s.conf.log s.draw (s.lanes fa)))).nextDraw

end Sys2Proof.Machine
end

