-- ==== Sys2Proof/Machine/Pointwise.lean ====
section
/-! DEFINITION. The pointwise complex multiply-accumulator: FMUL and FMAC (R130, R131). -/

namespace Sys2Proof.Machine

/-- One `cmul` per lane; the head is lane `k`, which names the draw (R130). -/
def mulLanes (d : Draw) : (k : Nat) → List Cplx → List Cplx → List Cplx
  | k, a :: as, b :: bs => cmul (k :: d) a b :: mulLanes d (k + 1) as bs
  | _, _, _ => []

/-- One `cadd` of the old lane and the product per lane (R131). -/
def addLanes (d : Draw) : (k : Nat) → List Cplx → List Cplx → List Cplx
  | k, c :: cs, p :: ps => cadd (k :: d) c p :: addLanes d (k + 1) cs ps
  | _, _, _ => []

/-- The accumulated product of R131: the product formed and rounded, then added. -/
def macLanes (d : Draw) (c a b : List Cplx) : List Cplx :=
  addLanes (1 :: d) 0 c (mulLanes (0 :: d) 0 a b)

/-- `FMUL fd, fa, fb` (R130). -/
def execFmul (fd fa fb : FreqSlot) (s : State) : Out :=
  ringCommand s ⟨.freq fd, false, [.freq fa, .freq fb]⟩ none
    (s.writeFreq fd (mulLanes (0 :: s.draw) 0 (s.lanes fa) (s.lanes fb))).nextDraw

/-- `FMAC fd, fa, fb` (R131). -/
def execFmac (fd fa fb : FreqSlot) (s : State) : Out :=
  ringCommand s ⟨.freq fd, true, [.freq fa, .freq fb]⟩ none
    (s.writeFreq fd (macLanes s.draw (s.lanes fd) (s.lanes fa) (s.lanes fb))).nextDraw

end Sys2Proof.Machine
end

