-- ==== Sys2Proof/Machine/Splitting.lean ====
section
/-! DEFINITION. The Splitting Multiplier (R142 to R150): decomposition into limbs, transform,
convolution over limb indices, recombination by shift and add. -/

namespace Sys2Proof.Machine

/-! ## Decomposition -/

/-- `bal_b(r)`: the residue of r in [−2^(b−1), 2^(b−1)) (R144). -/
def bal (b : Nat) (r : Int) : Int :=
  (r + (2 ^ (b - 1) : Nat)) % (2 ^ b : Nat) - (2 ^ (b - 1) : Nat)

/-- Balanced digits: `lc` limbs of r, the last one not reduced (R144). -/
def balancedLimbs (b : Nat) : (lc : Nat) → (r : Int) → List Int
  | 0, _ => []
  | 1, r => [r]
  | lc + 2, r => bal b r :: balancedLimbs b (lc + 1) ((r - bal b r) / (2 ^ b : Nat))

/-- Mask and shift: limb k is (u >> k·b) mod 2^b (R143). -/
def unsignedLimbs (b lc u : Nat) : List Int :=
  (List.range lc).map fun k => ((u / 2 ^ (k * b) % 2 ^ b : Nat) : Int)

/-- The limbs of one coefficient pattern, by SGN (R143, R144). -/
def limbs (W : Nat) (sgn : Bool) (b lc : Nat) (c : Coef) : List Int :=
  if sgn then balancedLimbs b lc (sval W c) else unsignedLimbs b lc (uval c)

/-- The limb-polynomials A_0, …, A_(lc−1) of a Poly (R143). -/
def limbPolys (W : Nat) (sgn : Bool) (b lc : Nat) (a : List Coef) : List (List Int) :=
  (List.range lc).map fun k => a.map fun c => (limbs W sgn b lc c).getD k 0

/-! ## Transform and limb convolution -/

/-- Transform of every limb-polynomial (R145); the head is limb `u`, which names the draws. -/
def transformLimbs (logn : Nat) (d : Draw) : (u : Nat) → List (List Int) → List (List Cplx)
  | _, [] => []
  | u, A :: As => fwdFloatInt logn (u :: d) A :: transformLimbs logn d (u + 1) As

/-- The pairs (u, s − u) with u < lcA and s − u < lcB, u rising: the order in which R146 meets
them. -/
def slotPairs (lcA lcB slot : Nat) : List (Nat × Nat) :=
  ((List.range lcA).filter fun u => decide (u ≤ slot ∧ slot - u < lcB)).map fun u => (u, slot - u)

/-- Accumulator slot `slot`: the first pair's product, then each further pair accumulated (R146). -/
def accumulator (d : Draw) (FA FB : List (List Cplx)) (slot : Nat) : List Cplx :=
  match slotPairs FA.length FB.length slot with
  | [] => []
  | p :: ps =>
    ps.foldl (fun acc q => macLanes (q.1 :: q.2 :: d) acc (FA.getD q.1 []) (FB.getD q.2 []))
      (mulLanes (0 :: p.1 :: p.2 :: d) 0 (FA.getD p.1 []) (FB.getD p.2 []))

/-- `Rz[s]` for s = 0, …, lc + lcB − 2: the inverse transform of every accumulator (R147). -/
def recombineInputs (logn : Nat) (d : Draw) (FA FB : List (List Cplx)) : List (List (Option Int)) :=
  (List.range (FA.length + FB.length - 1)).map fun slot =>
    invFloatZ logn (slot :: 3 :: d) (accumulator (2 :: d) FA FB slot)

/-! ## Recombination -/

/-- `T[j] = Σ_s Rz[s][j]·2^(s·b)`, the head being slot `slot`; ⊥ if any term is (R147). -/
def slotSum (b j : Nat) : (slot : Nat) → List (List (Option Int)) → Option Int
  | _, [] => some 0
  | slot, R :: Rs =>
    match R.getD j none, slotSum b j (slot + 1) Rs with
    | some z, some t => some (z * (2 ^ (slot * b) : Nat) + t)
    | _, _ => none

/-- `prodw[j] = wrap_W(T[j])`, or `ANY_W` (R147). -/
def recombine (W b N : Nat) (d : Draw) (Rz : List (List (Option Int))) : List Coef :=
  (List.range N).map fun j => storeRounded W (j :: 4 :: d) (slotSum b j 0 Rz)

/-- The product under SPLIT; in a SHORT form the second operand is one limb, its `val` (R145, R150). -/
def splitProduct (c : Conf) (d : Draw) (short : Bool) (a q : List Coef) : List Coef :=
  let A := limbPolys c.width c.sgn c.limbBits.toNat c.limbCount.toNat a
  let B := if short then [q.map (val c.width c.sgn)]
    else limbPolys c.width c.sgn c.limbBits.toNat c.limbCount.toNat q
  recombine c.width c.limbBits.toNat c.degree d
    (recombineInputs c.log d (transformLimbs c.log (0 :: d) 0 A) (transformLimbs c.log (1 :: d) 0 B))

end Sys2Proof.Machine
end

