-- ==== Sys2Proof/Machine/Multiply.lean ====
section
/-! DEFINITION. Multiply: the dispatch between the strategies (R141) and the six MUL-family commands
(R152 to R159). -/

namespace Sys2Proof.Machine

/-- The effective strategy is KARA (R141): STRAT = KARA, or AUTO with N < KTHRESH. -/
def Conf.karaEffective (c : Conf) : Bool :=
  match c.strat with
  | .split => false
  | .kara => true
  | .auto => decide (c.degree < 2 ^ c.logKt.toNat)

/-- `prodw` by the effective strategy; SHORT is ignored under KARA (R141). -/
def product (c : Conf) (d : Draw) (short : Bool) (a q : List Coef) : List Coef :=
  if c.karaEffective then karaProduct c a q else splitProduct c d short a q

/-- ACC: how the product meets the destination (R74). -/
inductive Acc where
  /-- 0: overwrite -/
  | overwrite
  /-- 1: add into the destination -/
  | addInto
  /-- 2: subtract from the destination -/
  | subFrom
  deriving DecidableEq, Repr

/-- The destination variants of R148, in integer arithmetic modulo 2^W. -/
def combine (W : Nat) (acc : Acc) (old prodw : List Coef) : List Coef :=
  match acc with
  | .overwrite => prodw
  | .addInto => List.zipWith (addCoef W) old prodw
  | .subFrom => List.zipWith (subCoef W) old prodw

/-- A variant other than overwrite reads its destination (R30). -/
def Acc.readsDestination : Acc → Bool
  | .overwrite => false
  | .addInto => true
  | .subFrom => true

/-- What the six commands share (R159). -/
def mulCommand (acc : Acc) (short : Bool) (pd pa pb : PolySlot) (s : State) : Out :=
  ringCommand s ⟨.poly pd, acc.readsDestination, [.poly pa, .poly pb]⟩ none
    (s.writePoly pd (combine s.conf.width acc (s.coefs pd)
      (product s.conf s.draw short (s.coefs pa) (s.coefs pb)))).nextDraw

/-- `MUL pd, pa, pb` (R152). -/
def execMul (pd pa pb : PolySlot) (s : State) : Out := mulCommand .overwrite false pd pa pb s
/-- `MULADD pd, pa, pb` (R153). -/
def execMuladd (pd pa pb : PolySlot) (s : State) : Out := mulCommand .addInto false pd pa pb s
/-- `MULSUB pd, pa, pb` (R154). -/
def execMulsub (pd pa pb : PolySlot) (s : State) : Out := mulCommand .subFrom false pd pa pb s
/-- `MULS pd, pa, pb` (R155). -/
def execMuls (pd pa pb : PolySlot) (s : State) : Out := mulCommand .overwrite true pd pa pb s
/-- `MULSADD pd, pa, pb` (R156). -/
def execMulsadd (pd pa pb : PolySlot) (s : State) : Out := mulCommand .addInto true pd pa pb s
/-- `MULSSUB pd, pa, pb` (R157). -/
def execMulssub (pd pa pb : PolySlot) (s : State) : Out := mulCommand .subFrom true pd pa pb s

end Sys2Proof.Machine
end

