-- ==== Sys2Proof/Machine/Permute.lean ====
section
/-! DEFINITION. The index remapper: MONO, PERM, FPERM (R200 to R204). -/

namespace Sys2Proof.Machine

/-- Where a source coefficient goes: its destination index, and whether it is negated. -/
structure Target where
  /-- destination index -/
  index : Nat
  /-- written negated -/
  negate : Bool
  deriving DecidableEq, Repr

/-- The four cases of R200 for coefficient i, with r = d' mod N and band = ⌊d' / N⌋. -/
def monoTarget (N d i : Nat) : Target :=
  let t := i + d % N
  if d / N = 0 then
    if t < N then ⟨t, false⟩ else ⟨t - N, true⟩
  else
    if t < N then ⟨t, true⟩ else ⟨t - N, false⟩

/-- The image index of R201 for coefficient i: t = (d'·i) mod 2N. -/
def permTarget (N d i : Nat) : Target :=
  let t := d * i % (2 * N)
  if t < N then ⟨t, false⟩ else ⟨t - N, true⟩

/-- The value written for a source coefficient. -/
def signed (W : Nat) (negate : Bool) (c : Coef) : Coef := if negate then negCoef W c else c

/-- The loop of R200 and R201 over the source coefficients, the head being coefficient `i`: each is
written at its target in `dst`. -/
def scatter (W : Nat) (target : Nat → Target) : (i : Nat) → List Coef → (dst : List Coef) → List Coef
  | _, [], dst => dst
  | i, c :: cs, dst =>
    scatter W target (i + 1) cs (dst.set (target i).index (signed W (target i).negate c))

/-- The remapped coefficients: the loop of R200 or R201 over a fresh destination of N coefficients,
every one of which it writes. -/
def remap (W N : Nat) (target : Nat → Target) (a : List Coef) : List Coef :=
  scatter W target 0 a (List.replicate N 0)

/-- Lane k of FPERM, for any kind of lane and its conjugation (R202). -/
def permuteLanes {α : Type} (conj : α → α) (zero : α) (logn d : Nat) (c : List α) : List α :=
  (List.range (2 ^ (logn - 1))).map fun k =>
    let x := c.getD (PIDX logn d k) zero
    if PCONJ d then conj x else x

/-- `MONO pd, pa, #d` (R200). -/
def execMono (pd pa : PolySlot) (imm : BitVec 64) (s : State) : Out :=
  ringCommand s ⟨.poly pd, false, [.poly pa]⟩ (overlapError pd pa)
    (s.writePoly pd
      (remap s.conf.width s.conf.degree (monoTarget s.conf.degree (degreeOf s.conf.log imm)) (s.coefs pa)))

/-- `PERM pd, pa, #d` (R201). -/
def execPerm (pd pa : PolySlot) (imm : BitVec 64) (s : State) : Out :=
  ringCommand s ⟨.poly pd, false, [.poly pa]⟩ (automorphismError pd pa imm)
    (s.writePoly pd
      (remap s.conf.width s.conf.degree (permTarget s.conf.degree (degreeOf s.conf.log imm)) (s.coefs pa)))

/-- `FPERM fd, fa, #d` (R202). -/
def execFperm (fd fa : FreqSlot) (imm : BitVec 64) (s : State) : Out :=
  ringCommand s ⟨.freq fd, false, [.freq fa]⟩ (automorphismError fd fa imm)
    (s.writeFreq fd (permuteLanes cconj ⟨0, 0⟩ s.conf.log (degreeOf s.conf.log imm) (s.lanes fa)))

end Sys2Proof.Machine
end

