-- ==== Sys2Proof/Machine/Dispatch.lean ====
section
/-! DEFINITION. One arm per command, one direct call of its meaning. -/

namespace Sys2Proof.Machine

/-- The meaning of a command (R90 steps 4 to 7). -/
def exec (i : Instr) (s : State) : Host.Outcome State Fault Refusal :=
  match i with
  | .endCmd => Sys2Proof.Machine.execEnd s
  | .cfg logn wsel sgn strat lb lc kt => Sys2Proof.Machine.execCfg logn wsel sgn strat lb lc kt s
  | .fft fd pa => Sys2Proof.Machine.execFft fd pa s
  | .ifft pd fa => Sys2Proof.Machine.execIfft pd fa s
  | .fmul fd fa fb => Sys2Proof.Machine.execFmul fd fa fb s
  | .fmac fd fa fb => Sys2Proof.Machine.execFmac fd fa fb s
  | .mul pd pa pb => Sys2Proof.Machine.execMul pd pa pb s
  | .muladd pd pa pb => Sys2Proof.Machine.execMuladd pd pa pb s
  | .mulsub pd pa pb => Sys2Proof.Machine.execMulsub pd pa pb s
  | .muls pd pa pb => Sys2Proof.Machine.execMuls pd pa pb s
  | .mulsadd pd pa pb => Sys2Proof.Machine.execMulsadd pd pa pb s
  | .mulssub pd pa pb => Sys2Proof.Machine.execMulssub pd pa pb s
  | .padd pd pa pb => Sys2Proof.Machine.execPadd pd pa pb s
  | .psub pd pa pb => Sys2Proof.Machine.execPsub pd pa pb s
  | .pneg pd pa => Sys2Proof.Machine.execPneg pd pa s
  | .pscl pd pa imm => Sys2Proof.Machine.execPscl pd pa imm s
  | .mono pd pa imm => Sys2Proof.Machine.execMono pd pa imm s
  | .perm pd pa imm => Sys2Proof.Machine.execPerm pd pa imm s
  | .fperm fd fa imm => Sys2Proof.Machine.execFperm fd fa imm s

end Sys2Proof.Machine
end

