-- ==== Sys2Proof/WellFormed.lean ====
section
/-! DEFINITION. Which terms of `Instr` are commands of R75. Every operand field of a constructor has
exactly the width its encoding has, so the one check left is the reserved strategy of CFG. -/

namespace Sys2Proof

/-- STRAT = 3 is reserved (R73, R76(d)); every other operand value is legal as an encoding (R77). -/
def Instr.wellFormed : Instr → Bool
  | .cfg _ _ _ strat _ _ _ => strat != 3
  | .endCmd | .fft .. | .ifft .. | .fmul .. | .fmac .. | .mul .. | .muladd .. | .mulsub ..
  | .muls .. | .mulsadd .. | .mulssub .. | .padd .. | .psub .. | .pneg .. | .pscl .. | .mono ..
  | .perm .. | .fperm .. => true

end Sys2Proof
end

