-- ==== Sys2Proof/Decode.lean ====
section
/-! DEFINITION. Decoding: total on 128-bit words and dependent on no state (R77); the encoder written
from the same field table (R70 to R75); the opcode table of R75 as data. -/

namespace Sys2Proof

/-- Why a word is an illegal encoding: clauses (a) to (e) of R76. -/
inductive DecodeError where
  /-- R76(a): OPC is not assigned -/
  | unassignedOpcode
  /-- R76(b): RSV ≠ 0 -/
  | reservedBits
  /-- R76(c): a field the format does not use is not zero -/
  | unusedField
  /-- R76(d): CFG with STRAT = 3 -/
  | reservedStrategy
  /-- R76(e): MUL family with ACC = 3 or MOD[7:3] ≠ 0 -/
  | reservedModifier
  deriving DecidableEq, Repr

/-! ## Fields (R70) -/

/-- OPC, bits 7:0. -/
def opcField (w : Command) : BitVec 8 := w.extractLsb' 0 8
/-- MOD, bits 15:8. -/
def modField (w : Command) : BitVec 8 := w.extractLsb' 8 8
/-- RD, bits 23:16. -/
def rdField (w : Command) : BitVec 8 := w.extractLsb' 16 8
/-- RA, bits 31:24. -/
def raField (w : Command) : BitVec 8 := w.extractLsb' 24 8
/-- RB, bits 39:32. -/
def rbField (w : Command) : BitVec 8 := w.extractLsb' 32 8
/-- RSV, bits 63:40. -/
def rsvField (w : Command) : BitVec 24 := w.extractLsb' 40 24
/-- IMM, bits 127:64. -/
def immField (w : Command) : BitVec 64 := w.extractLsb' 64 64

/-- A word from its fields, RSV = 0 (R70). -/
def packWord (imm : BitVec 64) (rb ra rd mod opc : BitVec 8) : Command :=
  imm ++ (0 : BitVec 24) ++ rb ++ ra ++ rd ++ mod ++ opc

/-! ## Decoding -/

/-- `R76(c)`: reject when a field the format does not use is not zero. -/
def ifUnusedZero (unusedZero : Bool) (i : Except DecodeError Instr) : Except DecodeError Instr :=
  if unusedZero then i else .error .unusedField

/-- Format C (R71, R73), with clause (d) of R76. -/
def decodeCfg (w : Command) : Except DecodeError Instr :=
  let m := modField w
  let imm := immField w
  ifUnusedZero (m.extractLsb' 5 3 == 0 && rdField w == 0 && raField w == 0 && rbField w == 0
      && imm.extractLsb' 6 2 == 0 && imm.extractLsb' 15 1 == 0 && imm.extractLsb' 30 34 == 0)
    (if m.extractLsb' 3 2 = 3 then .error .reservedStrategy
     else .ok (.cfg (imm.extractLsb' 0 6) (m.extractLsb' 0 2) (m.getLsbD 2) (m.extractLsb' 3 2)
       (imm.extractLsb' 8 7) (imm.extractLsb' 16 8) (imm.extractLsb' 24 6)))

/-- OPC 0x20: the modifier selects the variant (R74), with clause (e) of R76. -/
def decodeMul (w : Command) : Except DecodeError Instr :=
  ifUnusedZero (immField w == 0) <|
    let d := rdField w
    let a := raField w
    let b := rbField w
    match (modField w).toNat with
    | 0 => .ok (.mul d a b)
    | 1 => .ok (.muladd d a b)
    | 2 => .ok (.mulsub d a b)
    | 4 => .ok (.muls d a b)
    | 5 => .ok (.mulsadd d a b)
    | 6 => .ok (.mulssub d a b)
    | _ => .error .reservedModifier

/-- Format R3 without a modifier (R71). -/
def decodeR3 (w : Command) (i : BitVec 8 → BitVec 8 → BitVec 8 → Instr) : Except DecodeError Instr :=
  ifUnusedZero (modField w == 0 && immField w == 0) (.ok (i (rdField w) (raField w) (rbField w)))

/-- Format R2 (R71). -/
def decodeR2 (w : Command) (i : BitVec 8 → BitVec 8 → Instr) : Except DecodeError Instr :=
  ifUnusedZero (modField w == 0 && rbField w == 0 && immField w == 0) (.ok (i (rdField w) (raField w)))

/-- Format RI (R71). -/
def decodeRI (w : Command) (i : BitVec 8 → BitVec 8 → BitVec 64 → Instr) : Except DecodeError Instr :=
  ifUnusedZero (modField w == 0 && rbField w == 0) (.ok (i (rdField w) (raField w) (immField w)))

/-- The decoder of R77: one row of R75 with its operands, or the clause of R76 that the word breaks.
Clause (a) is tested first, then (b), (c), (d), (e). -/
def decode (w : Command) : Except DecodeError Instr :=
  let body : Option (Except DecodeError Instr) :=
    match (opcField w).toNat with
    | 0x00 => some (ifUnusedZero (modField w == 0 && rdField w == 0 && raField w == 0
        && rbField w == 0 && immField w == 0) (.ok .endCmd))
    | 0x01 => some (decodeCfg w)
    | 0x10 => some (decodeR2 w .fft)
    | 0x11 => some (decodeR2 w .ifft)
    | 0x18 => some (decodeR3 w .fmul)
    | 0x19 => some (decodeR3 w .fmac)
    | 0x20 => some (decodeMul w)
    | 0x30 => some (decodeR3 w .padd)
    | 0x31 => some (decodeR3 w .psub)
    | 0x32 => some (decodeR2 w .pneg)
    | 0x33 => some (decodeRI w .pscl)
    | 0x40 => some (decodeRI w .mono)
    | 0x41 => some (decodeRI w .perm)
    | 0x42 => some (decodeRI w .fperm)
    | _ => none
  match body with
  | none => .error .unassignedOpcode
  | some r => if rsvField w = 0 then r else .error .reservedBits

/-! ## Encoding -/

/-- MOD of a CFG command (R73). -/
def cfgMod (wsel : BitVec 2) (sgn : Bool) (strat : BitVec 2) : BitVec 8 :=
  (0 : BitVec 3) ++ strat ++ BitVec.ofBool sgn ++ wsel

/-- IMM of a CFG command (R73). -/
def cfgImm (logn : BitVec 6) (limbBits : BitVec 7) (limbCount : BitVec 8) (logKt : BitVec 6) : BitVec 64 :=
  (0 : BitVec 34) ++ logKt ++ limbCount ++ (0 : BitVec 1) ++ limbBits ++ (0 : BitVec 2) ++ logn

/-- The word of a command (R75); unused fields are zero (R71). -/
def encode : Instr → Command
  | .endCmd => packWord 0 0 0 0 0 0x00
  | .cfg logn wsel sgn strat lb lc kt => packWord (cfgImm logn lb lc kt) 0 0 0 (cfgMod wsel sgn strat) 0x01
  | .fft d a => packWord 0 0 a d 0 0x10
  | .ifft d a => packWord 0 0 a d 0 0x11
  | .fmul d a b => packWord 0 b a d 0 0x18
  | .fmac d a b => packWord 0 b a d 0 0x19
  | .mul d a b => packWord 0 b a d 0 0x20
  | .muladd d a b => packWord 0 b a d 1 0x20
  | .mulsub d a b => packWord 0 b a d 2 0x20
  | .muls d a b => packWord 0 b a d 4 0x20
  | .mulsadd d a b => packWord 0 b a d 5 0x20
  | .mulssub d a b => packWord 0 b a d 6 0x20
  | .padd d a b => packWord 0 b a d 0 0x30
  | .psub d a b => packWord 0 b a d 0 0x31
  | .pneg d a => packWord 0 0 a d 0 0x32
  | .pscl d a imm => packWord imm 0 a d 0 0x33
  | .mono d a imm => packWord imm 0 a d 0 0x40
  | .perm d a imm => packWord imm 0 a d 0 0x41
  | .fperm d a imm => packWord imm 0 a d 0 0x42

/-! ## The opcode table (R75) -/

/-- One row of R75: a word w is the row's command iff w AND mask = match (clause (d) of R76 apart). -/
structure OpcodeRow where
  /-- the row's mnemonic -/
  mnemonic : String
  /-- the bits the mask fixes -/
  pattern : Command
  /-- the bits that are fixed -/
  mask : Command
  deriving DecidableEq, Repr

/-- The word matches the row. -/
def OpcodeRow.matchesWord (r : OpcodeRow) (w : Command) : Bool := w &&& r.mask == r.pattern

/-- The mask of the R3 rows. -/
def maskR3 : Command := 0xFFFFFFFFFFFFFFFFFFFFFF000000FFFF
/-- The mask of the R2 rows. -/
def maskR2 : Command := 0xFFFFFFFFFFFFFFFFFFFFFFFF0000FFFF
/-- The mask of the RI rows. -/
def maskRI : Command := 0x0000000000000000FFFFFFFF0000FFFF

/-- The nineteen rows of R75. -/
def opcodeTable : List OpcodeRow :=
  [⟨"END", 0x00, 0xFFFFFFFFFFFFFFFFFFFFFFFFFFFFFFFF⟩, ⟨"CFG", 0x01, 0xFFFFFFFFC00080C0FFFFFFFFFFFFE0FF⟩,
   ⟨"FFT", 0x10, maskR2⟩, ⟨"IFFT", 0x11, maskR2⟩, ⟨"FMUL", 0x18, maskR3⟩, ⟨"FMAC", 0x19, maskR3⟩,
   ⟨"MUL", 0x020, maskR3⟩, ⟨"MULADD", 0x120, maskR3⟩, ⟨"MULSUB", 0x220, maskR3⟩,
   ⟨"MULS", 0x420, maskR3⟩] ++
  [⟨"MULSADD", 0x520, maskR3⟩, ⟨"MULSSUB", 0x620, maskR3⟩, ⟨"PADD", 0x30, maskR3⟩,
   ⟨"PSUB", 0x31, maskR3⟩, ⟨"PNEG", 0x32, maskR2⟩, ⟨"PSCL", 0x33, maskRI⟩, ⟨"MONO", 0x40, maskRI⟩,
   ⟨"PERM", 0x41, maskRI⟩, ⟨"FPERM", 0x42, maskRI⟩]

/-- The mnemonic of a command (R75). -/
def Instr.mnemonic : Instr → String
  | .endCmd => "END" | .cfg .. => "CFG" | .fft .. => "FFT" | .ifft .. => "IFFT" | .fmul .. => "FMUL"
  | .fmac .. => "FMAC" | .mul .. => "MUL" | .muladd .. => "MULADD" | .mulsub .. => "MULSUB"
  | .muls .. => "MULS" | .mulsadd .. => "MULSADD" | .mulssub .. => "MULSSUB" | .padd .. => "PADD"
  | .psub .. => "PSUB" | .pneg .. => "PNEG" | .pscl .. => "PSCL" | .mono .. => "MONO"
  | .perm .. => "PERM" | .fperm .. => "FPERM"

/-- The host's reading of one table word: the low `nbits` bits of `w`, the rest zero, decoded. -/
def decodeTableWord (nbits w : Nat) : Option Instr :=
  match decode (BitVec.ofNat 128 (w % 2 ^ nbits)) with
  | .ok i => some i
  | .error _ => none

end Sys2Proof
end

