-- ==== Sys2Proof/Machine/Fetch.lean ====
section
/-! DEFINITION. Fetching a command (R90 steps 1 to 3): the entry at CP, decoded. -/

namespace Sys2Proof.Machine

/-- What steps 1 to 3 of R90 find. -/
inductive Fetched where
  /-- a command -/
  | command (i : Instr)
  /-- `IllegalCommand`: CP ≥ NCMD, or an illegal encoding -/
  | illegal
  /-- an entry never written since reset (U6) -/
  | unwritten
  deriving DecidableEq, Repr

/-- The command at CP (R90 steps 1 to 3, R222(1)). -/
def State.fetch (s : State) : Fetched :=
  if s.cp.toNat < s.caps.ncmd then
    match s.cmd.read s.cp.toNat with
    | none => .unwritten
    | some w =>
      match decode w with
      | .ok i => .command i
      | .error _ => .illegal
  else .illegal

/-- The state with the word `w` where the engine's next step fetches, and that step the next move:
the engine BUSY, CP inside command memory, no environment move pending. -/
def State.place (s : State) (w : Command) : State :=
  let cp : BitVec 32 := if s.cp.toNat < s.caps.ncmd then s.cp else 0
  { s with cmd := s.cmd.write cp.toNat w, cp := cp, runstate := .busy, turns := [] }

end Sys2Proof.Machine
end

