-- ==== Sys2Proof/Machine/Flags.lean ====
section
/-! DEFINITION. The engine has no condition codes (R31). What it reports instead are the control and
status registers of R28: their words, as the host reads them. -/

namespace Sys2Proof.Machine

/-- RUNSTATE as a number (R27). -/
def RunState.code : RunState → Nat
  | .idle => 0
  | .busy => 1
  | .done => 2
  | .err => 3

/-- ERRCODE as a number (R220). -/
def ErrCode.code : ErrCode → Nat
  | .none => 0
  | .configError => 1
  | .degreeMismatch => 2
  | .invalidDegree => 3
  | .overlap => 4
  | .illegalCommand => 5
  | .notConfigured => 6
  | .badSlot => 7

/-- STRAT as a number (R21). -/
def Strat.code : Strat → Nat
  | .auto => 0
  | .split => 1
  | .kara => 2

/-- CSR 1, STATUS: RUNSTATE at 1:0, ERRCODE at 15:8 (R28). -/
def State.statusWord (s : State) : BitVec 64 :=
  BitVec.ofNat 64 (s.runstate.code + s.errcode.code * 2 ^ 8)

/-- CSR 3, CONFIG (R28). -/
def Conf.word (c : Conf) : BitVec 64 :=
  BitVec.ofNat 64 (c.cfgd.toNat + c.logn.toNat * 2 ^ 1 + c.wsel.toNat * 2 ^ 7 + c.sgn.toNat * 2 ^ 9
    + c.strat.code * 2 ^ 10 + c.limbBits.toNat * 2 ^ 12 + c.limbCount.toNat * 2 ^ 19
    + c.logKt.toNat * 2 ^ 27)

/-- CSR 4, CAPS (R28). -/
def Caps.word (k : Caps) : BitVec 64 :=
  BitVec.ofNat 64 (k.np % 2 ^ 9 + k.nf % 2 ^ 9 * 2 ^ 9 + k.minLogn % 2 ^ 6 * 2 ^ 18
    + k.maxLogn % 2 ^ 6 * 2 ^ 24 + k.ncmd % 2 ^ 32 * 2 ^ 30)

/-- What a host read of CSR number r returns: CTRL reads 0, numbers 5 and above do not exist and
read 0 (R28). -/
def State.csrWord (s : State) (r : Nat) : BitVec 64 :=
  match r with
  | 1 => s.statusWord
  | 2 => s.cp.setWidth 64
  | 3 => s.conf.word
  | 4 => s.caps.word
  | _ => 0

end Sys2Proof.Machine
end

