-- ==== Sys2Proof/Machine/HostPort.lean ====
section
/-! DEFINITION. The host agent's accesses (R51 to R54), each one atomic step (R57). -/

namespace Sys2Proof.Machine

/-! ## TAG space (R51, R52) -/

/-- The slot a TAG address names: t < NP is PTAG[t], 256 ≤ t < 256 + NF is FTAG[t − 256] (R50). -/
def State.tagSlot (s : State) (t : Nat) : Option Slot :=
  if t < s.caps.np ∧ t < 256 then some (.poly (BitVec.ofNat 8 t))
  else if 256 ≤ t ∧ t - 256 < s.caps.nf ∧ t - 256 < 256 then some (.freq (BitVec.ofNat 8 (t - 256)))
  else none

/-- The 7-bit tag `{logn, valid}` of a slot (R50); (0, 0) when it is not allocated. -/
def State.tagWord (s : State) (x : Slot) : BitVec 7 :=
  match s.tagLogn x with
  | some l => l ++ (1 : BitVec 1)
  | none => 0

/-- Allocation zero-fills, also a slot that was allocated before (R51, R52). -/
def State.allocate (s : State) (x : Slot) (logn : BitVec 6) : State :=
  match x with
  | .poly n => { s with polys := s.polys.write n.toNat ⟨logn, List.replicate (2 ^ logn.toNat) 0⟩ }
  | .freq n => { s with freqs := s.freqs.write n.toNat ⟨logn, List.replicate (2 ^ (logn.toNat - 1)) ⟨0, 0⟩⟩ }

/-- Freeing: the tag becomes (0, 0) and the content is lost (R51, R52). -/
def State.release (s : State) (x : Slot) : State :=
  match x with
  | .poly n => { s with polys := s.polys.free n.toNat }
  | .freq n => { s with freqs := s.freqs.free n.toNat }

/-- `MemWrite(TAG, t, 7, v)`: bit 0 set allocates, bit 0 clear frees; ignored where R51 says so. -/
def State.writeTag (s : State) (t : Nat) (v : BitVec 7) : State :=
  match s.tagSlot t with
  | none => s
  | some x =>
    if v.getLsbD 0 then
      let logn : BitVec 6 := v.extractLsb' 1 6
      if s.conf.cfgd ∧ s.caps.minLogn ≤ logn.toNat ∧ logn.toNat ≤ s.caps.maxLogn then s.allocate x logn
      else s
    else s.release x

/-! ## POLY and FREQ spaces (R51, R52) -/

/-- The flat address s × 2^MAX_LOGN + j of element j of slot s (R50). -/
def Caps.flatAddress (k : Caps) (slot j : Nat) : Nat := slot * 2 ^ k.maxLogn + j

/-- The slot that a flat address names (R50). -/
def Caps.flatSlot (k : Caps) (a : Nat) : Nat := a / 2 ^ k.maxLogn

/-- The element of its slot that a flat address names (R50). -/
def Caps.flatIndex (k : Caps) (a : Nat) : Nat := a % 2 ^ k.maxLogn

/-- `HostWriteCoef(s, j, v)`: `P[s][j] <- v[W−1:0]`; ignored outside a valid slot's length. -/
def State.writeCoef (s : State) (slot j : Nat) (v : BitVec 64) : State :=
  match s.polys.read slot with
  | some p =>
    if slot < s.caps.np ∧ j < 2 ^ p.logn.toNat then
      { s with polys := s.polys.write slot { p with coefs := p.coefs.set j (wrap s.conf.width v.toNat) } }
    else s
  | none => s

/-- `HostReadCoef(s, j)`. -/
def State.readCoef (s : State) (slot j : Nat) : Option Coef :=
  match s.polys.read slot with
  | some p => if slot < s.caps.np ∧ j < 2 ^ p.logn.toNat then p.coefs[j]? else none
  | none => none

/-- A lane with one of its two elements replaced: even elements are real parts (R52). -/
def setElement (c : Cplx) (e : Nat) (v : F64) : Cplx := if e % 2 = 0 then ⟨v, c.im⟩ else ⟨c.re, v⟩

/-- One of the two elements of a lane (R52). -/
def getElement (c : Cplx) (e : Nat) : F64 := if e % 2 = 0 then c.re else c.im

/-- `HostWriteLane(s, e, v)`: element e of the interleaved lanes; ignored outside a valid slot. -/
def State.writeLane (s : State) (slot e : Nat) (v : F64) : State :=
  match s.freqs.read slot with
  | some f =>
    if slot < s.caps.nf ∧ e < 2 ^ f.logn.toNat then
      { s with freqs := s.freqs.write slot { f with lanes := f.lanes.modify (e / 2) (setElement · e v) } }
    else s
  | none => s

/-- `HostReadLane(s, e)`: the stored pattern exactly. -/
def State.readLane (s : State) (slot e : Nat) : Option F64 :=
  match s.freqs.read slot with
  | some f => if slot < s.caps.nf ∧ e < 2 ^ f.logn.toNat then f.lanes[e / 2]?.map (getElement · e) else none
  | none => none

/-! ## CMD and CSR spaces (R53, R54) -/

/-- `MemWrite(CMD, a, 128, w)`; ignored at a ≥ NCMD (R53). -/
def State.writeCmd (s : State) (a : Nat) (w : Command) : State :=
  if a < s.caps.ncmd then { s with cmd := s.cmd.write a w } else s

/-- `MemRead(CMD, a, 128)`: no specified value for an entry never written; 0 at a ≥ NCMD (R53). -/
def State.readCmd (s : State) (a : Nat) : Option Command :=
  if a < s.caps.ncmd then s.cmd.read a else some 0

/-- `MemWrite(CSR, r, 64, v)` (R28): CTRL resets or starts, SRST before GO; CP is stored unless BUSY;
every other write is ignored. -/
def State.writeCsr (s : State) (r : Nat) (v : BitVec 64) : State :=
  match r with
  | 0 => if v.getLsbD 1 then s.softReset else if v.getLsbD 0 then s.go else s
  | 2 => if s.runstate = .busy then s else { s with cp := v.extractLsb' 0 32 }
  | _ => s

/-! ## One access -/

/-- The accesses the host may make while the engine is BUSY: reads of STATUS and CP, writes of CTRL
(R62), and a write of CP, which is ignored (R28). -/
def HostOp.allowedWhileBusy : HostOp → Bool
  | .readCsr r => r == 1 || r == 2
  | .writeCsr r _ => r == 0 || r == 2
  | .readCmd _ | .writeCmd .. | .readCoef .. | .writeCoef .. | .readLane .. | .writeLane ..
  | .readPoly _ | .writePoly .. | .readFreq _ | .writeFreq .. | .readTag _ | .writeTag .. => false

/-- A read's answer goes to the host, zero-extended; a read with no specified value is refused (U5). -/
def State.answer {w : Nat} (s : State) : Option (BitVec w) → Out
  | some v => .next { s with hostData := v.setWidth 128 }
  | none => .refused .hostReadUnspecified

/-- The effect of one host access while the engine is not BUSY, or one that R62 allows. -/
def hostEffect (op : HostOp) (s : State) : Out :=
  match op with
  | .readCmd a => s.answer (s.readCmd a)
  | .writeCmd a w => .next (s.writeCmd a w)
  | .readCoef slot j => s.answer (s.readCoef slot j)
  | .writeCoef slot j v => .next (s.writeCoef slot j v)
  | .readLane slot e => s.answer (s.readLane slot e)
  | .writeLane slot e v => .next (s.writeLane slot e v)
  | .readPoly a => s.answer (s.readCoef (s.caps.flatSlot a) (s.caps.flatIndex a))
  | .writePoly a v => .next (s.writeCoef (s.caps.flatSlot a) (s.caps.flatIndex a) v)
  | .readFreq a => s.answer (s.readLane (s.caps.flatSlot a) (s.caps.flatIndex a))
  | .writeFreq a v => .next (s.writeLane (s.caps.flatSlot a) (s.caps.flatIndex a) v)
  | .readTag t => s.answer ((s.tagSlot t).map s.tagWord)
  | .writeTag t v => .next (s.writeTag t v)
  | .readCsr r => s.answer (some (s.csrWord r))
  | .writeCsr r v => .next (s.writeCsr r v)

/-- One host access (R51 to R54, R62). Once the engine is not BUSY the host reads what the commands wrote at
once, whether or not it has read STATUS since the stop: R60 promises it from that STATUS read on only.
DESIGN CHOICE, log entry 23. -/
def hostAccess (op : HostOp) (s : State) : Out :=
  if s.runstate = .busy ∧ op.allowedWhileBusy = false then .refused .hostAccessWhileBusy
  else hostEffect op s

end Sys2Proof.Machine
end

