-- ==== Sys2Proof/Machine/Step.lean ====
section
/-! DEFINITION. One step of the machine: the engine's step of R90, or a move of its environment. -/

namespace Sys2Proof.Machine

/-- The engine's step (R90): only while BUSY; in every other run state it does nothing. -/
def engineStep (s : State) : Out :=
  match s.runstate with
  | .busy =>
    match s.fetch with
    | .command i => exec i s
    | .illegal => .next (s.raise .illegalCommand)
    | .unwritten => .fault .unwrittenCommand
  | .idle | .done | .err => .next s

/-- One step: the next move of `turns`, or the engine's when none is pending (R20, log entry 2). -/
def step (s : State) : Host.Outcome State Fault Refusal :=
  match s.turns with
  | [] => engineStep s
  | .engine :: rest => engineStep { s with turns := rest }
  | .host op :: rest => hostAccess op { s with turns := rest }
  | .hardReset :: rest => .next { s with turns := rest }.hardReset

/-- The host's placing of one table word: see `State.place`. -/
def State.withFetchWord (s : State) (nbits w : Nat) : State := s.place (BitVec.ofNat 128 (w % 2 ^ nbits))

end Sys2Proof.Machine
end

