-- ==== Sys2Proof/Safety.lean ====
section
/-! DEFINITION. What claims are stated in: the legal states, the conditions and causes of the rules, what
a command leaves unchanged, and references for its results (sums, index by index loops, real values),
written from the rules apart from the meanings. -/

namespace Sys2Proof

open Machine

/-! ## Commands as syntax: their operands, and the causes that lie in their fields -/

/-- The slot operands of a ring command (R71, R75, R30); CFG and END have none. -/
def Instr.operands : Instr → Option Operands
  | .endCmd | .cfg .. => none
  | .fft fd pa => some ⟨.freq fd, false, [.poly pa]⟩
  | .ifft pd fa => some ⟨.poly pd, false, [.freq fa]⟩
  | .fmul fd fa fb => some ⟨.freq fd, false, [.freq fa, .freq fb]⟩
  | .fmac fd fa fb => some ⟨.freq fd, true, [.freq fa, .freq fb]⟩
  | .mul pd pa pb | .muls pd pa pb | .padd pd pa pb | .psub pd pa pb =>
    some ⟨.poly pd, false, [.poly pa, .poly pb]⟩
  | .muladd pd pa pb | .mulsub pd pa pb | .mulsadd pd pa pb | .mulssub pd pa pb =>
    some ⟨.poly pd, true, [.poly pa, .poly pb]⟩
  | .pneg pd pa | .pscl pd pa _ | .mono pd pa _ | .perm pd pa _ => some ⟨.poly pd, false, [.poly pa]⟩
  | .fperm fd fa _ => some ⟨.freq fd, false, [.freq fa]⟩

/-- The cause of `InvalidDegree` (R221): the degree immediate of PERM or FPERM is even. -/
def Instr.InvalidDegreeCause : Instr → Prop
  | .perm _ _ imm | .fperm _ _ imm => imm.getLsbD 0 = false
  | .endCmd | .cfg .. | .fft .. | .ifft .. | .fmul .. | .fmac .. | .mul .. | .muladd .. | .mulsub ..
  | .muls .. | .mulsadd .. | .mulssub .. | .padd .. | .psub .. | .pneg .. | .pscl .. | .mono .. => False

/-- The cause of `Overlap` (R221): RD = RA in MONO, PERM or FPERM. -/
def Instr.OverlapCause : Instr → Prop
  | .mono pd pa _ | .perm pd pa _ => pd = pa
  | .fperm fd fa _ => fd = fa
  | .endCmd | .cfg .. | .fft .. | .ifft .. | .fmul .. | .fmac .. | .mul .. | .muladd .. | .mulsub ..
  | .muls .. | .mulsadd .. | .mulssub .. | .padd .. | .psub .. | .pneg .. | .pscl .. => False

end Sys2Proof

namespace Sys2Proof.Machine

/-! ## Legal states -/

/-- The OPEN sizes have legal values (R6). -/
def Caps.legal (k : Caps) : Bool :=
  decide (1 ≤ k.np ∧ k.np ≤ 256 ∧ 1 ≤ k.nf ∧ k.nf ≤ 256 ∧ 1 ≤ k.minLogn ∧ k.minLogn ≤ 3
    ∧ 3 ≤ k.maxLogn ∧ k.maxLogn ≤ 62 ∧ 1 ≤ k.ncmd ∧ k.ncmd < 2 ^ 32)

/-- The configuration registers hold reset values while CFGD = 0 (R32), and otherwise fields that
pass the checks of R91. -/
def Conf.legal (k : Caps) (c : Conf) : Bool :=
  if c.cfgd then !configError k c.logn c.wsel c.limbBits c.limbCount c.logKt else c == Conf.reset

/-- A legal degree, as many coefficients as the degree says, each a W-bit pattern (R22, R51). -/
def Poly.legal (k : Caps) (W : Nat) (p : Poly) : Bool :=
  decide (k.minLogn ≤ p.logn.toNat ∧ p.logn.toNat ≤ k.maxLogn ∧ p.coefs.length = 2 ^ p.logn.toNat)
    && p.coefs.all fun c => decide (c.toNat < 2 ^ W)

/-- A legal degree, and half as many lanes as the degree says (R24, R52). -/
def FreqPoly.legal (k : Caps) (f : FreqPoly) : Bool :=
  decide (k.minLogn ≤ f.logn.toNat ∧ f.logn.toNat ≤ k.maxLogn
    ∧ f.lanes.length = 2 ^ (f.logn.toNat - 1))

/-- The states the engine can be in: the premise of the statements that hold of no other state. -/
structure State.Inv (s : State) : Prop where
  /-- the sizes are legal (R6) -/
  capsLegal : s.caps.legal = true
  /-- the configuration is legal (R21) -/
  confLegal : s.conf.legal s.caps = true
  /-- an unconfigured engine holds no slot (R32, R51) -/
  unconfigured : s.conf.cfgd = false → s.polys = [] ∧ s.freqs = []
  /-- each space is in canonical form (log entry 17) -/
  wf : s.cmd.wf = true ∧ s.polys.wf = true ∧ s.freqs.wf = true
  /-- no command lies beyond NCMD (R53) -/
  cmdInRange : (s.cmd.all fun e => decide (e.1 < s.caps.ncmd)) = true
  /-- every allocated Poly slot is one of the NP slots and holds a legal Poly (R22) -/
  polysLegal : (s.polys.all fun e => decide (e.1 < s.caps.np) && e.2.legal s.caps s.conf.width) = true
  /-- every allocated FrequencyPoly slot is one of the NF slots and holds a legal one (R24) -/
  freqsLegal : (s.freqs.all fun e => decide (e.1 < s.caps.nf) && e.2.legal s.caps) = true
  /-- ERRCODE is 0 in every run state but ERR, where it is not (R27) -/
  errState : (s.runstate = .err) = (s.errcode ≠ ErrCode.none)

/-! ## Operands of the commands, and the conditions under which they complete -/

/-- The slot exists and its tag is (1, LOGN): what a command that reads it needs (R221). -/
def State.holds (s : State) (x : Slot) : Bool := s.slotExists x && s.tagLogn x == some s.conf.logn

/-- The slot exists and its tag is not valid, or (1, LOGN): what a command that only writes it needs. -/
def State.takes (s : State) (x : Slot) : Bool :=
  s.slotExists x && (s.tagLogn x == none || s.tagLogn x == some s.conf.logn)

/-- None of `NotConfigured`, `BadSlot` and `DegreeMismatch` arises (R221). -/
def State.ready (s : State) (o : Operands) : Bool :=
  s.conf.cfgd && (if o.readsRd then s.holds o.rd else s.takes o.rd) && o.srcs.all s.holds

/-- The cause of `BadSlot` (R221). -/
def State.BadSlotCause (s : State) (o : Operands) : Prop :=
  s.slotExists o.rd = false ∨ (o.readsRd = true ∧ s.tagLogn o.rd = none)
    ∨ ∃ x ∈ o.srcs, s.slotExists x = false ∨ s.tagLogn x = none

/-- The cause of `DegreeMismatch` (R221). -/
def State.DegreeMismatchCause (s : State) (o : Operands) : Prop :=
  ∃ x ∈ o.rd :: o.srcs, ∃ l, s.tagLogn x = some l ∧ l ≠ s.conf.logn

/-- The illegal encodings, clause by clause (R76), from the bits of the word. -/
def IllegalEncoding (w : Command) : Prop :=
  let opc := (w.extractLsb' 0 8).toNat
  let used (lo len : Nat) := w.extractLsb' lo len ≠ 0
  opc ∉ [0x00, 0x01, 0x10, 0x11, 0x18, 0x19, 0x20, 0x30, 0x31, 0x32, 0x33, 0x40, 0x41, 0x42]
  ∨ used 40 24
  ∨ (opc = 0x00 ∧ (used 8 32 ∨ used 64 64))
  ∨ (opc = 0x01 ∧ (used 13 3 ∨ used 16 24 ∨ used 70 2 ∨ used 79 1 ∨ used 94 34))
  ∨ (opc ∈ [0x18, 0x19, 0x30, 0x31] ∧ (used 8 8 ∨ used 64 64))
  ∨ (opc ∈ [0x10, 0x11, 0x32] ∧ (used 8 8 ∨ used 32 8 ∨ used 64 64))
  ∨ (opc ∈ [0x33, 0x40, 0x41, 0x42] ∧ (used 8 8 ∨ used 32 8))
  ∨ (opc = 0x20 ∧ used 64 64)
  ∨ (opc = 0x01 ∧ (w.extractLsb' 11 2).toNat = 3)
  ∨ (opc = 0x20 ∧ ((w.extractLsb' 8 2).toNat = 3 ∨ used 11 5))

/-! ## What a completed command writes, and what it leaves -/

/-- `t` is `s` after a command that wrote the Poly slot `pd`: the slot's tag is (1, LOGN) and its
coefficient j is `f j` for every j < N; every other slot reads as before; CP has advanced by one; nothing
else has changed, the model's own draw counter apart. -/
structure PolyWritten (s t : State) (pd : PolySlot) (f : Nat → Coef) : Prop where
  /-- everything but the Poly slots, CP and the draw counter is as before -/
  frame : t = { s with polys := t.polys, cp := s.cp + 1, draws := t.draws }
  /-- every other Poly slot is as before -/
  others : ∀ k, k ≠ pd.toNat → t.polys.read k = s.polys.read k
  /-- the destination -/
  written : t.polys.read pd.toNat = some ⟨s.conf.logn, (List.range s.conf.degree).map f⟩

/-- The same for a command that wrote the FrequencyPoly slot `fd`, lane k being `f k` for every k < n. -/
structure FreqWritten (s t : State) (fd : FreqSlot) (f : Nat → Cplx) : Prop where
  /-- everything but the FrequencyPoly slots, CP and the draw counter is as before -/
  frame : t = { s with freqs := t.freqs, cp := s.cp + 1, draws := t.draws }
  /-- every other FrequencyPoly slot is as before -/
  others : ∀ k, k ≠ fd.toNat → t.freqs.read k = s.freqs.read k
  /-- the destination -/
  written : t.freqs.read fd.toNat = some ⟨s.conf.logn, (List.range s.conf.laneCount).map f⟩

/-- `t` is `s` after the error stop with error `e` (R223). -/
def Stopped (s t : State) (e : ErrCode) : Prop := t = { s with runstate := .err, errcode := e }

/-- Coefficient j of a Poly slot. -/
def State.coef (s : State) (n : PolySlot) (j : Nat) : Coef := coefAt (s.coefs n) j
/-- Lane k of a FrequencyPoly slot. -/
def State.lane (s : State) (n : FreqSlot) (k : Nat) : Cplx := (s.lanes n).getD k ⟨0, 0⟩
/-- The integer that coefficient j of a Poly slot stands for, read by SGN (R8). -/
def State.value (s : State) (n : PolySlot) (j : Nat) : Int := val s.conf.width s.conf.sgn (s.coef n j)

/-! ## The exact product (R13) -/

/-- `NegaMul(a, b)[k]` in Z (R13). -/
def negaMul (N : Nat) (a b : Nat → Int) (k : Nat) : Int :=
  ∑ u ∈ Finset.range N, ∑ v ∈ Finset.range N,
    if u + v = k then a u * b v else if u + v = k + N then -(a u * b v) else 0

/-- The plain product's coefficient k, `Σ_{u+v=k} x[u]·y[v]` (R171). -/
def plainMul (h : Nat) (x y : Nat → Int) (k : Nat) : Int :=
  ∑ u ∈ Finset.range h, ∑ v ∈ Finset.range h, if u + v = k then x u * y v else 0

/-- N patterns of W bits each. -/
def WBitPoly (W N : Nat) (a : List Coef) : Prop := a.length = N ∧ ∀ c ∈ a, c.toNat < 2 ^ W

/-- Element j of a list of integers. -/
def intAt (z : List Int) (j : Nat) : Int := z.getD j 0

/-- `C_s = Σ_{u+v=s} NegaMul(A_u, B_v)`, coefficient j (R146). -/
def slotProduct (N : Nat) (A B : List (List Int)) (slot j : Nat) : Int :=
  ∑ u ∈ Finset.range A.length, ∑ v ∈ Finset.range B.length,
    if u + v = slot then negaMul N (intAt (A.getD u [])) (intAt (B.getD v [])) j else 0

/-- The limb-polynomials of the first operand of a SPLIT multiply (R143, R144). -/
def firstLimbs (c : Conf) (a : List Coef) : List (List Int) :=
  limbPolys c.width c.sgn c.limbBits.toNat c.limbCount.toNat a

/-- The limb-polynomials of the second operand of a SPLIT multiply (R145, R150). -/
def secondLimbs (c : Conf) (short : Bool) (q : List Coef) : List (List Int) :=
  if short then [q.map (val c.width c.sgn)] else firstLimbs c q

/-! ## What a host read finds -/

/-- Element (n, j) of the POLY space exists and is specified (R50, R51). -/
def State.CoefPresent (s : State) (n j : Nat) : Prop :=
  n < s.caps.np ∧ ∃ p, s.polys.read n = some p ∧ j < 2 ^ p.logn.toNat ∧ j < p.coefs.length

/-- Element (n, e) of the FREQ space exists and is specified (R50, R52). -/
def State.LanePresent (s : State) (n e : Nat) : Prop :=
  n < s.caps.nf ∧ ∃ f, s.freqs.read n = some f ∧ e < 2 ^ f.logn.toNat ∧ e / 2 < f.lanes.length

/-- Coefficient k of p(X^d) for integer values v (R201): `v i` where (d·i) mod 2N is k, `−v i` where it
is k + N. -/
def permuted (N d : Nat) (v : Nat → Int) (k : Nat) : Int :=
  ∑ i ∈ Finset.range N,
    if d * i % (2 * N) = k then v i else if d * i % (2 * N) = k + N then -v i else 0

/-! ## The butterfly loops of R105 and R107, lane by lane -/

section
variable {α : Type}

/-- What one pass of the stage of R105 with pair distance `t` leaves in lane k. -/
def fwdLane (R : LaneOps α) (twf : Nat → α) (t : Nat) (d : Draw) (c : Nat → α) (k : Nat) : α :=
  if k % (2 * t) < t then
    R.add (k :: 1 :: d) (c k) (R.mul ((k + t) :: 0 :: d) (c (k + t)) (twf (k / (2 * t))))
  else
    R.sub (k :: 1 :: d) (c (k - t)) (R.mul (k :: 0 :: d) (c k) (twf (k / (2 * t))))

/-- The stages of R105, `l` of them left. -/
def fwdLoop (R : LaneOps α) (twf : Nat → α) (d : Draw) : (l done : Nat) → (Nat → α) → Nat → α
  | 0, _, c => c
  | l + 1, done, c => fwdLoop R twf d l (done + 1) (fwdLane R twf (2 ^ l) ((done + 1) :: d) c)

/-- Twist (R104), then the stages (R105). -/
def forwardLane (R : LaneOps α) (twist twf : Nat → α) (logn : Nat) (d : Draw) (c : Nat → α) : Nat → α :=
  fwdLoop R twf d (logn - 1) 0 fun j => R.mul (j :: 0 :: d) (c j) (twist j)

/-- What one pass of the stage of R107 with pair distance `t` leaves in lane k. -/
def invLane (R : LaneOps α) (twi : Nat → α) (t : Nat) (d : Draw) (c : Nat → α) (k : Nat) : α :=
  if k % (2 * t) < t then R.add (k :: 0 :: d) (c k) (c (k + t))
  else R.mul (k :: 1 :: d) (R.sub (k :: 0 :: d) (c (k - t)) (c k)) (twi (k / (2 * t)))

/-- The stages of R107, `l` of them left. -/
def invLoop (R : LaneOps α) (twi : Nat → α) (d : Draw) : (l done : Nat) → (Nat → α) → Nat → α
  | 0, _, c => c
  | l + 1, done, c => invLoop R twi d l (done + 1) (invLane R twi (2 ^ done) ((done + 1) :: d) c)

/-- The stages of R107, the scaling, the untwist (R108). -/
def inverseLane (R : LaneOps α) (untwist twi : Nat → α) (scale : Draw → α → α) (logn : Nat) (d : Draw)
    (c : Nat → α) (k : Nat) : α :=
  R.mul (k :: 200 :: d) (scale (k :: 100 :: d) (invLoop R twi d (logn - 1) 0 c k)) (untwist k)

end

/-- Lane k of `FwdFloat` for the integer values v (R103 to R105). -/
def floatForward (logn : Nat) (d : Draw) (v : Nat → Int) : Nat → Cplx :=
  forwardLane floatOps (TWIST logn) (TWF logn) logn d fun j => ⟨i2f (v j), i2f (v (j + 2 ^ (logn - 1)))⟩

/-- Coefficient j of `InvFloatZ` for the lanes c (R107, R108); `none` is ⊥. -/
def floatInverse (logn : Nat) (d : Draw) (c : Nat → Cplx) (j : Nat) : Option Int :=
  let x := inverseLane floatOps (UNTWIST logn) (TWI logn) (fun e y => cscale e y (logn - 1)) logn d c
  if j < 2 ^ (logn - 1) then f2z (x j).re else f2z (x (j - 2 ^ (logn - 1))).im

/-! ## The limb convolution of SPLIT, lane by lane (R145 to R147) -/

/-- What the pair (u, v) of R146 does to lane k of `ACCF[slot]`: nothing unless u + v = slot; the first such
pair overwrites it, each further one is accumulated. `none` stands before the first. -/
def accStep (d : Draw) (FA FB : Nat → Nat → Cplx) (slot k : Nat) (acc : Option Cplx) (p : Nat × Nat) :
    Option Cplx :=
  if p.1 + p.2 = slot then
    let x := cmul (k :: 0 :: p.1 :: p.2 :: d) (FA p.1 k) (FB p.2 k)
    match acc with
    | none => some x
    | some c => some (cadd (k :: 1 :: p.1 :: p.2 :: d) c x)
  else acc

/-- Lane k of `ACCF[slot]` after the double loop of R146, u outer and v inner. -/
def accLane (d : Draw) (lcA lcB : Nat) (FA FB : Nat → Nat → Cplx) (slot k : Nat) : Option Cplx :=
  ((List.range lcA).flatMap fun u => (List.range lcB).map fun v => (u, v)).foldl (accStep d FA FB slot k) none

/-- `Rz[slot][j]` for the limb-polynomials A and B (R145 to R147); `none` is ⊥. -/
def splitSlot (logn : Nat) (d : Draw) (A B : List (List Int)) (slot j : Nat) : Option Int :=
  floatInverse logn (slot :: 3 :: d)
    (fun k => (accLane (2 :: d) A.length B.length
      (fun u => floatForward logn (u :: 0 :: d) (intAt (A.getD u [])))
      (fun v => floatForward logn (v :: 1 :: d) (intAt (B.getD v []))) slot k).getD ⟨0, 0⟩) j

/-- The float layer recovers every slot product of these operands exactly, with no ⊥ : what
`SafeProduct` promises of operands within the budget (R151). It is a premise of a claim, never a fact
of the machine (R111). -/
def SplitExact (c : Conf) (d : Draw) (short : Bool) (a q : List Coef) : Prop :=
  let A := firstLimbs c a
  let B := secondLimbs c short q
  ∀ slot, slot < A.length + B.length - 1 → ∀ j, j < c.degree →
    splitSlot c.log d A B slot j = some (slotProduct c.degree A B slot j)

/-! ## The budgets (R6, R110, R151, R202): hypotheses a claim may make, with OPEN parameters -/

/-- `maxabs` of R151. -/
def maxabs (z : List Int) : Nat := (z.map Int.natAbs).foldr max 0

/-- `SlotMag(s)` of R151. -/
def slotMag (N : Nat) (A B : List (List Int)) (slot : Nat) : Nat :=
  N * ∑ u ∈ Finset.range A.length, ∑ v ∈ Finset.range B.length,
    if u + v = slot then maxabs (A.getD u []) * maxabs (B.getD v []) else 0

/-- The three bounds of R151 on the limbs of a pair of operands. -/
def InBudget (safeBits : Config.Budget) (logn : Nat) (A B : List (List Int)) : Prop :=
  (∀ z ∈ A, maxabs z ≤ 2 ^ 53) ∧ (∀ z ∈ B, maxabs z ≤ 2 ^ 53)
    ∧ ∀ slot, slot < A.length + B.length - 1 → slotMag (2 ^ logn) A B slot < 2 ^ (safeBits logn).val

/-- The named property `SafeProduct` (R151). -/
def SafeProduct (k : Caps) (safeBits : Config.Budget) : Prop :=
  ∀ (logn : Nat) (d : Draw) (A B : List (List Int)), k.minLogn ≤ logn → logn ≤ k.maxLogn →
    1 ≤ A.length → A.length ≤ 255 → 1 ≤ B.length → B.length ≤ 255 →
    (∀ z ∈ A ++ B, z.length = 2 ^ logn) → InBudget safeBits logn A B →
    ∀ slot, slot < A.length + B.length - 1 → ∀ j, j < 2 ^ logn →
      splitSlot logn d A B slot j = some (slotProduct (2 ^ logn) A B slot j)

/-- The values of a Poly that the float layer of configuration `c` transforms, as integers (R103). -/
def polyValue (c : Conf) (a : List Coef) (j : Nat) : Int := val c.width c.sgn (coefAt a j)

/-- A Poly of degree N within the round-trip budget (R110). -/
def InRoundTripBudget (rtBits : Config.Budget) (c : Conf) (a : List Coef) : Prop :=
  WBitPoly c.width c.degree a ∧ ∀ j, j < c.degree → |polyValue c a j| < 2 ^ (rtBits c.log).val

/-- The named property `RoundTrip` (R110). -/
def RoundTrip (k : Caps) (rtBits : Config.Budget) : Prop :=
  ∀ (c : Conf) (d e : Draw) (a : List Coef), k.minLogn ≤ c.log → c.log ≤ k.maxLogn →
    InRoundTripBudget rtBits c a → ∀ j, j < c.degree →
      (floatInverse c.log e (floatForward c.log d (polyValue c a)) j).map (wrap c.width) = some (coefAt a j)

/-- Lane k of FPERM by the odd residue g (R202). -/
def fpermLane (logn g : Nat) (c : Nat → Cplx) (k : Nat) : Cplx :=
  let x := c (PIDX logn g k)
  if g % 4 = 3 then ⟨x.re, x.im ^^^ 0x8000000000000000⟩ else x

/-- The named property `PermRoundTrip` (R202). -/
def PermRoundTrip (k : Caps) (rtBits : Config.Budget) : Prop :=
  ∀ (c : Conf) (d e : Draw) (a : List Coef) (g : Nat), k.minLogn ≤ c.log → c.log ≤ k.maxLogn →
    InRoundTripBudget rtBits c a → g < 2 ^ (c.log + 1) → g % 2 = 1 → ∀ j, j < c.degree →
      (floatInverse c.log e (fpermLane c.log g (floatForward c.log d (polyValue c a))) j).map (wrap c.width)
        = some (wrap c.width (permuted c.degree g (polyValue c a) j))

/-! ## The exact layer (R100, R102) -/

/-- Exact lane arithmetic. -/
def exactOps (A : Type) [CommRing A] : LaneOps A := ⟨fun _ x y => x + y, fun _ x y => x - y, fun _ x y => x * y⟩

/-- `cis θ = cos θ + i sin θ` (R10). -/
noncomputable def cis (x : ℝ) : ℂ := ⟨Real.cos x, Real.sin x⟩

/-- `ζ = cis(π / N)` (R10). -/
noncomputable def zeta (logn : Nat) : ℂ := cis (Real.pi / 2 ^ logn)

/-- The exact `TWF[u]` (R100), with S = −1. -/
noncomputable def exactTWF (logn u : Nat) : ℂ :=
  cis (-(2 * Real.pi * brev (logn - 2) u / 2 ^ (logn - 1)))

/-- The exact `TWIST[j]` (R100). -/
noncomputable def exactTWIST (logn j : Nat) : ℂ := cis (Real.pi * j / 2 ^ logn)

/-- The folded exact lanes of integer values v (R103). -/
noncomputable def exactFold (logn : Nat) (v : Nat → Int) : List ℂ :=
  (List.range (2 ^ (logn - 1))).map fun j => (⟨v j, v (j + 2 ^ (logn - 1))⟩ : ℂ)

/-- `Fwd_exact(v)` (R102): the network of R104 and R105 over the complex numbers. -/
noncomputable def fwdExact (logn : Nat) (v : Nat → Int) : List ℂ :=
  fwdTransform (exactOps ℂ) (exactTWIST logn) (exactTWF logn) logn [] (exactFold logn v)

/-- `Inv_exact(Y)` as folded lanes (R107, R108): the same network with conjugate roots and the division
by n. -/
noncomputable def invExact (logn : Nat) (Y : List ℂ) : List ℂ :=
  invTransform (exactOps ℂ) (fun j => (starRingEnd ℂ) (exactTWIST logn j))
    (fun u => (starRingEnd ℂ) (exactTWF logn u)) (fun _ x => x / 2 ^ (logn - 1)) logn [] Y

/-! ## The index maps and the product on lists of coefficients (R205) -/

/-- `MONO(p, d)` on a list of N = 2^logn coefficients. -/
def monoList (W logn : Nat) (imm : BitVec 64) (a : List Coef) : List Coef :=
  remap W (2 ^ logn) (monoTarget (2 ^ logn) (degreeOf logn imm)) a

/-- `PERM(p, d)` on a list of N = 2^logn coefficients. -/
def permList (W logn : Nat) (imm : BitVec 64) (a : List Coef) : List Coef :=
  remap W (2 ^ logn) (permTarget (2 ^ logn) (degreeOf logn imm)) a

/-- `NegaMul` modulo 2^W on lists of N coefficients. -/
def mulList (W N : Nat) (a b : List Coef) : List Coef :=
  (List.range N).map fun k => wrap W (negaMul N (fun j => uval (coefAt a j)) (fun j => uval (coefAt b j)) k)

/-! ## Real values of binary64 patterns (R11, R52) -/

/-- The value of a finite pattern. -/
def f64Val (x : F64) : ℚ := (fsigned x : ℚ) * (2 : ℚ) ^ ((fscaleExp x : ℤ) - 1075)

/-- `r` is a finite binary64 nearest to the real v, the even one of two that are equally near. -/
def NearestEven (v : ℝ) (r : F64) : Prop :=
  isFinite r = true ∧ ∀ y : F64, isFinite y = true →
    |(f64Val r : ℝ) - v| ≤ |(f64Val y : ℝ) - v|
    ∧ (|(f64Val y : ℝ) - v| = |(f64Val r : ℝ) - v| → f64Val y = f64Val r ∨ ffrac r % 2 = 0)

/-- Round to nearest, ties to even, of the real v, as IEEE 754 says (R11): the nearest finite value below
the overflow threshold, the infinity of v's sign from there on. -/
def Rounded (v : ℝ) (r : F64) : Prop :=
  (|v| < 2 ^ 1024 - 2 ^ 970 → NearestEven v r)
  ∧ (2 ^ 1024 - 2 ^ 970 ≤ |v| → isInf r = true ∧ (fsign r = true ↔ v < 0))

/-- The same pattern, or two NaN patterns: equal as far as IEEE 754 fixes the result (U13). -/
def SameNumber (x y : F64) : Prop := x = y ∨ (isNaN x = true ∧ isNaN y = true)

/-- A stored twiddle pair is correct (`TwCorrect`, R101): each component is the binary64 nearest to the
exact one, and an exact zero is stored as +0.0. -/
def TwCorrect (z : ℂ) (p : Cplx) : Prop :=
  NearestEven z.re p.re ∧ NearestEven z.im p.im ∧ (z.re = 0 → p.re = 0) ∧ (z.im = 0 → p.im = 0)

end Sys2Proof.Machine
end

