-- ==== Sys2Proof/Certificates/Slice0/Obligations.lean ====
section
/-! DEFINITION. The statements about this machine, each from the rules its docstring names. -/

section

open Sys2Proof Sys2Proof.Machine

/-! ## The step -/

/-- R90: the engine moves only while BUSY; a CP beyond command memory, and a word that does not decode,
stop it with `IllegalCommand`; a decoded command runs. An entry never written ends the run with a fault
of the model (log entry 10, U6). -/
def Obligations.EngineStepFollowsR90 : Prop :=
  ∀ s : State,
    (s.runstate ≠ .busy → engineStep s = .next s)
    ∧ (s.runstate = .busy → s.caps.ncmd ≤ s.cp.toNat →
        engineStep s = .next { s with runstate := .err, errcode := .illegalCommand })
    ∧ (s.runstate = .busy → s.cp.toNat < s.caps.ncmd → s.cmd.read s.cp.toNat = none →
        engineStep s = .fault .unwrittenCommand)
    ∧ (∀ w e, s.runstate = .busy → s.cp.toNat < s.caps.ncmd → s.cmd.read s.cp.toNat = some w →
        decode w = .error e →
        engineStep s = .next { s with runstate := .err, errcode := .illegalCommand })
    ∧ (∀ w i, s.runstate = .busy → s.cp.toNat < s.caps.ncmd → s.cmd.read s.cp.toNat = some w →
        decode w = .ok i → engineStep s = exec i s)

/-- The machine's step is the next move (R20, R57): the engine's step of R90, in its idle, illegal and unwritten
cases too, when no move of the environment is pending and when the engine's turn is the next move; the host's
access, when that is the next move. So it runs the command its word at CP decodes to. That the moves stand in the
list `turns`, from which each is taken as it is made, is log entry 2. -/
def Obligations.StepRunsTheDecodedCommand : Prop :=
  ∀ s : State,
    (s.turns = [] → step s = engineStep s)
    ∧ (∀ rest, s.turns = .engine :: rest → step s = engineStep { s with turns := rest })
    ∧ (∀ op rest, s.turns = .host op :: rest → step s = hostAccess op { s with turns := rest })
    ∧ ∀ (w : Command) (i : Instr), s.runstate = .busy → s.cp.toNat < s.caps.ncmd →
      s.cmd.read s.cp.toNat = some w → decode w = .ok i →
      (s.turns = [] → step s = exec i s)
      ∧ ∀ rest, s.turns = .engine :: rest → step s = exec i { s with turns := rest }

/-- Where a step of the machine stops: only at an engine fetch of a command never written (U6), at a
host access that R62 does not allow while BUSY (U7), and at a host read without a specified value (U5), of
an element that is not present or a TAG address that names no slot. The three stops are the model's choice, log entries 10, 11 and 12. -/
def Obligations.StepStopsOnlyWhereUnspecified : Prop :=
  (∀ s f, step s = .fault f → s.runstate = .busy ∧ s.cp.toNat < s.caps.ncmd ∧ s.cmd.read s.cp.toNat = none
    ∧ (s.turns = [] ∨ ∃ rest, s.turns = .engine :: rest))
  ∧ (∀ s r, step s = .refused r → ∃ op rest, s.turns = .host op :: rest
    ∧ ((s.runstate = .busy ∧ ∀ v, op ≠ .readCsr 1 ∧ op ≠ .readCsr 2 ∧ op ≠ .writeCsr 0 v ∧ op ≠ .writeCsr 2 v)
      ∨ (∃ a, op = .readCmd a ∧ a < s.caps.ncmd ∧ s.cmd.read a = none)
      ∨ (∃ n j, op = .readCoef n j ∧ ¬ s.CoefPresent n j)
      ∨ (∃ a, op = .readPoly a ∧ ¬ s.CoefPresent (a / 2 ^ s.caps.maxLogn) (a % 2 ^ s.caps.maxLogn))
      ∨ (∃ n e, op = .readLane n e ∧ ¬ s.LanePresent n e)
      ∨ (∃ a, op = .readFreq a ∧ ¬ s.LanePresent (a / 2 ^ s.caps.maxLogn) (a % 2 ^ s.caps.maxLogn))
      ∨ ∃ t, op = .readTag t ∧ (s.caps.np ≤ t ∨ 256 ≤ t) ∧ (t < 256 ∨ 256 + s.caps.nf ≤ t ∨ 512 ≤ t)))
  ∧ ∀ (op : HostOp) (s : State), s.runstate = .busy →
      (∀ v, op ≠ .readCsr 1 ∧ op ≠ .readCsr 2 ∧ op ≠ .writeCsr 0 v ∧ op ≠ .writeCsr 2 v) →
      hostAccess op s = .refused .hostAccessWhileBusy

/-! ## Encoding -/

/-- R70 to R75: decoding the word of a well-formed command gives the command back, with every operand at
every value its field admits. -/
def Obligations.DecodeInvertsEncode : Prop := ∀ i : Instr, i.wellFormed = true → decode (encode i) = .ok i

/-- R77: a word that decodes is the word of exactly the command it decodes to, and that command is
well-formed: no bit of the word is dropped. -/
def Obligations.EncodeInvertsDecode : Prop :=
  ∀ (w : Command) (i : Instr), decode w = .ok i → encode i = w ∧ i.wellFormed = true

/-- R76: the illegal encodings are exactly the words that do not decode; every other word matches exactly
one row; executing an illegal one raises `IllegalCommand` and has no other effect. -/
def Obligations.IllegalEncodingsAreRejected : Prop :=
  (∀ w : Command, IllegalEncoding w ↔ ∃ e, decode w = .error e)
  ∧ (∀ w : Command, ¬ IllegalEncoding w → ∃! r, r ∈ opcodeTable ∧ r.matchesWord w = true)
  ∧ ∀ (s : State) (w : Command), IllegalEncoding w → s.runstate = .busy → s.cp.toNat < s.caps.ncmd →
      s.cmd.read s.cp.toNat = some w → ∃ t, engineStep s = .next t ∧ Stopped s t .illegalCommand

/-- R75: a word is a row's command iff `w AND mask = match` (the reserved STRAT of CFG apart, R76(d)),
and no word matches two rows. -/
def Obligations.OpcodeTableDecides : Prop :=
  (∀ r ∈ opcodeTable, ∀ w : Command,
    (r.matchesWord w = true ∧ ¬ (r.mnemonic = "CFG" ∧ w.extractLsb' 11 2 = 3))
      ↔ ∃ i, decode w = .ok i ∧ i.mnemonic = r.mnemonic)
  ∧ ∀ r₁ ∈ opcodeTable, ∀ r₂ ∈ opcodeTable, ∀ w : Command,
      r₁.matchesWord w = true → r₂.matchesWord w = true → r₁ = r₂

/-- Words printed in the spec (R78, R91, vectors 9.1) decode to the commands they are printed for. -/
def Obligations.PrintedWordsDecode : Prop :=
  decode 0x00000000000000000000000100020120 = .ok (.muladd 2 0 1)
  ∧ decode 0xFFFFFFFFFFFFFFFD0000000000010033 = .ok (.pscl 1 0 0xFFFFFFFFFFFFFFFD)
  ∧ decode 0x00000000000000000000000000000000 = .ok .endCmd
  ∧ decode 0x00000000060108030000000000000C01 = .ok (.cfg 3 0 true 1 8 1 6)
  ∧ decode 0x00000000000000000000000001020010 = .ok (.fft 2 1)
  ∧ decode 0x0000000000000000000000FDFEFF0019 = .ok (.fmac 255 254 253)
  ∧ decode 0x00000000000000000000000605040030 = .ok (.padd 4 5 6)
  ∧ decode 0x00000000000000030000000001020041 = .ok (.perm 2 1 3)
  ∧ decode 0x7FFFFFFFFFFFFFFF0000000000010042 = .ok (.fperm 1 0 0x7FFFFFFFFFFFFFFF)

/-! ## Reset and the legal states -/

/-- R32: what the state holds after reset. -/
def Obligations.ResetState : Prop :=
  State.reset.conf.cfgd = false ∧ State.reset.conf.logn = 0 ∧ State.reset.conf.wsel = 0
  ∧ State.reset.conf.sgn = false ∧ State.reset.conf.strat.code = 0 ∧ State.reset.conf.limbBits = 0
  ∧ State.reset.conf.limbCount = 0 ∧ State.reset.conf.logKt = 0 ∧ State.reset.runstate = .idle
  ∧ State.reset.errcode.code = 0 ∧ State.reset.cp = 0 ∧ (∀ x, State.reset.tagLogn x = none)
  ∧ ∀ a, State.reset.cmd.read a = none

/-- The state after reset is legal. -/
def Obligations.ResetIsLegal : Prop := State.reset.Inv

/-- Every step of the machine, of the engine, the host or the reset input, keeps the legal states: legal
degrees, full coefficient lists of W-bit patterns, slots below NP and NF, canonical spaces, a
configuration that passes the checks of R91, ERRCODE 0 outside ERR (R21, R22, R24, R27, R53). -/
def Obligations.StepKeepsLegalStates : Prop := ∀ s t : State, s.Inv → step s = .next t → t.Inv

/-- R250: the reset input, in any run state, gives the state of R32; CAPS is constant and command memory
is unspecified until written. That the model's own fields stay is log entry 15. -/
def Obligations.HardResetTakesTheResetState : Prop :=
  ∀ (s : State) (rest : List Turn), s.turns = .hardReset :: rest →
    step s = .next { State.reset with caps := s.caps, draws := s.draws, turns := rest, hostData := s.hostData }

/-- R251: a host write of CTRL with SRST = 1, in any run state including BUSY and whatever GO says,
resets everything but command memory. That the model's own fields stay is log entry 15. -/
def Obligations.SoftResetKeepsCommandMemory : Prop :=
  ∀ (s : State) (v : BitVec 64), v.getLsbD 1 = true →
    hostAccess (.writeCsr 0 v) s = .next { State.reset with
      cmd := s.cmd, caps := s.caps, draws := s.draws, turns := s.turns, hostData := s.hostData }

/-! ## Control and status registers -/

/-- R28, R27: GO starts an engine that is not BUSY and clears ERRCODE, and does nothing while BUSY; CP
takes the lower 32 bits written, and a write of it is ignored while BUSY (log entries 11 and 19); every
other register ignores writes. -/
def Obligations.CsrWrites : Prop :=
  ∀ (s : State) (v : BitVec 64),
    (v.getLsbD 1 = false → v.getLsbD 0 = true → s.runstate ≠ .busy →
      hostAccess (.writeCsr 0 v) s = .next { s with runstate := .busy, errcode := .none })
    ∧ (v.getLsbD 1 = false → (v.getLsbD 0 = false ∨ s.runstate = .busy) →
      hostAccess (.writeCsr 0 v) s = .next s)
    ∧ (s.runstate ≠ .busy → hostAccess (.writeCsr 2 v) s = .next { s with cp := v.setWidth 32 })
    ∧ (s.runstate = .busy → hostAccess (.writeCsr 2 v) s = .next s)
    ∧ ∀ r, r ≠ 0 → r ≠ 2 → s.runstate ≠ .busy → hostAccess (.writeCsr r v) s = .next s

/-- R28: what a host read of each register returns, field by field; bits not listed read 0; no read
changes the state (R54). The answer stands in `hostData`, the model's own (log entry 2). That CONFIG shows a CFG's
fields also after a stop and before a STATUS read is the model's choice, log entry 23. -/
def Obligations.CsrReads : Prop :=
  ∀ (s : State) (r : Nat), s.Inv → (s.runstate ≠ .busy ∨ r = 1 ∨ r = 2) →
    ∃ x : BitVec 128, hostAccess (.readCsr r) s = .next { s with hostData := x }
      ∧ ((r = 0 ∨ 5 ≤ r) → x = 0)
      ∧ (r = 1 → (x.extractLsb' 0 2).toNat = s.runstate.code ∧ (x.extractLsb' 8 8).toNat = s.errcode.code
          ∧ x.extractLsb' 2 6 = 0 ∧ x.extractLsb' 16 112 = 0)
      ∧ (r = 2 → x.extractLsb' 0 32 = s.cp ∧ x.extractLsb' 32 96 = 0)
      ∧ (r = 3 → x.getLsbD 0 = s.conf.cfgd ∧ x.extractLsb' 1 6 = s.conf.logn
          ∧ x.extractLsb' 7 2 = s.conf.wsel ∧ x.getLsbD 9 = s.conf.sgn
          ∧ (x.extractLsb' 10 2).toNat = s.conf.strat.code ∧ x.extractLsb' 12 7 = s.conf.limbBits
          ∧ x.extractLsb' 19 8 = s.conf.limbCount ∧ x.extractLsb' 27 6 = s.conf.logKt
          ∧ x.extractLsb' 33 95 = 0)
      ∧ (r = 4 → (x.extractLsb' 0 9).toNat = s.caps.np ∧ (x.extractLsb' 9 9).toNat = s.caps.nf
          ∧ (x.extractLsb' 18 6).toNat = s.caps.minLogn ∧ (x.extractLsb' 24 6).toNat = s.caps.maxLogn
          ∧ (x.extractLsb' 30 32).toNat = s.caps.ncmd ∧ x.extractLsb' 62 66 = 0)

/-! ## Rules about the whole machine -/

/-- R21: the configuration is written only by a successful CFG command of the engine's own step, which writes its
own fields, none of them one that R91 refuses, and by the two resets; no other command and no other host access
writes it. -/
def Obligations.ConfigurationWrittenOnlyByCfgAndReset : Prop :=
  ∀ s t : State, step s = .next t → t.conf = s.conf
    ∨ (∃ rest, s.turns = .hardReset :: rest ∧ t.conf = Conf.reset)
    ∨ (∃ v rest, s.turns = .host (.writeCsr 0 v) :: rest ∧ v.getLsbD 1 = true ∧ t.conf = Conf.reset)
    ∨ (∃ logn wsel sgn strat lb lc kt st, (s.turns = [] ∨ ∃ rest, s.turns = .engine :: rest)
        ∧ s.runstate = .busy
        ∧ s.caps.minLogn ≤ logn.toNat ∧ logn.toNat ≤ s.caps.maxLogn
        ∧ 1 ≤ lb.toNat ∧ lb.toNat ≤ 64 ∧ 1 ≤ lc.toNat ∧ 8 * 2 ^ wsel.toNat ≤ lc.toNat * lb.toNat
        ∧ 1 ≤ kt.toNat ∧ kt.toNat ≤ 62
        ∧ s.fetch = .command (.cfg logn wsel sgn strat lb lc kt) ∧ strat.toNat = st.code
        ∧ t.conf = ⟨true, logn, wsel, sgn, st, lb, lc, kt⟩)

/-- R26: a command that completes and is not END moves CP on by one, without a wrap; END and every error
leave it; CP beyond command memory stops with `IllegalCommand`; the host reads CP at any time and writes
it only while the engine is not BUSY (that a write while BUSY is ignored is R28, log entry 11). -/
def Obligations.CommandPointerCountsCompletedCommands : Prop :=
  ∀ s : State, s.Inv → s.runstate = .busy →
    (∀ t, engineStep s = .next t →
      (t.runstate = .busy → t.cp.toNat = s.cp.toNat + 1) ∧ (t.runstate ≠ .busy → t.cp = s.cp))
    ∧ (s.caps.ncmd ≤ s.cp.toNat → ∃ t, engineStep s = .next t ∧ Stopped s t .illegalCommand)
    ∧ hostAccess (.readCsr 2) s = .next { s with hostData := s.cp.setWidth 128 }
    ∧ (∀ v, hostAccess (.writeCsr 2 v) s = .next s)
    ∧ ∀ (u : State) (v : BitVec 64), u.runstate ≠ .busy →
        hostAccess (.readCsr 2) u = .next { u with hostData := u.cp.setWidth 128 }
        ∧ hostAccess (.writeCsr 2 v) u = .next { u with cp := v.setWidth 32 }

/-- R61, R28, R22: no command writes command memory, CAPS or what belongs to the environment; a command
other than CFG leaves every slot but its destination as it was, and CFG frees them all. -/
def Obligations.CommandsWriteOnlyTheirDestination : Prop :=
  ∀ (i : Instr) (s t : State), exec i s = .next t →
    t.cmd = s.cmd ∧ t.caps = s.caps ∧ t.turns = s.turns ∧ t.hostData = s.hostData
    ∧ (∀ n : PolySlot, (∀ o, i.operands = some o → o.rd ≠ .poly n) →
        t.polys.read n.toNat = s.polys.read n.toNat ∨ (i.mnemonic = "CFG" ∧ t.polys = [] ∧ t.freqs = []))
    ∧ (∀ n : FreqSlot, (∀ o, i.operands = some o → o.rd ≠ .freq n) →
        t.freqs.read n.toNat = s.freqs.read n.toNat ∨ (i.mnemonic = "CFG" ∧ t.polys = [] ∧ t.freqs = []))

/-- R23, R30: a command other than CFG keeps the degree of every valid tag, and gives a tag it makes
valid the configured LOGN. -/
def Obligations.ValidTagKeepsItsDegree : Prop :=
  ∀ (i : Instr) (s t : State) (x : Slot), i.mnemonic ≠ "CFG" → exec i s = .next t →
    (∀ l, s.tagLogn x = some l → t.tagLogn x = some l)
    ∧ (s.tagLogn x = none → t.tagLogn x = none
        ∨ (t.tagLogn x = some s.conf.logn ∧ ∃ o, i.operands = some o ∧ o.rd = x ∧ o.readsRd = false))

/-- R223: an error, of a command or of its fetch, writes RUNSTATE and ERRCODE and nothing else: CP keeps the
index of the failing command, and no slot, tag, configuration field or command memory entry changes. -/
def Obligations.ErrorStopIsPrecise : Prop :=
  (∀ s t : State, engineStep s = .next t → s.runstate = .busy → t.runstate = .err →
    Stopped s t t.errcode ∧ t.errcode ≠ .none)
  ∧ ∀ (i : Instr) (s t : State), exec i s = .next t → s.runstate = .busy → i ≠ .endCmd →
      t.runstate = .busy ∨ (Stopped s t t.errcode ∧ t.errcode ≠ .none)

/-- R222: one command reports one error, the first that fails in the fixed order (1) to (7), and a ring
command for which none fails completes. The causes are those of R221. -/
def Obligations.FirstErrorIsReported : Prop :=
  (∀ s : State, s.runstate = .busy →
    (s.caps.ncmd ≤ s.cp.toNat
      ∨ ∃ w, s.cp.toNat < s.caps.ncmd ∧ s.cmd.read s.cp.toNat = some w ∧ IllegalEncoding w) →
    engineStep s = .next { s with runstate := .err, errcode := .illegalCommand })
  ∧ (∀ (s : State) (logn : BitVec 6) (wsel strat : BitVec 2) (sgn : Bool) (lb : BitVec 7) (lc : BitVec 8)
      (kt : BitVec 6), strat ≠ 3 →
      (logn.toNat < s.caps.minLogn ∨ s.caps.maxLogn < logn.toNat ∨ lc.toNat = 0
        ∨ lb.toNat = 0 ∨ 64 < lb.toNat ∨ lc.toNat * lb.toNat < 8 * 2 ^ wsel.toNat
        ∨ kt.toNat = 0 ∨ 62 < kt.toNat) →
      exec (.cfg logn wsel sgn strat lb lc kt) s = .next { s with runstate := .err, errcode := .configError })
  ∧ ∀ (i : Instr) (s : State) (o : Operands), i.operands = some o →
    (s.conf.cfgd = false → exec i s = .next { s with runstate := .err, errcode := .notConfigured })
    ∧ (s.conf.cfgd = true → s.BadSlotCause o →
        exec i s = .next { s with runstate := .err, errcode := .badSlot })
    ∧ (s.conf.cfgd = true → ¬ s.BadSlotCause o → s.DegreeMismatchCause o →
        exec i s = .next { s with runstate := .err, errcode := .degreeMismatch })
    ∧ (s.conf.cfgd = true → ¬ s.BadSlotCause o → ¬ s.DegreeMismatchCause o → i.InvalidDegreeCause →
        exec i s = .next { s with runstate := .err, errcode := .invalidDegree })
    ∧ (s.conf.cfgd = true → ¬ s.BadSlotCause o → ¬ s.DegreeMismatchCause o → ¬ i.InvalidDegreeCause →
        i.OverlapCause → exec i s = .next { s with runstate := .err, errcode := .overlap })
    ∧ (s.conf.cfgd = true → ¬ s.BadSlotCause o → ¬ s.DegreeMismatchCause o → ¬ i.InvalidDegreeCause →
        ¬ i.OverlapCause → ∃ t, exec i s = .next t ∧ t.runstate = s.runstate ∧ t.errcode = s.errcode
          ∧ t.cp = s.cp + 1 ∧ t.conf = s.conf ∧ t.tagLogn o.rd = some s.conf.logn)

/-- R31, R27: what a command leaves in the slots and the configuration depends on the slots, the
configuration and the constant sizes only (and on the draws, log entry 3), not on the run state, ERRCODE,
CP, command memory or the host. -/
def Obligations.ResultsDependOnlyOnSlotsAndConfiguration : Prop :=
  ∀ (i : Instr) (s s' t t' : State), s'.conf = s.conf → s'.polys = s.polys → s'.freqs = s.freqs →
    s'.caps = s.caps → s'.draws = s.draws → exec i s = .next t → exec i s' = .next t' →
    t'.conf = t.conf ∧ t'.polys = t.polys ∧ t'.freqs = t.freqs

/-! ## CFG and END -/

/-- R91: CFG stops with `ConfigError` exactly when one of its fields is out of range, and otherwise writes
the configuration, frees every slot and advances CP. STRAT = 3 is no CFG (R76(d)). -/
def Obligations.CfgConstructs : Prop :=
  ∀ (s : State) (logn : BitVec 6) (wsel strat : BitVec 2) (sgn : Bool) (lb : BitVec 7) (lc : BitVec 8)
    (kt : BitVec 6) (st : Strat), strat.toNat = st.code →
    let bad := logn.toNat < s.caps.minLogn ∨ s.caps.maxLogn < logn.toNat ∨ lc.toNat = 0
      ∨ lb.toNat = 0 ∨ 64 < lb.toNat ∨ lc.toNat * lb.toNat < 8 * 2 ^ wsel.toNat
      ∨ kt.toNat = 0 ∨ 62 < kt.toNat
    (bad → exec (.cfg logn wsel sgn strat lb lc kt) s
      = .next { s with runstate := .err, errcode := .configError })
    ∧ (¬ bad → exec (.cfg logn wsel sgn strat lb lc kt) s
      = .next { s with conf := ⟨true, logn, wsel, sgn, st, lb, lc, kt⟩, polys := [], freqs := [],
                       cp := s.cp + 1 })

/-- R92: END is the all-zero word, stops with DONE, leaves CP and everything else, and needs no
configuration; a GO written while CP points at END stops again at once with no other effect. -/
def Obligations.EndStops : Prop :=
  encode .endCmd = 0 ∧ decode 0 = .ok .endCmd
  ∧ (∀ s : State, exec .endCmd s = .next { s with runstate := .done })
  ∧ ∀ s : State, s.Inv → s.runstate = .done → s.cp.toNat < s.caps.ncmd → s.cmd.read s.cp.toNat = some 0 →
      ∃ t, hostAccess (.writeCsr 0 1) s = .next t ∧ t.runstate = .busy ∧ engineStep t = .next s

/-! ## Coefficient-wise commands -/

/-- R190, R191: PADD and PSUB complete on ready operands, in place or not, and write the sums and the
differences modulo 2^W; nothing else changes. -/
def Obligations.PaddPsubResult : Prop :=
  ∀ (s : State) (pd pa pb : PolySlot), s.Inv → s.ready ⟨.poly pd, false, [.poly pa, .poly pb]⟩ = true →
    (∃ t, exec (.padd pd pa pb) s = .next t ∧ PolyWritten s t pd fun j =>
      wrap s.conf.width ((uval (s.coef pa j) : Int) + uval (s.coef pb j)))
    ∧ (∃ t, exec (.psub pd pa pb) s = .next t ∧ PolyWritten s t pd fun j =>
      wrap s.conf.width ((uval (s.coef pa j) : Int) - uval (s.coef pb j)))

/-- R192, R193, R72(a): PNEG and PSCL complete on ready operands, in place or not, and write the negated
and the scaled coefficients modulo 2^W; the scalar is IMM mod 2^W; nothing else changes. -/
def Obligations.PnegPsclResult : Prop :=
  ∀ (s : State) (pd pa : PolySlot) (imm : BitVec 64), s.Inv → s.ready ⟨.poly pd, false, [.poly pa]⟩ = true →
    (∃ t, exec (.pneg pd pa) s = .next t ∧ PolyWritten s t pd fun j =>
      wrap s.conf.width (-(uval (s.coef pa j) : Int)))
    ∧ (∃ t, exec (.pscl pd pa imm) s = .next t ∧ PolyWritten s t pd fun j =>
      wrap s.conf.width ((uval (s.coef pa j) : Int) * (imm.toNat % 2 ^ s.conf.width : Nat)))

/-- R195: the laws of the four commands on coefficient lists, for all patterns and every W; and
distributivity of the product under KARA. -/
def Obligations.LinearLaws : Prop :=
  ∀ (W N : Nat) (a b e : List Coef) (c : Nat), W ≤ 64 → WBitPoly W N a → WBitPoly W N b → WBitPoly W N e →
    List.zipWith (addCoef W) a (a.map (negCoef W)) = List.replicate N 0
    ∧ List.zipWith (addCoef W) a b = List.zipWith (addCoef W) b a
    ∧ List.zipWith (addCoef W) (List.zipWith (addCoef W) a b) e
        = List.zipWith (addCoef W) a (List.zipWith (addCoef W) b e)
    ∧ List.zipWith (subCoef W) a b = List.zipWith (addCoef W) a (b.map (negCoef W))
    ∧ (List.zipWith (addCoef W) a b).map (sclCoef W c)
        = List.zipWith (addCoef W) (a.map (sclCoef W c)) (b.map (sclCoef W c))
    ∧ ∀ k : Conf, k.width = W → k.degree = N →
        karaProduct k (List.zipWith (addCoef W) a b) e
          = List.zipWith (addCoef W) (karaProduct k a e) (karaProduct k b e)

/-! ## The index remapper -/

/-- R200: MONO completes on ready operands when RD ≠ RA, for every d, and moves coefficient i as its four
cases say; nothing else changes. -/
def Obligations.MonoResult : Prop :=
  ∀ (s : State) (pd pa : PolySlot) (imm : BitVec 64), s.Inv → s.ready ⟨.poly pd, false, [.poly pa]⟩ = true →
    pd ≠ pa → ∃ t g, exec (.mono pd pa imm) s = .next t ∧ PolyWritten s t pd g
      ∧ let N := s.conf.degree
        let d := imm.toNat % (2 * N)
        let r := d % N
        ∀ i, i < N →
          (d / N = 0 → i + r < N → g (i + r) = s.coef pa i)
          ∧ (d / N = 0 → N ≤ i + r → g (i + r - N) = wrap s.conf.width (-(uval (s.coef pa i) : Int)))
          ∧ (d / N = 1 → i + r < N → g (i + r) = wrap s.conf.width (-(uval (s.coef pa i) : Int)))
          ∧ (d / N = 1 → N ≤ i + r → g (i + r - N) = s.coef pa i)

/-- R201: PERM with an even d stops with `InvalidDegree`; with an odd d and RD ≠ RA it completes and
coefficient i goes to (d·i) mod 2N, negated beyond N (a bijection, `MonoPermLaws`, so this fixes every
coefficient written); nothing else changes. -/
def Obligations.PermResult : Prop :=
  ∀ (s : State) (pd pa : PolySlot) (imm : BitVec 64), s.Inv → s.ready ⟨.poly pd, false, [.poly pa]⟩ = true →
    (imm.getLsbD 0 = false → ∃ t, exec (.perm pd pa imm) s = .next t ∧ Stopped s t .invalidDegree)
    ∧ (imm.getLsbD 0 = true → pd ≠ pa → ∃ t g, exec (.perm pd pa imm) s = .next t ∧ PolyWritten s t pd g
      ∧ let N := s.conf.degree
        let d := imm.toNat % (2 * N)
        ∀ i, i < N → (d * i % (2 * N) < N → g (d * i % (2 * N)) = s.coef pa i)
          ∧ (N ≤ d * i % (2 * N) →
              g (d * i % (2 * N) - N) = wrap s.conf.width (-(uval (s.coef pa i) : Int))))

/-- R202: FPERM with an even d stops with `InvalidDegree`; with an odd d and RD ≠ RA it completes and lane
k is the table's source lane, conjugated by its sign bit where d ≡ 3 (mod 4). -/
def Obligations.FpermResult : Prop :=
  ∀ (s : State) (fd fa : FreqSlot) (imm : BitVec 64), s.Inv → s.ready ⟨.freq fd, false, [.freq fa]⟩ = true →
    (imm.getLsbD 0 = false → ∃ t, exec (.fperm fd fa imm) s = .next t ∧ Stopped s t .invalidDegree)
    ∧ (imm.getLsbD 0 = true → fd ≠ fa → ∃ t, exec (.fperm fd fa imm) s = .next t
      ∧ FreqWritten s t fd fun k =>
          let d := imm.toNat % (2 * s.conf.degree)
          let x := s.lane fa (PIDX s.conf.log d k)
          if d % 4 = 3 then ⟨x.re, x.im ^^^ 0x8000000000000000⟩ else x)

/-- R203: the permutation index table: its formula, and, by the spec's own inference, that it permutes the
lanes and names the lane whose evaluation exponent is ±d times that of lane k. -/
def Obligations.PermutationTable : Prop :=
  ∀ (logn d : Nat), 1 ≤ logn → d < 2 ^ (logn + 1) → d % 2 = 1 →
    let n := 2 ^ (logn - 1)
    let e (k : Nat) : Int := (1 - 4 * (brev (logn - 1) k : Int)) % (2 ^ (logn + 1) : Nat)
    let e' (k : Nat) : Int := (if d % 4 = 1 then e k * d else -(e k) * d) % (2 ^ (logn + 1) : Nat)
    (∀ k, k < n → PIDX logn d k < n ∧ e' k % 4 = 1
      ∧ PIDX logn d k = brev (logn - 1) ((1 - e' k) / 4 % (n : Int)).toNat
      ∧ e (PIDX logn d k) = e' k)
    ∧ (∀ k, k < n → ∃! j, j < n ∧ PIDX logn d j = k)
    ∧ (PCONJ d = true ↔ d % 4 = 3)

/-- R202: the group law of FPERM, bit for bit, with no budget. -/
def Obligations.FpermGroupLaw : Prop :=
  ∀ (logn d₁ d₂ : Nat) (F : List Cplx), 1 ≤ logn → F.length = 2 ^ (logn - 1) → d₁ < 2 ^ (logn + 1) →
    d₂ < 2 ^ (logn + 1) → d₁ % 2 = 1 → d₂ % 2 = 1 →
    permuteLanes cconj ⟨0, 0⟩ logn d₂ (permuteLanes cconj ⟨0, 0⟩ logn d₁ F)
      = permuteLanes cconj ⟨0, 0⟩ logn (d₁ * d₂ % 2 ^ (logn + 1)) F

/-- R205, R200, R201, inferences the spec marks as its own: the laws of MONO and PERM, for all patterns,
every N and W; MONO is the product by the monomial; the index map of PERM is a bijection. -/
def Obligations.MonoPermLaws : Prop :=
  ∀ (W logn : Nat) (p q : List Coef), 1 ≤ W → W ≤ 64 → logn ≤ 62 → WBitPoly W (2 ^ logn) p →
    WBitPoly W (2 ^ logn) q →
    (∀ d₁ d₂ : BitVec 64, monoList W logn d₂ (monoList W logn d₁ p) = monoList W logn (d₁ + d₂) p)
    ∧ monoList W logn (BitVec.ofNat 64 (2 ^ logn)) p = p.map (negCoef W)
    ∧ monoList W logn (BitVec.ofNat 64 (2 ^ (logn + 1))) p = p
    ∧ (∀ d₁ d₂ : BitVec 64, d₁.getLsbD 0 = true → d₂.getLsbD 0 = true →
        permList W logn d₂ (permList W logn d₁ p) = permList W logn (d₁ * d₂) p)
    ∧ (∀ d e : BitVec 64, d.getLsbD 0 = true →
        permList W logn d (monoList W logn e p) = monoList W logn (d * e) (permList W logn d p))
    ∧ (∀ d : BitVec 64, d.getLsbD 0 = true →
        permList W logn d (List.zipWith (addCoef W) p q)
          = List.zipWith (addCoef W) (permList W logn d p) (permList W logn d q))
    ∧ (∀ d : BitVec 64, d.getLsbD 0 = true →
        permList W logn d (mulList W (2 ^ logn) p q)
          = mulList W (2 ^ logn) (permList W logn d p) (permList W logn d q))
    ∧ (∀ d : BitVec 64, monoList W logn d p = (List.range (2 ^ logn)).map fun k => wrap W
        (negaMul (2 ^ logn) (fun j => uval (coefAt p j))
          (fun j => if j = d.toNat % 2 ^ logn then (if d.toNat / 2 ^ logn % 2 = 0 then 1 else -1) else 0) k))
    ∧ ∀ d : BitVec 64, d.getLsbD 0 = true → ∀ k, k < 2 ^ logn →
        ∃! i, i < 2 ^ logn ∧ d.toNat * i % (2 * 2 ^ logn) % 2 ^ logn = k

/-! ## Transforms: the float layer -/

/-- R106, R103 to R105: FFT completes on ready operands and lane k is what the loops of fold, twist and
transform leave in it; nothing else changes. -/
def Obligations.FftResult : Prop :=
  ∀ (s : State) (fd : FreqSlot) (pa : PolySlot), s.Inv → s.ready ⟨.freq fd, false, [.poly pa]⟩ = true →
    ∃ t, exec (.fft fd pa) s = .next t
      ∧ FreqWritten s t fd (floatForward s.conf.log s.draw (s.value pa))

/-- R109, R107, R108: IFFT completes on ready operands and coefficient j is the rounded part of the lane
that the loops of the inverse transform leave, modulo 2^W, or the free value of its draw where that value
is ⊥; nothing else changes. -/
def Obligations.IfftResult : Prop :=
  ∀ (s : State) (pd : PolySlot) (fa : FreqSlot), s.Inv → s.ready ⟨.poly pd, false, [.freq fa]⟩ = true →
    ∃ t, exec (.ifft pd fa) s = .next t ∧ PolyWritten s t pd fun j =>
      match floatInverse s.conf.log s.draw (s.lane fa) j with
      | some z => wrap s.conf.width z
      | none => wrap s.conf.width (Config.anyBits (j :: 300 :: s.draw)).toNat

/-- R130, R12: FMUL completes on ready operands and writes one complex product per lane, four products
and two sums each rounded once; nothing else changes. -/
def Obligations.FmulResult : Prop :=
  ∀ (s : State) (fd fa fb : FreqSlot), s.Inv → s.ready ⟨.freq fd, false, [.freq fa, .freq fb]⟩ = true →
    ∃ t, exec (.fmul fd fa fb) s = .next t ∧ FreqWritten s t fd fun k =>
      let a := s.lane fa k
      let b := s.lane fb k
      let d := k :: 0 :: s.draw
      ⟨fsub (0 :: d) (fmul (1 :: d) a.re b.re) (fmul (2 :: d) a.im b.im),
       fadd (3 :: d) (fmul (4 :: d) a.re b.im) (fmul (5 :: d) a.im b.re)⟩

/-- R131, R12: FMAC completes on ready operands, its destination valid, and adds the rounded product to
the old lane, each part rounded once; nothing else changes. -/
def Obligations.FmacResult : Prop :=
  ∀ (s : State) (fd fa fb : FreqSlot), s.Inv → s.ready ⟨.freq fd, true, [.freq fa, .freq fb]⟩ = true →
    ∃ t, exec (.fmac fd fa fb) s = .next t ∧ FreqWritten s t fd fun k =>
      let p := cmul (k :: 0 :: s.draw) (s.lane fa k) (s.lane fb k)
      ⟨fadd (0 :: k :: 1 :: s.draw) (s.lane fd k).re p.re, fadd (1 :: k :: 1 :: s.draw) (s.lane fd k).im p.im⟩

/-- R112(b), (c): the zero Poly transforms to +0.0 in every lane, and a constant Poly to n equal lanes,
under every draw. -/
def Obligations.FftOfZeroAndConstant : Prop :=
  ∀ (logn : Nat) (d : Draw), 1 ≤ logn → logn ≤ 62 →
    fwdFloatInt logn d (List.replicate (2 ^ logn) 0) = List.replicate (2 ^ (logn - 1)) ⟨0, 0⟩
    ∧ ∀ v : Int, |v| ≤ 2 ^ 53 → fwdFloatInt logn d (v :: List.replicate (2 ^ logn - 1) 0)
        = List.replicate (2 ^ (logn - 1)) ⟨i2f v, 0⟩

/-- R101: the consequences of `TwCorrect`: the exact entries of the table, and the inverse and untwist
roots as conjugates whose zero imaginary part is +0.0. -/
def Obligations.TwiddleTableExactEntries : Prop :=
  ∀ logn : Nat, 1 ≤ logn →
    (let one : Cplx := ⟨0x3FF0000000000000, 0⟩
     TWF logn 0 = one ∧ TWI logn 0 = one ∧ TWIST logn 0 = one ∧ UNTWIST logn 0 = one)
    ∧ (3 ≤ logn → TWF logn 1 = ⟨0, 0xBFF0000000000000⟩ ∧ TWI logn 1 = ⟨0, 0x3FF0000000000000⟩)
    ∧ ∀ u : Nat, (TWI logn u).re = (TWF logn u).re ∧ (UNTWIST logn u).re = (TWIST logn u).re
        ∧ ((TWI logn u).im = fneg (TWF logn u).im ∨ ((TWI logn u).im = 0 ∧ (TWF logn u).im = 0))
        ∧ ((UNTWIST logn u).im = fneg (TWIST logn u).im
            ∨ ((UNTWIST logn u).im = 0 ∧ (TWIST logn u).im = 0))

/-- R101: at N = 8 every entry of the four arrays is the binary64 pair nearest to the exact root. -/
def Obligations.TwiddleTableCorrectAtDegreeEight : Prop :=
  (∀ u, u < 2 → TwCorrect (exactTWF 3 u) (TWF 3 u)
    ∧ TwCorrect ((starRingEnd ℂ) (exactTWF 3 u)) (TWI 3 u))
  ∧ ∀ j, j < 4 → TwCorrect (exactTWIST 3 j) (TWIST 3 j)
    ∧ TwCorrect ((starRingEnd ℂ) (exactTWIST 3 j)) (UNTWIST 3 j)

/-- R11: `fadd` and `fsub` round the exact sum and difference once, to nearest, ties to even; an exact
zero sum or difference has IEEE 754's sign; NaN and infinity propagate as IEEE 754 says, an infinity that is
subtracted from a finite number with its sign inverted. -/
def Obligations.AdditionRoundsOnce : Prop :=
  ∀ (d : Draw) (x y : F64),
    (isFinite x = true → isFinite y = true →
      Rounded ((f64Val x : ℝ) + f64Val y) (fadd d x y) ∧ Rounded ((f64Val x : ℝ) - f64Val y) (fsub d x y)
      ∧ (f64Val x + f64Val y = 0 →
          fadd d x y = if fsign x = true ∧ fsign y = true then 0x8000000000000000 else 0)
      ∧ (f64Val x - f64Val y = 0 →
          fsub d x y = if fsign x = true ∧ fsign y = false then 0x8000000000000000 else 0))
    ∧ ((isNaN x = true ∨ isNaN y = true) → isNaN (fadd d x y) = true ∧ isNaN (fsub d x y) = true)
    ∧ (isInf x = true → isFinite y = true → fadd d x y = x ∧ fadd d y x = x ∧ fsub d x y = x
        ∧ isInf (fsub d y x) = true ∧ fsign (fsub d y x) = !fsign x)
    ∧ (isInf x = true → isInf y = true →
        if fsign x = fsign y then fadd d x y = x ∧ isNaN (fsub d x y) = true
        else isNaN (fadd d x y) = true ∧ fsub d x y = x)

/-- R11: `fmul` rounds the exact product once, to nearest, ties to even, and `fscale` the product by
2^(−k); the sign of every result, a zero included, is the product of the signs; NaN and infinity propagate as
IEEE 754 says. -/
def Obligations.MultiplicationRoundsOnce : Prop :=
  ∀ (d : Draw) (x y : F64),
    (isFinite x = true → isFinite y = true → Rounded ((f64Val x : ℝ) * f64Val y) (fmul d x y)
      ∧ fsign (fmul d x y) = (fsign x != fsign y))
    ∧ ((isNaN x = true ∨ isNaN y = true) → isNaN (fmul d x y) = true)
    ∧ ((isInf x = true ∧ isFinite y = true ∧ f64Val y = 0 ∨ isFinite x = true ∧ f64Val x = 0 ∧ isInf y = true) →
        isNaN (fmul d x y) = true)
    ∧ ((isInf x = true ∧ isFinite y = true ∧ f64Val y ≠ 0 ∨ isFinite x = true ∧ f64Val x ≠ 0 ∧ isInf y = true
        ∨ isInf x = true ∧ isInf y = true) →
        isInf (fmul d x y) = true ∧ fsign (fmul d x y) = (fsign x != fsign y))
    ∧ ∀ k : Nat, k ≤ 62 →
        (isFinite x = true → Rounded ((f64Val x : ℝ) / 2 ^ k) (fscale d x k) ∧ fsign (fscale d x k) = fsign x)
        ∧ (isNaN x = true → isNaN (fscale d x k) = true)
        ∧ (isInf x = true → fscale d x k = x)

/-- R11: `i2f` rounds to nearest, ties to even, is exact up to 2^53, and +0.0 at 0; `rnd` is the nearest
integer, ties to even. R108: `f2z` is `rnd` of a finite number where that is below 2^63 in magnitude, and ⊥
of every other pattern. -/
def Obligations.IntegerConversionsRound : Prop :=
  (∀ z : Int, Rounded (z : ℝ) (i2f z) ∧ (|z| ≤ 2 ^ 53 → f64Val (i2f z) = z) ∧ (fsign (i2f z) = true ↔ z < 0))
  ∧ ∀ x : F64,
      (isFinite x = true → |(rnd x : ℚ) - f64Val x| ≤ 1 / 2
        ∧ (|(rnd x : ℚ) - f64Val x| = 1 / 2 → rnd x % 2 = 0)
        ∧ (|rnd x| < 2 ^ 63 → f2z x = some (rnd x)) ∧ (2 ^ 63 ≤ |rnd x| → f2z x = none))
      ∧ (isFinite x = false → f2z x = none)

/-- R112(e), U13: under two different draws a transform gives the same bits, up to the patterns of NaN
results, and the same rounded values. -/
def Obligations.TransformsAreDeterministic : Prop :=
  let same (a b : Cplx) : Prop := SameNumber a.re b.re ∧ SameNumber a.im b.im
  (∀ (logn : Nat) (d d' : Draw) (z : List Int),
    List.Forall₂ same (fwdFloatInt logn d z) (fwdFloatInt logn d' z))
  ∧ ∀ (logn : Nat) (d d' : Draw) (Y Y' : List Cplx), List.Forall₂ same Y Y' →
      invFloatZ logn d Y = invFloatZ logn d' Y'

/-! ## Transforms: the exact layer -/

/-- R102: evaluated exactly, lane k of the forward transform is the value of the polynomial at
ζ^(e_k). -/
def Obligations.ForwardTransformEvaluates : Prop :=
  ∀ (logn : Nat) (v : Nat → Int), 1 ≤ logn →
    fwdExact logn v = (List.range (2 ^ (logn - 1))).map fun k =>
      ∑ j ∈ Finset.range (2 ^ logn),
        (v j : ℂ) * zeta logn ^ (((1 - 4 * (brev (logn - 1) k : Int)) % (2 ^ (logn + 1) : Nat)).toNat * j)

/-- R109: evaluated exactly, the inverse transform is the sum of R109, and undoes the forward one. R110: FFT
and IFFT give the Poly back within the budget that `RoundTrip` assumes, which is a premise (R111). -/
def Obligations.InverseTransformInverts : Prop :=
  (∀ logn : Nat, 1 ≤ logn →
    (∀ Y : List ℂ, Y.length = 2 ^ (logn - 1) →
      invExact logn Y = (List.range (2 ^ (logn - 1))).map fun j =>
        (∑ k ∈ Finset.range (2 ^ (logn - 1)), Y.getD k 0 * zeta logn ^ (-(laneExp logn k * j : Int)))
          / 2 ^ (logn - 1))
    ∧ ∀ v : Nat → Int, invExact logn (fwdExact logn v) = exactFold logn v)
  ∧ ∀ (s : State) (rtBits : Config.Budget) (fd : FreqSlot) (pa pd : PolySlot), s.Inv →
      RoundTrip s.caps rtBits → InRoundTripBudget rtBits s.conf (s.coefs pa) →
      s.ready ⟨.freq fd, false, [.poly pa]⟩ = true → s.takes (.poly pd) = true →
      ∃ t₁ t₂, exec (.fft fd pa) s = .next t₁ ∧ exec (.ifft pd fd) t₁ = .next t₂ ∧ t₂.coefs pd = s.coefs pa

/-- R202: evaluated exactly, permuting the lanes is transforming the permuted polynomial; and within the
budget that `PermRoundTrip` assumes, which is a premise (R111), FFT, FPERM and IFFT give what PERM gives. -/
def Obligations.FpermIsPermExactly : Prop :=
  (∀ (logn d : Nat) (v : Nat → Int), 1 ≤ logn → d < 2 ^ (logn + 1) → d % 2 = 1 →
    permuteLanes (starRingEnd ℂ) 0 logn d (fwdExact logn v) = fwdExact logn (permuted (2 ^ logn) d v))
  ∧ ∀ (s : State) (rtBits : Config.Budget) (fd fe : FreqSlot) (pa pd pe : PolySlot) (imm : BitVec 64), s.Inv →
      PermRoundTrip s.caps rtBits → InRoundTripBudget rtBits s.conf (s.coefs pa) →
      s.ready ⟨.freq fd, false, [.poly pa]⟩ = true → s.takes (.freq fe) = true → s.takes (.poly pd) = true →
      s.takes (.poly pe) = true → fe ≠ fd → pe ≠ pa → imm.getLsbD 0 = true →
      ∃ t₁ t₂ t₃ t, exec (.fft fd pa) s = .next t₁ ∧ exec (.fperm fe fd imm) t₁ = .next t₂
        ∧ exec (.ifft pd fe) t₂ = .next t₃ ∧ exec (.perm pe pa imm) s = .next t ∧ t₃.coefs pd = t.coefs pe

/-! ## Multiply -/

/-- R171 to R173: a Karatsuba node returns the plain product modulo 2^W, whatever the threshold. -/
def Obligations.KaratsubaNodeIsPlainProduct : Prop :=
  ∀ (W kt l : Nat) (x y : List Coef), W ≤ 64 → 1 ≤ kt → x.length = 2 ^ l → y.length = 2 ^ l →
    kmul W kt l x y = (List.range (2 * 2 ^ l)).map fun k =>
      wrap W (plainMul (2 ^ l) (fun j => uval (coefAt x j)) (fun j => uval (coefAt y j)) k)

/-- R177: for all patterns, every W, N and KTHRESH ≥ 2, the Karatsuba product is the exact negacyclic
product modulo 2^W, with either value of SGN. -/
def Obligations.KaratsubaIsExact : Prop :=
  ∀ (c : Conf) (sgn : Bool) (a q : List Coef), 1 ≤ c.logKt.toNat → WBitPoly c.width c.degree a →
    WBitPoly c.width c.degree q →
    karaProduct c a q = (List.range c.degree).map fun j => wrap c.width
      (negaMul c.degree (fun u => val c.width sgn (coefAt a u)) (fun u => val c.width sgn (coefAt q u)) j)

/-- R140, R141, R148, R152 to R157: under the strategy KARA (configured, or AUTO with N < KTHRESH) the six
MUL-family commands complete on ready operands and write the exact negacyclic product modulo 2^W,
overwriting, added to or subtracted from the old destination; nothing else changes. -/
def Obligations.MulFamilyUnderKara : Prop :=
  ∀ (s : State) (pd pa pb : PolySlot), s.Inv →
    (s.conf.strat = .kara ∨ (s.conf.strat = .auto ∧ s.conf.degree < 2 ^ s.conf.logKt.toNat)) →
    let W := s.conf.width
    let prod := negaMul s.conf.degree (s.value pa) (s.value pb)
    let old (j : Nat) : Int := uval (s.coef pd j)
    (s.ready ⟨.poly pd, false, [.poly pa, .poly pb]⟩ = true →
      (∃ t, exec (.mul pd pa pb) s = .next t ∧ PolyWritten s t pd fun j => wrap W (prod j))
      ∧ ∃ t, exec (.muls pd pa pb) s = .next t ∧ PolyWritten s t pd fun j => wrap W (prod j))
    ∧ (s.ready ⟨.poly pd, true, [.poly pa, .poly pb]⟩ = true →
      (∃ t, exec (.muladd pd pa pb) s = .next t ∧ PolyWritten s t pd fun j => wrap W (old j + prod j))
      ∧ (∃ t, exec (.mulsub pd pa pb) s = .next t ∧ PolyWritten s t pd fun j => wrap W (old j - prod j))
      ∧ (∃ t, exec (.mulsadd pd pa pb) s = .next t ∧ PolyWritten s t pd fun j => wrap W (old j + prod j))
      ∧ ∃ t, exec (.mulssub pd pa pb) s = .next t ∧ PolyWritten s t pd fun j => wrap W (old j - prod j))

/-- Under the strategy SPLIT (configured, or AUTO with N ≥ KTHRESH), for any number of limbs. R145 to R147: with
no premise on a budget, coefficient j of the product is the sum over the slots of the inverse transforms of the
accumulators that the double loop of R146 leaves, each shifted by slot·b, modulo 2^W; a free value if one of
them is ⊥. R151: within the budget that `SafeProduct` assumes, a premise and never a fact (R111), every slot
product of the operands is recovered exactly. R140: where it is, the six commands write the exact negacyclic
product modulo 2^W. -/
def Obligations.MulFamilyUnderSplit : Prop :=
  (∀ (c : Conf) (d : Draw) (short : Bool) (a q : List Coef) (j : Nat),
    (c.strat = .split ∨ (c.strat = .auto ∧ 2 ^ c.logKt.toNat ≤ c.degree)) →
    1 ≤ c.log → 1 ≤ c.limbCount.toNat → a.length = c.degree → q.length = c.degree → j < c.degree →
    let A := firstLimbs c a
    let B := secondLimbs c short q
    let slots := A.length + B.length - 1
    ((∃ slot, slot < slots ∧ splitSlot c.log d A B slot j = none) →
      coefAt (product c d short a q) j = wrap c.width (Config.anyBits (j :: 4 :: d)).toNat)
    ∧ ∀ Rz : Nat → Int, (∀ slot, slot < slots → splitSlot c.log d A B slot j = some (Rz slot)) →
      coefAt (product c d short a q) j
        = wrap c.width (∑ slot ∈ Finset.range slots, Rz slot * 2 ^ (slot * c.limbBits.toNat)))
  ∧ (∀ (k : Caps) (safeBits : Config.Budget) (c : Conf) (d : Draw) (short : Bool) (a q : List Coef),
    SafeProduct k safeBits → k.minLogn ≤ c.log → c.log ≤ k.maxLogn → 1 ≤ c.limbCount.toNat →
    a.length = c.degree → q.length = c.degree → InBudget safeBits c.log (firstLimbs c a) (secondLimbs c short q) →
    SplitExact c d short a q)
  ∧ ∀ (s : State) (pd pa pb : PolySlot), s.Inv →
    (s.conf.strat = .split ∨ (s.conf.strat = .auto ∧ 2 ^ s.conf.logKt.toNat ≤ s.conf.degree)) →
    let W := s.conf.width
    let prod := negaMul s.conf.degree (s.value pa) (s.value pb)
    let old (j : Nat) : Int := uval (s.coef pd j)
    (s.ready ⟨.poly pd, false, [.poly pa, .poly pb]⟩ = true →
      (SplitExact s.conf s.draw false (s.coefs pa) (s.coefs pb) →
        ∃ t, exec (.mul pd pa pb) s = .next t ∧ PolyWritten s t pd fun j => wrap W (prod j))
      ∧ (SplitExact s.conf s.draw true (s.coefs pa) (s.coefs pb) →
        ∃ t, exec (.muls pd pa pb) s = .next t ∧ PolyWritten s t pd fun j => wrap W (prod j)))
    ∧ (s.ready ⟨.poly pd, true, [.poly pa, .poly pb]⟩ = true →
      (SplitExact s.conf s.draw false (s.coefs pa) (s.coefs pb) →
        (∃ t, exec (.muladd pd pa pb) s = .next t ∧ PolyWritten s t pd fun j => wrap W (old j + prod j))
        ∧ ∃ t, exec (.mulsub pd pa pb) s = .next t ∧ PolyWritten s t pd fun j => wrap W (old j - prod j))
      ∧ (SplitExact s.conf s.draw true (s.coefs pa) (s.coefs pb) →
        (∃ t, exec (.mulsadd pd pa pb) s = .next t ∧ PolyWritten s t pd fun j => wrap W (old j + prod j))
        ∧ ∃ t, exec (.mulssub pd pa pb) s = .next t ∧ PolyWritten s t pd fun j => wrap W (old j - prod j)))

/-- R148, R227: with no premise on the strategy or on a budget the six commands complete on ready operands
and write `prodw` of the effective strategy, overwriting, added to or subtracted from the old destination
in integer arithmetic modulo 2^W; nothing else changes. -/
def Obligations.MulFamilyDestinationVariants : Prop :=
  ∀ (s : State) (pd pa pb : PolySlot), s.Inv →
    let W := s.conf.width
    let prodw (short : Bool) (j : Nat) : Coef :=
      coefAt (product s.conf s.draw short (s.coefs pa) (s.coefs pb)) j
    let old (j : Nat) : Int := uval (s.coef pd j)
    (s.ready ⟨.poly pd, false, [.poly pa, .poly pb]⟩ = true →
      (∃ t, exec (.mul pd pa pb) s = .next t ∧ PolyWritten s t pd (prodw false))
      ∧ ∃ t, exec (.muls pd pa pb) s = .next t ∧ PolyWritten s t pd (prodw true))
    ∧ (s.ready ⟨.poly pd, true, [.poly pa, .poly pb]⟩ = true →
      (∃ t, exec (.muladd pd pa pb) s = .next t
        ∧ PolyWritten s t pd fun j => wrap W (old j + uval (prodw false j)))
      ∧ (∃ t, exec (.mulsub pd pa pb) s = .next t
        ∧ PolyWritten s t pd fun j => wrap W (old j - uval (prodw false j)))
      ∧ (∃ t, exec (.mulsadd pd pa pb) s = .next t
        ∧ PolyWritten s t pd fun j => wrap W (old j + uval (prodw true j)))
      ∧ ∃ t, exec (.mulssub pd pa pb) s = .next t
        ∧ PolyWritten s t pd fun j => wrap W (old j - uval (prodw true j)))

/-- R143: the limbs of an unsigned coefficient are its digits in base 2^b, and add up to it; a
limb-polynomial is the sequence of the k-th limbs. -/
def Obligations.UnsignedLimbsRecombine : Prop :=
  ∀ (W b lc : Nat) (c : Coef) (a : List Coef), 1 ≤ b → W ≤ lc * b → c.toNat < 2 ^ W →
    let A := limbs W false b lc c
    A.length = lc
    ∧ (∀ k, k < lc → intAt A k = (c.toNat >>> (k * b) % 2 ^ b : Nat) ∧ 0 ≤ intAt A k ∧ intAt A k < 2 ^ b)
    ∧ (c.toNat : Int) = ∑ k ∈ Finset.range lc, intAt A k * 2 ^ (k * b)
    ∧ ∀ k, k < lc → (limbPolys W false b lc a)[k]? = some (a.map fun x => intAt (limbs W false b lc x) k)

/-- R144: the limbs of a signed coefficient are balanced digits, the last one not reduced, and add up to
it. -/
def Obligations.SignedLimbsRecombine : Prop :=
  ∀ (W b lc : Nat) (c : Coef), 1 ≤ W → 1 ≤ b → 1 ≤ lc → W ≤ lc * b → c.toNat < 2 ^ W →
    let A := limbs W true b lc c
    A.length = lc
    ∧ (∃ r : Nat → Int, r 0 = sval W c
      ∧ (∀ k, k + 1 < lc → intAt A k = (r k + 2 ^ (b - 1)) % 2 ^ b - 2 ^ (b - 1)
          ∧ r (k + 1) * 2 ^ b = r k - intAt A k)
      ∧ intAt A (lc - 1) = r (lc - 1))
    ∧ sval W c = ∑ k ∈ Finset.range lc, intAt A k * 2 ^ (k * b)
    ∧ (∀ k, k + 1 < lc → -2 ^ (b - 1) ≤ intAt A k ∧ intAt A k < 2 ^ (b - 1))
    ∧ |intAt A (lc - 1)| ≤ 2 ^ (b - 1) + 1 ∧ (2 : Int) ^ (b - 1) + 1 ≤ 2 ^ b

/-- R132, R149: the sequence FFT, FFT, FMUL, IFFT run by hand gives the coefficients of MUL under SPLIT
with one limb (into one frequency slot for a square), wherever the inverse transform gives a value (within the budget: everywhere, R151). -/
def Obligations.HandProductIsSplitProduct : Prop :=
  ∀ (s : State) (fa fb fc : FreqSlot) (pa pb pd : PolySlot), s.Inv → s.conf.strat = .split →
    s.conf.limbCount = 1 → (fa = fb → pa = pb) → s.ready ⟨.poly pd, false, [.poly pa, .poly pb]⟩ = true →
    s.takes (.freq fa) = true → s.takes (.freq fb) = true → s.takes (.freq fc) = true →
    ∃ t₁ t₂ t₃ t₄ t, exec (.fft fa pa) s = .next t₁ ∧ exec (.fft fb pb) t₁ = .next t₂
      ∧ exec (.fmul fc fa fb) t₂ = .next t₃ ∧ exec (.ifft pd fc) t₃ = .next t₄
      ∧ exec (.mul pd pa pb) s = .next t
      ∧ ∀ j, j < s.conf.degree → floatInverse s.conf.log t₃.draw (t₃.lane fc) j ≠ none →
          t₄.coef pd j = t.coef pd j

/-- R175: the nodes of the scratch tree have pairwise different flat numbers that fill the buffer, as many
as the leaf depth says; R176: the root's result is the product. -/
def Obligations.ScratchTreeFillsItsBuffer : Prop :=
  ∀ (W kt l : Nat) (x y : List Coef), 1 ≤ kt → x.length = 2 ^ l → y.length = 2 ^ l →
    let D := if kt ≤ l then l - kt + 1 else 0
    let T := scratchTree W kt l 0 0 x y
    T.length = (3 ^ (D + 1) - 1) / 2
    ∧ (∀ v, v < T.length → ∃ m ∈ T, m.number = v)
    ∧ (T.map ScratchNode.number).Nodup
    ∧ (T.head?).map (fun m => (m.number, m.res)) = some (0, kmul W kt l x y)

/-! ## Host accesses -/

/-- R51, R52: a TAG write allocates a slot, zero-filled, also one that was allocated; frees it when its bit
0 is clear; and is ignored when the engine is not configured or the degree is not legal. A TAG read returns
the tag, valid in bit 0 and logn above it, 0 for a slot not allocated, and changes nothing. At a TAG address
naming no slot a write is ignored (log entry 13) and a read refused (log entry 12). That a read made after a
stop and before a STATUS read shows the tags as the commands left them is the model's choice, log entry 23:
R60 promises it from that STATUS read on. -/
def Obligations.HostAllocation : Prop :=
  ∀ (s : State) (v : BitVec 7), s.Inv → s.runstate ≠ .busy →
    let logn := v.extractLsb' 1 6
    let ok := s.conf.cfgd = true ∧ s.caps.minLogn ≤ logn.toNat ∧ logn.toNat ≤ s.caps.maxLogn
    (∀ n, n < s.caps.np → (∃ t, hostAccess (.writeTag n v) s = .next t
      ∧ t = { s with polys := t.polys } ∧ (∀ k, k ≠ n → t.polys.read k = s.polys.read k)
      ∧ (v.getLsbD 0 = true → ok → t.polys.read n = some ⟨logn, List.replicate (2 ^ logn.toNat) 0⟩)
      ∧ (v.getLsbD 0 = true → ¬ ok → t = s)
      ∧ (v.getLsbD 0 = false → t.polys.read n = none))
      ∧ (∀ p, s.polys.read n = some p →
          hostAccess (.readTag n) s = .next { s with hostData := BitVec.ofNat 128 (2 * p.logn.toNat + 1) })
      ∧ (s.polys.read n = none → hostAccess (.readTag n) s = .next { s with hostData := 0 }))
    ∧ (∀ n, n < s.caps.nf → (∃ t, hostAccess (.writeTag (256 + n) v) s = .next t
      ∧ t = { s with freqs := t.freqs } ∧ (∀ k, k ≠ n → t.freqs.read k = s.freqs.read k)
      ∧ (v.getLsbD 0 = true → ok →
          t.freqs.read n = some ⟨logn, List.replicate (2 ^ (logn.toNat - 1)) ⟨0, 0⟩⟩)
      ∧ (v.getLsbD 0 = true → ¬ ok → t = s)
      ∧ (v.getLsbD 0 = false → t.freqs.read n = none))
      ∧ (∀ f, s.freqs.read n = some f →
          hostAccess (.readTag (256 + n)) s = .next { s with hostData := BitVec.ofNat 128 (2 * f.logn.toNat + 1) })
      ∧ (s.freqs.read n = none → hostAccess (.readTag (256 + n)) s = .next { s with hostData := 0 }))
    ∧ ∀ n, s.caps.np ≤ n → (n < 256 ∨ 256 + s.caps.nf ≤ n) → hostAccess (.writeTag n v) s = .next s
        ∧ hostAccess (.readTag n) s = .refused .hostReadUnspecified

/-- R51: a host read inside a valid slot returns the coefficient that commands see there, and a host write
stores its lower W bits there and changes no other element; outside a valid slot's length a write is ignored
and a read is refused (log entry 12). R50: the flat address s × 2^MAX_LOGN + j names the same element; that it
acts as its pair beyond the slot's length too is log entry 17. That a read made after a stop and before a STATUS
read shows what the commands left is the model's choice, log entry 23: R60 promises it from that STATUS read on. -/
def Obligations.HostCoefficientsReadBack : Prop :=
  ∀ (s : State) (n j : Nat) (v : BitVec 64), s.Inv → s.runstate ≠ .busy →
    (∀ p, s.polys.read n = some p → j < 2 ^ p.logn.toNat →
      hostAccess (.readCoef n j) s = .next { s with hostData := (coefAt p.coefs j).setWidth 128 }
      ∧ ∃ t a, hostAccess (.writeCoef n j v) s = .next t ∧ t = { s with polys := t.polys }
        ∧ t.polys.read n = some ⟨p.logn, a⟩ ∧ coefAt a j = BitVec.ofNat 64 (v.toNat % 2 ^ s.conf.width)
        ∧ a.length = p.coefs.length ∧ (∀ i, i ≠ j → coefAt a i = coefAt p.coefs i)
        ∧ (∀ k, k ≠ n → t.polys.read k = s.polys.read k)
        ∧ hostAccess (.readCoef n j) t
            = .next { t with hostData := BitVec.ofNat 128 (v.toNat % 2 ^ s.conf.width) })
    ∧ ((∀ p, s.polys.read n = some p → 2 ^ p.logn.toNat ≤ j) →
      hostAccess (.writeCoef n j v) s = .next s ∧ hostAccess (.readCoef n j) s = .refused .hostReadUnspecified)
    ∧ (j < 2 ^ s.caps.maxLogn →
      hostAccess (.readPoly (n * 2 ^ s.caps.maxLogn + j)) s = hostAccess (.readCoef n j) s
      ∧ hostAccess (.writePoly (n * 2 ^ s.caps.maxLogn + j) v) s = hostAccess (.writeCoef n j v) s)

/-- R52: the same of the elements of a FrequencyPoly slot, bit for bit, NaN patterns too: element 2k is the
real and element 2k + 1 the imaginary part of lane k; outside a valid slot's length a write is ignored and a
read is refused (log entry 12). R50: the flat address s × 2^MAX_LOGN + e names the same element; that it acts as
its pair beyond the slot's length too is log entry 17. That a read made after a stop and before a STATUS read
shows what the commands left is the model's choice, log entry 23: R60 promises it from that STATUS read on. -/
def Obligations.HostLanesReadBack : Prop :=
  ∀ (s : State) (n e : Nat) (v : F64), s.Inv → s.runstate ≠ .busy →
    let element (lanes : List Cplx) (i : Nat) : F64 :=
      if i % 2 = 0 then (lanes.getD (i / 2) ⟨0, 0⟩).re else (lanes.getD (i / 2) ⟨0, 0⟩).im
    (∀ f, s.freqs.read n = some f → e < 2 ^ f.logn.toNat →
      hostAccess (.readLane n e) s = .next { s with hostData := (element f.lanes e).setWidth 128 }
      ∧ ∃ t c, hostAccess (.writeLane n e v) s = .next t ∧ t = { s with freqs := t.freqs }
        ∧ t.freqs.read n = some ⟨f.logn, c⟩ ∧ element c e = v
        ∧ c.length = f.lanes.length ∧ (∀ i, i ≠ e → element c i = element f.lanes i)
        ∧ (∀ k, k ≠ n → t.freqs.read k = s.freqs.read k)
        ∧ hostAccess (.readLane n e) t = .next { t with hostData := v.setWidth 128 })
    ∧ ((∀ f, s.freqs.read n = some f → 2 ^ f.logn.toNat ≤ e) →
      hostAccess (.writeLane n e v) s = .next s ∧ hostAccess (.readLane n e) s = .refused .hostReadUnspecified)
    ∧ (e < 2 ^ s.caps.maxLogn →
      hostAccess (.readFreq (n * 2 ^ s.caps.maxLogn + e)) s = hostAccess (.readLane n e) s
      ∧ hostAccess (.writeFreq (n * 2 ^ s.caps.maxLogn + e) v) s = hostAccess (.writeLane n e v) s)

/-- R53: a command the host writes is what the engine's next fetch of that entry and a host read find;
beyond NCMD writes are ignored and reads return 0; a read of an entry never written is refused (log
entry 12). -/
def Obligations.HostCommandMemory : Prop :=
  ∀ (s : State) (a : Nat) (w : Command), s.runstate ≠ .busy →
    (a < s.caps.ncmd → ∃ t, hostAccess (.writeCmd a w) s = .next t ∧ t = { s with cmd := t.cmd }
      ∧ t.cmd.read a = some w ∧ (∀ k, k ≠ a → t.cmd.read k = s.cmd.read k)
      ∧ hostAccess (.readCmd a) t = .next { t with hostData := w })
    ∧ (a < s.caps.ncmd → s.cmd.read a = none → hostAccess (.readCmd a) s = .refused .hostReadUnspecified)
    ∧ (s.caps.ncmd ≤ a → hostAccess (.writeCmd a w) s = .next s
      ∧ hostAccess (.readCmd a) s = .next { s with hostData := 0 })

end
end

