-- ==== Sys2Proof/Laws/Binary64.lean ====
section
/-! SUPPORT. Binary64 arithmetic: what it does to zeros, and how far one operation can raise the biased
exponent. -/

namespace Sys2Proof.Machine

/-! ## Zeros -/

/-- A zero of either sign. -/
def IsZero (x : F64) : Prop := x = 0 ∨ x = 0x8000000000000000

theorem isZero_zero : IsZero 0 := .inl rfl

theorem isZero_fpack (neg : Bool) : IsZero (fpack neg 0) := by cases neg <;> simp [IsZero, fpack]

theorem IsZero.fsig {x : F64} (h : IsZero x) : fsig x = 0 := by rcases h with rfl | rfl <;> decide

theorem IsZero.fsigned {x : F64} (h : IsZero x) : fsigned x = 0 := by rcases h with rfl | rfl <;> decide

theorem IsZero.fexp {x : F64} (h : IsZero x) : fexp x = 0 := by rcases h with rfl | rfl <;> decide

theorem IsZero.fneg {x : F64} (h : IsZero x) : IsZero (fneg x) := by
  rcases h with rfl | rfl
  · exact .inr (by decide)
  · exact .inl (by decide)

theorem isNaN_of_fexp {x : F64} (h : fexp x ≤ 2046) : isNaN x = false := by
  have : ¬ fexp x = 2047 := by omega
  simp [isNaN, this]

theorem isInf_of_fexp {x : F64} (h : fexp x ≤ 2046) : isInf x = false := by
  have : ¬ fexp x = 2047 := by omega
  simp [isInf, this]

/-- The product of finite numbers is one rounding. -/
theorem fmul_of_fexp (d : Draw) {x y : F64} (hx : fexp x ≤ 2046) (hy : fexp y ≤ 2046) :
    fmul d x y = roundDyadic (fsign x != fsign y) (fsig x * fsig y)
      ((fscaleExp x + fscaleExp y : Nat) - 2150 : Int) := by
  simp [fmul, isNaN_of_fexp hx, isNaN_of_fexp hy, isInf_of_fexp hx, isInf_of_fexp hy]

/-- A product of finite numbers with a zero factor is a zero. -/
theorem isZero_fmul (d : Draw) {x y : F64} (hx : fexp x ≤ 2046) (hy : fexp y ≤ 2046)
    (h : IsZero x ∨ IsZero y) : IsZero (fmul d x y) := by
  rw [fmul_of_fexp d hx hy]
  have : fsig x * fsig y = 0 := by rcases h with h | h <;> simp [h.fsig]
  rw [this]
  exact isZero_fpack _

theorem isZero_fadd (d : Draw) {x y : F64} (hx : IsZero x) (hy : IsZero y) : IsZero (fadd d x y) := by
  have ex : fexp x ≤ 2046 := by rw [hx.fexp]; omega
  have ey : fexp y ≤ 2046 := by rw [hy.fexp]; omega
  simp only [fadd, isNaN_of_fexp ex, isNaN_of_fexp ey, isInf_of_fexp ex, isInf_of_fexp ey, hx.fsigned, hy.fsigned]
  simpa using isZero_fpack _

theorem isZero_fsub (d : Draw) {x y : F64} (hx : IsZero x) (hy : IsZero y) : IsZero (fsub d x y) :=
  isZero_fadd d hx hy.fneg

theorem roundShift_zero (d : Nat) : roundShift 0 d = 0 := by simp [roundShift]

theorem f2z_isZero {x : F64} (h : IsZero x) : f2z x = some 0 := by
  have hf : isFinite x = true := by simp [isFinite, h.fexp]
  have hr : rnd x = 0 := by simp [rnd, h.fsig, roundShift_zero]
  simp [f2z, hf, hr]

/-! ## Bounds of the biased exponent -/

theorem fsig_lt (x : F64) : fsig x < 2 ^ 53 := by
  have : ffrac x < 2 ^ 52 := Nat.mod_lt _ (by decide)
  unfold fsig; split <;> omega

theorem fscaleExp_le {x : F64} {e : Nat} (h : fexp x ≤ e) (he : 1 ≤ e) : fscaleExp x ≤ e := by
  unfold fscaleExp; split <;> omega

theorem fexp_fpack_le (neg : Bool) {bits e : Nat} (h : bits < (e + 1) * 2 ^ 52) (he : e ≤ 2046) :
    fexp (fpack neg bits) ≤ e := by
  have hb : bits < 2 ^ 63 := by omega
  have hm : (if neg then 2 ^ 63 + bits else bits) < 2 ^ 64 := by split <;> omega
  unfold fexp fpack
  rw [BitVec.toNat_ofNat, Nat.mod_eq_of_lt hm]
  split <;> omega

theorem roundShift_le (m d : Nat) : roundShift m d ≤ m / 2 ^ d + 1 := by
  unfold roundShift; simp only; split <;> omega

/-- Rounding a value below 2^(l+1) units of 2^q gives an exponent of at most l + q + 1024. -/
theorem fexp_roundDyadic_le (neg : Bool) {m l e : Nat} {q : Int} (hm : m < 2 ^ (l + 1))
    (h : (l : Int) + q + 1024 ≤ e) (h2 : 2 ≤ e) (he : e ≤ 2046) : fexp (roundDyadic neg m q) ≤ e := by
  unfold roundDyadic
  split
  · exact fexp_fpack_le neg (by omega) he
  · next hm0 =>
    have hlog : Nat.log2 m ≤ l := by
      have := (Nat.log2_lt hm0).2 hm
      omega
    have hlt : m < 2 ^ (Nat.log2 m + 1) := Nat.lt_log2_self
    set k := roundUnit m q with hk
    have hk1 : (Nat.log2 m : Int) + q - 52 ≤ k := le_max_left ..
    have hk2 : (-1074 : Int) ≤ k := le_max_right ..
    have hk3 : k ≤ e - 1076 := by
      rw [hk]; unfold roundUnit; omega
    set M := if k ≤ q then m * 2 ^ (q - k).toNat else roundShift m (k - q).toNat with hM
    have hMle : M ≤ 2 ^ 53 := by
      rw [hM]
      split
      · have h1 : m * 2 ^ (q - k).toNat ≤ 2 ^ (Nat.log2 m + 1) * 2 ^ (q - k).toNat :=
          Nat.mul_le_mul_right _ hlt.le
        rw [← Nat.pow_add] at h1
        exact h1.trans (Nat.pow_le_pow_right (by decide) (by omega))
      · refine (roundShift_le _ _).trans ?_
        have h1 : m / 2 ^ (k - q).toNat < 2 ^ 53 := by
          rw [Nat.div_lt_iff_lt_mul (by positivity), ← Nat.pow_add]
          exact hlt.trans_le (Nat.pow_le_pow_right (by decide) (by omega))
        omega
    have hn : (k + 1074).toNat ≤ e - 2 := by omega
    have hb : (k + 1074).toNat * 2 ^ 52 + M < (e + 1) * 2 ^ 52 := by
      have := Nat.mul_le_mul_right (2 ^ 52) hn
      omega
    have hf : ¬ 2047 * 2 ^ 52 ≤ (k + 1074).toNat * 2 ^ 52 + M := by omega
    show fexp (fpack neg (if 2047 * 2 ^ 52 ≤ (k + 1074).toNat * 2 ^ 52 + M then 2047 * 2 ^ 52
      else (k + 1074).toNat * 2 ^ 52 + M)) ≤ e
    rw [if_neg hf]
    exact fexp_fpack_le neg hb he

theorem fexp_fneg (x : F64) : fexp (fneg x) = fexp x := by
  have exponent : ∀ y : F64, fexp y = (y.extractLsb' 52 11).toNat := fun y => by
    simp [fexp, BitVec.extractLsb'_toNat, Nat.shiftRight_eq_div_pow]
  rw [exponent, exponent]
  congr 1
  ext i hi
  have h63 : (BitVec.ofNat 64 (2 ^ 63)).getLsbD (52 + i) = false := by interval_cases i <;> decide
  simp only [fneg, BitVec.getElem_extractLsb', BitVec.getLsbD_xor, h63, Bool.xor_false]

/-- A product with a factor of magnitude below 2 raises the exponent by at most 2. -/
theorem fexp_fmul_le (d : Draw) {x y : F64} {e : Nat} (hx : fexp x ≤ e) (hy : fexp y ≤ 1023) (h1 : 1 ≤ e)
    (h : e ≤ 2044) : fexp (fmul d x y) ≤ e + 2 := by
  rw [fmul_of_fexp d (by omega) (by omega)]
  have hs : fsig x * fsig y < 2 ^ (105 + 1) :=
    (mul_lt_mul'' (fsig_lt x) (fsig_lt y) (Nat.zero_le _) (Nat.zero_le _)).trans_le (by decide)
  have := fscaleExp_le hx h1
  have := fscaleExp_le hy (by omega)
  exact fexp_roundDyadic_le _ hs (by push_cast; omega) (by omega) (by omega)

/-- A sum raises the exponent by at most 2. -/
theorem fexp_fadd_le (d : Draw) {x y : F64} {e : Nat} (hx : fexp x ≤ e) (hy : fexp y ≤ e) (h1 : 1 ≤ e)
    (h : e ≤ 2044) : fexp (fadd d x y) ≤ e + 2 := by
  have hx' : fexp x ≤ 2046 := by omega
  have hy' : fexp y ≤ 2046 := by omega
  simp only [fadd, isNaN_of_fexp hx', isNaN_of_fexp hy', isInf_of_fexp hx', isInf_of_fexp hy', Bool.or_self,
    Bool.false_eq_true, if_false]
  have ex := fscaleExp_le hx h1
  have ey := fscaleExp_le hy h1
  set m := min (fscaleExp x) (fscaleExp y) with hm
  have hmx : m ≤ fscaleExp x := Nat.min_le_left ..
  have hmy : m ≤ fscaleExp y := Nat.min_le_right ..
  have one : ∀ z : F64, fscaleExp z ≤ e → m ≤ fscaleExp z →
      (fsigned z * (2 ^ (fscaleExp z - m) : Nat)).natAbs < 2 ^ (53 + (e - m)) := fun z hz hmz => by
    have habs : (fsigned z).natAbs = fsig z := by unfold fsigned; split <;> omega
    rw [Int.natAbs_mul, habs, Int.natAbs_natCast, Nat.pow_add]
    exact Nat.mul_lt_mul_of_lt_of_le (fsig_lt z) (Nat.pow_le_pow_right (by decide) (by omega)) (by positivity)
  have hX := one x ex hmx
  have hY := one y ey hmy
  split
  · exact fexp_fpack_le _ (by omega) (by omega)
  · refine fexp_roundDyadic_le (l := 53 + (e - m)) _ ?_ (by omega) (by omega) (by omega)
    rw [Nat.pow_succ]
    have := Int.natAbs_add_le (fsigned x * (2 ^ (fscaleExp x - m) : Nat)) (fsigned y * (2 ^ (fscaleExp y - m) : Nat))
    omega

theorem fexp_fsub_le (d : Draw) {x y : F64} {e : Nat} (hx : fexp x ≤ e) (hy : fexp y ≤ e) (h1 : 1 ≤ e)
    (h : e ≤ 2044) : fexp (fsub d x y) ≤ e + 2 :=
  fexp_fadd_le d hx (by rwa [fexp_fneg]) h1 h

theorem fexp_i2f_le {z : Int} (h : z.natAbs ≤ 2 ^ 53) : fexp (i2f z) ≤ 1077 :=
  fexp_roundDyadic_le (l := 53) _ (by omega) (by omega) (by omega) (by omega)

theorem isZero_fscale (d : Draw) {x : F64} (h : IsZero x) (k : Nat) : IsZero (fscale d x k) :=
  isZero_fmul d (by rw [h.fexp]; omega)
    (fexp_roundDyadic_le (l := 0) (e := 1024) _ (by decide) (by omega) (by omega) (by omega) |>.trans (by omega))
    (.inl h)

/-! ## Lanes -/

/-- Both parts have a biased exponent of at most `e`: for e < 2047 the lane is finite. -/
def LaneBound (e : Nat) (c : Cplx) : Prop := fexp c.re ≤ e ∧ fexp c.im ≤ e

/-- Both parts are zeros. -/
def LaneZero (c : Cplx) : Prop := IsZero c.re ∧ IsZero c.im

theorem LaneBound.mono {e f : Nat} {c : Cplx} (h : LaneBound e c) (hf : e ≤ f) : LaneBound f c :=
  ⟨h.1.trans hf, h.2.trans hf⟩

theorem LaneZero.bound {c : Cplx} (h : LaneZero c) : LaneBound 0 c := ⟨h.1.fexp.le, h.2.fexp.le⟩

theorem laneBound_cmul (d : Draw) {x y : Cplx} {e : Nat} (hx : LaneBound e x) (hy : LaneBound 1023 y) (h1 : 1 ≤ e)
    (h : e ≤ 2042) : LaneBound (e + 4) (cmul d x y) :=
  ⟨fexp_fsub_le _ (fexp_fmul_le _ hx.1 hy.1 h1 (by omega)) (fexp_fmul_le _ hx.2 hy.2 h1 (by omega)) (by omega)
    (by omega),
   fexp_fadd_le _ (fexp_fmul_le _ hx.1 hy.2 h1 (by omega)) (fexp_fmul_le _ hx.2 hy.1 h1 (by omega)) (by omega)
    (by omega)⟩

theorem laneBound_cadd (d : Draw) {x y : Cplx} {e : Nat} (hx : LaneBound e x) (hy : LaneBound e y) (h1 : 1 ≤ e)
    (h : e ≤ 2044) : LaneBound (e + 2) (cadd d x y) :=
  ⟨fexp_fadd_le _ hx.1 hy.1 h1 h, fexp_fadd_le _ hx.2 hy.2 h1 h⟩

theorem laneBound_csub (d : Draw) {x y : Cplx} {e : Nat} (hx : LaneBound e x) (hy : LaneBound e y) (h1 : 1 ≤ e)
    (h : e ≤ 2044) : LaneBound (e + 2) (csub d x y) :=
  ⟨fexp_fsub_le _ hx.1 hy.1 h1 h, fexp_fsub_le _ hx.2 hy.2 h1 h⟩

/-- A product of finite lanes, one of them zero, is zero. -/
theorem laneZero_cmul (d : Draw) {x y : Cplx} (hx : LaneBound 2046 x) (hy : LaneBound 2046 y)
    (h : LaneZero x ∨ LaneZero y) : LaneZero (cmul d x y) :=
  ⟨isZero_fsub _ (isZero_fmul _ hx.1 hy.1 (h.imp And.left And.left))
      (isZero_fmul _ hx.2 hy.2 (h.imp And.right And.right)),
   isZero_fadd _ (isZero_fmul _ hx.1 hy.2 (h.imp And.left And.right))
      (isZero_fmul _ hx.2 hy.1 (h.imp And.right And.left))⟩

theorem laneZero_cadd (d : Draw) {x y : Cplx} (hx : LaneZero x) (hy : LaneZero y) : LaneZero (cadd d x y) :=
  ⟨isZero_fadd _ hx.1 hy.1, isZero_fadd _ hx.2 hy.2⟩

theorem laneZero_csub (d : Draw) {x y : Cplx} (hx : LaneZero x) (hy : LaneZero y) : LaneZero (csub d x y) :=
  ⟨isZero_fsub _ hx.1 hy.1, isZero_fsub _ hx.2 hy.2⟩

theorem laneZero_cscale (d : Draw) {x : Cplx} (hx : LaneZero x) (k : Nat) : LaneZero (cscale d x k) :=
  ⟨isZero_fscale _ hx.1 k, isZero_fscale _ hx.2 k⟩

end Sys2Proof.Machine
end

