-- ==== Sys2Proof/Laws/Budget.lean ====
section
/-! SUPPORT. The named properties `SafeProduct`, `RoundTrip` and `PermRoundTrip` with budgets of 0 bits, proved
for engines whose Twiddle Table entries are known to be finite: the hypotheses that statements take them as can
be met. -/

namespace Sys2Proof.Machine

/-- No stored cosine of degree 2^logn has a magnitude of 2 or more. -/
def TableFinite (logn : Nat) : Prop := ∀ x : Int, fexp (cosBits logn x) ≤ 1023

theorem TableFinite.cis {logn : Nat} (h : TableFinite logn) (x : Int) : LaneBound 1023 (cisBits logn x) :=
  ⟨h _, h _⟩

/-- At N = 8 the table has sixteen arguments. -/
theorem tableFinite_three : TableFinite 3 := by
  have all : ∀ r : Fin 16, fexp (cosBits 3 (r.val : Int)) ≤ 1023 := by decide +kernel
  intro x
  have hr : x % 16 < 16 := Int.emod_lt_of_pos _ (by decide)
  have h0 : 0 ≤ x % 16 := Int.emod_nonneg _ (by decide)
  have e : cosBits 3 x = cosBits 3 (x % 16) := by simp [cosBits, Int.emod_emod_of_dvd]
  have := all ⟨(x % 16).toNat, by omega⟩
  rwa [e, ← Int.toNat_of_nonneg h0]

/-! ## The butterfly loops -/

theorem laneBound_fwdLoop {twf : Nat → Cplx} (ht : ∀ u, LaneBound 1023 (twf u)) (d : Draw) (l done e : Nat)
    {c : Nat → Cplx} (hc : ∀ k, LaneBound e (c k)) (h1 : 1 ≤ e) (he : e + 6 * l ≤ 2042) (k : Nat) :
    LaneBound (e + 6 * l) (fwdLoop floatOps twf d l done c k) := by
  induction l generalizing done e c k with
  | zero => exact hc k
  | succ l ih =>
    rw [show e + 6 * (l + 1) = e + 6 + 6 * l by omega]
    refine ih _ _ (fun k => ?_) (by omega) (by omega) k
    have mul := fun (d' : Draw) (i u : Nat) => laneBound_cmul d' (hc i) (ht u) h1 (by omega)
    unfold fwdLane
    split
    · exact laneBound_cadd _ ((hc k).mono (by omega)) (mul _ _ _) (by omega) (by omega)
    · exact laneBound_csub _ ((hc _).mono (by omega)) (mul _ _ _) (by omega) (by omega)

theorem laneZero_fwdLoop {twf : Nat → Cplx} (ht : ∀ u, LaneBound 1023 (twf u)) (d : Draw) (l done : Nat)
    {c : Nat → Cplx} (hc : ∀ k, LaneZero (c k)) (k : Nat) : LaneZero (fwdLoop floatOps twf d l done c k) := by
  induction l generalizing done c k with
  | zero => exact hc k
  | succ l ih =>
    refine ih _ (fun k => ?_) k
    have mul := fun (d' : Draw) (i u : Nat) =>
      laneZero_cmul d' ((hc i).bound.mono (by omega)) ((ht u).mono (by omega)) (.inl (hc i))
    unfold fwdLane
    split
    · exact laneZero_cadd _ (hc k) (mul _ _ _)
    · exact laneZero_csub _ (hc _) (mul _ _ _)

theorem laneZero_invLoop {twi : Nat → Cplx} (ht : ∀ u, LaneBound 1023 (twi u)) (d : Draw) (l done : Nat)
    {c : Nat → Cplx} (hc : ∀ k, LaneZero (c k)) (k : Nat) : LaneZero (invLoop floatOps twi d l done c k) := by
  induction l generalizing done c k with
  | zero => exact hc k
  | succ l ih =>
    refine ih _ (fun k => ?_) k
    unfold invLane
    split
    · exact laneZero_cadd _ (hc k) (hc _)
    · exact laneZero_cmul _ ((laneZero_csub _ (hc _) (hc k)).bound.mono (by omega)) ((ht _).mono (by omega))
        (.inl (laneZero_csub _ (hc _) (hc k)))

/-! ## The transforms -/

/-- Integers of at most 53 bits have a finite transform. -/
theorem laneBound_floatForward {logn : Nat} (hT : TableFinite logn) (hl : logn ≤ 62) (d : Draw) {v : Nat → Int}
    (hv : ∀ j, (v j).natAbs ≤ 2 ^ 53) (k : Nat) : LaneBound 2046 (floatForward logn d v k) :=
  (laneBound_fwdLoop (fun _ => hT.cis _) d (logn - 1) 0 1081
    (fun j => laneBound_cmul (j :: 0 :: d) (e := 1077) ⟨fexp_i2f_le (hv j), fexp_i2f_le (hv _)⟩ (hT.cis _)
      (by omega) (by omega)) (by omega) (by omega) k).mono (by omega)

/-- The zero Poly has a zero transform. -/
theorem laneZero_floatForward {logn : Nat} (hT : TableFinite logn) (d : Draw) {v : Nat → Int} (hv : ∀ j, v j = 0)
    (k : Nat) : LaneZero (floatForward logn d v k) := by
  have h0 : LaneZero ⟨i2f 0, i2f 0⟩ := ⟨.inl (by decide), .inl (by decide)⟩
  refine laneZero_fwdLoop (fun _ => hT.cis _) d (logn - 1) 0 (fun j => ?_) k
  simp only [hv]
  exact laneZero_cmul _ (h0.bound.mono (by omega)) ((hT.cis _).mono (by omega)) (.inl h0)

/-- Zero lanes have a zero inverse transform. -/
theorem floatInverse_zero {logn : Nat} (hT : TableFinite logn) (d : Draw) {c : Nat → Cplx}
    (hc : ∀ k, LaneZero (c k)) (j : Nat) : floatInverse logn d c j = some 0 := by
  have lane : ∀ k, LaneZero
      (inverseLane floatOps (UNTWIST logn) (TWI logn) (fun e y => cscale e y (logn - 1)) logn d c k) := fun k => by
    have hs := laneZero_cscale (k :: 100 :: d)
      (laneZero_invLoop (twi := TWI logn) (fun _ => hT.cis _) d (logn - 1) 0 hc k) (logn - 1)
    exact laneZero_cmul _ (hs.bound.mono (by omega)) ((hT.cis _).mono (by omega)) (.inl hs)
  unfold floatInverse
  simp only
  split
  · exact f2z_isZero (lane _).1
  · exact f2z_isZero (lane _).2

/-- An accumulator whose products all are zero is zero. -/
theorem laneZero_accLane (d : Draw) (lcA lcB : Nat) (FA FB : Nat → Nat → Cplx) (slot k : Nat)
    (h : ∀ u v, u < lcA → v < lcB → u + v = slot → LaneBound 2046 (FA u k) ∧ LaneBound 2046 (FB v k)
      ∧ (LaneZero (FA u k) ∨ LaneZero (FB v k))) :
    LaneZero ((accLane d lcA lcB FA FB slot k).getD ⟨0, 0⟩) := by
  have steps : ∀ (l : List (Nat × Nat)) (acc : Option Cplx), (∀ p ∈ l, p.1 < lcA ∧ p.2 < lcB) →
      LaneZero (acc.getD ⟨0, 0⟩) → LaneZero ((l.foldl (accStep d FA FB slot k) acc).getD ⟨0, 0⟩) := by
    intro l
    induction l with
    | nil => exact fun acc _ hacc => hacc
    | cons p l ih =>
      intro acc hl hacc
      refine ih _ (fun q hq => hl q (List.mem_cons_of_mem _ hq)) ?_
      obtain ⟨hu, hv⟩ := hl p (List.mem_cons_self ..)
      unfold accStep
      split
      · next hs =>
        obtain ⟨hA, hB, hz⟩ := h _ _ hu hv hs
        cases acc with
        | none => exact laneZero_cmul _ hA hB hz
        | some c => exact laneZero_cadd _ hacc (laneZero_cmul _ hA hB hz)
      · exact hacc
  refine steps _ none (fun p hp => ?_) ⟨isZero_zero, isZero_zero⟩
  simp only [List.mem_flatMap, List.mem_map, List.mem_range] at hp
  obtain ⟨u, hu, v, hv, rfl⟩ := hp
  exact ⟨hu, hv⟩

/-! ## The budgets of 0 bits -/

theorem natAbs_le_maxabs (z : List Int) (j : Nat) : (intAt z j).natAbs ≤ maxabs z := by
  induction z generalizing j with
  | nil => simp [intAt]
  | cons x z ih =>
    have e : maxabs (x :: z) = max x.natAbs (maxabs z) := rfl
    cases j with
    | zero => rw [e]; simp [intAt]
    | succ j => rw [e]; exact (ih j).trans (le_max_right ..)

theorem maxabs_getD_le {A : List (List Int)} {b : Nat} (h : ∀ z ∈ A, maxabs z ≤ b) (u : Nat) :
    maxabs (A.getD u []) ≤ b := by
  rcases Nat.lt_or_ge u A.length with hu | hu
  · rw [List.getD_eq_getElem _ _ hu]; exact h _ (List.getElem_mem hu)
  · rw [List.getD_eq_default _ _ hu]; exact Nat.zero_le _

theorem negaMul_eq_zero {N : Nat} {a b : Nat → Int} (h : (∀ j, a j = 0) ∨ ∀ j, b j = 0) (k : Nat) :
    negaMul N a b k = 0 := by
  unfold negaMul
  refine Finset.sum_eq_zero fun u _ => Finset.sum_eq_zero fun v _ => ?_
  have : a u * b v = 0 := by rcases h with h | h <;> simp [h]
  simp [this]

/-- Within a product budget of 0 bits one limb-polynomial of every pair is zero. -/
theorem zero_of_inBudget_zero {logn : Nat} {A B : List (List Int)} (h : InBudget (fun _ => 0) logn A B) {u v : Nat}
    (hu : u < A.length) (hv : v < B.length) :
    (∀ j, intAt (A.getD u []) j = 0) ∨ ∀ j, intAt (B.getD v []) j = 0 := by
  have hs := h.2.2 (u + v) (by omega)
  have h0 : slotMag (2 ^ logn) A B (u + v) = 0 := by simpa using hs
  unfold slotMag at h0
  have h1 := (Nat.mul_eq_zero.1 h0).resolve_left (by positivity)
  have h2 := Finset.sum_eq_zero_iff.1 h1 u (Finset.mem_range.2 hu)
  have h3 := Finset.sum_eq_zero_iff.1 h2 v (Finset.mem_range.2 hv)
  rw [if_pos rfl] at h3
  refine (Nat.mul_eq_zero.1 h3).imp (fun hz j => ?_) fun hz j => ?_
  · have := natAbs_le_maxabs (A.getD u []) j; omega
  · have := natAbs_le_maxabs (B.getD v []) j; omega

/-- `SafeProduct` holds of the computed float layer with a budget of 0 bits. -/
theorem safeProduct_zero {k : Caps} (hk : ∀ logn, k.minLogn ≤ logn → logn ≤ k.maxLogn → TableFinite logn ∧ logn ≤ 62) :
    SafeProduct k fun _ => 0 := by
  intro logn d A B h1 h2 _ _ _ _ _ hb slot _ j _
  obtain ⟨hT, hl⟩ := hk logn h1 h2
  have zero : ∀ u v, u < A.length → v < B.length →
      (∀ j, intAt (A.getD u []) j = 0) ∨ ∀ j, intAt (B.getD v []) j = 0 := fun u v => zero_of_inBudget_zero hb
  have prod : slotProduct (2 ^ logn) A B slot j = 0 := by
    unfold slotProduct
    refine Finset.sum_eq_zero fun u hu => Finset.sum_eq_zero fun v hv => ?_
    rw [negaMul_eq_zero (zero u v (Finset.mem_range.1 hu) (Finset.mem_range.1 hv)), ite_self]
  rw [prod]
  refine floatInverse_zero hT _ (fun i => laneZero_accLane _ _ _ _ _ _ _ fun u v hu hv _ => ?_) j
  have small : ∀ {C : List (List Int)}, (∀ z ∈ C, maxabs z ≤ 2 ^ 53) → ∀ w j, (intAt (C.getD w []) j).natAbs ≤ 2 ^ 53 :=
    fun hC w j => (natAbs_le_maxabs _ _).trans (maxabs_getD_le hC w)
  exact ⟨laneBound_floatForward hT hl _ (small hb.1 u) i, laneBound_floatForward hT hl _ (small hb.2.1 v) i,
    (zero u v hu hv).imp (fun h => laneZero_floatForward hT _ h i) fun h => laneZero_floatForward hT _ h i⟩

/-- Within a round-trip budget of 0 bits every coefficient is zero. -/
theorem zero_of_inRoundTripBudget_zero {c : Conf} {a : List Coef} (h : InRoundTripBudget (fun _ => 0) c a) (j : Nat) :
    coefAt a j = 0 ∧ polyValue c a j = 0 := by
  rcases Nat.lt_or_ge j a.length with hj | hj
  · have hv : polyValue c a j = 0 := by
      have := h.2 j (by rw [← h.1.1]; exact hj)
      simpa using this
    refine ⟨?_, hv⟩
    have hc : (coefAt a j).toNat < 2 ^ c.width := by
      unfold coefAt; rw [List.getD_eq_getElem _ _ hj]; exact h.1.2 _ (List.getElem_mem hj)
    have : (coefAt a j).toNat = 0 := by
      unfold polyValue val sval uval at hv
      push_cast at hv
      have hc' : ((coefAt a j).toNat : Int) < 2 ^ c.width := by exact_mod_cast hc
      split at hv
      · split at hv <;> omega
      · omega
    exact BitVec.eq_of_toNat_eq (by simpa using this)
  · have e : coefAt a j = 0 := List.getD_eq_default _ _ hj
    refine ⟨e, ?_⟩
    have hp : 0 < 2 ^ (c.width - 1) := by positivity
    simp [polyValue, e, val, sval, uval]

/-- `RoundTrip` holds of the computed float layer with a budget of 0 bits. -/
theorem roundTrip_zero {k : Caps} (hk : ∀ logn, k.minLogn ≤ logn → logn ≤ k.maxLogn → TableFinite logn) :
    RoundTrip k fun _ => 0 := by
  intro c d e a h1 h2 hb j _
  have hT := hk _ h1 h2
  rw [floatInverse_zero hT e (laneZero_floatForward hT d fun j => (zero_of_inRoundTripBudget_zero hb j).2) j,
    (zero_of_inRoundTripBudget_zero hb j).1]
  simp [wrap]

/-- `PermRoundTrip` holds of the computed float layer with a budget of 0 bits. -/
theorem permRoundTrip_zero {k : Caps} (hk : ∀ logn, k.minLogn ≤ logn → logn ≤ k.maxLogn → TableFinite logn) :
    PermRoundTrip k fun _ => 0 := by
  intro c d e a g h1 h2 hb _ _ j _
  have hT := hk _ h1 h2
  have hv := fun j => (zero_of_inRoundTripBudget_zero hb j).2
  have lane : ∀ i, LaneZero (fpermLane c.log g (floatForward c.log d (polyValue c a)) i) := fun i => by
    have hz := laneZero_floatForward hT d hv (PIDX c.log g i)
    unfold fpermLane
    simp only
    split
    · exact ⟨hz.1, hz.2.fneg⟩
    · exact hz
  have hp : permuted c.degree g (polyValue c a) j = 0 := by simp [permuted, hv]
  rw [floatInverse_zero hT e lane j, hp]
  rfl

end Sys2Proof.Machine
end

