-- ==== Sys2Proof/Laws/Coefficient.lean ====
section
/-! SUPPORT. Reduction modulo 2^W (R8): what `wrap` stores, and when two integers are stored alike. -/

namespace Sys2Proof.Machine

/-- The pattern of an integer is its residue (R8). -/
theorem wrap_toNat {W : Nat} (hW : W ≤ 64) (z : Int) : (wrap W z).toNat = (z % (2 ^ W : Nat)).toNat := by
  have hp : (0 : Int) < ((2 ^ W : Nat) : Int) := by positivity
  have hlt : (z % ((2 ^ W : Nat) : Int)).toNat < 2 ^ 64 := by
    have h1 := Int.emod_lt_of_pos z hp
    have h2 : (2 : Nat) ^ W ≤ 2 ^ 64 := Nat.pow_le_pow_right (by decide) hW
    omega
  rw [wrap, BitVec.toNat_ofNat, Nat.mod_eq_of_lt hlt]

/-- A stored pattern has W bits. -/
theorem wrap_lt {W : Nat} (hW : W ≤ 64) (z : Int) : (wrap W z).toNat < 2 ^ W := by
  have hp : (0 : Int) < ((2 ^ W : Nat) : Int) := by positivity
  have h1 := Int.emod_lt_of_pos z hp
  have h0 := Int.emod_nonneg z hp.ne'
  rw [wrap_toNat hW]
  omega

/-- `uval(wrap_W(z)) ≡ z (mod 2^W)` (R8). -/
theorem uval_wrap_emod {W : Nat} (hW : W ≤ 64) (z : Int) :
    (uval (wrap W z) : Int) % (2 ^ W : Nat) = z % (2 ^ W : Nat) := by
  have hp : (0 : Int) < ((2 ^ W : Nat) : Int) := by positivity
  rw [uval, wrap_toNat hW, Int.toNat_of_nonneg (Int.emod_nonneg z hp.ne'), Int.emod_emod_of_dvd _ (dvd_refl _)]

/-- Integers that are equal modulo 2^W are stored alike. -/
theorem wrap_congr {W : Nat} {x y : Int} (h : x % (2 ^ W : Nat) = y % (2 ^ W : Nat)) : wrap W x = wrap W y := by
  rw [wrap, wrap, h]

/-- A W-bit pattern is the pattern of its own value. -/
theorem wrap_uval {W : Nat} {c : Coef} (h : c.toNat < 2 ^ W) : wrap W (uval c : Int) = c := by
  have hc : ((c.toNat : Int) % ((2 ^ W : Nat) : Int)).toNat = c.toNat := by
    rw [← Int.natCast_mod, Int.toNat_natCast, Nat.mod_eq_of_lt h]
  apply BitVec.eq_of_toNat_eq
  rw [wrap, uval, hc, BitVec.toNat_ofNat, Nat.mod_eq_of_lt c.isLt]

/-- `val` and `uval` agree modulo 2^W, whichever way SGN reads the pattern (R8). -/
theorem val_emod (W : Nat) (sgn : Bool) (c : Coef) :
    val W sgn c % (2 ^ W : Nat) = (uval c : Int) % (2 ^ W : Nat) := by
  unfold val sval uval
  split
  · split
    · exact Int.sub_emod_right ..
    · rfl
  · rfl

/-- The width of a configuration is one of 8, 16, 32, 64 (R73). -/
theorem Conf.width_le (c : Conf) : c.width ≤ 64 := by
  have h : c.wsel.toNat < 4 := c.wsel.isLt
  unfold Conf.width
  have : (2 : Nat) ^ c.wsel.toNat ≤ 2 ^ 3 := Nat.pow_le_pow_right (by decide) (by omega)
  omega

@[simp] theorem brev_zero (i : Nat) : brev 0 i = 0 := rfl

theorem brev_succ (k i : Nat) : brev (k + 1) i = i % 2 * 2 ^ k + brev k (i / 2) := rfl

/-- A k-bit reversal is below 2^k (R9). -/
theorem brev_lt (k i : Nat) : brev k i < 2 ^ k := by
  induction k generalizing i with
  | zero => simp
  | succ k ih =>
    have := ih (i / 2)
    have : i % 2 * 2 ^ k ≤ 1 * 2 ^ k := Nat.mul_le_mul_right _ (by omega)
    rw [brev_succ, pow_succ]
    omega

end Sys2Proof.Machine
end

