-- ==== Sys2Proof/Laws/Decode.lean ====
section
/-! SUPPORT. The fields of a packed word, which the decoder and the encoder share (R70). -/

namespace Sys2Proof

variable (imm : BitVec 64) (rb ra rd mod opc : BitVec 8)

@[simp] theorem opcField_packWord : opcField (packWord imm rb ra rd mod opc) = opc := by
  apply BitVec.eq_of_getLsbD_eq
  intro i hi
  simp only [opcField, packWord, BitVec.getLsbD_extractLsb', BitVec.getLsbD_append]
  grind

@[simp] theorem modField_packWord : modField (packWord imm rb ra rd mod opc) = mod := by
  apply BitVec.eq_of_getLsbD_eq
  intro i hi
  simp only [modField, packWord, BitVec.getLsbD_extractLsb', BitVec.getLsbD_append]
  grind

@[simp] theorem rdField_packWord : rdField (packWord imm rb ra rd mod opc) = rd := by
  apply BitVec.eq_of_getLsbD_eq
  intro i hi
  simp only [rdField, packWord, BitVec.getLsbD_extractLsb', BitVec.getLsbD_append]
  grind

@[simp] theorem raField_packWord : raField (packWord imm rb ra rd mod opc) = ra := by
  apply BitVec.eq_of_getLsbD_eq
  intro i hi
  simp only [raField, packWord, BitVec.getLsbD_extractLsb', BitVec.getLsbD_append]
  grind

@[simp] theorem rbField_packWord : rbField (packWord imm rb ra rd mod opc) = rb := by
  apply BitVec.eq_of_getLsbD_eq
  intro i hi
  simp only [rbField, packWord, BitVec.getLsbD_extractLsb', BitVec.getLsbD_append]
  grind

@[simp] theorem rsvField_packWord : rsvField (packWord imm rb ra rd mod opc) = 0 := by
  apply BitVec.eq_of_getLsbD_eq
  intro i hi
  simp only [rsvField, packWord, BitVec.getLsbD_extractLsb', BitVec.getLsbD_append]
  grind

@[simp] theorem immField_packWord : immField (packWord imm rb ra rd mod opc) = imm := by
  apply BitVec.eq_of_getLsbD_eq
  intro i hi
  simp only [immField, packWord, BitVec.getLsbD_extractLsb', BitVec.getLsbD_append]
  grind

/-- A word is what its fields make of it, when its reserved bits are zero (R70). -/
theorem packWord_fields (w : Command) (h : rsvField w = 0) :
    packWord (immField w) (rbField w) (raField w) (rdField w) (modField w) (opcField w) = w := by
  apply BitVec.eq_of_getLsbD_eq
  intro i hi
  have hr : ∀ j, 40 ≤ j → j < 64 → w.getLsbD j = false := by
    intro j h1 h2
    have := congrArg (fun b : BitVec 24 => b.getLsbD (j - 40)) h
    simp only [rsvField, BitVec.getLsbD_extractLsb'] at this
    rw [show 40 + (j - 40) = j by omega] at this
    simpa [show j - 40 < 24 by omega] using this
  simp only [packWord, immField, rbField, raField, rdField, modField, opcField, BitVec.getLsbD_append,
    BitVec.getLsbD_extractLsb']
  grind

end Sys2Proof
end

