-- ==== Sys2Proof/Laws/Lists.lean ====
section
/-! SUPPORT. Lengths of what the meanings compute, and element j of it. -/

namespace Sys2Proof.Machine

/-! ## The butterfly networks -/

section
variable {α : Type} (R : LaneOps α)

@[simp] theorem length_mulRoots (root : Nat → α) (d : Draw) (j : Nat) (c : List α) :
    (mulRoots R root d j c).length = c.length := by
  induction c generalizing j <;> simp_all [mulRoots]

theorem getElem_mulRoots (root : Nat → α) (d : Draw) (j : Nat) (z : List α) {k : Nat} (h : k < z.length) :
    (mulRoots R root d j z)[k]? = some (R.mul ((j + k) :: d) z[k] (root (j + k))) := by
  induction z generalizing j k with
  | nil => simp at h
  | cons x z ih =>
    cases k with
    | zero => simp [mulRoots]
    | succ k =>
      have hk : k < z.length := by simpa using h
      have := ih (j + 1) hk
      simp only [mulRoots, List.getElem?_cons_succ, this, List.getElem_cons_succ]
      rw [show j + 1 + k = j + (k + 1) by omega]

@[simp] theorem length_sums (d : Draw) (j : Nat) (U V : List α) :
    (sums R d j U V).length = min U.length V.length := by
  induction U generalizing j V with
  | nil => simp [sums]
  | cons x U ih => cases V with
    | nil => simp [sums]
    | cons y V => simp [sums, ih]

@[simp] theorem length_diffs (d : Draw) (j : Nat) (U V : List α) :
    (diffs R d j U V).length = min U.length V.length := by
  induction U generalizing j V with
  | nil => simp [diffs]
  | cons x U ih => cases V with
    | nil => simp [diffs]
    | cons y V => simp [diffs, ih]

/-- A forward stage keeps the number of lanes: m blocks of 2t. -/
theorem length_fwdStage (twf : Nat → α) (t : Nat) (d : Draw) (m u : Nat) (c : List α)
    (h : c.length = m * (2 * t)) : (fwdStage R twf t d m u c).length = c.length := by
  induction m generalizing u c with
  | zero => simp_all [fwdStage]
  | succ m ih =>
    have e : (m + 1) * (2 * t) = m * (2 * t) + 2 * t := by ring
    have hr := ih (u + 1) (c.drop (2 * t)) (by simp; omega)
    simp only [fwdStage, List.length_append, length_sums, length_diffs, length_mulRoots, hr,
      List.length_take, List.length_drop]
    omega

/-- An inverse stage keeps the number of lanes: m blocks of 2t. -/
theorem length_invStage (twi : Nat → α) (t : Nat) (d : Draw) (m u : Nat) (c : List α)
    (h : c.length = m * (2 * t)) : (invStage R twi t d m u c).length = c.length := by
  induction m generalizing u c with
  | zero => simp_all [invStage]
  | succ m ih =>
    have e : (m + 1) * (2 * t) = m * (2 * t) + 2 * t := by ring
    have hr := ih (u + 1) (c.drop (2 * t)) (by simp; omega)
    simp only [invStage, List.length_append, length_sums, length_diffs, length_mulRoots, hr,
      List.length_take, List.length_drop]
    omega

theorem length_fwdStages (twf : Nat → α) (d : Draw) (l done : Nat) (c : List α)
    (h : c.length = 2 ^ (done + l)) : (fwdStages R twf d l done c).length = c.length := by
  induction l generalizing done c with
  | zero => rfl
  | succ l ih =>
    have hs := length_fwdStage R twf (2 ^ l) ((done + 1) :: d) (2 ^ done) 0 c (by rw [h]; ring)
    rw [fwdStages, ih (done + 1) _ (by rw [hs, h]; congr 1; omega), hs]

theorem length_invStages (twi : Nat → α) (d : Draw) (l done : Nat) (c : List α)
    (h : c.length = 2 ^ (done + l)) : (invStages R twi d l done c).length = c.length := by
  induction l generalizing done c with
  | zero => rfl
  | succ l ih =>
    have hs := length_invStage R twi (2 ^ done) ((done + 1) :: d) (2 ^ l) 0 c (by rw [h]; ring)
    rw [invStages, ih (done + 1) _ (by rw [hs, h]; congr 1; omega), hs]

@[simp] theorem length_scaleLanes (scale : Draw → α → α) (d : Draw) (j : Nat) (c : List α) :
    (scaleLanes scale d j c).length = c.length := by
  induction c generalizing j <;> simp_all [scaleLanes]

/-- The forward transform keeps the number of lanes. -/
theorem length_fwdTransform (twist twf : Nat → α) (logn : Nat) (d : Draw) (c : List α)
    (h : c.length = 2 ^ (logn - 1)) : (fwdTransform R twist twf logn d c).length = 2 ^ (logn - 1) := by
  rw [fwdTransform, length_fwdStages R _ _ _ _ _ (by simp [h])]
  simp [h]

/-- The inverse transform keeps the number of lanes. -/
theorem length_invTransform (untwist twi : Nat → α) (scale : Draw → α → α) (logn : Nat) (d : Draw)
    (c : List α) (h : c.length = 2 ^ (logn - 1)) :
    (invTransform R untwist twi scale logn d c).length = 2 ^ (logn - 1) := by
  rw [invTransform, length_mulRoots, length_scaleLanes, length_invStages R _ _ _ _ _ (by simp [h]), h]

end

/-! ## FFT, IFFT and the pointwise commands -/

/-- The forward transform of 2n integers has n lanes. -/
theorem length_fwdFloatInt (logn : Nat) (d : Draw) (z : List Int) (hl : 1 ≤ logn)
    (h : z.length = 2 ^ logn) : (fwdFloatInt logn d z).length = 2 ^ (logn - 1) := by
  obtain ⟨L, rfl⟩ : ∃ L, logn = L + 1 := ⟨logn - 1, by omega⟩
  refine length_fwdTransform _ _ _ _ _ _ ?_
  simp only [fold, List.length_zipWith, List.length_take, List.length_drop, h, Nat.add_sub_cancel, pow_succ]
  omega

/-- The inverse transform of n lanes has 2n values. -/
theorem length_invFloatZ (logn : Nat) (d : Draw) (Y : List Cplx) (hl : 1 ≤ logn)
    (h : Y.length = 2 ^ (logn - 1)) : (invFloatZ logn d Y).length = 2 ^ logn := by
  obtain ⟨L, rfl⟩ : ∃ L, logn = L + 1 := ⟨logn - 1, by omega⟩
  have hi : (invLanes (L + 1) d Y).length = 2 ^ L := length_invTransform _ _ _ _ _ _ _ h
  simp only [invFloatZ, List.length_append, List.length_map, hi, pow_succ]
  omega

@[simp] theorem length_storeAll (W : Nat) (d : Draw) (j : Nat) (z : List (Option Int)) :
    (storeAll W d j z).length = z.length := by
  induction z generalizing j <;> simp_all [storeAll]

theorem getElem_storeAll (W : Nat) (d : Draw) (j : Nat) (z : List (Option Int)) {k : Nat}
    (h : k < z.length) : (storeAll W d j z)[k]? = some (storeRounded W ((j + k) :: d) z[k]) := by
  induction z generalizing j k with
  | nil => simp at h
  | cons x z ih =>
    cases k with
    | zero => simp [storeAll]
    | succ k =>
      have hk : k < z.length := by simpa using h
      have := ih (j + 1) hk
      simp only [storeAll, List.getElem?_cons_succ, this, List.getElem_cons_succ]
      rw [show j + 1 + k = j + (k + 1) by omega]

/-- What is stored for a rounded value has W bits. -/
theorem storeRounded_lt {W : Nat} (hW : W ≤ 64) (d : Draw) (z : Option Int) :
    (storeRounded W d z).toNat < 2 ^ W := by
  cases z <;> exact wrap_lt hW _

@[simp] theorem length_mulLanes (d : Draw) (k : Nat) (a b : List Cplx) :
    (mulLanes d k a b).length = min a.length b.length := by
  induction a generalizing k b with
  | nil => simp [mulLanes]
  | cons x a ih => cases b with
    | nil => simp [mulLanes]
    | cons y b => simp [mulLanes, ih]

@[simp] theorem length_addLanes (d : Draw) (k : Nat) (a b : List Cplx) :
    (addLanes d k a b).length = min a.length b.length := by
  induction a generalizing k b with
  | nil => simp [addLanes]
  | cons x a ih => cases b with
    | nil => simp [addLanes]
    | cons y b => simp [addLanes, ih]

theorem getElem_mulLanes (d : Draw) (j : Nat) (a b : List Cplx) {k : Nat} (ha : k < a.length)
    (hb : k < b.length) : (mulLanes d j a b)[k]? = some (cmul ((j + k) :: d) a[k] b[k]) := by
  induction a generalizing j b k with
  | nil => simp at ha
  | cons x a ih =>
    cases b with
    | nil => simp at hb
    | cons y b =>
      cases k with
      | zero => simp [mulLanes]
      | succ k =>
        have := ih (j + 1) b (k := k) (by simpa using ha) (by simpa using hb)
        simp only [mulLanes, List.getElem?_cons_succ, this, List.getElem_cons_succ]
        rw [show j + 1 + k = j + (k + 1) by omega]

theorem getElem_addLanes (d : Draw) (j : Nat) (a b : List Cplx) {k : Nat} (ha : k < a.length)
    (hb : k < b.length) : (addLanes d j a b)[k]? = some (cadd ((j + k) :: d) a[k] b[k]) := by
  induction a generalizing j b k with
  | nil => simp at ha
  | cons x a ih =>
    cases b with
    | nil => simp at hb
    | cons y b =>
      cases k with
      | zero => simp [addLanes]
      | succ k =>
        have := ih (j + 1) b (k := k) (by simpa using ha) (by simpa using hb)
        simp only [addLanes, List.getElem?_cons_succ, this, List.getElem_cons_succ]
        rw [show j + 1 + k = j + (k + 1) by omega]

/-! ## The index remapper -/

@[simp] theorem length_scatter (W : Nat) (target : Nat → Target) (i : Nat) (a dst : List Coef) :
    (scatter W target i a dst).length = dst.length := by
  induction a generalizing i dst <;> simp_all [scatter]

@[simp] theorem length_remap (W N : Nat) (target : Nat → Target) (a : List Coef) :
    (remap W N target a).length = N := by
  simp [remap]

@[simp] theorem length_permuteLanes {α : Type} (conj : α → α) (zero : α) (logn d : Nat) (c : List α) :
    (permuteLanes conj zero logn d c).length = 2 ^ (logn - 1) := by
  simp [permuteLanes]

/-! ## Multiply -/

@[simp] theorem length_addAt (W g : Nat) (m r : List Coef) : (addAt W g m r).length = r.length := by
  induction r generalizing g m with
  | nil => simp [addAt]
  | cons y r ih => cases m <;> cases g <;> simp [addAt, ih]

theorem length_school (W : Nat) (x y : List Coef) : (school W x y).length = x.length + y.length := by
  induction x with
  | nil => simp [school]
  | cons u x ih => simp [school, ih]; omega

/-- A Karatsuba node of size h = 2^l returns 2h patterns (R171). -/
theorem length_kmul (W kt l : Nat) (x y : List Coef) (hx : x.length = 2 ^ l) (hy : y.length = 2 ^ l) :
    (kmul W kt l x y).length = 2 ^ (l + 1) := by
  induction l generalizing x y with
  | zero => rw [kmul, length_school, hx, hy]; rfl
  | succ l ih =>
    rw [kmul]
    split
    · rw [length_school, hx, hy]; ring
    · have two : (2 : Nat) ^ (l + 1) = 2 ^ l + 2 ^ l := by ring
      have ht : ∀ z : List Coef, z.length = 2 ^ (l + 1) →
          (z.take (2 ^ l)).length = 2 ^ l ∧ (z.drop (2 ^ l)).length = 2 ^ l := by
        intro z hz; simp [hz, two]
      simp only [assemble, length_addAt, List.length_append, ih _ _ (ht x hx).1 (ht y hy).1,
        ih _ _ (ht x hx).2 (ht y hy).2]
      ring

/-- The Karatsuba product of two Polys has N coefficients. -/
theorem length_karaProduct (c : Conf) (a q : List Coef) (ha : a.length = c.degree)
    (hq : q.length = c.degree) : (karaProduct c a q).length = c.degree := by
  have := length_kmul c.width c.logKt.toNat c.log a q ha hq
  simp only [karaProduct, negacyclicFold, List.length_zipWith, List.length_take, List.length_drop, this,
    Conf.degree, pow_succ]
  omega

@[simp] theorem length_recombine (W b N : Nat) (d : Draw) (Rz : List (List (Option Int))) :
    (recombine W b N d Rz).length = N := by
  simp [recombine]

/-- The product of two Polys has N coefficients, under either strategy. -/
theorem length_product (c : Conf) (d : Draw) (short : Bool) (a q : List Coef) (ha : a.length = c.degree)
    (hq : q.length = c.degree) : (product c d short a q).length = c.degree := by
  unfold product
  split
  · exact length_karaProduct c a q ha hq
  · simp [splitProduct]

end Sys2Proof.Machine
end

