-- ==== Sys2Proof/Laws/Memory.lean ====
section
/-! SUPPORT. Element-addressed spaces: read after write, the canonical form, and what follows from it. -/

namespace Sys2Proof.Machine.Memory

variable {α : Type}

@[simp] theorem read_nil (a : Nat) : Memory.read ([] : Memory α) a = none := rfl

theorem read_cons (k : Nat) (x : α) (r : Memory α) (a : Nat) :
    Memory.read ((k, x) :: r) a = if a = k then some x else Memory.read r a := rfl

@[simp] theorem read_write_same (m : Memory α) (a : Nat) (v : α) : (m.write a v).read a = some v := by
  induction m with
  | nil => simp [Memory.write, Memory.read]
  | cons e r ih =>
    obtain ⟨k, x⟩ := e
    simp only [Memory.write]
    split
    · simp [Memory.read]
    · split <;> simp_all [Memory.read]

theorem read_write_other (m : Memory α) {a b : Nat} (v : α) (h : b ≠ a) :
    (m.write a v).read b = m.read b := by
  induction m with
  | nil => simp [Memory.write, Memory.read, h]
  | cons e r ih =>
    obtain ⟨k, x⟩ := e
    simp only [Memory.write]
    split
    · simp [Memory.read, h]
    · split
      · next hk => subst hk; simp [Memory.read, h]
      · simp [Memory.read, ih]

/-- Read after write, both cases. -/
theorem read_write (m : Memory α) (a b : Nat) (v : α) :
    (m.write a v).read b = if b = a then some v else m.read b := by
  split
  · next h => rw [h, read_write_same]
  · next h => exact read_write_other m v h

theorem read_free_other (m : Memory α) {a b : Nat} (h : b ≠ a) : (m.free a).read b = m.read b := by
  induction m with
  | nil => rfl
  | cons e r ih =>
    obtain ⟨k, x⟩ := e
    simp only [Memory.free]
    split
    · next hk => subst hk; simp [Memory.read, h]
    · simp [Memory.read, ih]

theorem wf_cons {k : Nat} {x : α} {r : Memory α} :
    Memory.wf ((k, x) :: r) = true ↔ (∀ e ∈ r, k < e.1) ∧ Memory.wf r = true := by
  simp [Memory.wf]

theorem mem_write {m : Memory α} {a : Nat} {v : α} {e : Nat × α} (h : e ∈ m.write a v) :
    e = (a, v) ∨ e ∈ m := by
  induction m with
  | nil => simpa [Memory.write] using h
  | cons f r ih =>
    obtain ⟨k, x⟩ := f
    simp only [Memory.write] at h
    split at h
    · simpa using h
    · split at h
      · rcases List.mem_cons.1 h with h | h
        · exact .inl h
        · exact .inr (List.mem_cons_of_mem _ h)
      · rcases List.mem_cons.1 h with h | h
        · exact .inr (h ▸ List.mem_cons_self ..)
        · exact (ih h).imp_right (List.mem_cons_of_mem _)

theorem mem_free {m : Memory α} {a : Nat} {e : Nat × α} (h : e ∈ m.free a) : e ∈ m := by
  induction m with
  | nil => simp [Memory.free] at h
  | cons f r ih =>
    obtain ⟨k, x⟩ := f
    simp only [Memory.free] at h
    split at h
    · exact List.mem_cons_of_mem _ h
    · rcases List.mem_cons.1 h with h | h
      · exact h ▸ List.mem_cons_self ..
      · exact List.mem_cons_of_mem _ (ih h)

/-- A write keeps the canonical form. -/
theorem wf_write {m : Memory α} (a : Nat) (v : α) (h : m.wf = true) : (m.write a v).wf = true := by
  induction m with
  | nil => simp [Memory.write, Memory.wf]
  | cons e r ih =>
    obtain ⟨k, x⟩ := e
    have h' := wf_cons.1 h
    simp only [Memory.write]
    split
    · next hlt =>
      refine wf_cons.2 ⟨fun e he => ?_, h⟩
      rcases List.mem_cons.1 he with rfl | he
      · exact hlt
      · exact lt_trans hlt (h'.1 e he)
    · split
      · next hk => subst hk; exact wf_cons.2 h'
      · next h1 h2 =>
        refine wf_cons.2 ⟨fun e he => ?_, ih h'.2⟩
        rcases mem_write he with rfl | he
        · show k < a
          omega
        · exact h'.1 e he

/-- Freeing keeps the canonical form. -/
theorem wf_free {m : Memory α} (a : Nat) (h : m.wf = true) : (m.free a).wf = true := by
  induction m with
  | nil => rfl
  | cons e r ih =>
    obtain ⟨k, x⟩ := e
    have h' := wf_cons.1 h
    simp only [Memory.free]
    split
    · exact h'.2
    · exact wf_cons.2 ⟨fun e he => h'.1 e (mem_free he), ih h'.2⟩

/-- In a canonical space a freed address is absent. -/
theorem read_free_same {m : Memory α} (a : Nat) (h : m.wf = true) : (m.free a).read a = none := by
  have absent : ∀ r : Memory α, (∀ e ∈ r, a < e.1) → r.read a = none := by
    intro r hr
    induction r with
    | nil => rfl
    | cons e r ih =>
      obtain ⟨k, x⟩ := e
      have : a < k := hr (k, x) (List.mem_cons_self ..)
      rw [read_cons, if_neg (by omega)]
      exact ih fun e he => hr e (List.mem_cons_of_mem _ he)
  induction m with
  | nil => rfl
  | cons e r ih =>
    obtain ⟨k, x⟩ := e
    have h' := wf_cons.1 h
    simp only [Memory.free]
    split
    · next hk => subst hk; exact absent r h'.1
    · next hk => rw [read_cons, if_neg hk]; exact ih h'.2

/-- What is read is an entry of the list. -/
theorem mem_of_read {m : Memory α} {a : Nat} {v : α} (h : m.read a = some v) : (a, v) ∈ m := by
  induction m with
  | nil => simp at h
  | cons e r ih =>
    obtain ⟨k, x⟩ := e
    rw [read_cons] at h
    split at h
    · next hk => subst hk; cases h; exact List.mem_cons_self ..
    · exact List.mem_cons_of_mem _ (ih h)

/-- In a canonical space every entry of the list is what its address reads as. -/
theorem read_of_mem {m : Memory α} {a : Nat} {v : α} (hw : m.wf = true) (h : (a, v) ∈ m) :
    m.read a = some v := by
  induction m with
  | nil => simp at h
  | cons e r ih =>
    obtain ⟨k, x⟩ := e
    have h' := wf_cons.1 hw
    rcases List.mem_cons.1 h with h | h
    · cases h; simp [read_cons]
    · have : k < a := h'.1 _ h
      rw [read_cons, if_neg (by omega)]
      exact ih h'.2 h

/-- A property of all entries survives a write of an entry that has it. -/
theorem all_write {m : Memory α} {p : Nat × α → Bool} {a : Nat} {v : α} (h : m.all p = true)
    (hv : p (a, v) = true) : (m.write a v).all p = true := by
  rw [List.all_eq_true] at h ⊢
  intro e he
  rcases mem_write he with rfl | he
  · exact hv
  · exact h e he

/-- A property of all entries survives freeing. -/
theorem all_free {m : Memory α} {p : Nat × α → Bool} {a : Nat} (h : m.all p = true) :
    (m.free a).all p = true := by
  rw [List.all_eq_true] at h ⊢
  exact fun e he => h e (mem_free he)

/-- Two canonical spaces that read alike everywhere are equal: equal memories are equal data. -/
theorem ext_of_read {m m' : Memory α} (hm : m.wf = true) (hm' : m'.wf = true)
    (h : ∀ a, m.read a = m'.read a) : m = m' := by
  induction m generalizing m' with
  | nil =>
    cases m' with
    | nil => rfl
    | cons e r => obtain ⟨k, x⟩ := e; simpa [read_cons] using h k
  | cons e r ih =>
    obtain ⟨k, x⟩ := e
    cases m' with
    | nil => simpa [read_cons] using h k
    | cons e' r' =>
      obtain ⟨k', x'⟩ := e'
      have w := wf_cons.1 hm
      have w' := wf_cons.1 hm'
      have hk : (k, x) ∈ (k', x') :: r' := mem_of_read (by rw [← h k]; simp [read_cons])
      have hk' : (k', x') ∈ (k, x) :: r := mem_of_read (by rw [h k']; simp [read_cons])
      have e : k = k' ∧ x = x' := by
        rcases List.mem_cons.1 hk with h1 | h1
        · exact ⟨congrArg Prod.fst h1, congrArg Prod.snd h1⟩
        · rcases List.mem_cons.1 hk' with h2 | h2
          · exact ⟨(congrArg Prod.fst h2).symm, (congrArg Prod.snd h2).symm⟩
          · have l1 : k' < k := w'.1 _ h1
            have l2 : k < k' := w.1 _ h2
            omega
      obtain ⟨rfl, rfl⟩ := e
      congr 1
      refine ih w.2 w'.2 fun a => ?_
      by_cases ha : a = k
      · subst ha
        have none_of : ∀ q : Memory α, (∀ e ∈ q, a < e.1) → q.read a = none := by
          intro q hq
          cases hr : q.read a with
          | none => rfl
          | some v => exact absurd (hq _ (mem_of_read hr)) (lt_irrefl _)
        rw [none_of r w.1, none_of r' w'.1]
      · simpa [read_cons, ha] using h a

end Sys2Proof.Machine.Memory

namespace Sys2Proof.Machine

/-- The spaces of the state after reset are in canonical form. -/
theorem State.reset_wf :
    State.reset.cmd.wf = true ∧ State.reset.polys.wf = true ∧ State.reset.freqs.wf = true := by decide

end Sys2Proof.Machine
end

