-- ==== Sys2Proof/Laws/State.lean ====
section
/-! SUPPORT. One lemma per field of State and per named update: no later proof unfolds an update. -/

namespace Sys2Proof.Machine

/-! ### `State.advance` -/
@[simp] theorem State.advance_conf (s : State) : s.advance.conf = s.conf := rfl
@[simp] theorem State.advance_runstate (s : State) : s.advance.runstate = s.runstate := rfl
@[simp] theorem State.advance_errcode (s : State) : s.advance.errcode = s.errcode := rfl
@[simp] theorem State.advance_cp (s : State) : s.advance.cp = s.cp + 1 := rfl
@[simp] theorem State.advance_cmd (s : State) : s.advance.cmd = s.cmd := rfl
@[simp] theorem State.advance_polys (s : State) : s.advance.polys = s.polys := rfl
@[simp] theorem State.advance_freqs (s : State) : s.advance.freqs = s.freqs := rfl
@[simp] theorem State.advance_caps (s : State) : s.advance.caps = s.caps := rfl
@[simp] theorem State.advance_draws (s : State) : s.advance.draws = s.draws := rfl
@[simp] theorem State.advance_turns (s : State) : s.advance.turns = s.turns := rfl
@[simp] theorem State.advance_hostData (s : State) : s.advance.hostData = s.hostData := rfl

/-! ### `State.raise` -/
@[simp] theorem State.raise_conf (s : State) (e : ErrCode) : (s.raise e).conf = s.conf := rfl
@[simp] theorem State.raise_runstate (s : State) (e : ErrCode) : (s.raise e).runstate = .err := rfl
@[simp] theorem State.raise_errcode (s : State) (e : ErrCode) : (s.raise e).errcode = e := rfl
@[simp] theorem State.raise_cp (s : State) (e : ErrCode) : (s.raise e).cp = s.cp := rfl
@[simp] theorem State.raise_cmd (s : State) (e : ErrCode) : (s.raise e).cmd = s.cmd := rfl
@[simp] theorem State.raise_polys (s : State) (e : ErrCode) : (s.raise e).polys = s.polys := rfl
@[simp] theorem State.raise_freqs (s : State) (e : ErrCode) : (s.raise e).freqs = s.freqs := rfl
@[simp] theorem State.raise_caps (s : State) (e : ErrCode) : (s.raise e).caps = s.caps := rfl
@[simp] theorem State.raise_draws (s : State) (e : ErrCode) : (s.raise e).draws = s.draws := rfl
@[simp] theorem State.raise_turns (s : State) (e : ErrCode) : (s.raise e).turns = s.turns := rfl
@[simp] theorem State.raise_hostData (s : State) (e : ErrCode) : (s.raise e).hostData = s.hostData := rfl

/-! ### `State.stop` -/
@[simp] theorem State.stop_conf (s : State) : s.stop.conf = s.conf := rfl
@[simp] theorem State.stop_runstate (s : State) : s.stop.runstate = .done := rfl
@[simp] theorem State.stop_errcode (s : State) : s.stop.errcode = s.errcode := rfl
@[simp] theorem State.stop_cp (s : State) : s.stop.cp = s.cp := rfl
@[simp] theorem State.stop_cmd (s : State) : s.stop.cmd = s.cmd := rfl
@[simp] theorem State.stop_polys (s : State) : s.stop.polys = s.polys := rfl
@[simp] theorem State.stop_freqs (s : State) : s.stop.freqs = s.freqs := rfl
@[simp] theorem State.stop_caps (s : State) : s.stop.caps = s.caps := rfl
@[simp] theorem State.stop_draws (s : State) : s.stop.draws = s.draws := rfl
@[simp] theorem State.stop_turns (s : State) : s.stop.turns = s.turns := rfl
@[simp] theorem State.stop_hostData (s : State) : s.stop.hostData = s.hostData := rfl

/-! ### `State.nextDraw` -/
@[simp] theorem State.nextDraw_conf (s : State) : s.nextDraw.conf = s.conf := rfl
@[simp] theorem State.nextDraw_runstate (s : State) : s.nextDraw.runstate = s.runstate := rfl
@[simp] theorem State.nextDraw_errcode (s : State) : s.nextDraw.errcode = s.errcode := rfl
@[simp] theorem State.nextDraw_cp (s : State) : s.nextDraw.cp = s.cp := rfl
@[simp] theorem State.nextDraw_cmd (s : State) : s.nextDraw.cmd = s.cmd := rfl
@[simp] theorem State.nextDraw_polys (s : State) : s.nextDraw.polys = s.polys := rfl
@[simp] theorem State.nextDraw_freqs (s : State) : s.nextDraw.freqs = s.freqs := rfl
@[simp] theorem State.nextDraw_caps (s : State) : s.nextDraw.caps = s.caps := rfl
@[simp] theorem State.nextDraw_draws (s : State) : s.nextDraw.draws = s.draws + 1 := rfl
@[simp] theorem State.nextDraw_turns (s : State) : s.nextDraw.turns = s.turns := rfl
@[simp] theorem State.nextDraw_hostData (s : State) : s.nextDraw.hostData = s.hostData := rfl

/-! ### `State.writePoly` -/
@[simp] theorem State.writePoly_conf (s : State) (n : PolySlot) (a : List Coef) : (s.writePoly n a).conf = s.conf := rfl
@[simp] theorem State.writePoly_runstate (s : State) (n : PolySlot) (a : List Coef) : (s.writePoly n a).runstate = s.runstate := rfl
@[simp] theorem State.writePoly_errcode (s : State) (n : PolySlot) (a : List Coef) : (s.writePoly n a).errcode = s.errcode := rfl
@[simp] theorem State.writePoly_cp (s : State) (n : PolySlot) (a : List Coef) : (s.writePoly n a).cp = s.cp := rfl
@[simp] theorem State.writePoly_cmd (s : State) (n : PolySlot) (a : List Coef) : (s.writePoly n a).cmd = s.cmd := rfl
@[simp] theorem State.writePoly_polys (s : State) (n : PolySlot) (a : List Coef) : (s.writePoly n a).polys = s.polys.write n.toNat ⟨s.conf.logn, a⟩ := rfl
@[simp] theorem State.writePoly_freqs (s : State) (n : PolySlot) (a : List Coef) : (s.writePoly n a).freqs = s.freqs := rfl
@[simp] theorem State.writePoly_caps (s : State) (n : PolySlot) (a : List Coef) : (s.writePoly n a).caps = s.caps := rfl
@[simp] theorem State.writePoly_draws (s : State) (n : PolySlot) (a : List Coef) : (s.writePoly n a).draws = s.draws := rfl
@[simp] theorem State.writePoly_turns (s : State) (n : PolySlot) (a : List Coef) : (s.writePoly n a).turns = s.turns := rfl
@[simp] theorem State.writePoly_hostData (s : State) (n : PolySlot) (a : List Coef) : (s.writePoly n a).hostData = s.hostData := rfl

/-! ### `State.writeFreq` -/
@[simp] theorem State.writeFreq_conf (s : State) (n : FreqSlot) (c : List Cplx) : (s.writeFreq n c).conf = s.conf := rfl
@[simp] theorem State.writeFreq_runstate (s : State) (n : FreqSlot) (c : List Cplx) : (s.writeFreq n c).runstate = s.runstate := rfl
@[simp] theorem State.writeFreq_errcode (s : State) (n : FreqSlot) (c : List Cplx) : (s.writeFreq n c).errcode = s.errcode := rfl
@[simp] theorem State.writeFreq_cp (s : State) (n : FreqSlot) (c : List Cplx) : (s.writeFreq n c).cp = s.cp := rfl
@[simp] theorem State.writeFreq_cmd (s : State) (n : FreqSlot) (c : List Cplx) : (s.writeFreq n c).cmd = s.cmd := rfl
@[simp] theorem State.writeFreq_polys (s : State) (n : FreqSlot) (c : List Cplx) : (s.writeFreq n c).polys = s.polys := rfl
@[simp] theorem State.writeFreq_freqs (s : State) (n : FreqSlot) (c : List Cplx) : (s.writeFreq n c).freqs = s.freqs.write n.toNat ⟨s.conf.logn, c⟩ := rfl
@[simp] theorem State.writeFreq_caps (s : State) (n : FreqSlot) (c : List Cplx) : (s.writeFreq n c).caps = s.caps := rfl
@[simp] theorem State.writeFreq_draws (s : State) (n : FreqSlot) (c : List Cplx) : (s.writeFreq n c).draws = s.draws := rfl
@[simp] theorem State.writeFreq_turns (s : State) (n : FreqSlot) (c : List Cplx) : (s.writeFreq n c).turns = s.turns := rfl
@[simp] theorem State.writeFreq_hostData (s : State) (n : FreqSlot) (c : List Cplx) : (s.writeFreq n c).hostData = s.hostData := rfl

/-! ### `State.construct` -/
@[simp] theorem State.construct_conf (s : State) (c : Conf) : (s.construct c).conf = c := rfl
@[simp] theorem State.construct_runstate (s : State) (c : Conf) : (s.construct c).runstate = s.runstate := rfl
@[simp] theorem State.construct_errcode (s : State) (c : Conf) : (s.construct c).errcode = s.errcode := rfl
@[simp] theorem State.construct_cp (s : State) (c : Conf) : (s.construct c).cp = s.cp := rfl
@[simp] theorem State.construct_cmd (s : State) (c : Conf) : (s.construct c).cmd = s.cmd := rfl
@[simp] theorem State.construct_polys (s : State) (c : Conf) : (s.construct c).polys = [] := rfl
@[simp] theorem State.construct_freqs (s : State) (c : Conf) : (s.construct c).freqs = [] := rfl
@[simp] theorem State.construct_caps (s : State) (c : Conf) : (s.construct c).caps = s.caps := rfl
@[simp] theorem State.construct_draws (s : State) (c : Conf) : (s.construct c).draws = s.draws := rfl
@[simp] theorem State.construct_turns (s : State) (c : Conf) : (s.construct c).turns = s.turns := rfl
@[simp] theorem State.construct_hostData (s : State) (c : Conf) : (s.construct c).hostData = s.hostData := rfl

/-! ### `State.softReset` -/
@[simp] theorem State.softReset_conf (s : State) : s.softReset.conf = Conf.reset := rfl
@[simp] theorem State.softReset_runstate (s : State) : s.softReset.runstate = .idle := rfl
@[simp] theorem State.softReset_errcode (s : State) : s.softReset.errcode = ErrCode.none := rfl
@[simp] theorem State.softReset_cp (s : State) : s.softReset.cp = 0 := rfl
@[simp] theorem State.softReset_cmd (s : State) : s.softReset.cmd = s.cmd := rfl
@[simp] theorem State.softReset_polys (s : State) : s.softReset.polys = [] := rfl
@[simp] theorem State.softReset_freqs (s : State) : s.softReset.freqs = [] := rfl
@[simp] theorem State.softReset_caps (s : State) : s.softReset.caps = s.caps := rfl
@[simp] theorem State.softReset_draws (s : State) : s.softReset.draws = s.draws := rfl
@[simp] theorem State.softReset_turns (s : State) : s.softReset.turns = s.turns := rfl
@[simp] theorem State.softReset_hostData (s : State) : s.softReset.hostData = s.hostData := rfl

/-! ### `State.hardReset` -/
@[simp] theorem State.hardReset_conf (s : State) : s.hardReset.conf = Conf.reset := rfl
@[simp] theorem State.hardReset_runstate (s : State) : s.hardReset.runstate = .idle := rfl
@[simp] theorem State.hardReset_errcode (s : State) : s.hardReset.errcode = ErrCode.none := rfl
@[simp] theorem State.hardReset_cp (s : State) : s.hardReset.cp = 0 := rfl
@[simp] theorem State.hardReset_cmd (s : State) : s.hardReset.cmd = [] := rfl
@[simp] theorem State.hardReset_polys (s : State) : s.hardReset.polys = [] := rfl
@[simp] theorem State.hardReset_freqs (s : State) : s.hardReset.freqs = [] := rfl
@[simp] theorem State.hardReset_caps (s : State) : s.hardReset.caps = s.caps := rfl
@[simp] theorem State.hardReset_draws (s : State) : s.hardReset.draws = s.draws := rfl
@[simp] theorem State.hardReset_turns (s : State) : s.hardReset.turns = s.turns := rfl
@[simp] theorem State.hardReset_hostData (s : State) : s.hardReset.hostData = s.hostData := rfl

/-! ### `State.go` -/
@[simp] theorem State.go_conf (s : State) : s.go.conf = s.conf := by
  unfold State.go; split <;> rfl
@[simp] theorem State.go_runstate (s : State) : s.go.runstate = .busy := by
  unfold State.go; split <;> simp_all
theorem State.go_errcode (s : State) :
    s.go.errcode = if s.runstate = .busy then s.errcode else ErrCode.none := by
  unfold State.go; split <;> simp_all
@[simp] theorem State.go_cp (s : State) : s.go.cp = s.cp := by
  unfold State.go; split <;> rfl
@[simp] theorem State.go_cmd (s : State) : s.go.cmd = s.cmd := by
  unfold State.go; split <;> rfl
@[simp] theorem State.go_polys (s : State) : s.go.polys = s.polys := by
  unfold State.go; split <;> rfl
@[simp] theorem State.go_freqs (s : State) : s.go.freqs = s.freqs := by
  unfold State.go; split <;> rfl
@[simp] theorem State.go_caps (s : State) : s.go.caps = s.caps := by
  unfold State.go; split <;> rfl
@[simp] theorem State.go_draws (s : State) : s.go.draws = s.draws := by
  unfold State.go; split <;> rfl
@[simp] theorem State.go_turns (s : State) : s.go.turns = s.turns := by
  unfold State.go; split <;> rfl
@[simp] theorem State.go_hostData (s : State) : s.go.hostData = s.hostData := by
  unfold State.go; split <;> rfl

/-! ### What the readers of a state see of an update -/

@[simp] theorem State.slotExists_advance (s : State) (x : Slot) : s.advance.slotExists x = s.slotExists x := by
  cases x <;> rfl
@[simp] theorem State.tagLogn_advance (s : State) (x : Slot) : s.advance.tagLogn x = s.tagLogn x := by
  cases x <;> rfl
@[simp] theorem State.coefs_advance (s : State) (n : PolySlot) : s.advance.coefs n = s.coefs n := rfl
@[simp] theorem State.lanes_advance (s : State) (n : FreqSlot) : s.advance.lanes n = s.lanes n := rfl
@[simp] theorem State.slotExists_raise (s : State) (e : ErrCode) (x : Slot) : (s.raise e).slotExists x = s.slotExists x := by
  cases x <;> rfl
@[simp] theorem State.tagLogn_raise (s : State) (e : ErrCode) (x : Slot) : (s.raise e).tagLogn x = s.tagLogn x := by
  cases x <;> rfl
@[simp] theorem State.coefs_raise (s : State) (e : ErrCode) (n : PolySlot) : (s.raise e).coefs n = s.coefs n := rfl
@[simp] theorem State.lanes_raise (s : State) (e : ErrCode) (n : FreqSlot) : (s.raise e).lanes n = s.lanes n := rfl
@[simp] theorem State.slotExists_stop (s : State) (x : Slot) : s.stop.slotExists x = s.slotExists x := by
  cases x <;> rfl
@[simp] theorem State.tagLogn_stop (s : State) (x : Slot) : s.stop.tagLogn x = s.tagLogn x := by
  cases x <;> rfl
@[simp] theorem State.coefs_stop (s : State) (n : PolySlot) : s.stop.coefs n = s.coefs n := rfl
@[simp] theorem State.lanes_stop (s : State) (n : FreqSlot) : s.stop.lanes n = s.lanes n := rfl
@[simp] theorem State.slotExists_nextDraw (s : State) (x : Slot) : s.nextDraw.slotExists x = s.slotExists x := by
  cases x <;> rfl
@[simp] theorem State.tagLogn_nextDraw (s : State) (x : Slot) : s.nextDraw.tagLogn x = s.tagLogn x := by
  cases x <;> rfl
@[simp] theorem State.coefs_nextDraw (s : State) (n : PolySlot) : s.nextDraw.coefs n = s.coefs n := rfl
@[simp] theorem State.lanes_nextDraw (s : State) (n : FreqSlot) : s.nextDraw.lanes n = s.lanes n := rfl

end Sys2Proof.Machine
end

