-- ==== Sys2Proof/Laws/Ops.lean ====
section
/-! SUPPORT. Once for each shared operation: everything it can do. -/

namespace Sys2Proof.Machine

/-! ## The checks (R222) -/

theorem State.holds_iff (s : State) (x : Slot) :
    s.holds x = true ↔ s.slotExists x = true ∧ s.tagLogn x = some s.conf.logn := by
  simp [State.holds]

theorem State.takes_iff (s : State) (x : Slot) :
    s.takes x = true ↔ s.slotExists x = true ∧ (s.tagLogn x = none ∨ s.tagLogn x = some s.conf.logn) := by
  simp [State.takes]

/-- The model's check for `BadSlot` is the cause R221 names. -/
theorem State.badSlot_iff (s : State) (o : Operands) : s.badSlot o = true ↔ s.BadSlotCause o := by
  unfold State.badSlot State.BadSlotCause State.badOperand
  simp [Option.isNone_iff_eq_none, or_assoc]

/-- The model's check for `DegreeMismatch` is the cause R221 names. -/
theorem State.degreeMismatch_iff (s : State) (o : Operands) :
    s.degreeMismatch o = true ↔ s.DegreeMismatchCause o := by
  have one : ∀ x, s.wrongDegree x = true ↔ ∃ l, s.tagLogn x = some l ∧ l ≠ s.conf.logn := by
    intro x
    unfold State.wrongDegree
    cases s.tagLogn x <;> simp
  unfold State.degreeMismatch State.DegreeMismatchCause
  simp only [Bool.or_eq_true, List.any_eq_true, one, List.mem_cons, exists_eq_or_imp]

/-- A ready operand list passes checks (2), (4) and (5) of R222. -/
theorem State.ringError_of_ready {s : State} {o : Operands} (h : s.ready o = true) (extra : Option ErrCode) :
    s.ringError o extra = extra := by
  have tag_of : ∀ x, s.holds x = true → s.badOperand true x = false ∧ s.wrongDegree x = false := by
    intro x hx
    obtain ⟨h1, h2⟩ := (s.holds_iff x).1 hx
    simp [State.badOperand, State.wrongDegree, h1, h2]
  have take_of : s.takes o.rd = true → s.badOperand false o.rd = false ∧ s.wrongDegree o.rd = false := by
    intro hx
    obtain ⟨h1, h2 | h2⟩ := (s.takes_iff o.rd).1 hx <;>
      simp [State.badOperand, State.wrongDegree, h1, h2]
  unfold State.ready at h
  simp only [Bool.and_eq_true, List.all_eq_true] at h
  obtain ⟨⟨hc, hd⟩, hs⟩ := h
  have hd' : s.badOperand o.readsRd o.rd = false ∧ s.wrongDegree o.rd = false := by
    cases hr : o.readsRd
    · rw [hr] at hd; exact take_of hd
    · rw [hr] at hd; exact tag_of _ hd
  have hb : s.badSlot o = false := by
    unfold State.badSlot
    rw [hd'.1, Bool.false_or, List.any_eq_false]
    intro x hx
    rw [(tag_of x (hs x hx)).1]; decide
  have hm : s.degreeMismatch o = false := by
    unfold State.degreeMismatch
    rw [hd'.2, Bool.false_or, List.any_eq_false]
    intro x hx
    rw [(tag_of x (hs x hx)).2]; decide
  simp [State.ringError, hc, hb, hm]

/-! ## One ring command -/

/-- A ring command stops with the first error of its checks or completes. -/
theorem ringCommand_eq (s : State) (o : Operands) (extra : Option ErrCode) (effect : State) :
    ringCommand s o extra effect
      = .next (match s.ringError o extra with
        | some e => s.raise e
        | none => effect.advance) := by
  unfold ringCommand; split <;> simp_all

/-- Everything a ring command can do. -/
theorem ringCommand_cases {s t : State} {o : Operands} {extra : Option ErrCode} {effect : State}
    (h : ringCommand s o extra effect = .next t) :
    (∃ e, s.ringError o extra = some e ∧ t = s.raise e)
      ∨ (s.ringError o extra = none ∧ t = effect.advance) := by
  rw [ringCommand_eq, Host.Outcome.next.injEq] at h
  subst h
  cases hr : s.ringError o extra with
  | some e => exact .inl ⟨e, rfl, rfl⟩
  | none => exact .inr ⟨rfl, rfl⟩

/-- With ready operands and no error of its own a ring command completes. -/
theorem ringCommand_of_ready {s : State} {o : Operands} (h : s.ready o = true) (effect : State) :
    ringCommand s o none effect = .next effect.advance := by
  rw [ringCommand_eq, State.ringError_of_ready h]

/-- The error of a ring command is never code 0 when its own checks never give it. -/
theorem State.ringError_ne_none {s : State} {o : Operands} {extra : Option ErrCode} {e : ErrCode}
    (hx : extra ≠ some ErrCode.none) (h : s.ringError o extra = some e) : e ≠ ErrCode.none := by
  unfold State.ringError at h
  split at h
  · cases h; decide
  · split at h
    · cases h; decide
    · split at h
      · cases h; decide
      · rintro rfl; exact hx h

theorem overlapError_ne_none (rd ra : BitVec 8) : overlapError rd ra ≠ some ErrCode.none := by
  unfold overlapError; split <;> decide

theorem automorphismError_ne_none (rd ra : BitVec 8) (imm : BitVec 64) :
    automorphismError rd ra imm ≠ some ErrCode.none := by
  unfold automorphismError
  split
  · decide
  · exact overlapError_ne_none rd ra

/-! ## What a completed command leaves -/

/-- A command that writes a Poly slot meets the frame of `PolyWritten`. -/
theorem polyWritten_of_list {s : State} {pd : PolySlot} {a : List Coef} {f : Nat → Coef}
    (h : a = (List.range s.conf.degree).map f) : PolyWritten s (s.writePoly pd a).advance pd f where
  frame := rfl
  others k hk := Memory.read_write_other _ _ hk
  written := by
    subst h; simp only [State.advance_polys, State.writePoly_polys, Memory.read_write_same]

/-- The same with a draw taken. -/
theorem polyWritten_of_list_draw {s : State} {pd : PolySlot} {a : List Coef} {f : Nat → Coef}
    (h : a = (List.range s.conf.degree).map f) :
    PolyWritten s (s.writePoly pd a).nextDraw.advance pd f where
  frame := rfl
  others k hk := Memory.read_write_other _ _ hk
  written := by
    subst h
    simp only [State.advance_polys, State.nextDraw_polys, State.writePoly_polys, Memory.read_write_same]

/-- A command that writes a FrequencyPoly slot meets the frame of `FreqWritten`. -/
theorem freqWritten_of_list {s : State} {fd : FreqSlot} {c : List Cplx} {f : Nat → Cplx}
    (h : c = (List.range s.conf.laneCount).map f) : FreqWritten s (s.writeFreq fd c).advance fd f where
  frame := rfl
  others k hk := Memory.read_write_other _ _ hk
  written := by
    subst h; simp only [State.advance_freqs, State.writeFreq_freqs, Memory.read_write_same]

/-- The same with a draw taken. -/
theorem freqWritten_of_list_draw {s : State} {fd : FreqSlot} {c : List Cplx} {f : Nat → Cplx}
    (h : c = (List.range s.conf.laneCount).map f) :
    FreqWritten s (s.writeFreq fd c).nextDraw.advance fd f where
  frame := rfl
  others k hk := Memory.read_write_other _ _ hk
  written := by
    subst h
    simp only [State.advance_freqs, State.nextDraw_freqs, State.writeFreq_freqs, Memory.read_write_same]

/-! ## What a legal state says of its slots -/

/-- A slot that holds a Poly of the configured degree: N coefficients, each a W-bit pattern. -/
theorem State.Inv.coefs_of_holds {s : State} (hi : s.Inv) {n : PolySlot} (h : s.holds (.poly n) = true) :
    (s.coefs n).length = s.conf.degree ∧ ∀ c ∈ s.coefs n, c.toNat < 2 ^ s.conf.width := by
  obtain ⟨-, ht⟩ := (s.holds_iff _).1 h
  simp only [State.tagLogn, Option.map_eq_some_iff] at ht
  obtain ⟨p, hp, hl⟩ := ht
  have := List.all_eq_true.1 hi.polysLegal _ (Memory.mem_of_read hp)
  simp only [Poly.legal, Bool.and_eq_true, decide_eq_true_eq, List.all_eq_true] at this
  obtain ⟨-, ⟨-, -, hlen⟩, hc⟩ := this
  simp only [State.coefs, hp]
  exact ⟨by rw [hlen, hl]; rfl, hc⟩

/-- A slot that holds a FrequencyPoly of the configured degree: n lanes. -/
theorem State.Inv.lanes_of_holds {s : State} (hi : s.Inv) {n : FreqSlot} (h : s.holds (.freq n) = true) :
    (s.lanes n).length = s.conf.laneCount := by
  obtain ⟨-, ht⟩ := (s.holds_iff _).1 h
  simp only [State.tagLogn, Option.map_eq_some_iff] at ht
  obtain ⟨f, hf, hl⟩ := ht
  have := List.all_eq_true.1 hi.freqsLegal _ (Memory.mem_of_read hf)
  simp only [FreqPoly.legal, Bool.and_eq_true, decide_eq_true_eq] at this
  obtain ⟨-, -, -, hlen⟩ := this
  simp only [State.lanes, hf, hlen, hl]
  rfl

/-- The configured degree is at least 2 and below 2^63 once CFGD = 1 (R6, R91). -/
theorem State.Inv.log_bounds {s : State} (hi : s.Inv) (h : s.conf.cfgd = true) :
    1 ≤ s.conf.log ∧ s.conf.log ≤ 62 := by
  have hc := hi.confLegal
  have hk := hi.capsLegal
  simp only [Conf.legal, h, if_true, configError, Bool.not_eq_true', Bool.or_eq_false_iff,
    decide_eq_false_iff_not] at hc
  simp only [Caps.legal, decide_eq_true_eq] at hk
  unfold Conf.log
  omega

/-! ## The engine's step (R90) -/

/-- Everything the engine's step can do. -/
theorem engineStep_cases {s t : State} (h : engineStep s = .next t) :
    (s.runstate ≠ .busy ∧ t = s)
      ∨ (s.runstate = .busy ∧ s.fetch = .illegal ∧ t = s.raise .illegalCommand)
      ∨ (s.runstate = .busy ∧ ∃ i, s.fetch = .command i ∧ exec i s = .next t) := by
  unfold engineStep at h
  cases hr : s.runstate <;> simp only [hr] at h
  case busy =>
    cases hf : s.fetch with
    | command i => rw [hf] at h; exact .inr (.inr ⟨rfl, i, rfl, h⟩)
    | illegal => rw [hf] at h; cases h; exact .inr (.inl ⟨rfl, rfl, rfl⟩)
    | unwritten => rw [hf] at h; cases h
  all_goals cases h; exact .inl ⟨by decide, rfl⟩

/-- What the fetch finds inside command memory (R90 steps 1 to 3). -/
theorem State.fetch_of_read {s : State} {w : Command} (h : s.cp.toNat < s.caps.ncmd)
    (hw : s.cmd.read s.cp.toNat = some w) :
    s.fetch = match decode w with
      | .ok i => .command i
      | .error _ => .illegal := by
  cases hd : decode w <;> simp [State.fetch, h, hw, hd]

/-- Everything a step of the machine can be. -/
theorem step_cases {s t : State} (h : step s = .next t) :
    (s.turns = [] ∧ engineStep s = .next t)
      ∨ (∃ rest, s.turns = .engine :: rest ∧ engineStep { s with turns := rest } = .next t)
      ∨ (∃ op rest, s.turns = .host op :: rest ∧ hostAccess op { s with turns := rest } = .next t)
      ∨ (∃ rest, s.turns = .hardReset :: rest ∧ t = State.hardReset { s with turns := rest }) := by
  unfold step at h
  split at h
  · next ht => exact .inl ⟨ht, h⟩
  · next rest ht => exact .inr (.inl ⟨rest, ht, h⟩)
  · next op rest ht => exact .inr (.inr (.inl ⟨op, rest, ht, h⟩))
  · next rest ht => cases h; exact .inr (.inr (.inr ⟨rest, ht, rfl⟩))

/-- Everything a read can answer. -/
theorem State.answer_cases {w : Nat} {s t : State} {x : Option (BitVec w)} (h : s.answer x = .next t) :
    ∃ v, x = some v ∧ t = { s with hostData := v.setWidth 128 } := by
  unfold State.answer at h
  cases x with
  | some v => cases h; exact ⟨v, rfl, rfl⟩
  | none => cases h

/-! ## Host accesses -/

/-- A flat address names the slot it was made from (R50). -/
@[simp] theorem Caps.flatSlot_flatAddress (k : Caps) {slot j : Nat} (h : j < 2 ^ k.maxLogn) :
    k.flatSlot (k.flatAddress slot j) = slot := by
  unfold Caps.flatSlot Caps.flatAddress
  rw [Nat.mul_comm, Nat.mul_add_div (by positivity), Nat.div_eq_of_lt h, Nat.add_zero]

/-- A flat address names the element it was made from (R50). -/
@[simp] theorem Caps.flatIndex_flatAddress (k : Caps) {slot j : Nat} (h : j < 2 ^ k.maxLogn) :
    k.flatIndex (k.flatAddress slot j) = j := by
  unfold Caps.flatIndex Caps.flatAddress
  rw [Nat.mul_comm, Nat.mul_add_mod, Nat.mod_eq_of_lt h]

/-- A coefficient is read where one is present, and its value is the slot's (R51). -/
theorem State.readCoef_eq_some {s : State} {n j : Nat} {c : Coef} :
    s.readCoef n j = some c ↔ n < s.caps.np ∧ ∃ p, s.polys.read n = some p ∧ j < 2 ^ p.logn.toNat
      ∧ p.coefs[j]? = some c := by
  unfold State.readCoef
  cases s.polys.read n with
  | none => simp
  | some p => by_cases h : n < s.caps.np ∧ j < 2 ^ p.logn.toNat <;> simp_all; tauto

/-- A lane element is read where one is present, and its value is the slot's (R52). -/
theorem State.readLane_eq_some {s : State} {n e : Nat} {x : F64} :
    s.readLane n e = some x ↔ n < s.caps.nf ∧ ∃ f, s.freqs.read n = some f ∧ e < 2 ^ f.logn.toNat
      ∧ ∃ c, f.lanes[e / 2]? = some c ∧ getElement c e = x := by
  unfold State.readLane
  cases s.freqs.read n with
  | none => simp
  | some f => by_cases h : n < s.caps.nf ∧ e < 2 ^ f.logn.toNat <;> simp_all; tauto

/-- A host access that is answered was allowed, and had its effect. -/
theorem hostAccess_cases {op : HostOp} {s t : State} (h : hostAccess op s = .next t) :
    (s.runstate = .busy → op.allowedWhileBusy = true) ∧ hostEffect op s = .next t := by
  unfold hostAccess at h
  split at h
  · cases h
  · next hc =>
    refine ⟨fun hb => ?_, h⟩
    by_contra hn
    exact hc ⟨hb, by simpa using hn⟩

end Sys2Proof.Machine
end

