-- ==== Sys2Proof/Laws/PerInstr.lean ====
section
/-! SUPPORT. Laws of the commands as syntax, one lemma per constructor. -/

namespace Sys2Proof.Laws.EncodedOpcode

/-- The OPC of a command's row (R75). -/
def opcode : Instr → BitVec 8
  | .endCmd => 0x00
  | .cfg .. => 0x01
  | .fft .. => 0x10
  | .ifft .. => 0x11
  | .fmul .. => 0x18
  | .fmac .. => 0x19
  | .mul .. => 0x20
  | .muladd .. => 0x20
  | .mulsub .. => 0x20
  | .muls .. => 0x20
  | .mulsadd .. => 0x20
  | .mulssub .. => 0x20
  | .padd .. => 0x30
  | .psub .. => 0x31
  | .pneg .. => 0x32
  | .pscl .. => 0x33
  | .mono .. => 0x40
  | .perm .. => 0x41
  | .fperm .. => 0x42

/-- The encoded word carries the OPC of the command's row and no reserved bit (R70, R75). -/
def Statement (i : Instr) : Prop := opcField (encode i) = opcode i ∧ rsvField (encode i) = 0

theorem endCmd : Statement (.endCmd) :=
  ⟨opcField_packWord .., rsvField_packWord ..⟩
theorem cfg (logn : BitVec 6) (wsel : BitVec 2) (sgn : Bool) (strat : BitVec 2) (lb : BitVec 7)
    (lc : BitVec 8) (kt : BitVec 6) : Statement (.cfg logn wsel sgn strat lb lc kt) :=
  ⟨opcField_packWord .., rsvField_packWord ..⟩
theorem fft (d a : BitVec 8) : Statement (.fft d a) :=
  ⟨opcField_packWord .., rsvField_packWord ..⟩
theorem ifft (d a : BitVec 8) : Statement (.ifft d a) :=
  ⟨opcField_packWord .., rsvField_packWord ..⟩
theorem fmul (d a b : BitVec 8) : Statement (.fmul d a b) :=
  ⟨opcField_packWord .., rsvField_packWord ..⟩
theorem fmac (d a b : BitVec 8) : Statement (.fmac d a b) :=
  ⟨opcField_packWord .., rsvField_packWord ..⟩
theorem mul (d a b : BitVec 8) : Statement (.mul d a b) :=
  ⟨opcField_packWord .., rsvField_packWord ..⟩
theorem muladd (d a b : BitVec 8) : Statement (.muladd d a b) :=
  ⟨opcField_packWord .., rsvField_packWord ..⟩
theorem mulsub (d a b : BitVec 8) : Statement (.mulsub d a b) :=
  ⟨opcField_packWord .., rsvField_packWord ..⟩
theorem muls (d a b : BitVec 8) : Statement (.muls d a b) :=
  ⟨opcField_packWord .., rsvField_packWord ..⟩
theorem mulsadd (d a b : BitVec 8) : Statement (.mulsadd d a b) :=
  ⟨opcField_packWord .., rsvField_packWord ..⟩
theorem mulssub (d a b : BitVec 8) : Statement (.mulssub d a b) :=
  ⟨opcField_packWord .., rsvField_packWord ..⟩
theorem padd (d a b : BitVec 8) : Statement (.padd d a b) :=
  ⟨opcField_packWord .., rsvField_packWord ..⟩
theorem psub (d a b : BitVec 8) : Statement (.psub d a b) :=
  ⟨opcField_packWord .., rsvField_packWord ..⟩
theorem pneg (d a : BitVec 8) : Statement (.pneg d a) :=
  ⟨opcField_packWord .., rsvField_packWord ..⟩
theorem pscl (d a : BitVec 8) (imm : BitVec 64) : Statement (.pscl d a imm) :=
  ⟨opcField_packWord .., rsvField_packWord ..⟩
theorem mono (d a : BitVec 8) (imm : BitVec 64) : Statement (.mono d a imm) :=
  ⟨opcField_packWord .., rsvField_packWord ..⟩
theorem perm (d a : BitVec 8) (imm : BitVec 64) : Statement (.perm d a imm) :=
  ⟨opcField_packWord .., rsvField_packWord ..⟩
theorem fperm (d a : BitVec 8) (imm : BitVec 64) : Statement (.fperm d a imm) :=
  ⟨opcField_packWord .., rsvField_packWord ..⟩

end Sys2Proof.Laws.EncodedOpcode
end

