-- ==== Sys2Proof/Tests/Slice0.lean ====
section
/-! SUPPORT. Tests on fixed values, each expected result from the spec's printed examples and vectors
(the rule or vector is named) or from hand calculation; and for every statement with hypotheses a state
and operands that meet them. -/

namespace Sys2Proof.Tests

open Sys2Proof Sys2Proof.Machine

/-! ## Small states -/

/-- A Poly of degree 2^l. -/
def polyOf (l : Nat) (a : List Nat) : Poly := ⟨BitVec.ofNat 6 l, a.map (BitVec.ofNat 64)⟩

/-- N = 8, W = 8, signed, one 8-bit limb, KTHRESH = 64 (the example of R91). -/
def conf8 (st : Strat) : Conf := ⟨true, 3, 0, true, st, 8, 1, 6⟩

/-- The four lanes of vector table 8.2. -/
def lanes8 : List Cplx :=
  [⟨0x3FF0000000000000, 0x4024000000000000⟩, ⟨0x4000000000000000, 0x4034000000000000⟩,
   ⟨0x4008000000000000, 0x403E000000000000⟩, ⟨0x4010000000000000, 0x4044000000000000⟩]

/-- The operands of R159, a Poly of another degree in slot 9, and two FrequencyPolys; BUSY. -/
def ring8 (st : Strat) : State :=
  { State.reset with
    conf := conf8 st, runstate := .busy
    polys := [(0, polyOf 3 [0, 1, 0, 0, 0, 0, 0, 0]), (1, polyOf 3 [3, 5, 2, 9, 0, 0, 0, 7]),
      (2, polyOf 3 [1, 1, 1, 1, 1, 1, 1, 1]), (9, polyOf 4 (List.replicate 16 0))]
    freqs := [(0, ⟨3, lanes8⟩), (1, ⟨3, List.replicate 4 ⟨0x3FF0000000000000, 0⟩⟩)] }

/-- The same with N = 4, an engine whose MIN_LOGN is 2. -/
def ring4 (st : Strat) : State :=
  { State.reset with
    caps := { Caps.default with minLogn := 2 }
    conf := { conf8 st with logn := 2 }, runstate := .busy
    polys := [(0, polyOf 2 [0, 1, 0, 0]), (1, polyOf 2 [3, 5, 2, 9]), (2, polyOf 2 [1, 1, 1, 1])]
    freqs := [(0, ⟨2, [⟨0x3FF0000000000000, 0⟩, ⟨0x3FF0000000000000, 0⟩]⟩)] }

/-- N = 2 under SPLIT with `lc` limbs of `b` bits, an engine whose MIN_LOGN is 1. -/
def ring2 (b : BitVec 7) (lc : BitVec 8) : State :=
  { State.reset with
    caps := { Caps.default with minLogn := 1 }
    conf := { conf8 .split with logn := 1, limbBits := b, limbCount := lc }, runstate := .busy
    polys := [(0, polyOf 1 [163, 23]), (1, polyOf 1 [53, 201]), (2, polyOf 1 [1, 1])] }

/-- `ring8`, of an engine whose only degree is 8, with the zero Poly in slot 4. -/
def ring8Only (st : Strat) : State :=
  { ring8 st with
    caps := { Caps.default with maxLogn := 3 }
    polys := [(1, polyOf 3 [3, 5, 2, 9, 0, 0, 0, 7]), (4, polyOf 3 (List.replicate 8 0))] }

/-- The state `s` with the word `w` at CP. -/
def withWord (s : State) (w : Command) : State := { s with cmd := s.cmd.write s.cp.toNat w }

/-- The coefficients a move leaves in a Poly slot. -/
def coefsAfter (o : Out) (n : PolySlot) : List Nat :=
  match o with
  | .next t => (t.coefs n).map BitVec.toNat
  | .fault _ | .refused _ => []

/-- The lanes a move leaves in a FrequencyPoly slot. -/
def lanesAfter (o : Out) (n : FreqSlot) : List (Nat × Nat) :=
  match o with
  | .next t => (t.lanes n).map fun c => (c.re.toNat, c.im.toNat)
  | .fault _ | .refused _ => []

/-- STATUS and CP after a move. -/
def statusAfter (o : Out) : List Nat :=
  match o with
  | .next t => [t.statusWord.toNat, t.cp.toNat]
  | .fault _ | .refused _ => []

/-! ## Well-formedness -/

theorem test_reserved_strategy_refused : (Instr.cfg 3 0 true 3 8 1 6).wellFormed = false := by decide
theorem test_cfg_wellFormed : (Instr.cfg 3 0 true 1 8 1 6).wellFormed = true := by decide

/-! ## Decoding: a word of the spec for every command (R78, vectors 9.1), and illegal words (9.2) -/

theorem test_decode_end : decode 0x00000000000000000000000000000000 = .ok .endCmd := by rfl
theorem test_decode_cfg : decode 0x00000000060108030000000000000C01 = .ok (.cfg 3 0 true 1 8 1 6) := by rfl
theorem test_decode_cfg_bounds :
    decode 0x000000003EFF40100000000000001701 = .ok (.cfg 16 3 true 2 64 255 62) := by rfl
theorem test_decode_fft : decode 0x00000000000000000000000001020010 = .ok (.fft 2 1) := by rfl
theorem test_decode_ifft : decode 0x0000000000000000000000000F030011 = .ok (.ifft 3 15) := by rfl
theorem test_decode_fmul : decode 0x00000000000000000000000100020018 = .ok (.fmul 2 0 1) := by rfl
theorem test_decode_fmac : decode 0x0000000000000000000000FDFEFF0019 = .ok (.fmac 255 254 253) := by rfl
theorem test_decode_mul : decode 0x00000000000000000000000100030020 = .ok (.mul 3 0 1) := by rfl
theorem test_decode_muladd : decode 0x00000000000000000000000100020120 = .ok (.muladd 2 0 1) := by rfl
theorem test_decode_mulsub : decode 0x00000000000000000000000100020220 = .ok (.mulsub 2 0 1) := by rfl
theorem test_decode_muls : decode 0x00000000000000000000000001030420 = .ok (.muls 3 1 0) := by rfl
theorem test_decode_mulsadd : decode 0x00000000000000000000000001020520 = .ok (.mulsadd 2 1 0) := by rfl
theorem test_decode_mulssub : decode 0x00000000000000000000000001020620 = .ok (.mulssub 2 1 0) := by rfl
theorem test_decode_padd : decode 0x00000000000000000000000605040030 = .ok (.padd 4 5 6) := by rfl
theorem test_decode_psub : decode 0x00000000000000000000000000000031 = .ok (.psub 0 0 0) := by rfl
theorem test_decode_pneg : decode 0x00000000000000000000000007070032 = .ok (.pneg 7 7) := by rfl
theorem test_decode_pscl :
    decode 0x123456789ABCDEF00000000008090033 = .ok (.pscl 9 8 0x123456789ABCDEF0) := by rfl
theorem test_decode_mono :
    decode 0xFFFFFFFFFFFFFFFF0000000001030040 = .ok (.mono 3 1 0xFFFFFFFFFFFFFFFF) := by rfl
theorem test_decode_perm : decode 0x00000000000000030000000001020041 = .ok (.perm 2 1 3) := by rfl
theorem test_decode_fperm :
    decode 0x7FFFFFFFFFFFFFFF0000000000010042 = .ok (.fperm 1 0 0x7FFFFFFFFFFFFFFF) := by rfl

theorem test_illegal_opcode : decode 0x00000000000000000000000000000002 = .error .unassignedOpcode := by rfl
theorem test_illegal_reserved_bit : decode 0x00000000000000000000010605040030 = .error .reservedBits := by rfl
theorem test_illegal_unused_field : decode 0x00000000000000000000000301020010 = .error .unusedField := by rfl
theorem test_illegal_strategy : decode 0x00000000060108030000000000001801 = .error .reservedStrategy := by rfl
theorem test_illegal_acc : decode 0x00000000000000000000000100030320 = .error .reservedModifier := by rfl

/-! ## One step of each command on the operands of its rule's example -/

theorem test_end_stops : statusAfter (exec .endCmd (ring8 .kara)) = [2, 0] := by decide
-- G1 of section 11
theorem test_cfg_config_word :
    (match exec (.cfg 3 0 true 1 8 1 6) State.reset with
      | .next t => t.conf.word.toNat
      | .fault _ | .refused _ => 0) = 0x030088607 := by decide
-- X27 of section 10
theorem test_cfg_error :
    statusAfter (exec (.cfg 2 0 true 1 8 1 6) (ring8 .kara)) = [0x0103, 0] := by decide
-- R106: the Poly 1 transforms to (1.0, +0.0) in every lane
theorem test_fft_of_one :
    lanesAfter (exec (.fft 2 3) { ring8 .kara with polys := [(3, polyOf 3 [1, 0, 0, 0, 0, 0, 0, 0])] }) 2
      = List.replicate 4 (0x3FF0000000000000, 0) := by decide +kernel
-- R109: every lane (1.0, +0.0) gives the Poly 1
theorem test_ifft_of_ones :
    coefsAfter (exec (.ifft 3 1) (ring8 .kara)) 3 = [1, 0, 0, 0, 0, 0, 0, 0] := by decide +kernel
-- F3 of section 4: four products and two sums, each rounded once
theorem test_fmul_rounds_each_operation :
    lanesAfter (exec (.fmul 3 1 2) { ring4 .kara with
      freqs := [(1, ⟨2, List.replicate 2 ⟨0x3FB999999999999A, 0x3FC999999999999A⟩⟩),
                (2, ⟨2, List.replicate 2 ⟨0x3FD3333333333333, 0x3FD999999999999A⟩⟩)] }) 3
      = List.replicate 2 (0xBFA999999999999C, 0x3FB999999999999A) := by decide +kernel
-- F2 of section 4
theorem test_fmac_accumulates :
    lanesAfter (exec (.fmac 0 1 2) { ring4 .kara with
      freqs := [(0, ⟨2, List.replicate 2 ⟨0x3FE0000000000000, 0xBFF0000000000000⟩⟩),
                (1, ⟨2, List.replicate 2 ⟨0x3FF0000000000000, 0x4000000000000000⟩⟩),
                (2, ⟨2, List.replicate 2 ⟨0x4008000000000000, 0x4010000000000000⟩⟩)] }) 0
      = List.replicate 2 (0xC012000000000000, 0x4022000000000000) := by decide +kernel
-- R152 to R157, under KARA
theorem test_mul : coefsAfter (exec (.mul 3 0 1) (ring8 .kara)) 3 = [0xF9, 3, 5, 2, 9, 0, 0, 0] := by
  decide +kernel
theorem test_muladd : coefsAfter (exec (.muladd 2 0 1) (ring8 .kara)) 2 = [0xFA, 4, 6, 3, 10, 1, 1, 1] := by
  decide +kernel
theorem test_mulsub :
    coefsAfter (exec (.mulsub 2 0 1) (ring8 .kara)) 2 = [8, 0xFE, 0xFC, 0xFF, 0xF8, 1, 1, 1] := by
  decide +kernel
theorem test_muls : coefsAfter (exec (.muls 3 1 0) (ring8 .kara)) 3 = [0xF9, 3, 5, 2, 9, 0, 0, 0] := by
  decide +kernel
theorem test_mulsadd : coefsAfter (exec (.mulsadd 2 1 0) (ring8 .kara)) 2 = [0xFA, 4, 6, 3, 10, 1, 1, 1] := by
  decide +kernel
theorem test_mulssub :
    coefsAfter (exec (.mulssub 2 1 0) (ring8 .kara)) 2 = [8, 0xFE, 0xFC, 0xFF, 0xF8, 1, 1, 1] := by
  decide +kernel
-- under SPLIT, N = 4: X·(3 + 5X + 2X² + 9X³) = −9 + 3X + 5X² + 2X³, by hand from R13
theorem test_mul_split : coefsAfter (exec (.mul 3 0 1) (ring4 .split)) 3 = [247, 3, 5, 2] := by decide +kernel
theorem test_muls_split : coefsAfter (exec (.muls 3 1 0) (ring4 .split)) 3 = [247, 3, 5, 2] := by decide +kernel
-- two limbs per coefficient, three accumulator slots, by hand from R13: 163·53 − 23·201 = 4016 = 176 and
-- 163·201 + 23·53 = 33982 = 190 modulo 256
theorem test_mul_two_limbs : coefsAfter (exec (.mul 3 0 1) (ring2 4 2)) 3 = [176, 190] := by decide +kernel
-- a recursive Karatsuba product: KTHRESH = 2 instead of 64, the same result as R152
theorem test_mul_recursive :
    coefsAfter (exec (.mul 3 0 1) { ring8 .kara with conf := { conf8 .kara with logKt := 1 } }) 3
      = [0xF9, 3, 5, 2, 9, 0, 0, 0] := by decide +kernel
-- R190 to R193
theorem test_padd :
    coefsAfter (exec (.padd 1 1 3) { ring8 .kara with polys :=
      [(1, polyOf 3 [3, 5, 2, 9, 0, 0, 0, 7]), (3, polyOf 3 [1, 0, 0, 0, 0, 0, 0, 249])] }) 1
      = [4, 5, 2, 9, 0, 0, 0, 0] := by decide
theorem test_psub :
    coefsAfter (exec (.psub 4 1 3) { ring8 .kara with polys :=
      [(1, polyOf 3 [4, 5, 2, 9, 0, 0, 0, 0]), (3, polyOf 3 [1, 0, 0, 0, 0, 0, 0, 249])] }) 4
      = [3, 5, 2, 9, 0, 0, 0, 7] := by decide
theorem test_pneg : coefsAfter (exec (.pneg 1 1) (ring8 .kara)) 1 = [253, 251, 254, 247, 0, 0, 0, 249] := by
  decide
theorem test_pscl :
    coefsAfter (exec (.pscl 3 1 0xFFFFFFFFFFFFFFFD) (ring8 .kara)) 3 = [247, 241, 250, 229, 0, 0, 0, 235] := by
  decide
-- R200, R201
theorem test_mono : coefsAfter (exec (.mono 3 1 9) (ring8 .kara)) 3 = [7, 253, 251, 254, 247, 0, 0, 0] := by
  decide
theorem test_mono_negative :
    coefsAfter (exec (.mono 3 1 0xFFFFFFFFFFFFFFFF) (ring8 .kara)) 3 = [5, 2, 9, 0, 0, 0, 7, 253] := by decide
theorem test_perm : coefsAfter (exec (.perm 3 1 5) (ring8 .kara)) 3 = [3, 0, 254, 7, 0, 5, 0, 247] := by decide
-- table 8.2, d = 3
theorem test_fperm :
    lanesAfter (exec (.fperm 2 0 3) (ring8 .kara)) 2
      = [(0x4008000000000000, 0xC03E000000000000), (0x4010000000000000, 0xC044000000000000),
         (0x4000000000000000, 0xC034000000000000), (0x3FF0000000000000, 0xC024000000000000)] := by decide
-- X4, X14, X17, X19 of section 10: the error reported, CP kept
theorem test_errors :
    statusAfter (exec (.muladd 3 0 1) (ring8 .kara)) = [0x0703, 0]
    ∧ statusAfter (exec (.mono 1 1 1) (ring8 .kara)) = [0x0403, 0]
    ∧ statusAfter (exec (.perm 1 1 2) (ring8 .kara)) = [0x0303, 0]
    ∧ statusAfter (exec (.padd 0 5 9) (ring8 .kara)) = [0x0703, 0] := by decide
-- R108: 2^63 has no value, the binary64 below it has; ties go to the even integer
theorem test_f2z : f2z 0x43E0000000000000 = none ∧ f2z 0x43DFFFFFFFFFFFFF = some (2 ^ 63 - 1024)
    ∧ f2z 0x3FE0000000000000 = some 0 ∧ f2z 0xBFF8000000000000 = some (-2) ∧ f2z 0x7FF8000000000001 = none := by
  decide
-- R50, R51: the tags {logn, valid} of P[9], F[0] and the free P[3]; P[1][3] = 9 by its pair and its flat address
theorem test_host_reads :
    (let s := { ring8 .kara with runstate := .done }
     hostAccess (.readTag 9) s = .next { s with hostData := 9 }
     ∧ hostAccess (.readTag 256) s = .next { s with hostData := 7 }
     ∧ hostAccess (.readTag 3) s = .next s
     ∧ hostAccess (.readCoef 1 3) s = .next { s with hostData := 9 }
     ∧ hostAccess (.readPoly 65539) s = .next { s with hostData := 9 }
     ∧ hostAccess (.readFreq 1) s = .next { s with hostData := 0x4024000000000000 }) :=
  ⟨rfl, rfl, rfl, rfl, rfl, rfl⟩
-- R143 and R144: the printed decompositions, W = 8, b = 3, lc = 3
theorem test_limbs :
    limbs 8 false 3 3 0xB5 = [5, 6, 2] ∧ limbs 8 true 3 3 0x80 = [0, 0, -2] ∧ limbs 8 true 3 3 127 = [-1, 0, 2]
    ∧ limbs 8 true 3 3 0xFC = [-4, 0, 0] ∧ limbs 8 true 3 3 4 = [-4, 1, 0] := by decide
-- R175: the flat numbers of N = 8, KTHRESH = 4, in the order parent, d0, d1, d2
theorem test_scratch_numbers :
    (scratchTree 8 2 3 0 0 (List.replicate 8 1) (List.replicate 8 1)).map ScratchNode.number
      = [0, 1, 4, 5, 6, 2, 7, 8, 9, 3, 10, 11, 12] := by decide +kernel

/-! ## The opcode table has no overlap in its fixed low bits, and the host's table words -/

theorem test_table_words_run :
    decodeTableWord 128 0x20 = some (.mul 0 0 0) ∧ decodeTableWord 128 0x02 = none
    ∧ statusAfter (step (State.reset.withFetchWord 128 0x20)) = [0x0603, 0]
    ∧ statusAfter (step (State.reset.withFetchWord 128 0)) = [2, 0] := by decide

/-! ## Witnesses: states and operands that meet the hypotheses of the statements -/

theorem test_ring8_legal (st : Strat) : (ring8 st).Inv := by
  cases st <;> exact ⟨by decide, by decide, by decide, by decide, by decide, by decide, by decide, by decide⟩

theorem test_ring4_legal (st : Strat) : (ring4 st).Inv := by
  cases st <;> exact ⟨by decide, by decide, by decide, by decide, by decide, by decide, by decide, by decide⟩

theorem test_ring2_legal : (ring2 4 2).Inv :=
  ⟨by decide, by decide, by decide, by decide, by decide, by decide, by decide, by decide⟩

theorem test_ring8Only_legal (st : Strat) : (ring8Only st).Inv := by
  cases st <;> exact ⟨by decide, by decide, by decide, by decide, by decide, by decide, by decide, by decide⟩

/-- `EngineStepFollowsR90`, `StepRunsTheDecodedCommand`: each clause has a state, at the bounds of CP. -/
theorem test_witness_engineStep :
    State.reset.runstate ≠ .busy
    ∧ ((ring8 .kara).runstate = .busy ∧ (ring8 .kara).caps.ncmd ≤ ({ ring8 .kara with cp := 256 }).cp.toNat)
    ∧ (({ ring8 .kara with cp := 255 }).cp.toNat < (ring8 .kara).caps.ncmd
      ∧ ({ ring8 .kara with cp := 255 }).cmd.read 255 = none)
    ∧ ((withWord (ring8 .kara) 2).cmd.read 0 = some 2 ∧ decode 2 = .error .unassignedOpcode)
    ∧ (withWord (ring8 .kara) 0).cmd.read 0 = some 0 ∧ (ring8 .kara).turns = []
    ∧ ({ ring8 .kara with turns := [.engine, .host (.readCsr 1)] }).turns = .engine :: [.host (.readCsr 1)]
    ∧ ({ ring8 .kara with turns := [.host (.readCsr 1)] }).turns = .host (.readCsr 1) :: [] := by
  refine ⟨by decide, by decide, by decide, ⟨by decide, rfl⟩, by decide, by decide, by decide, by decide⟩

/-- `StepStopsOnlyWhereUnspecified`: a fault, and one refused access of each kind. -/
theorem test_witness_stops :
    step (ring8 .kara) = .fault .unwrittenCommand
    ∧ step { ring8 .kara with turns := [.host (.readTag 0)] } = .refused .hostAccessWhileBusy
    ∧ step { State.reset with turns := [.host (.readCmd 255)] } = .refused .hostReadUnspecified
    ∧ step { State.reset with turns := [.host (.readCoef 0 0)] } = .refused .hostReadUnspecified
    ∧ step { State.reset with turns := [.host (.readLane 0 0)] } = .refused .hostReadUnspecified
    ∧ step { State.reset with turns := [.host (.readPoly 0)] } = .refused .hostReadUnspecified
    ∧ step { State.reset with turns := [.host (.readFreq 0)] } = .refused .hostReadUnspecified
    ∧ step { State.reset with turns := [.host (.readTag 16)] } = .refused .hostReadUnspecified :=
  ⟨rfl, rfl, rfl, rfl, rfl, rfl, rfl, rfl⟩

/-- `DecodeInvertsEncode`, `EncodeInvertsDecode`. -/
theorem test_witness_roundTrip :
    (Instr.cfg 16 3 true 2 64 255 62).wellFormed = true
    ∧ decode (encode (.cfg 16 3 true 2 64 255 62)) = .ok (.cfg 16 3 true 2 64 255 62) := ⟨by decide, rfl⟩

/-- `IllegalEncodingsAreRejected`: an illegal word that a BUSY engine fetches, and a legal one. -/
theorem test_witness_illegal :
    IllegalEncoding 2 ∧ ¬ IllegalEncoding 0x20 ∧ (withWord (ring8 .kara) 2).cmd.read 0 = some 2 := by
  refine ⟨?_, ?_, by decide⟩ <;> simp only [IllegalEncoding] <;> decide

/-- `OpcodeTableDecides`: a word that matches its row. -/
theorem test_witness_table :
    (⟨"MULADD", 0x120, maskR3⟩ : OpcodeRow) ∈ opcodeTable
    ∧ (⟨"MULADD", 0x120, maskR3⟩ : OpcodeRow).matchesWord 0x00000000000000000000000100020120 = true := by decide

/-- `StepKeepsLegalStates`, `ConfigurationWrittenOnlyByCfgAndReset`: a step of each kind from a legal
state. -/
theorem test_witness_steps :
    (∃ t, step (withWord (ring8 .kara) 0) = .next t)
    ∧ (∃ t, step { ring8 .kara with turns := [.hardReset] } = .next t)
    ∧ (∃ t, step { ring8 .kara with turns := [.host (.writeCsr 0 2)] } = .next t)
    ∧ (withWord (ring8 .kara) 0x00000000060108030000000000000C01).fetch = .command (.cfg 3 0 true 1 8 1 6)
    ∧ (∃ t, step (withWord (ring8 .kara) 0x00000000060108030000000000000C01) = .next t ∧ t.polys = [])
    ∧ (∃ t, step { ring8 .kara with turns := [.host (.readCsr 1)] } = .next t ∧ t.hostData = 1) :=
  ⟨⟨_, rfl⟩, ⟨_, rfl⟩, ⟨_, rfl⟩, rfl, ⟨_, rfl, rfl⟩, ⟨_, rfl, by decide⟩⟩

/-- `HardResetTakesTheResetState`, `SoftResetKeepsCommandMemory`, `CsrWrites`: GO with and without SRST, in
a BUSY engine and in one that is not. -/
theorem test_witness_resets :
    ({ ring8 .kara with turns := [.hardReset, .engine] }).turns = .hardReset :: [.engine]
    ∧ (3 : BitVec 64).getLsbD 1 = true ∧ (1 : BitVec 64).getLsbD 1 = false ∧ (1 : BitVec 64).getLsbD 0 = true
    ∧ (0 : BitVec 64).getLsbD 0 = false ∧ (ring8 .kara).runstate = .busy ∧ State.reset.runstate ≠ .busy := by
  decide

/-- `CsrReads`: every register number of R28, at the bounds where the clauses meet. -/
theorem test_witness_csrReads :
    State.reset.Inv ∧ State.reset.runstate ≠ .busy ∧ (ring8 .kara).Inv ∧ (ring8 .kara).runstate = .busy
    ∧ hostAccess (.readCsr 4) State.reset = .next { State.reset with hostData := 0x40100C2010 }
    ∧ hostAccess (.readCsr 5) State.reset = .next State.reset
    ∧ hostAccess (.readCsr 1) (ring8 .kara) = .next { ring8 .kara with hostData := 1 } :=
  ⟨⟨by decide, by decide, by decide, by decide, by decide, by decide, by decide, by decide⟩, by decide,
    test_ring8_legal _, by decide, by rfl, by rfl, by rfl⟩

/-- `CommandPointerCountsCompletedCommands`: a completed command, END and an error from one legal state. -/
theorem test_witness_commandPointer :
    (ring8 .kara).Inv ∧ (ring8 .kara).runstate = .busy
    ∧ (∃ t, engineStep (withWord (ring8 .kara) 0x32) = .next t ∧ t.runstate = .busy)
    ∧ (∃ t, engineStep (withWord (ring8 .kara) 0) = .next t ∧ t.runstate ≠ .busy) :=
  ⟨test_ring8_legal _, by decide, ⟨_, rfl, by decide⟩, ⟨_, rfl, by decide⟩⟩

/-- `CommandsWriteOnlyTheirDestination`, `ValidTagKeepsItsDegree`, `ErrorStopIsPrecise`,
`ResultsDependOnlyOnSlotsAndConfiguration`: a command that completes and one that stops, from states that
agree in slots and configuration only. -/
theorem test_witness_exec :
    (∃ t, exec (.padd 3 0 1) (ring8 .kara) = .next t ∧ t.runstate = .busy ∧ t.tagLogn (.poly 3) = some 3)
    ∧ (∃ t, exec (.padd 9 0 1) (ring8 .kara) = .next t ∧ t.runstate ≠ .busy)
    ∧ (∃ t, exec (.padd 3 0 1) { ring8 .kara with runstate := .idle, cp := 7 } = .next t)
    ∧ (ring8 .kara).tagLogn (.poly 3) = none ∧ (ring8 .kara).tagLogn (.poly 9) = some 4 :=
  ⟨⟨_, rfl, by decide, by decide⟩, ⟨_, rfl, by decide⟩, ⟨_, rfl⟩, by decide, by decide⟩

/-- `FirstErrorIsReported`: operands for every cause and for none. -/
theorem test_witness_firstError :
    (State.reset.conf.cfgd = false ∧ (ring8 .kara).conf.cfgd = true)
    ∧ (ring8 .kara).BadSlotCause ⟨.poly 0, false, [.poly 5, .poly 9]⟩
    ∧ (¬ (ring8 .kara).BadSlotCause ⟨.poly 9, false, [.poly 1]⟩
      ∧ (ring8 .kara).DegreeMismatchCause ⟨.poly 9, false, [.poly 1]⟩)
    ∧ (¬ (ring8 .kara).BadSlotCause ⟨.poly 1, false, [.poly 1]⟩
      ∧ ¬ (ring8 .kara).DegreeMismatchCause ⟨.poly 1, false, [.poly 1]⟩
      ∧ (Instr.perm 1 1 2).InvalidDegreeCause ∧ ¬ (Instr.perm 1 1 3).InvalidDegreeCause
      ∧ (Instr.perm 1 1 3).OverlapCause ∧ ¬ (Instr.pneg 1 1).OverlapCause) := by
  refine ⟨by decide, ?_, ⟨?_, ?_⟩, ?_, ?_, ?_, ?_, ?_, ?_⟩
  · exact ((ring8 .kara).badSlot_iff _).1 (by decide)
  · rw [← State.badSlot_iff]; decide
  · rw [← State.degreeMismatch_iff]; decide
  · rw [← State.badSlot_iff]; decide
  · rw [← State.degreeMismatch_iff]; decide
  · show BitVec.getLsbD 2 0 = false; decide
  · show ¬ BitVec.getLsbD 3 0 = false; decide
  · rfl
  · exact id

/-- `CfgConstructs`: fields that construct, and fields at each bound that do not. -/
theorem test_witness_cfg :
    (1 : BitVec 2).toNat = Strat.split.code
    ∧ configError Caps.default 3 0 8 1 6 = false ∧ configError Caps.default 16 3 64 255 62 = false
    ∧ configError Caps.default 2 0 8 1 6 = true ∧ configError Caps.default 17 0 8 1 6 = true
    ∧ configError Caps.default 3 0 65 1 6 = true ∧ configError Caps.default 3 0 8 0 6 = true
    ∧ configError Caps.default 3 1 5 3 6 = true ∧ configError Caps.default 3 0 8 1 0 = true
    ∧ configError Caps.default 3 0 8 1 63 = true := by decide

/-- `EndStops`: a legal engine that is DONE with CP at END. -/
theorem test_witness_end :
    ({ withWord (ring8 .kara) 0 with runstate := .done }).Inv
    ∧ ({ withWord (ring8 .kara) 0 with runstate := .done }).cmd.read 0 = some 0 :=
  ⟨⟨by decide, by decide, by decide, by decide, by decide, by decide, by decide, by decide⟩, by decide⟩

/-- The result statements of PADD, PSUB, PNEG, PSCL, MONO, PERM, FPERM, FFT, IFFT, FMUL, FMAC and of the
MUL family: ready operands, with the destination unallocated, valid and in place. -/
theorem test_witness_ready :
    (ring8 .kara).Inv
    ∧ (ring8 .kara).ready ⟨.poly 3, false, [.poly 0, .poly 1]⟩ = true
    ∧ (ring8 .kara).ready ⟨.poly 0, false, [.poly 0, .poly 0]⟩ = true
    ∧ (ring8 .kara).ready ⟨.poly 2, true, [.poly 0, .poly 1]⟩ = true
    ∧ (ring8 .kara).ready ⟨.poly 3, false, [.poly 1]⟩ = true
    ∧ (ring8 .kara).ready ⟨.freq 2, false, [.freq 0]⟩ = true
    ∧ (ring8 .kara).ready ⟨.freq 2, false, [.poly 1]⟩ = true
    ∧ (ring8 .kara).ready ⟨.poly 3, false, [.freq 0]⟩ = true
    ∧ (ring8 .kara).ready ⟨.freq 2, false, [.freq 0, .freq 1]⟩ = true
    ∧ (ring8 .kara).ready ⟨.freq 0, true, [.freq 0, .freq 1]⟩ = true
    ∧ (3 : BitVec 64).getLsbD 0 = true ∧ (4 : BitVec 64).getLsbD 0 = false ∧ (3 : PolySlot) ≠ 1 :=
  ⟨test_ring8_legal _, by decide, by decide, by decide, by decide, by decide, by decide, by decide, by decide,
    by decide, by decide, by decide, by decide⟩

/-- `MonoResult`: each of the four cases occurs, with d' = 3 and d' = 11 at N = 8. -/
theorem test_witness_monoCases :
    (3 / 8 = 0 ∧ 0 + 3 % 8 < 8) ∧ (8 ≤ 7 + 3 % 8) ∧ (11 / 8 = 1 ∧ 4 + 11 % 8 < 8) ∧ 8 ≤ 5 + 11 % 8 := by decide

/-- `LinearLaws`, `MonoPermLaws`, `KaratsubaIsExact`, `KaratsubaNodeIsPlainProduct`,
`ScratchTreeFillsItsBuffer`: coefficient lists at the bounds of W = 8, N = 2. -/
theorem test_witness_polys :
    WBitPoly 8 2 [255, 128] ∧ WBitPoly 8 2 [0, 127] ∧ WBitPoly 8 2 [1, 254]
    ∧ (⟨true, 1, 0, true, .kara, 8, 1, 1⟩ : Conf).width = 8
    ∧ (⟨true, 1, 0, true, .kara, 8, 1, 1⟩ : Conf).degree = 2
    ∧ (1 : BitVec 64).getLsbD 0 = true ∧ [(255 : Coef), 128].length = 2 ^ 1 := by
  refine ⟨?_, ?_, ?_, by decide, by decide, by decide, rfl⟩ <;> simp [WBitPoly]

/-- `PermutationTable`, `FpermGroupLaw`, `FpermIsPermExactly`: odd residues at both ends of [0, 2N), for
N = 2 and N = 8; table 8.1 gives the values. -/
theorem test_witness_permutations :
    (1 < 2 ^ (1 + 1) ∧ 3 < 2 ^ (1 + 1) ∧ 15 < 2 ^ (3 + 1) ∧ 15 % 2 = 1) ∧ lanes8.length = 2 ^ (3 - 1)
    ∧ (List.range 4).map (PIDX 3 3) = [2, 3, 1, 0] ∧ (List.range 4).map (PIDX 3 5) = [3, 2, 0, 1]
    ∧ (List.range 8).map (PIDX 4 3) = [4, 5, 6, 7, 3, 2, 0, 1] ∧ PCONJ 3 = true ∧ PCONJ 5 = false := by decide

/-- `FftOfZeroAndConstant`, `TwiddleTableExactEntries`, `ForwardTransformEvaluates`,
`InverseTransformInverts`: degrees at the bounds. -/
theorem test_witness_degrees :
    (1 ≤ 1 ∧ (1 : Nat) ≤ 62) ∧ (1 ≤ 62 ∧ 3 ≤ 62) ∧ |(-(2 ^ 53) : Int)| ≤ 2 ^ 53
    ∧ ([(0 : ℂ)]).length = 2 ^ (1 - 1) := ⟨by decide, by decide, by decide, rfl⟩

/-- `AdditionRoundsOnce`, `MultiplicationRoundsOnce`, `IntegerConversionsRound`: patterns of each class. -/
theorem test_witness_patterns :
    isFinite 0x3FF0000000000000 = true ∧ isNaN 0x7FF8000000000001 = true ∧ isInf 0xFFF0000000000000 = true
    ∧ isFinite 0x0000000000000001 = true ∧ isFinite 0x7FEFFFFFFFFFFFFF = true ∧ isInf 0x7FF0000000000000 = true
    ∧ fsign 0x7FF0000000000000 ≠ fsign 0xFFF0000000000000
    ∧ |rnd 0x43DFFFFFFFFFFFFF| < 2 ^ 63 ∧ 2 ^ 63 ≤ |rnd 0x43E0000000000000|
    ∧ f64Val 0 = 0 ∧ f64Val 1 ≠ 0 := by
  refine ⟨by decide, by decide, by decide, by decide, by decide, by decide, by decide, by decide, by decide, ?_, ?_⟩ <;>
    simp [f64Val, fsigned, fsig, fexp, ffrac, fsign, fscaleExp]

/-- `TransformsAreDeterministic`: lanes that agree up to the patterns of NaNs. -/
theorem test_witness_sameNumber :
    SameNumber 0x7FF8000000000001 0xFFF8000000000000 ∧ SameNumber 0x3FF0000000000000 0x3FF0000000000000 :=
  ⟨.inr ⟨by decide, by decide⟩, .inl rfl⟩

/-- `MulFamilyUnderKara`: KARA configured, and AUTO below the threshold. -/
theorem test_witness_kara :
    (ring8 .kara).conf.strat = .kara ∧ (ring8 .auto).conf.strat = .auto
    ∧ (ring8 .auto).conf.degree < 2 ^ (ring8 .auto).conf.logKt.toNat := by decide

/-- `MulFamilyUnderSplit`: operands whose slot products the float layer recovers exactly, in both forms, with one
limb and with two. -/
theorem test_witness_splitExact :
    (∀ short, SplitExact (ring2 8 1).conf (ring2 8 1).draw short ((ring2 8 1).coefs 0) ((ring2 8 1).coefs 1))
    ∧ ∀ short, SplitExact (ring2 4 2).conf (ring2 4 2).draw short ((ring2 4 2).coefs 0) ((ring2 4 2).coefs 1) := by
  unfold SplitExact; decide +kernel

/-- `MulFamilyUnderSplit`: limbs of 2^63, as W = 64 with one 64-bit limb gives them: the slot has no
value (R108). -/
theorem test_witness_noValue :
    splitSlot 2 [0] [List.replicate 4 (2 ^ 63)] [List.replicate 4 (2 ^ 63)] 0 0 = none := by decide +kernel

/-- `MulFamilyUnderSplit`: an engine and budgets of which `SafeProduct` holds, and operands within them. -/
theorem test_witness_safeProduct :
    SafeProduct (ring8Only .split).caps (fun _ => 0)
    ∧ (ring8Only .split).caps.minLogn ≤ (ring8Only .split).conf.log
    ∧ (ring8Only .split).conf.log ≤ (ring8Only .split).caps.maxLogn
    ∧ 1 ≤ (ring8Only .split).conf.limbCount.toNat
    ∧ ((ring8Only .split).coefs 4).length = (ring8Only .split).conf.degree
    ∧ ((ring8Only .split).coefs 1).length = (ring8Only .split).conf.degree
    ∧ InBudget (fun _ => 0) (ring8Only .split).conf.log (firstLimbs (ring8Only .split).conf ((ring8Only .split).coefs 4))
        (secondLimbs (ring8Only .split).conf false ((ring8Only .split).coefs 1)) := by
  refine ⟨safeProduct_zero fun l h1 h2 => ?_, by decide, by decide, by decide, by decide, by decide, ?_⟩
  · obtain rfl : l = 3 := le_antisymm h2 h1
    exact ⟨tableFinite_three, by decide⟩
  · unfold InBudget; decide

/-- `InBudget` at the largest budget of R6, of operands that are not zero. -/
theorem test_inBudget :
    InBudget (fun _ => 52) 1 (firstLimbs (ring2 4 2).conf ((ring2 4 2).coefs 0))
      (secondLimbs (ring2 4 2).conf false ((ring2 4 2).coefs 1)) := by
  unfold InBudget; decide

theorem test_witness_split :
    (ring4 .split).Inv ∧ (ring4 .split).conf.strat = .split ∧ (ring4 .split).conf.limbCount = 1
    ∧ 2 ^ ({ (ring4 .auto).conf with logKt := 2 }).logKt.toNat ≤ (ring4 .auto).conf.degree
    ∧ (ring4 .split).ready ⟨.poly 3, false, [.poly 0, .poly 1]⟩ = true
    ∧ (ring4 .split).ready ⟨.poly 2, true, [.poly 0, .poly 1]⟩ = true
    ∧ (ring2 4 2).Inv ∧ (ring2 4 2).conf.limbCount = 2 ∧ 1 ≤ (ring2 4 2).conf.log
    ∧ ((ring2 4 2).coefs 0).length = (ring2 4 2).conf.degree ∧ ((ring2 4 2).coefs 1).length = (ring2 4 2).conf.degree
    ∧ (ring2 4 2).ready ⟨.poly 3, false, [.poly 0, .poly 1]⟩ = true
    ∧ (ring2 4 2).ready ⟨.poly 2, true, [.poly 0, .poly 1]⟩ = true :=
  ⟨test_ring4_legal _, by decide, by decide, by decide, by decide, by decide, test_ring2_legal, by decide,
    by decide, by decide, by decide, by decide, by decide⟩

/-- `InverseTransformInverts`, `FpermIsPermExactly`: an engine and budgets of which `RoundTrip` and
`PermRoundTrip` hold, a Poly within them, and operands. -/
theorem test_witness_roundTripBudget :
    (ring8Only .kara).Inv ∧ RoundTrip (ring8Only .kara).caps (fun _ => 0)
    ∧ PermRoundTrip (ring8Only .kara).caps (fun _ => 0)
    ∧ InRoundTripBudget (fun _ => 0) (ring8Only .kara).conf ((ring8Only .kara).coefs 4)
    ∧ (ring8Only .kara).ready ⟨.freq 2, false, [.poly 4]⟩ = true
    ∧ (ring8Only .kara).takes (.freq 3) = true ∧ (ring8Only .kara).takes (.poly 4) = true
    ∧ (ring8Only .kara).takes (.poly 5) = true ∧ (3 : FreqSlot) ≠ 2 ∧ (5 : PolySlot) ≠ 4 := by
  have table : ∀ l, (ring8Only .kara).caps.minLogn ≤ l → l ≤ (ring8Only .kara).caps.maxLogn → TableFinite l :=
    fun l h1 h2 => by
      obtain rfl : l = 3 := le_antisymm h2 h1
      exact tableFinite_three
  have zeros : (ring8Only .kara).coefs 4 = List.replicate 8 0 := by decide
  have patterns : ∀ c ∈ (ring8Only .kara).coefs 4, c.toNat < 2 ^ (ring8Only .kara).conf.width := fun c hc => by
    rw [zeros] at hc
    rw [List.eq_of_mem_replicate hc]; decide
  exact ⟨test_ring8Only_legal _, roundTrip_zero table, permRoundTrip_zero table, ⟨⟨by decide, patterns⟩, by decide⟩,
    by decide, by decide, by decide, by decide, by decide, by decide⟩

/-- `HandProductIsSplitProduct`: the destinations of the sequence, a product and a square, and lanes whose inverse
has values. -/
theorem test_witness_handProduct :
    (ring4 .split).takes (.freq 1) = true ∧ (ring4 .split).takes (.freq 2) = true
    ∧ (ring4 .split).takes (.freq 3) = true ∧ ((1 : FreqSlot) = 2 → (0 : PolySlot) = 1)
    ∧ ((1 : FreqSlot) = 1 → (0 : PolySlot) = 0)
    ∧ floatInverse 2 [0] (fun _ => ⟨0x3FF0000000000000, 0⟩) 0 ≠ none := by
  refine ⟨by decide, by decide, by decide, by decide, by decide, ?_⟩
  decide +kernel

/-- `UnsignedLimbsRecombine`, `SignedLimbsRecombine`: W = lc·b − 1, and a coefficient at each end. -/
theorem test_witness_limbs :
    (1 ≤ 3 ∧ 8 ≤ 3 * 3) ∧ (0x80 : Coef).toNat < 2 ^ 8 ∧ (0xFF : Coef).toNat < 2 ^ 8 ∧ sval 8 0x80 = -128 := by
  decide

/-- `HostAllocation`, `HostCoefficientsReadBack`, `HostLanesReadBack`, `HostCommandMemory`: an engine that is
not BUSY, with slots inside and outside their lengths. -/
theorem test_witness_host :
    ({ ring8 .kara with runstate := .done }).Inv
    ∧ (ring8 .kara).polys.read 1 = some (polyOf 3 [3, 5, 2, 9, 0, 0, 0, 7]) ∧ 7 < 2 ^ (polyOf 3 []).logn.toNat
    ∧ 2 ^ (polyOf 3 []).logn.toNat ≤ 8 ∧ (ring8 .kara).polys.read 5 = none
    ∧ (ring8 .kara).freqs.read 0 = some ⟨3, lanes8⟩ ∧ (ring8 .kara).freqs.read 2 = none
    ∧ (9 : BitVec 7).getLsbD 0 = true ∧ ((9 : BitVec 7).extractLsb' 1 6).toNat = 4
    ∧ (5 : BitVec 7).getLsbD 0 = true ∧ ((5 : BitVec 7).extractLsb' 1 6).toNat < 3
    ∧ 15 < (ring8 .kara).caps.np ∧ (ring8 .kara).caps.np ≤ 16 ∧ 255 < (ring8 .kara).caps.ncmd
    ∧ (ring8 .kara).cmd.read 255 = none ∧ (ring8 .kara).caps.ncmd ≤ 256
    ∧ 65535 < 2 ^ (ring8 .kara).caps.maxLogn :=
  ⟨⟨by decide, by decide, by decide, by decide, by decide, by decide, by decide, by decide⟩, by decide,
    by decide, by decide, by decide, by decide, by decide, by decide, by decide, by decide, by decide,
    by decide, by decide, by decide, by decide, by decide, by show 65535 < 2 ^ 16; norm_num⟩

end Sys2Proof.Tests
end

section
/-! PROOFS. Rounding to nearest, ties to even, and the values of binary64 patterns (R11): a pattern made by
`roundDyadic` is the rounded value. The development is over ℚ, where every finite value and every exact sum and
product lies. -/

namespace Sys2Proof.Machine

/-! ## Signs -/

/-- The factor of a sign. -/
def signFactor (neg : Bool) : ℚ := if neg then -1 else 1

theorem signFactor_bne (a b : Bool) : signFactor (a != b) = signFactor a * signFactor b := by
  cases a <;> cases b <;> simp [signFactor]

theorem abs_signFactor (neg : Bool) : |signFactor neg| = 1 := by cases neg <;> simp [signFactor]

theorem signFactor_mul_natAbs (z : ℤ) : signFactor (decide (z < 0)) * (z.natAbs : ℚ) = z := by
  by_cases hz : z < 0
  · simp [signFactor, hz, abs_of_neg hz]
  · simp [signFactor, hz, abs_of_nonneg (not_lt.1 hz)]

/-! ## Nearest integers -/

/-- `M` is an integer nearest to w, the even one of two that are equally near. -/
def NearestInt (w : ℚ) (M : ℤ) : Prop :=
  |(M : ℚ) - w| ≤ 1 / 2 ∧ (|(M : ℚ) - w| = 1 / 2 → M % 2 = 0)

theorem nearestInt_self (j : ℤ) : NearestInt j j := by simp [NearestInt]

theorem NearestInt.neg {w : ℚ} {M : ℤ} (h : NearestInt w M) : NearestInt (-w) (-M) := by
  have e : |((-M : ℤ) : ℚ) - -w| = |(M : ℚ) - w| := by rw [← abs_neg]; push_cast; ring_nf
  unfold NearestInt
  rw [e]
  exact ⟨h.1, fun t => by have := h.2 t; omega⟩

/-- Two different integers are at least 1 apart, so one of two distances to w is at least 1/2. -/
theorem one_sub_dist_le {M j : ℤ} (w : ℚ) (hne : j ≠ M) : 1 - |(M : ℚ) - w| ≤ |(j : ℚ) - w| := by
  have h1 : (1 : ℚ) ≤ |(j : ℚ) - M| := by exact_mod_cast Int.one_le_abs (sub_ne_zero.2 hne)
  have h2 := abs_sub_le (j : ℚ) w M
  rw [abs_sub_comm w] at h2
  linarith

theorem NearestInt.dist_le {w : ℚ} {M : ℤ} (h : NearestInt w M) (j : ℤ) :
    |(M : ℚ) - w| ≤ |(j : ℚ) - w| := by
  by_cases hj : j = M
  · rw [hj]
  · linarith [one_sub_dist_le w hj, h.1]

theorem NearestInt.even_of_dist_eq {w : ℚ} {M j : ℤ} (h : NearestInt w M) (hj : j ≠ M)
    (he : |(j : ℚ) - w| = |(M : ℚ) - w|) : M % 2 = 0 :=
  h.2 (le_antisymm h.1 (by linarith [one_sub_dist_le w hj]))

/-- A number of magnitude at least n is no farther from its nearest integer than from ± n. -/
theorem NearestInt.dist_le_abs_sub {w : ℚ} {M : ℤ} (h : NearestInt w M) {n : ℕ} (hn : (n : ℚ) ≤ |w|) :
    |(M : ℚ) - w| ≤ |w| - n := by
  rcases abs_cases w with ⟨e, _⟩ | ⟨e, _⟩
  · have := h.dist_le n
    rw [Int.cast_natCast, abs_sub_comm (n : ℚ), abs_of_nonneg (by linarith : 0 ≤ w - n)] at this
    linarith
  · have := h.dist_le (-n)
    rw [Int.cast_neg, Int.cast_natCast, abs_of_nonneg (by linarith : 0 ≤ -(n : ℚ) - w)] at this
    linarith

/-- An integer is its own nearest integer. -/
theorem NearestInt.eq_of_int {j M : ℤ} (h : NearestInt j M) : M = j := by
  by_contra hne
  have := one_sub_dist_le (j : ℚ) (Ne.symm hne)
  simp only [sub_self, abs_zero] at this
  linarith [h.1]

/-- The nearest integer reaches an even bound from half a unit below it on. -/
theorem NearestInt.eq_bound_iff {w : ℚ} {M n : ℤ} (h : NearestInt w M) (hn : n % 2 = 0) (hM : M ≤ n) :
    M = n ↔ (n : ℚ) - 1 / 2 ≤ w := by
  obtain ⟨hlo, hhi⟩ := abs_le.1 h.1
  constructor
  · rintro rfl; linarith
  · intro hw
    by_contra hne
    have hlt : (M : ℚ) ≤ n - 1 := by exact_mod_cast (by omega : M ≤ n - 1)
    have hMn : (M : ℚ) = (n - 1 : ℤ) := by push_cast; linarith
    have tie : |(M : ℚ) - w| = 1 / 2 := le_antisymm h.1 (le_abs.2 (.inr (by linarith)))
    have := h.2 tie
    have : M = n - 1 := by exact_mod_cast hMn
    omega

theorem NearestInt.signed {w : ℚ} {M : ℤ} (h : NearestInt w M) (neg : Bool) :
    NearestInt (signFactor neg * w) (if neg then -M else M) := by
  cases neg
  · simpa [signFactor] using h
  · simpa [signFactor] using h.neg

/-- The nearest integer of a fraction, in integers. -/
theorem nearestInt_div {m M D : ℤ} (hD : 0 < D) (h : 2 * |M * D - m| ≤ D)
    (ht : 2 * |M * D - m| = D → M % 2 = 0) : NearestInt ((m : ℚ) / D) M := by
  have hDq : (0 : ℚ) < D := by exact_mod_cast hD
  have e : |(M : ℚ) - m / D| = ((|M * D - m| : ℤ) : ℚ) / D := by
    rw [sub_div' hDq.ne', abs_div, abs_of_pos hDq]; push_cast; rfl
  unfold NearestInt
  rw [e, div_le_iff₀ hDq, div_eq_iff hDq.ne']
  refine ⟨?_, fun t => ht ?_⟩
  · have : (2 : ℚ) * (|M * D - m| : ℤ) ≤ D := by exact_mod_cast h
    linarith
  · have : (2 : ℚ) * (|M * D - m| : ℤ) = D := by linarith
    exact_mod_cast this

theorem nearestInt_roundShift (m d : Nat) : NearestInt ((m : ℚ) / 2 ^ d) (roundShift m d) := by
  obtain ⟨D, hD⟩ : ∃ D, D = 2 ^ d := ⟨_, rfl⟩
  have hD0 : 0 < D := hD ▸ Nat.two_pow_pos d
  have hr := Nat.mod_lt m hD0
  have hm : (m : ℤ) = D * (m / D : ℕ) + (m % D : ℕ) := by exact_mod_cast (Nat.div_add_mod m D).symm
  have cast : (m : ℚ) / 2 ^ d = ((m : ℤ) : ℚ) / ((D : ℤ) : ℚ) := by rw [hD]; push_cast; rfl
  rw [cast, roundShift, ← hD]
  split
  case isTrue up =>
    have e : ((m / D + 1 : ℕ) : ℤ) * D - m = ((D - m % D : ℕ) : ℤ) := by
      rw [hm, Nat.cast_sub hr.le]; push_cast; ring
    exact nearestInt_div (by omega) (by rw [e, Nat.abs_cast]; omega) (by rw [e, Nat.abs_cast]; omega)
  case isFalse down =>
    have e : ((m / D : ℕ) : ℤ) * D - m = -((m % D : ℕ) : ℤ) := by rw [hm]; ring
    exact nearestInt_div (by omega) (by rw [e, abs_neg, Nat.abs_cast]; omega)
      (by rw [e, abs_neg, Nat.abs_cast]; omega)

theorem nearestInt_shiftRight (m d : Nat) : NearestInt (m * (2 : ℚ) ^ (-(d : ℤ))) (roundShift m d) := by
  rw [zpow_neg, zpow_natCast, ← div_eq_mul_inv]
  exact nearestInt_roundShift m d

theorem nearestInt_shiftLeft (m d : Nat) : NearestInt (m * (2 : ℚ) ^ (d : ℤ)) (m * 2 ^ d : ℕ) := by
  rw [zpow_natCast]
  exact_mod_cast nearestInt_self (m * 2 ^ d : ℕ)

/-! ## Fields of a packed pattern -/

theorem toNat_fpack {bits : Nat} (neg : Bool) (h : bits < 2 ^ 63) :
    (fpack neg bits).toNat = if neg then 2 ^ 63 + bits else bits := by
  rw [fpack, BitVec.toNat_ofNat, Nat.mod_eq_of_lt]
  split <;> omega

theorem fsign_fpack {bits : Nat} (neg : Bool) (h : bits < 2 ^ 63) : fsign (fpack neg bits) = neg := by
  rw [fsign, toNat_fpack neg h, Bool.eq_iff_iff, beq_iff_eq]
  cases neg <;> simp only [Bool.false_eq_true, if_true, if_false, iff_true, iff_false] <;> omega

theorem fexp_fpack {bits : Nat} (neg : Bool) (h : bits < 2 ^ 63) : fexp (fpack neg bits) = bits / 2 ^ 52 := by
  rw [fexp, toNat_fpack neg h]
  split <;> omega

theorem ffrac_fpack {bits : Nat} (neg : Bool) (h : bits < 2 ^ 63) : ffrac (fpack neg bits) = bits % 2 ^ 52 := by
  rw [ffrac, toNat_fpack neg h]
  split <;> omega

theorem fpack_fields (x : F64) : fpack (fsign x) (fexp x * 2 ^ 52 + ffrac x) = x := by
  have hx := x.isLt
  apply BitVec.eq_of_toNat_eq
  rw [toNat_fpack _ (by unfold fexp ffrac; omega)]
  unfold fsign fexp ffrac
  split <;> rename_i hs <;> simp only [beq_iff_eq] at hs <;> omega

/-- The infinity of each sign. -/
theorem isInf_fpack (neg : Bool) : isInf (fpack neg (2047 * 2 ^ 52)) = true := by cases neg <;> decide

theorem eq_fpack_of_isInf {x : F64} (h : isInf x = true) : x = fpack (fsign x) (2047 * 2 ^ 52) := by
  simp only [isInf, Bool.and_eq_true, beq_iff_eq] at h
  conv_lhs => rw [← fpack_fields x, h.1, h.2, Nat.add_zero]

/-! ## Values of finite patterns -/

theorem f64Val_eq (x : F64) :
    f64Val x = signFactor (fsign x) * fsig x * (2 : ℚ) ^ ((fscaleExp x : ℤ) - 1075) := by
  cases h : fsign x <;> simp [f64Val, fsigned, signFactor, h]

theorem one_le_fscaleExp (x : F64) : 1 ≤ fscaleExp x := by unfold fscaleExp; split <;> omega

/-- The significand of a finite value in a finer unit 2^(m − 1075). -/
theorem f64Val_eq_of_le {x : F64} {m : Nat} (h : m ≤ fscaleExp x) :
    f64Val x = (fsigned x * (2 ^ (fscaleExp x - m) : Nat) : ℤ) * (2 : ℚ) ^ ((m : ℤ) - 1075) := by
  have e : (fscaleExp x : ℤ) - 1075 = (fscaleExp x - m : ℕ) + ((m : ℤ) - 1075) := by omega
  rw [f64Val, e, zpow_add₀ two_ne_zero, zpow_natCast]
  push_cast
  ring

/-- The value of the pattern that `roundDyadic` packs from a significand M of unit 2^(n − 1074). A significand
that rounding has raised to 2^53 carries into the exponent. -/
theorem f64Val_fpack (neg : Bool) {n M : Nat} (hM : M ≤ 2 ^ 53) (hn : n = 0 ∨ 2 ^ 52 ≤ M)
    (hb : n * 2 ^ 52 + M < 2047 * 2 ^ 52) :
    f64Val (fpack neg (n * 2 ^ 52 + M)) = signFactor neg * M * (2 : ℚ) ^ ((n : ℤ) - 1074) := by
  have h63 : n * 2 ^ 52 + M < 2 ^ 63 := by omega
  have hs := fsign_fpack neg h63
  have he := fexp_fpack neg h63
  have hf := ffrac_fpack neg h63
  generalize fpack neg (n * 2 ^ 52 + M) = x at *
  rw [f64Val_eq, hs, mul_assoc, mul_assoc]
  congr 1
  rcases Nat.lt_or_ge M (2 ^ 52) with small | large
  case inl =>
    obtain rfl : n = 0 := by omega
    have h0 : fexp x = 0 := by omega
    have hsig : fsig x = M := by rw [fsig, if_pos h0]; omega
    rw [hsig, fscaleExp, if_pos h0]; norm_num
  case inr =>
    rcases Nat.eq_or_lt_of_le hM with rfl | normal
    · have h0 : fexp x = n + 2 := by omega
      have hsig : fsig x = 2 ^ 52 := by rw [fsig, if_neg (by omega)]; omega
      have e : ((fexp x : ℕ) : ℤ) - 1075 = ((n : ℤ) - 1074) + 1 := by omega
      rw [hsig, fscaleExp, if_neg (by omega), e, zpow_add_one₀ two_ne_zero]; push_cast; ring
    · have h0 : fexp x = n + 1 := by omega
      have hsig : fsig x = M := by rw [fsig, if_neg (by omega)]; omega
      have e : ((fexp x : ℕ) : ℤ) - 1075 = (n : ℤ) - 1074 := by omega
      rw [hsig, fscaleExp, if_neg (by omega), e]

/-- A finite value lies on the grid of unit 2^k, or below the binade in which 2^k is the unit. -/
theorem f64Val_on_grid (y : F64) {k : ℤ} (hk : -1074 ≤ k) :
    (∃ j : ℤ, f64Val y = j * (2 : ℚ) ^ k) ∨ (-1074 < k ∧ |f64Val y| < 2 ^ 52 * (2 : ℚ) ^ k) := by
  have h1 := one_le_fscaleExp y
  rcases le_or_gt k ((fscaleExp y : ℤ) - 1075) with fine | coarse
  case inl =>
    have h := f64Val_eq_of_le (x := y) (m := (k + 1075).toNat) (by omega)
    rw [Int.toNat_of_nonneg (by omega), add_sub_cancel_right] at h
    exact .inl ⟨_, h⟩
  case inr =>
    refine .inr ⟨by omega, ?_⟩
    have hsig : (fsig y : ℚ) < 2 ^ 53 := by exact_mod_cast fsig_lt y
    have hpow : (2 : ℚ) ^ ((fscaleExp y : ℤ) - 1075) ≤ 2 ^ (k - 1) := zpow_le_zpow_right₀ one_le_two (by omega)
    rw [f64Val_eq, abs_mul, abs_mul, abs_signFactor, one_mul, Nat.abs_cast,
      abs_of_pos (zpow_pos two_pos _)]
    calc (fsig y : ℚ) * 2 ^ ((fscaleExp y : ℤ) - 1075)
        < 2 ^ 53 * 2 ^ ((fscaleExp y : ℤ) - 1075) := by gcongr
      _ ≤ 2 ^ 53 * 2 ^ (k - 1) := by gcongr
      _ = 2 ^ 52 * 2 ^ k := by rw [zpow_sub_one₀ two_ne_zero]; ring

/-! ## Nearest patterns -/

/-- Scaling by a positive factor keeps the order of distances. -/
theorem abs_mul_sub_mul (a b : ℚ) {u : ℚ} (hu : 0 < u) : |a * u - b * u| = |a - b| * u := by
  rw [← sub_mul, abs_mul, abs_of_pos hu]

/-- A finite pattern whose significand is the nearest integer to the significand w of a value, in the unit the
value's binade has, is a nearest pattern: a neighbour of a finer unit lies below the binade, farther away than
the binade's lower end. -/
theorem nearestEven_of_nearestInt {k M : ℤ} {w : ℚ} {r : F64} (hM : NearestInt w M) (hk : -1074 ≤ k)
    (hbinade : k = -1074 ∨ 2 ^ 52 ≤ |w|) (hfin : isFinite r = true) (hval : f64Val r = M * (2 : ℚ) ^ k)
    (heven : M % 2 = 0 → ffrac r % 2 = 0) : NearestEven ((w * (2 : ℚ) ^ k : ℚ) : ℝ) r := by
  have hu : (0 : ℚ) < 2 ^ k := zpow_pos two_pos _
  refine ⟨hfin, fun y _ => ?_⟩
  have key : |f64Val r - w * 2 ^ k| ≤ |f64Val y - w * 2 ^ k|
      ∧ (|f64Val y - w * 2 ^ k| = |f64Val r - w * 2 ^ k| → f64Val y = f64Val r ∨ ffrac r % 2 = 0) := by
    rw [hval, abs_mul_sub_mul _ _ hu]
    rcases f64Val_on_grid y hk with ⟨j, hj⟩ | ⟨hk', hy⟩
    case inl =>
      rw [hj, abs_mul_sub_mul _ _ hu, mul_left_inj' hu.ne']
      refine ⟨mul_le_mul_of_nonneg_right (hM.dist_le j) hu.le, fun tie => ?_⟩
      by_cases hjM : j = M
      · exact .inl (by rw [hjM])
      · exact .inr (heven (hM.even_of_dist_eq hjM tie))
    case inr =>
      have hw : 2 ^ 52 ≤ |w| := hbinade.resolve_left (by omega)
      have edge : |(M : ℚ) - w| ≤ |w| - 2 ^ 52 := by
        exact_mod_cast hM.dist_le_abs_sub (n := 2 ^ 52) (by exact_mod_cast hw)
      have far : (|w| - 2 ^ 52) * 2 ^ k < |f64Val y - w * 2 ^ k| := by
        have := abs_sub_abs_le_abs_sub (w * 2 ^ k) (f64Val y)
        rw [abs_mul, abs_of_pos hu, abs_sub_comm] at this
        linarith
      have closer : |(M : ℚ) - w| * 2 ^ k < |f64Val y - w * 2 ^ k| :=
        (mul_le_mul_of_nonneg_right edge hu.le).trans_lt far
      exact ⟨closer.le, fun tie => absurd tie closer.ne'⟩
  exact_mod_cast key

/-! ## `roundDyadic` -/

/-- The significand `roundDyadic` computes for m · 2^q, in units of 2^(`roundUnit m q`). -/
def roundSig (m : Nat) (q : Int) : Nat :=
  if roundUnit m q ≤ q then m * 2 ^ (q - roundUnit m q).toNat
  else roundShift m (roundUnit m q - q).toNat

/-- The lower 63 bits `roundDyadic` computes for m · 2^q, before overflow. -/
def roundBits (m : Nat) (q : Int) : Nat := (roundUnit m q + 1074).toNat * 2 ^ 52 + roundSig m q

theorem roundDyadic_of_ne_zero (neg : Bool) {m : Nat} (hm : m ≠ 0) (q : Int) :
    roundDyadic neg m q
      = fpack neg (if 2047 * 2 ^ 52 ≤ roundBits m q then 2047 * 2 ^ 52 else roundBits m q) := by
  rw [roundDyadic, if_neg hm]; rfl

@[simp] theorem roundDyadic_zero (neg : Bool) (q : Int) : roundDyadic neg 0 q = fpack neg 0 := by
  rw [roundDyadic, if_pos rfl]

@[simp] theorem fsign_roundDyadic (neg : Bool) (m : Nat) (q : Int) : fsign (roundDyadic neg m q) = neg := by
  by_cases hm : m = 0
  · rw [hm, roundDyadic_zero, fsign_fpack neg (by decide)]
  · rw [roundDyadic_of_ne_zero neg hm, fsign_fpack neg (by split <;> omega)]

theorem neg1074_le_roundUnit (m : Nat) (q : Int) : -1074 ≤ roundUnit m q := le_max_right ..

/-- m · 2^q in units of 2^(`roundUnit m q`). -/
def inUnits (m : Nat) (q : Int) : ℚ := m * (2 : ℚ) ^ (q - roundUnit m q)

theorem inUnits_mul (m : Nat) (q : Int) : inUnits m q * (2 : ℚ) ^ roundUnit m q = m * (2 : ℚ) ^ q := by
  rw [inUnits, mul_assoc, ← zpow_add₀ two_ne_zero, sub_add_cancel]

theorem nearestInt_roundSig (m : Nat) (q : Int) : NearestInt (inUnits m q) (roundSig m q) := by
  unfold roundSig inUnits
  split
  case isTrue le =>
    have h := nearestInt_shiftLeft m (q - roundUnit m q).toNat
    rwa [Int.toNat_of_nonneg (by omega)] at h
  case isFalse lt =>
    have h := nearestInt_shiftRight m (roundUnit m q - q).toNat
    rwa [Int.toNat_of_nonneg (by omega), neg_sub] at h

theorem inUnits_lt (m : Nat) (q : Int) : inUnits m q < 2 ^ 53 := by
  have hu : (Nat.log2 m : Int) + q - 52 ≤ roundUnit m q := le_max_left ..
  have hm : (m : ℚ) < 2 ^ (Nat.log2 m + 1) := by exact_mod_cast Nat.lt_log2_self
  calc inUnits m q
      < 2 ^ (Nat.log2 m + 1) * (2 : ℚ) ^ (q - roundUnit m q) := by unfold inUnits; gcongr
    _ = (2 : ℚ) ^ ((Nat.log2 m + 1 : ℕ) + (q - roundUnit m q)) := by
        rw [zpow_add₀ two_ne_zero, zpow_natCast]
    _ ≤ (2 : ℚ) ^ (53 : ℤ) := zpow_le_zpow_right₀ one_le_two (by omega)
    _ = 2 ^ 53 := by norm_num

theorem le_inUnits {m : Nat} (hm : m ≠ 0) (q : Int) : roundUnit m q = -1074 ∨ 2 ^ 52 ≤ inUnits m q := by
  rcases eq_or_ne (roundUnit m q) (-1074) with h | h
  · exact .inl h
  · have hu : roundUnit m q = (Nat.log2 m : Int) + q - 52 := by unfold roundUnit at h ⊢; omega
    have hm' : (2 : ℚ) ^ Nat.log2 m ≤ m := by exact_mod_cast Nat.log2_self_le hm
    refine .inr ?_
    calc (2 : ℚ) ^ 52 = 2 ^ ((Nat.log2 m : ℤ) + (q - roundUnit m q)) := by
          rw [hu, show (Nat.log2 m : ℤ) + (q - (Nat.log2 m + q - 52)) = (52 : ℕ) by push_cast; ring, zpow_natCast]
      _ = 2 ^ Nat.log2 m * (2 : ℚ) ^ (q - roundUnit m q) := by rw [zpow_add₀ two_ne_zero, zpow_natCast]
      _ ≤ inUnits m q := by unfold inUnits; gcongr

theorem roundSig_le (m : Nat) (q : Int) : roundSig m q ≤ 2 ^ 53 := by
  have h := (abs_le.1 (nearestInt_roundSig m q).1).2
  have : ((roundSig m q : ℤ) : ℚ) < (2 ^ 53 + 1 : ℤ) := by push_cast at h ⊢; linarith [inUnits_lt m q]
  have : (roundSig m q : ℤ) < 2 ^ 53 + 1 := by exact_mod_cast this
  omega

theorem le_roundSig {m : Nat} (hm : m ≠ 0) (q : Int) : roundUnit m q = -1074 ∨ 2 ^ 52 ≤ roundSig m q := by
  refine (le_inUnits hm q).imp_right fun hw => ?_
  have h := (abs_le.1 (nearestInt_roundSig m q).1).1
  have : ((2 ^ 52 - 1 : ℤ) : ℚ) < (roundSig m q : ℤ) := by push_cast at h ⊢; linarith
  have : (2 ^ 52 - 1 : ℤ) < roundSig m q := by exact_mod_cast this
  omega

/-- 2^1024 − 2^970, half a unit above the largest finite value. -/
def overflowThreshold : ℚ := (2 ^ 53 - 1 / 2) * 2 ^ (971 : ℤ)

/-- The values rounded in a unit below 2^971 lie below the threshold. -/
theorem lt_overflowThreshold : 2 ^ 53 * (2 : ℚ) ^ (970 : ℤ) < overflowThreshold := by
  have : (0 : ℚ) < 2 ^ (970 : ℤ) := zpow_pos two_pos _
  rw [overflowThreshold, show (971 : ℤ) = 970 + 1 from rfl, zpow_add_one₀ two_ne_zero]
  generalize (2 : ℚ) ^ (970 : ℤ) = u at *
  linarith

/-- The values rounded in a unit above 2^971 lie above the threshold. -/
theorem overflowThreshold_le : overflowThreshold ≤ 2 ^ 52 * (2 : ℚ) ^ (972 : ℤ) := by
  have : (0 : ℚ) < 2 ^ (971 : ℤ) := zpow_pos two_pos _
  rw [overflowThreshold, show (972 : ℤ) = 971 + 1 from rfl, zpow_add_one₀ two_ne_zero]
  generalize (2 : ℚ) ^ (971 : ℤ) = u at *
  linarith

theorem lt_overflowThreshold_of_le {v : ℚ} (h : v ≤ 2 ^ 53) : v < overflowThreshold := by
  have : (1 : ℚ) ≤ 2 ^ (970 : ℤ) := one_le_zpow₀ one_le_two (by decide)
  exact (h.trans (le_mul_of_one_le_right (by positivity) this)).trans_lt lt_overflowThreshold

/-- `roundDyadic` overflows exactly from the overflow threshold on, where the tie goes to the even significand
2^53. -/
theorem overflow_iff {m : Nat} (hm : m ≠ 0) (q : Int) :
    2047 * 2 ^ 52 ≤ roundBits m q ↔ overflowThreshold ≤ m * (2 : ℚ) ^ q := by
  have hw := inUnits_lt m q
  have hM := roundSig_le m q
  have hk := neg1074_le_roundUnit m q
  have hN := nearestInt_roundSig m q
  have hu : (0 : ℚ) < 2 ^ roundUnit m q := zpow_pos two_pos _
  rw [← inUnits_mul, roundBits]
  rcases lt_trichotomy (roundUnit m q) 971 with below | last | above
  case inl =>
    refine iff_of_false (by omega) (not_le.2 (lt_of_le_of_lt ?_ lt_overflowThreshold))
    exact mul_le_mul hw.le (zpow_le_zpow_right₀ one_le_two (by omega)) hu.le (by positivity)
  case inr.inl =>
    have top := hN.eq_bound_iff (n := 2 ^ 53) (by norm_num) (by exact_mod_cast hM)
    rw [Int.cast_pow, Int.cast_ofNat] at top
    rw [last, overflowThreshold, mul_le_mul_iff_left₀ (zpow_pos two_pos _), ← top]
    omega
  case inr.inr =>
    have hn := (le_roundSig hm q).resolve_left (by omega)
    have hw' := (le_inUnits hm q).resolve_left (by omega)
    refine iff_of_true (by omega) (overflowThreshold_le.trans ?_)
    exact mul_le_mul hw' (zpow_le_zpow_right₀ one_le_two (by omega)) (by positivity) (hw'.trans' (by positivity))

theorem overflowThreshold_cast : (overflowThreshold : ℝ) = 2 ^ 1024 - 2 ^ 970 := by
  have e : (2 : ℝ) ^ (971 : ℤ) = 2 ^ 970 * 2 := by rw [← pow_succ, ← zpow_natCast]; rfl
  have e' : (2 : ℝ) ^ 1024 = 2 ^ 54 * 2 ^ 970 := by rw [← pow_add]
  rw [overflowThreshold, Rat.cast_mul, Rat.cast_zpow, Rat.cast_ofNat, e, e']
  generalize (2 : ℝ) ^ 970 = u
  push_cast
  ring

/-- Below the overflow threshold the result is finite and its value is the rounded significand. -/
theorem roundDyadic_of_lt (neg : Bool) {m : Nat} (hm : m ≠ 0) {q : Int} (h : (m : ℚ) * 2 ^ q < overflowThreshold) :
    isFinite (roundDyadic neg m q) = true ∧ ffrac (roundDyadic neg m q) % 2 = roundSig m q % 2
      ∧ f64Val (roundDyadic neg m q) = signFactor neg * roundSig m q * (2 : ℚ) ^ roundUnit m q := by
  have hb : roundBits m q < 2047 * 2 ^ 52 :=
    not_le.1 fun overflow => not_le.2 h ((overflow_iff hm q).1 overflow)
  have hk := neg1074_le_roundUnit m q
  have h63 : roundBits m q < 2 ^ 63 := by omega
  rw [roundDyadic_of_ne_zero neg hm, if_neg (not_le.2 hb)]
  refine ⟨?_, ?_, ?_⟩
  · simp only [isFinite, fexp_fpack neg h63, bne_iff_ne]; omega
  · rw [ffrac_fpack neg h63, roundBits]; omega
  · rw [roundBits, f64Val_fpack neg (roundSig_le m q) ((le_roundSig hm q).imp_left fun h => by omega) hb,
      Int.toNat_of_nonneg (by omega), add_sub_cancel_right]

theorem roundDyadic_of_ge (neg : Bool) {m : Nat} (hm : m ≠ 0) {q : Int} (h : overflowThreshold ≤ (m : ℚ) * 2 ^ q) :
    roundDyadic neg m q = fpack neg (2047 * 2 ^ 52) := by
  rw [roundDyadic_of_ne_zero neg hm, if_pos ((overflow_iff hm q).2 h)]

/-- `roundDyadic` is exact where the value is a whole number of units. -/
theorem f64Val_roundDyadic_exact (neg : Bool) {m : Nat} (hm : m ≠ 0) {q : Int} {j : ℤ}
    (h : (m : ℚ) * 2 ^ q < overflowThreshold) (hj : inUnits m q = j) :
    f64Val (roundDyadic neg m q) = signFactor neg * (m * (2 : ℚ) ^ q) := by
  have hM : ((roundSig m q : ℤ) : ℚ) = inUnits m q := by
    have h := nearestInt_roundSig m q
    rw [hj] at h ⊢
    rw [h.eq_of_int]
  obtain ⟨-, -, hval⟩ := roundDyadic_of_lt neg hm h
  rw [hval, ← inUnits_mul, ← hM, mul_assoc, Int.cast_natCast]

/-- `Rounded` of a rational value, in ℚ. -/
theorem rounded_of_rat {v : ℚ} {r : F64} (hlow : |v| < overflowThreshold → NearestEven (v : ℝ) r)
    (hhigh : overflowThreshold ≤ |v| → isInf r = true ∧ (fsign r = true ↔ v < 0)) : Rounded (v : ℝ) r := by
  rw [Rounded, ← overflowThreshold_cast, ← Rat.cast_abs, Rat.cast_lt, Rat.cast_le, Rat.cast_lt_zero]
  exact ⟨hlow, hhigh⟩

theorem nearestEven_fpack_zero (neg : Bool) : NearestEven 0 (fpack neg 0) := by
  have h := nearestEven_of_nearestInt (k := -1074) (w := 0) (r := fpack neg 0)
    (by exact_mod_cast nearestInt_self 0) le_rfl (.inl rfl) (by cases neg <;> decide) ?_ fun _ => ?_
  · simpa using h
  · have := f64Val_fpack neg (n := 0) (M := 0) (by decide) (.inl rfl) (by decide)
    simpa using this
  · rw [ffrac_fpack neg (by decide)]; decide

/-- The one rounding of the model is IEEE 754's round to nearest, ties to even. -/
theorem rounded_roundDyadic (neg : Bool) (m : Nat) (q : Int) :
    Rounded ((signFactor neg * (m * (2 : ℚ) ^ q) : ℚ) : ℝ) (roundDyadic neg m q) := by
  have habs : |signFactor neg * (m * (2 : ℚ) ^ q)| = m * 2 ^ q := by
    rw [abs_mul, abs_signFactor, one_mul, abs_of_nonneg (by positivity)]
  refine rounded_of_rat (fun low => ?finite) fun high => ?overflow
  case finite =>
    rw [habs] at low
    by_cases hm : m = 0
    · rw [hm, roundDyadic_zero]; simpa using nearestEven_fpack_zero neg
    · obtain ⟨hfin, hfrac, hval⟩ := roundDyadic_of_lt neg hm low
      rw [← inUnits_mul, ← mul_assoc]
      have hN := (nearestInt_roundSig m q).signed neg
      refine nearestEven_of_nearestInt hN (neg1074_le_roundUnit m q) ?_ hfin ?_ ?_
      · rw [abs_mul, abs_signFactor, one_mul]
        exact (le_inUnits hm q).imp_right fun h => h.trans (le_abs_self _)
      · rw [hval]; cases neg <;> simp [signFactor]
      · intro he; rw [hfrac]; split at he <;> omega
  case overflow =>
    rw [habs] at high
    have hv : 0 < (m : ℚ) * 2 ^ q := (lt_overflowThreshold_of_le (by norm_num)).trans_le high
    have hm : m ≠ 0 := by rintro rfl; simp at hv
    rw [roundDyadic_of_ge neg hm high, fsign_fpack neg (by decide)]
    refine ⟨isInf_fpack neg, ?_⟩
    cases neg <;> simp [signFactor, hv, hv.le]

end Sys2Proof.Machine
end

section
/-! PROOFS. The operations of R11 on each class of patterns, and the statements that each of them rounds once. -/

namespace Sys2Proof.Machine

/-! ## Classes of patterns -/

theorem isFinite_iff {x : F64} : isFinite x = true ↔ isNaN x = false ∧ isInf x = false := by
  by_cases h : fexp x = 2047 <;> by_cases h' : ffrac x = 0 <;> simp [isFinite, isNaN, isInf, h, h']

theorem isNaN_of_isInf {x : F64} (h : isInf x = true) : isNaN x = false := by
  simp only [isInf, Bool.and_eq_true, beq_iff_eq] at h
  simp [isNaN, h.2]

theorem fexp_le_of_isFinite {x : F64} (h : isFinite x = true) : fexp x ≤ 2046 := by
  have : fexp x < 2 ^ 11 := Nat.mod_lt _ (by decide)
  simp only [isFinite, bne_iff_ne] at h
  omega

@[simp] theorem isNaN_anyNaN (d : Draw) : isNaN (anyNaN d) = true := by
  have hf : ffrac (Config.anyBits d) < 2 ^ 52 := Nat.mod_lt _ (by decide)
  unfold anyNaN
  simp only
  generalize hp : (if ffrac (Config.anyBits d) = 0 then 1 else ffrac (Config.anyBits d)) = p
  have hp0 : 0 < p ∧ p < 2 ^ 52 := by rw [← hp]; split <;> omega
  have h63 : 2047 * 2 ^ 52 + p < 2 ^ 63 := by omega
  simp only [isNaN, fexp_fpack _ h63, ffrac_fpack _ h63, Bool.and_eq_true, beq_iff_eq, bne_iff_ne]
  omega

theorem f64Val_eq_zero_iff {x : F64} : f64Val x = 0 ↔ fsig x = 0 := by
  rw [f64Val_eq, mul_eq_zero, mul_eq_zero]
  have hs : signFactor (fsign x) ≠ 0 := fun h => by simpa [h] using abs_signFactor (fsign x)
  have hp : (2 : ℚ) ^ ((fscaleExp x : ℤ) - 1075) ≠ 0 := (zpow_pos two_pos _).ne'
  simp [hs, hp]

theorem fsig_ne_zero_of_isInf {x : F64} (h : isInf x = true) : fsig x ≠ 0 := by
  simp only [isInf, Bool.and_eq_true, beq_iff_eq] at h
  simp [fsig, h.1]

/-! ## `fneg` -/

@[simp] theorem ffrac_fneg (x : F64) : ffrac (fneg x) = ffrac x := by
  have fraction : ∀ y : F64, ffrac y = (y.extractLsb' 0 52).toNat := fun y => by
    simp [ffrac, BitVec.extractLsb'_toNat]
  rw [fraction, fraction]
  congr 1
  ext i hi
  have h63 : (BitVec.ofNat 64 (2 ^ 63)).getLsbD (0 + i) = false := by interval_cases i <;> decide
  simp only [fneg, BitVec.getElem_extractLsb', BitVec.getLsbD_xor, h63, Bool.xor_false]

@[simp] theorem fsign_fneg (x : F64) : fsign (fneg x) = !fsign x := by
  have sign : ∀ y : F64, fsign y = y.getLsbD 63 := fun y => by
    have := y.isLt
    rw [fsign, BitVec.getLsbD, Nat.testBit_eq_decide_div_mod_eq, Bool.eq_iff_iff, beq_iff_eq, decide_eq_true_iff]
    omega
  rw [sign, sign, fneg, BitVec.getLsbD_xor, show (BitVec.ofNat 64 (2 ^ 63)).getLsbD 63 = true by decide,
    Bool.xor_true]

@[simp] theorem isNaN_fneg (x : F64) : isNaN (fneg x) = isNaN x := by rw [isNaN, fexp_fneg, ffrac_fneg, isNaN]

@[simp] theorem isInf_fneg (x : F64) : isInf (fneg x) = isInf x := by rw [isInf, fexp_fneg, ffrac_fneg, isInf]

@[simp] theorem isFinite_fneg (x : F64) : isFinite (fneg x) = isFinite x := by rw [isFinite, fexp_fneg, isFinite]

@[simp] theorem f64Val_fneg (x : F64) : f64Val (fneg x) = -f64Val x := by
  have hs : fsig (fneg x) = fsig x := by rw [fsig, fexp_fneg, ffrac_fneg, fsig]
  have he : fscaleExp (fneg x) = fscaleExp x := by rw [fscaleExp, fexp_fneg, fscaleExp]
  rw [f64Val_eq, f64Val_eq, hs, he, fsign_fneg]
  cases fsign x <;> simp [signFactor]

/-! ## Addition -/

theorem fadd_of_isNaN (d : Draw) {x y : F64} (h : isNaN x = true ∨ isNaN y = true) : fadd d x y = anyNaN d := by
  rw [fadd, if_pos (by simpa using h)]

theorem fadd_of_isInf_left (d : Draw) {x y : F64} (hx : isInf x = true) (hy : isNaN y = false) :
    fadd d x y = if isInf y && fsign x != fsign y then anyNaN d else x := by
  rw [fadd, if_neg (by simp [isNaN_of_isInf hx, hy]), if_pos hx]

theorem fadd_of_isInf_right (d : Draw) {x y : F64} (hx : isFinite x = true) (hy : isInf y = true) :
    fadd d x y = y := by
  obtain ⟨hnan, hinf⟩ := isFinite_iff.1 hx
  rw [fadd, if_neg (by simp [hnan, isNaN_of_isInf hy]), if_neg (by simp [hinf]), if_pos hy]

/-- The sum of finite numbers: the exact sum is an integer z times a power of two, and that is rounded. -/
theorem fadd_of_isFinite (d : Draw) {x y : F64} (hx : isFinite x = true) (hy : isFinite y = true) :
    ∃ z e : ℤ, f64Val x + f64Val y = z * (2 : ℚ) ^ e
      ∧ fadd d x y = if z = 0 then fpack (fsign x && fsign y) 0 else roundDyadic (decide (z < 0)) z.natAbs e := by
  obtain ⟨xnan, xinf⟩ := isFinite_iff.1 hx
  obtain ⟨ynan, yinf⟩ := isFinite_iff.1 hy
  obtain ⟨m, hm⟩ : ∃ m, m = min (fscaleExp x) (fscaleExp y) := ⟨_, rfl⟩
  refine ⟨fsigned x * (2 ^ (fscaleExp x - m) : ℕ) + fsigned y * (2 ^ (fscaleExp y - m) : ℕ), (m : ℤ) - 1075,
    ?_, ?_⟩
  · rw [Int.cast_add, add_mul, ← f64Val_eq_of_le (hm ▸ min_le_left ..), ← f64Val_eq_of_le (hm ▸ min_le_right ..)]
  · rw [fadd, if_neg (by simp [xnan, ynan]), if_neg (by simp [xinf]), if_neg (by simp [yinf]), hm]

theorem rounded_fadd (d : Draw) {x y : F64} (hx : isFinite x = true) (hy : isFinite y = true) :
    Rounded ((f64Val x : ℝ) + f64Val y) (fadd d x y) := by
  obtain ⟨z, e, hsum, hadd⟩ := fadd_of_isFinite d hx hy
  rw [← Rat.cast_add, hsum, hadd]
  split
  case isTrue hz =>
    simpa [hz] using rounded_roundDyadic (fsign x && fsign y) 0 e
  case isFalse =>
    rw [← signFactor_mul_natAbs z, mul_assoc]
    exact rounded_roundDyadic _ _ _

theorem fadd_of_sum_zero (d : Draw) {x y : F64} (hx : isFinite x = true) (hy : isFinite y = true)
    (h : f64Val x + f64Val y = 0) : fadd d x y = fpack (fsign x && fsign y) 0 := by
  obtain ⟨z, e, hsum, hadd⟩ := fadd_of_isFinite d hx hy
  have hz : z = 0 := by
    rw [hsum, mul_eq_zero] at h
    exact_mod_cast h.resolve_right (zpow_pos two_pos _).ne'
  rw [hadd, if_pos hz]

theorem fpack_and_zero (a b : Bool) :
    fpack (a && b) 0 = if a = true ∧ b = true then 0x8000000000000000 else 0 := by
  cases a <;> cases b <;> rfl

/-- Settles O41: the exact sum is an integer times a power of two, which `roundDyadic` rounds once; a difference is
the sum with the negated second operand. -/
theorem additionRoundsOnce : Obligations.AdditionRoundsOnce := by
  unfold Obligations.AdditionRoundsOnce
  intro d x y
  refine ⟨fun hx hy => ⟨rounded_fadd d hx hy, ?difference, fun h => ?zeroSum, fun h => ?zeroDifference⟩,
    fun h => ?nan, fun hx hy => ?infFinite, fun hx hy => ?infInf⟩
  case difference =>
    have h := rounded_fadd d hx ((isFinite_fneg y).trans hy)
    rwa [f64Val_fneg, Rat.cast_neg, ← sub_eq_add_neg] at h
  case zeroSum => rw [fadd_of_sum_zero d hx hy h, fpack_and_zero]
  case zeroDifference =>
    have h' : f64Val x + f64Val (fneg y) = 0 := by rwa [f64Val_fneg, ← sub_eq_add_neg]
    rw [fsub, fadd_of_sum_zero d hx ((isFinite_fneg y).trans hy) h', fpack_and_zero]
    simp only [fsign_fneg, Bool.not_eq_true']
  case nan =>
    rw [fsub, fadd_of_isNaN d h, fadd_of_isNaN d (by rwa [isNaN_fneg])]
    exact ⟨isNaN_anyNaN d, isNaN_anyNaN d⟩
  case infFinite =>
    obtain ⟨ynan, yinf⟩ := isFinite_iff.1 hy
    have hx' : isInf (fneg x) = true := (isInf_fneg x).trans hx
    simp only [fsub, fadd_of_isInf_left d hx ynan, fadd_of_isInf_left d hx ((isNaN_fneg y).trans ynan),
      fadd_of_isInf_right d hy hx, fadd_of_isInf_right d hy hx', isInf_fneg, yinf, hx, fsign_fneg, Bool.false_and,
      Bool.false_eq_true, if_false, and_self]
  case infInf =>
    rw [fsub, fadd_of_isInf_left d hx (isNaN_of_isInf hy),
      fadd_of_isInf_left d hx ((isNaN_fneg y).trans (isNaN_of_isInf hy)), isInf_fneg, fsign_fneg, hy]
    by_cases hs : fsign x = fsign y
    · simp [hs]
    · simp [Bool.eq_not.2 hs]

/-! ## Multiplication -/

theorem fmul_of_isNaN (d : Draw) {x y : F64} (h : isNaN x = true ∨ isNaN y = true) : fmul d x y = anyNaN d := by
  rw [fmul, if_pos (by simpa using h)]

theorem fmul_of_isInf (d : Draw) {x y : F64} (hx : isNaN x = false) (hy : isNaN y = false)
    (h : isInf x = true ∨ isInf y = true) :
    fmul d x y = if fsig x = 0 || fsig y = 0 then anyNaN d else fpack (fsign x != fsign y) (2047 * 2 ^ 52) := by
  rw [fmul, if_neg (by simp [hx, hy]), if_pos (by simpa using h)]

theorem fmul_of_isInf_of_ne_zero (d : Draw) {x y : F64} (hx : isNaN x = false) (hy : isNaN y = false)
    (h : isInf x = true ∨ isInf y = true) (hx0 : fsig x ≠ 0) (hy0 : fsig y ≠ 0) :
    fmul d x y = fpack (fsign x != fsign y) (2047 * 2 ^ 52) := by
  rw [fmul_of_isInf d hx hy h, if_neg (by simp [hx0, hy0])]

theorem fmul_of_isFinite (d : Draw) {x y : F64} (hx : isFinite x = true) (hy : isFinite y = true) :
    fmul d x y = roundDyadic (fsign x != fsign y) (fsig x * fsig y) ((fscaleExp x + fscaleExp y : Nat) - 2150 : Int) :=
  fmul_of_fexp d (fexp_le_of_isFinite hx) (fexp_le_of_isFinite hy)

theorem rounded_fmul (d : Draw) {x y : F64} (hx : isFinite x = true) (hy : isFinite y = true) :
    Rounded ((f64Val x : ℝ) * f64Val y) (fmul d x y) := by
  have product : f64Val x * f64Val y = signFactor (fsign x != fsign y)
      * ((fsig x * fsig y : ℕ) * (2 : ℚ) ^ (((fscaleExp x + fscaleExp y : ℕ) : ℤ) - 2150)) := by
    have e : ((fscaleExp x + fscaleExp y : ℕ) : ℤ) - 2150 = (fscaleExp x - 1075) + (fscaleExp y - 1075) := by omega
    rw [f64Val_eq, f64Val_eq, signFactor_bne, e, zpow_add₀ two_ne_zero]
    push_cast
    ring
  rw [← Rat.cast_mul, product, fmul_of_isFinite d hx hy]
  exact rounded_roundDyadic _ _ _

theorem fsign_fmul (d : Draw) {x y : F64} (hx : isFinite x = true) (hy : isFinite y = true) :
    fsign (fmul d x y) = (fsign x != fsign y) := by
  rw [fmul_of_isFinite d hx hy, fsign_roundDyadic]

/-- The second factor of `fscale` is exactly 2^(−k). -/
theorem roundDyadic_one_neg {k : ℕ} (hk : k ≤ 62) :
    isFinite (roundDyadic false 1 (-(k : ℤ))) = true ∧ f64Val (roundDyadic false 1 (-(k : ℤ))) = 1 / 2 ^ k := by
  have hlt : ((1 : ℕ) : ℚ) * 2 ^ (-(k : ℤ)) < overflowThreshold := by
    have : (2 : ℚ) ^ (-(k : ℤ)) ≤ 1 := zpow_le_one_of_nonpos₀ one_le_two (by omega)
    exact lt_overflowThreshold_of_le (by push_cast; linarith)
  have hu : -(k : ℤ) - roundUnit 1 (-k) = (52 : ℕ) := by
    have : Nat.log2 1 = 0 := by decide
    rw [roundUnit, this]; omega
  refine ⟨(roundDyadic_of_lt false one_ne_zero hlt).1, ?_⟩
  rw [f64Val_roundDyadic_exact false one_ne_zero hlt (j := 2 ^ 52) ?_]
  · simp [signFactor]
  · rw [inUnits, hu, zpow_natCast]; norm_num

theorem rounded_fscale (d : Draw) {x : F64} (hx : isFinite x = true) {k : ℕ} (hk : k ≤ 62) :
    Rounded ((f64Val x : ℝ) / 2 ^ k) (fscale d x k) := by
  obtain ⟨hfin, hval⟩ := roundDyadic_one_neg hk
  have h := rounded_fmul d hx hfin
  rw [hval] at h
  push_cast at h
  rwa [mul_one_div] at h

/-- Settles O42: the exact product is the product of the significands times a power of two, which `roundDyadic`
rounds once; `fscale` multiplies by the exact pattern of 2^(−k). -/
theorem multiplicationRoundsOnce : Obligations.MultiplicationRoundsOnce := by
  unfold Obligations.MultiplicationRoundsOnce
  intro d x y
  refine ⟨fun hx hy => ⟨rounded_fmul d hx hy, fsign_fmul d hx hy⟩, fun h => ?nan, fun h => ?infZero,
    fun h => ?inf, fun k hk => ⟨fun hx => ⟨rounded_fscale d hx hk, ?scaleSign⟩, fun hx => ?scaleNaN,
      fun hx => ?scaleInf⟩⟩
  case nan => rw [fmul_of_isNaN d h]; exact isNaN_anyNaN d
  case infZero =>
    rcases h with ⟨hx, hy, h0⟩ | ⟨hx, h0, hy⟩
    · rw [fmul_of_isInf d (isNaN_of_isInf hx) (isFinite_iff.1 hy).1 (.inl hx), f64Val_eq_zero_iff.1 h0]
      simp
    · rw [fmul_of_isInf d (isFinite_iff.1 hx).1 (isNaN_of_isInf hy) (.inr hy), f64Val_eq_zero_iff.1 h0]
      simp
  case inf =>
    have hmul : fmul d x y = fpack (fsign x != fsign y) (2047 * 2 ^ 52) := by
      rcases h with ⟨hx, hy, h0⟩ | ⟨hx, h0, hy⟩ | ⟨hx, hy⟩
      · exact fmul_of_isInf_of_ne_zero d (isNaN_of_isInf hx) (isFinite_iff.1 hy).1 (.inl hx)
          (fsig_ne_zero_of_isInf hx) (mt f64Val_eq_zero_iff.2 h0)
      · exact fmul_of_isInf_of_ne_zero d (isFinite_iff.1 hx).1 (isNaN_of_isInf hy) (.inr hy)
          (mt f64Val_eq_zero_iff.2 h0) (fsig_ne_zero_of_isInf hy)
      · exact fmul_of_isInf_of_ne_zero d (isNaN_of_isInf hx) (isNaN_of_isInf hy) (.inl hx)
          (fsig_ne_zero_of_isInf hx) (fsig_ne_zero_of_isInf hy)
    rw [hmul]
    exact ⟨isInf_fpack _, fsign_fpack _ (by decide)⟩
  case scaleSign => rw [fscale, fsign_fmul d hx (roundDyadic_one_neg hk).1, fsign_roundDyadic, Bool.bne_false]
  case scaleNaN => rw [fscale, fmul_of_isNaN d (.inl hx)]; exact isNaN_anyNaN d
  case scaleInf =>
    obtain ⟨hfin, hval⟩ := roundDyadic_one_neg hk
    have h0 : f64Val (roundDyadic false 1 (-(k : ℤ))) ≠ 0 := by rw [hval]; positivity
    rw [fscale, fmul_of_isInf_of_ne_zero d (isNaN_of_isInf hx) (isFinite_iff.1 hfin).1 (.inl hx)
      (fsig_ne_zero_of_isInf hx) (mt f64Val_eq_zero_iff.2 h0), fsign_roundDyadic, Bool.bne_false,
      ← eq_fpack_of_isInf hx]

/-! ## Conversions between integers and binary64 -/

theorem rounded_i2f (z : ℤ) : Rounded (z : ℝ) (i2f z) := by
  have h := rounded_roundDyadic (decide (z < 0)) z.natAbs 0
  rwa [zpow_zero, mul_one, signFactor_mul_natAbs, Rat.cast_intCast] at h

/-- Up to 2^53 an integer is a whole number of the units it is rounded in. -/
theorem f64Val_i2f {z : ℤ} (h : |z| ≤ 2 ^ 53) : f64Val (i2f z) = z := by
  have hle : z.natAbs ≤ 2 ^ 53 := by rw [Int.abs_eq_natAbs] at h; omega
  rcases eq_or_ne z.natAbs 0 with hz | hz
  case inl =>
    obtain rfl := Int.natAbs_eq_zero.1 hz
    have h0 : fsig (i2f 0) = 0 := by decide
    rw [f64Val_eq_zero_iff.2 h0, Int.cast_zero]
  case inr =>
    have hlt : (z.natAbs : ℚ) * 2 ^ (0 : ℤ) < overflowThreshold :=
      lt_overflowThreshold_of_le (by rw [zpow_zero, mul_one]; exact_mod_cast hle)
    have whole : ∃ j : ℤ, inUnits z.natAbs 0 = j := by
      rcases Nat.eq_or_lt_of_le hle with top | below
      · have hu : (0 : ℤ) - roundUnit (2 ^ 53) 0 = -1 := by decide
        exact ⟨2 ^ 52, by rw [top, inUnits, hu]; norm_num⟩
      · have hlog : Nat.log2 z.natAbs < 53 := (Nat.log2_lt hz).2 below
        have hu : roundUnit z.natAbs 0 ≤ 0 := by rw [roundUnit]; omega
        obtain ⟨i, hi⟩ := Int.eq_ofNat_of_zero_le (sub_nonneg.2 hu)
        exact ⟨(z.natAbs * 2 ^ i : ℕ), by rw [inUnits, hi, zpow_natCast, Int.cast_natCast]; norm_cast⟩
    obtain ⟨j, hj⟩ := whole
    rw [i2f, f64Val_roundDyadic_exact _ hz hlt hj, zpow_zero, mul_one, signFactor_mul_natAbs]

theorem nearestInt_rnd (x : F64) : NearestInt (f64Val x) (rnd x) := by
  rw [f64Val_eq, mul_assoc]
  unfold rnd
  refine NearestInt.signed ?_ _
  split
  case isTrue le =>
    have h := nearestInt_shiftLeft (fsig x) (fscaleExp x - 1075)
    rwa [Nat.cast_sub le] at h
  case isFalse lt =>
    have h := nearestInt_shiftRight (fsig x) (1075 - fscaleExp x)
    rwa [Nat.cast_sub (by omega), neg_sub] at h

/-- Settles O43: an integer is rounded as m · 2^0, and `rnd` shifts the significand of a pattern to the unit 1. -/
theorem integerConversionsRound : Obligations.IntegerConversionsRound := by
  unfold Obligations.IntegerConversionsRound
  refine ⟨fun z => ⟨rounded_i2f z, f64Val_i2f, ?sign⟩, fun x => ⟨fun hx => ?finite, fun hx => ?other⟩⟩
  case sign => rw [i2f, fsign_roundDyadic, decide_eq_true_iff]
  case finite =>
    obtain ⟨hdist, htie⟩ := nearestInt_rnd x
    rw [Int.abs_eq_natAbs, f2z, hx, Bool.true_and]
    exact ⟨hdist, htie, fun h => if_pos (decide_eq_true (by omega)),
      fun h => if_neg (mt of_decide_eq_true (by omega))⟩
  case other => rw [f2z, hx, Bool.false_and]; exact if_neg Bool.false_ne_true

end Sys2Proof.Machine
end

section
/-! PROOFS. Everything a command can do (R90 steps 4 to 7): the four ends it can come to, and the content a ring
command gives its destination. -/

namespace Sys2Proof

open Machine

/-! ## What a ring command writes -/

/-- The errors of R222(6) and (7), which MONO, PERM and FPERM add to the common checks. -/
def Instr.ownError : Instr → Option ErrCode
  | .mono pd pa _ => overlapError pd pa
  | .perm pd pa imm => automorphismError pd pa imm
  | .fperm fd fa imm => automorphismError fd fa imm
  | .endCmd | .cfg .. | .fft .. | .ifft .. | .fmul .. | .fmac .. | .mul .. | .muladd .. | .mulsub ..
  | .muls .. | .mulsadd .. | .mulssub .. | .padd .. | .psub .. | .pneg .. | .pscl .. => none

/-- The coefficients a command that completes gives its destination Poly; none where it has no such destination. -/
def Instr.coefsResult (s : State) : Instr → List Coef
  | .ifft _ fa => storeAll s.conf.width (300 :: s.draw) 0 (invFloatZ s.conf.log s.draw (s.lanes fa))
  | .mul pd pa pb => mulCoefs .overwrite false pd pa pb
  | .muladd pd pa pb => mulCoefs .addInto false pd pa pb
  | .mulsub pd pa pb => mulCoefs .subFrom false pd pa pb
  | .muls pd pa pb => mulCoefs .overwrite true pd pa pb
  | .mulsadd pd pa pb => mulCoefs .addInto true pd pa pb
  | .mulssub pd pa pb => mulCoefs .subFrom true pd pa pb
  | .padd _ pa pb => List.zipWith (addCoef s.conf.width) (s.coefs pa) (s.coefs pb)
  | .psub _ pa pb => List.zipWith (subCoef s.conf.width) (s.coefs pa) (s.coefs pb)
  | .pneg _ pa => (s.coefs pa).map (negCoef s.conf.width)
  | .pscl _ pa imm => (s.coefs pa).map (sclCoef s.conf.width (scalarOf s.conf.width imm))
  | .mono _ pa imm =>
    remap s.conf.width s.conf.degree (monoTarget s.conf.degree (degreeOf s.conf.log imm)) (s.coefs pa)
  | .perm _ pa imm =>
    remap s.conf.width s.conf.degree (permTarget s.conf.degree (degreeOf s.conf.log imm)) (s.coefs pa)
  | .endCmd | .cfg .. | .fft .. | .fmul .. | .fmac .. | .fperm .. => []
where
  /-- What the six commands of R159 share. -/
  mulCoefs (acc : Acc) (short : Bool) (pd pa pb : PolySlot) : List Coef :=
    combine s.conf.width acc (s.coefs pd) (product s.conf s.draw short (s.coefs pa) (s.coefs pb))

/-- The lanes a command that completes gives its destination FrequencyPoly. -/
def Instr.lanesResult (s : State) : Instr → List Cplx
  | .fft _ pa => fwdFloatInt s.conf.log s.draw ((s.coefs pa).map (val s.conf.width s.conf.sgn))
  | .fmul _ fa fb => mulLanes (0 :: s.draw) 0 (s.lanes fa) (s.lanes fb)
  | .fmac fd fa fb => macLanes s.draw (s.lanes fd) (s.lanes fa) (s.lanes fb)
  | .fperm _ fa imm => permuteLanes cconj ⟨0, 0⟩ s.conf.log (degreeOf s.conf.log imm) (s.lanes fa)
  | .endCmd | .cfg .. | .ifft .. | .mul .. | .muladd .. | .mulsub .. | .muls .. | .mulsadd .. | .mulssub ..
  | .padd .. | .psub .. | .pneg .. | .pscl .. | .mono .. | .perm .. => []

/-- How many names of draws a command that completes uses up (log entry 3). -/
def Instr.drawsTaken : Instr → Nat
  | .fft .. | .ifft .. | .fmul .. | .fmac .. | .mul .. | .muladd .. | .mulsub .. | .muls .. | .mulsadd ..
  | .mulssub .. => 1
  | .endCmd | .cfg .. | .padd .. | .psub .. | .pneg .. | .pscl .. | .mono .. | .perm .. | .fperm .. => 0

namespace Machine

/-- The state with the result of `i` in the slot `rd`. -/
def State.writeResult (s : State) (i : Instr) : Slot → State
  | .poly n => { s.writePoly n (i.coefsResult s) with draws := s.draws + i.drawsTaken }
  | .freq n => { s.writeFreq n (i.lanesResult s) with draws := s.draws + i.drawsTaken }

/-- Every command with slot operands is a ring command, and writes its result into its destination. -/
theorem exec_of_operands {i : Instr} {o : Operands} (h : i.operands = some o) (s : State) :
    exec i s = ringCommand s o i.ownError (s.writeResult i o.rd) := by
  cases i <;> cases h <;> rfl

theorem ownError_ne_none (i : Instr) : i.ownError ≠ some ErrCode.none := by
  cases i
  case mono pd pa imm => exact overlapError_ne_none pd pa
  case perm pd pa imm => exact automorphismError_ne_none pd pa imm
  case fperm fd fa imm => exact automorphismError_ne_none fd fa imm
  all_goals exact nofun

/-- The commands without slot operands are END and CFG. -/
theorem operands_eq_none {i : Instr} (h : i.operands = none) :
    i = .endCmd ∨ ∃ logn wsel sgn strat lb lc kt, i = .cfg logn wsel sgn strat lb lc kt := by
  cases i
  case endCmd => exact .inl rfl
  case cfg logn wsel sgn strat lb lc kt => exact .inr ⟨logn, wsel, sgn, strat, lb, lc, kt, rfl⟩
  all_goals cases h

@[simp] theorem State.writeResult_conf (s : State) (i : Instr) (x : Slot) : (s.writeResult i x).conf = s.conf := by
  cases x <;> rfl

@[simp] theorem State.writeResult_cp (s : State) (i : Instr) (x : Slot) : (s.writeResult i x).cp = s.cp := by
  cases x <;> rfl

@[simp] theorem State.writeResult_runstate (s : State) (i : Instr) (x : Slot) :
    (s.writeResult i x).runstate = s.runstate := by
  cases x <;> rfl

/-- The destination's tag becomes (1, LOGN) and every other tag stays (R30). -/
theorem State.tagLogn_writeResult (s : State) (i : Instr) (x y : Slot) :
    (s.writeResult i x).tagLogn y = if y = x then some s.conf.logn else s.tagLogn y := by
  cases x <;> cases y <;>
    simp only [State.writeResult, State.tagLogn, State.writePoly_polys, State.writePoly_freqs, State.writeFreq_polys,
      State.writeFreq_freqs, Memory.read_write, BitVec.toNat_inj, Slot.poly.injEq, Slot.freq.injEq, reduceCtorEq,
      if_false]
  all_goals split <;> rfl

/-! ## The checks of R222 -/

theorem State.ready_iff (s : State) (o : Operands) :
    s.ready o = true ↔ s.conf.cfgd = true ∧ (if o.readsRd then s.holds o.rd else s.takes o.rd) = true
      ∧ ∀ x ∈ o.srcs, s.holds x = true := by
  simp only [State.ready, Bool.and_eq_true, List.all_eq_true, and_assoc]

/-- The operands of a command that passes its checks are ready, and it has no error of its own. -/
theorem State.ready_of_ringError {s : State} {o : Operands} {extra : Option ErrCode}
    (h : s.ringError o extra = none) : s.ready o = true ∧ extra = none := by
  unfold State.ringError at h
  split_ifs at h with hc hb hd
  rw [State.badSlot_iff, State.BadSlotCause, not_or, not_or] at hb
  rw [State.degreeMismatch_iff, State.DegreeMismatchCause] at hd
  obtain ⟨hrd, hread, hsrc⟩ := hb
  have degree : ∀ x ∈ o.rd :: o.srcs, s.tagLogn x = none ∨ s.tagLogn x = some s.conf.logn := by
    intro x hx
    cases ht : s.tagLogn x with
    | none => exact .inl rfl
    | some l => exact .inr (congrArg some (by_contra fun hne => hd ⟨x, hx, l, ht, hne⟩))
  have sources : ∀ x ∈ o.srcs, s.holds x = true := fun x hx => by
    have hbad : ¬ (s.slotExists x = false ∨ s.tagLogn x = none) := fun hbad => hsrc ⟨x, hx, hbad⟩
    obtain ⟨hex, hvalid⟩ := not_or.1 hbad
    exact (s.holds_iff x).2 ⟨by simpa using hex, (degree x (List.mem_cons_of_mem _ hx)).resolve_left hvalid⟩
  have destination : (if o.readsRd then s.holds o.rd else s.takes o.rd) = true := by
    have hex : s.slotExists o.rd = true := by simpa using hrd
    have hdeg := degree o.rd List.mem_cons_self
    split
    case isTrue hr => exact (s.holds_iff _).2 ⟨hex, hdeg.resolve_left fun hn => hread ⟨hr, hn⟩⟩
    case isFalse => exact (s.takes_iff _).2 ⟨hex, hdeg⟩
  exact ⟨(s.ready_iff o).2 ⟨by simpa using hc, destination, sources⟩, h⟩

section
variable {s : State} {o : Operands} (h : s.ready o = true)
include h

theorem State.cfgd_of_ready : s.conf.cfgd = true := ((s.ready_iff o).1 h).1

theorem State.holds_of_ready {x : Slot} (hx : x ∈ o.srcs) : s.holds x = true := by
  obtain ⟨-, -, hsrcs⟩ := (s.ready_iff o).1 h
  exact hsrcs x hx

theorem State.holds_rd_of_ready (hr : o.readsRd = true) : s.holds o.rd = true := by
  obtain ⟨-, hrd, -⟩ := (s.ready_iff o).1 h
  rwa [if_pos hr] at hrd

/-- The destination of a ready command exists; its tag is (1, LOGN), or not valid and then it is not read. -/
theorem State.takes_rd_of_ready :
    s.slotExists o.rd = true
      ∧ (s.tagLogn o.rd = some s.conf.logn ∨ (s.tagLogn o.rd = none ∧ o.readsRd = false)) := by
  obtain ⟨-, hrd, -⟩ := (s.ready_iff o).1 h
  split at hrd
  case isTrue =>
    obtain ⟨hex, ht⟩ := (s.holds_iff _).1 hrd
    exact ⟨hex, .inl ht⟩
  case isFalse hr =>
    obtain ⟨hex, ht⟩ := (s.takes_iff _).1 hrd
    exact ⟨hex, ht.symm.imp_right fun hn => ⟨hn, by simpa using hr⟩⟩

end

/-! ## The four ends of a command -/

theorem stratOf_eq_some {v : BitVec 2} {st : Strat} (h : stratOf v = some st) : v.toNat = st.code := by
  unfold stratOf at h
  split at h <;> cases h <;> assumption

/-- `t` is one of the states in which the command `i` can leave `s`. -/
inductive Executed (i : Instr) (s : State) : State → Prop
  /-- the error stop (R223) -/
  | stopped (e : ErrCode) (he : e ≠ ErrCode.none) : Executed i s (s.raise e)
  /-- END (R92) -/
  | ended (hi : i = .endCmd) : Executed i s s.stop
  /-- a CFG that passes the checks of R91 -/
  | constructed {logn wsel sgn strat lb lc kt} (st : Strat) (hi : i = .cfg logn wsel sgn strat lb lc kt)
      (hst : strat.toNat = st.code) (hc : configError s.caps logn wsel lb lc kt = false) :
      Executed i s (s.construct ⟨true, logn, wsel, sgn, st, lb, lc, kt⟩).advance
  /-- a ring command whose operands are ready -/
  | completed (o : Operands) (ho : i.operands = some o) (hr : s.ready o = true) :
      Executed i s (s.writeResult i o.rd).advance

/-- Everything a command can do. -/
theorem executed_of_exec {i : Instr} {s t : State} (h : exec i s = .next t) : Executed i s t := by
  cases ho : i.operands with
  | some o =>
    rw [exec_of_operands ho] at h
    rcases ringCommand_cases h with ⟨e, he, rfl⟩ | ⟨hn, rfl⟩
    · exact .stopped e (State.ringError_ne_none (ownError_ne_none i) he)
    · exact .completed o ho (State.ready_of_ringError hn).1
  | none =>
    rcases operands_eq_none ho with rfl | ⟨logn, wsel, sgn, strat, lb, lc, kt, rfl⟩
    · cases h
      exact .ended rfl
    · simp only [exec, execCfg] at h
      cases hst : stratOf strat with
      | none =>
        rw [hst] at h
        cases h
        exact .stopped _ (by decide)
      | some st =>
        simp only [hst] at h
        split at h
        · cases h
          exact .stopped _ (by decide)
        · next hc =>
          cases h
          exact .constructed st rfl (stratOf_eq_some hst) (by simpa using hc)

end Machine

end Sys2Proof
end

section
/-! PROOFS. The content a ring command writes is that of a legal slot: N coefficients of W bits, or n lanes
(R22, R24). -/

namespace Sys2Proof.Machine

/-! ## W-bit patterns -/

theorem forall_mem_zipWith {α β γ : Type} {f : α → β → γ} {P : γ → Prop} (h : ∀ x y, P (f x y)) (a : List α)
    (b : List β) : ∀ z ∈ List.zipWith f a b, P z := by
  intro z hz
  obtain ⟨k, hk, rfl⟩ := List.mem_iff_getElem.1 hz
  rw [List.getElem_zipWith]
  exact h _ _

theorem forall_mem_storeAll {P : Coef → Prop} {W : Nat} (h : ∀ d z, P (storeRounded W d z)) (d : Draw) (j : Nat)
    (z : List (Option Int)) : ∀ c ∈ storeAll W d j z, P c := by
  induction z generalizing j with
  | nil => simp [storeAll]
  | cons x z ih => simpa [storeAll, h] using ih (j + 1)

theorem forall_mem_scatter {P : Coef → Prop} {W : Nat} (hn : ∀ c, P (negCoef W c)) (target : Nat → Target) (i : Nat)
    {a dst : List Coef} (ha : ∀ c ∈ a, P c) (hd : ∀ c ∈ dst, P c) : ∀ c ∈ scatter W target i a dst, P c := by
  induction a generalizing i dst with
  | nil => exact hd
  | cons x a ih =>
    obtain ⟨hx, ha⟩ := List.forall_mem_cons.1 ha
    refine ih (i + 1) ha fun c hc => ?_
    rcases List.mem_or_eq_of_mem_set hc with hc | rfl
    · exact hd c hc
    · unfold signed
      split
      · exact hn x
      · exact hx

theorem wBitPoly_zipWith {W N : Nat} {f : Coef → Coef → Coef} (hf : ∀ x y, (f x y).toNat < 2 ^ W) {a b : List Coef}
    (ha : a.length = N) (hb : b.length = N) : WBitPoly W N (List.zipWith f a b) :=
  ⟨by rw [List.length_zipWith, ha, hb, min_self], forall_mem_zipWith hf a b⟩

theorem wBitPoly_map {W N : Nat} {f : Coef → Coef} (hf : ∀ x, (f x).toNat < 2 ^ W) {a : List Coef}
    (ha : a.length = N) : WBitPoly W N (a.map f) :=
  ⟨by rw [List.length_map, ha], List.forall_mem_map.2 fun x _ => hf x⟩

/-- The remapped coefficients are source coefficients, negated ones and zeros (R200, R201). -/
theorem wBitPoly_remap {W N : Nat} (hW : W ≤ 64) (target : Nat → Target) {a : List Coef}
    (ha : ∀ c ∈ a, c.toNat < 2 ^ W) : WBitPoly W N (remap W N target a) := by
  refine ⟨length_remap .., forall_mem_scatter (fun c => wrap_lt hW _) target 0 ha fun c hc => ?_⟩
  rw [List.eq_of_mem_replicate hc]
  exact Nat.two_pow_pos W

/-- Under either strategy the product is reduced modulo 2^W (R147, R174). -/
theorem wBitPoly_product (c : Conf) (d : Draw) (short : Bool) {a q : List Coef} (ha : a.length = c.degree)
    (hq : q.length = c.degree) : WBitPoly c.width c.degree (product c d short a q) := by
  refine ⟨length_product c d short a q ha hq, ?_⟩
  unfold product
  split
  case isTrue => exact forall_mem_zipWith (f := subCoef c.width) (fun x y => wrap_lt c.width_le _) _ _
  case isFalse => exact List.forall_mem_map.2 fun j _ => storeRounded_lt c.width_le _ _

theorem wBitPoly_combine {W N : Nat} (hW : W ≤ 64) {acc : Acc} {old prodw : List Coef}
    (ho : acc.readsDestination = true → old.length = N) (hp : WBitPoly W N prodw) :
    WBitPoly W N (combine W acc old prodw) := by
  cases acc
  case overwrite => exact hp
  case addInto => exact wBitPoly_zipWith (fun x y => wrap_lt hW _) (ho rfl) hp.1
  case subFrom => exact wBitPoly_zipWith (fun x y => wrap_lt hW _) (ho rfl) hp.1

/-! ## The result of a ready command -/

section
variable {s : State} (hi : s.Inv)
include hi

theorem wBitPoly_coefs {n : PolySlot} (h : s.holds (.poly n) = true) :
    WBitPoly s.conf.width s.conf.degree (s.coefs n) :=
  hi.coefs_of_holds h

theorem wBitPoly_mulCoefs (acc : Acc) (short : Bool) {pd pa pb : PolySlot}
    (hr : s.ready ⟨.poly pd, acc.readsDestination, [.poly pa, .poly pb]⟩ = true) :
    WBitPoly s.conf.width s.conf.degree (Instr.coefsResult.mulCoefs s acc short pd pa pb) := by
  have source : ∀ n, Slot.poly n ∈ [Slot.poly pa, Slot.poly pb] → (s.coefs n).length = s.conf.degree :=
    fun n hn => (wBitPoly_coefs hi (State.holds_of_ready hr hn)).1
  exact wBitPoly_combine s.conf.width_le (fun h => (wBitPoly_coefs hi (State.holds_rd_of_ready hr h)).1)
    (wBitPoly_product _ _ _ (source pa (by simp)) (source pb (by simp)))

/-- A ready command gives its destination Poly N coefficients of W bits. -/
theorem wBitPoly_coefsResult {i : Instr} {o : Operands} {pd : PolySlot} (ho : i.operands = some o)
    (hrd : o.rd = .poly pd) (hr : s.ready o = true) :
    WBitPoly s.conf.width s.conf.degree (i.coefsResult s) := by
  have hW := s.conf.width_le
  have poly : ∀ {n}, Slot.poly n ∈ o.srcs → WBitPoly s.conf.width s.conf.degree (s.coefs n) :=
    fun hn => wBitPoly_coefs hi (State.holds_of_ready hr hn)
  cases i <;> cases ho
  case ifft pd fa =>
    have hl := hi.lanes_of_holds (State.holds_of_ready hr List.mem_cons_self)
    refine ⟨?_, forall_mem_storeAll (fun d z => storeRounded_lt hW d z) _ _ _⟩
    rw [Instr.coefsResult, length_storeAll]
    exact length_invFloatZ _ _ _ (hi.log_bounds (State.cfgd_of_ready hr)).1 hl
  case mul => exact wBitPoly_mulCoefs hi .overwrite false hr
  case muladd => exact wBitPoly_mulCoefs hi .addInto false hr
  case mulsub => exact wBitPoly_mulCoefs hi .subFrom false hr
  case muls => exact wBitPoly_mulCoefs hi .overwrite true hr
  case mulsadd => exact wBitPoly_mulCoefs hi .addInto true hr
  case mulssub => exact wBitPoly_mulCoefs hi .subFrom true hr
  case padd => exact wBitPoly_zipWith (fun x y => wrap_lt hW _) (poly (by simp)).1 (poly (by simp)).1
  case psub => exact wBitPoly_zipWith (fun x y => wrap_lt hW _) (poly (by simp)).1 (poly (by simp)).1
  case pneg => exact wBitPoly_map (fun x => wrap_lt hW _) (poly (by simp)).1
  case pscl => exact wBitPoly_map (fun x => wrap_lt hW _) (poly (by simp)).1
  case mono => exact wBitPoly_remap hW _ (poly (by simp)).2
  case perm => exact wBitPoly_remap hW _ (poly (by simp)).2
  all_goals cases hrd

/-- A ready command gives its destination FrequencyPoly n lanes. -/
theorem length_lanesResult {i : Instr} {o : Operands} {fd : FreqSlot} (ho : i.operands = some o)
    (hrd : o.rd = .freq fd) (hr : s.ready o = true) : (i.lanesResult s).length = s.conf.laneCount := by
  have lanes : ∀ {n}, Slot.freq n ∈ o.srcs → (s.lanes n).length = s.conf.laneCount :=
    fun hn => hi.lanes_of_holds (State.holds_of_ready hr hn)
  cases i <;> cases ho
  case fft fd pa =>
    have hl := (wBitPoly_coefs hi (State.holds_of_ready hr List.mem_cons_self)).1
    refine length_fwdFloatInt _ _ _ (hi.log_bounds (State.cfgd_of_ready hr)).1 ?_
    rw [List.length_map]
    exact hl
  case fmul => rw [Instr.lanesResult, length_mulLanes, lanes (by simp), lanes (by simp), min_self]
  case fmac =>
    have hd := hi.lanes_of_holds (State.holds_rd_of_ready hr rfl)
    rw [Instr.lanesResult, macLanes, length_addLanes, length_mulLanes, hd, lanes (by simp), lanes (by simp), min_self,
      min_self]
  case fperm => exact length_permuteLanes ..
  all_goals cases hrd

end

end Sys2Proof.Machine
end

section
/-! PROOFS. Everything a host access can do (R51 to R54, R62), and the statements about the control and status
registers. -/

namespace Sys2Proof.Machine

/-! ## What the accesses do -/

/-- A write of the POLY space is ignored, or replaces one coefficient of an allocated slot (R51). -/
theorem State.writeCoef_cases (s : State) (n j : Nat) (v : BitVec 64) :
    s.writeCoef n j v = s
      ∨ ∃ p, s.polys.read n = some p ∧ s.writeCoef n j v = { s with
          polys := s.polys.write n { p with coefs := p.coefs.set j (wrap s.conf.width v.toNat) } } := by
  unfold State.writeCoef
  cases s.polys.read n with
  | none => exact .inl rfl
  | some p =>
    simp only
    split
    · exact .inr ⟨p, rfl, rfl⟩
    · exact .inl rfl

/-- A write of the FREQ space is ignored, or replaces one element of an allocated slot (R52). -/
theorem State.writeLane_cases (s : State) (n e : Nat) (v : F64) :
    s.writeLane n e v = s
      ∨ ∃ f, s.freqs.read n = some f ∧ s.writeLane n e v = { s with
          freqs := s.freqs.write n { f with lanes := f.lanes.modify (e / 2) (setElement · e v) } } := by
  unfold State.writeLane
  cases s.freqs.read n with
  | none => exact .inl rfl
  | some f =>
    simp only
    split
    · exact .inr ⟨f, rfl, rfl⟩
    · exact .inl rfl

/-- A slot that a TAG address names exists. -/
theorem State.slotExists_of_tagSlot {s : State} {t : Nat} {x : Slot} (h : s.tagSlot t = some x) :
    s.slotExists x = true := by
  unfold State.tagSlot at h
  split_ifs at h with hp hf <;> cases h
  · rw [State.slotExists, BitVec.toNat_ofNat, Nat.mod_eq_of_lt hp.2]
    exact decide_eq_true hp.1
  · rw [State.slotExists, BitVec.toNat_ofNat, Nat.mod_eq_of_lt hf.2.2]
    exact decide_eq_true hf.2.1

/-- A write of the TAG space is ignored, allocates a slot with a legal degree, or frees one (R51, R52). -/
theorem State.writeTag_cases (s : State) (t : Nat) (v : BitVec 7) :
    s.writeTag t v = s
      ∨ ∃ x, s.slotExists x = true
        ∧ ((∃ logn, s.conf.cfgd = true ∧ s.caps.minLogn ≤ logn.toNat ∧ logn.toNat ≤ s.caps.maxLogn
            ∧ s.writeTag t v = s.allocate x logn)
          ∨ s.writeTag t v = s.release x) := by
  unfold State.writeTag
  cases ht : s.tagSlot t with
  | none => exact .inl rfl
  | some x =>
    simp only
    split_ifs with hv hl
    · exact .inr ⟨x, s.slotExists_of_tagSlot ht, .inl ⟨_, hl.1, hl.2.1, hl.2.2, rfl⟩⟩
    · exact .inl rfl
    · exact .inr ⟨x, s.slotExists_of_tagSlot ht, .inr rfl⟩

/-- A write of the CSR space resets, starts, moves CP while the engine is not BUSY, or is ignored (R28). -/
theorem State.writeCsr_cases (s : State) (r : Nat) (v : BitVec 64) :
    (r = 0 ∧ v.getLsbD 1 = true ∧ s.writeCsr r v = s.softReset)
      ∨ s.writeCsr r v = s.go
      ∨ (∃ cp, s.writeCsr r v = { s with cp := cp })
      ∨ s.writeCsr r v = s := by
  unfold State.writeCsr
  split
  case h_1 =>
    split_ifs with hreset hgo
    · exact .inl ⟨rfl, hreset, rfl⟩
    · exact .inr (.inl rfl)
    · exact .inr (.inr (.inr rfl))
  case h_2 =>
    split_ifs
    · exact .inr (.inr (.inr rfl))
    · exact .inr (.inr (.inl ⟨_, rfl⟩))
  case h_3 => exact .inr (.inr (.inr rfl))

/-- `t` is one of the states in which the host access `op` can leave `s`. -/
inductive Accessed (op : HostOp) (s : State) : State → Prop
  /-- a read -/
  | read (x : BitVec 128) : Accessed op s { s with hostData := x }
  /-- a write of the CMD space -/
  | cmd (a : Nat) (w : Command) : Accessed op s (s.writeCmd a w)
  /-- a write of the POLY space, by pair or by flat address -/
  | coef (n j : Nat) (v : BitVec 64) : Accessed op s (s.writeCoef n j v)
  /-- a write of the FREQ space, by pair or by flat address -/
  | lane (n e : Nat) (v : F64) : Accessed op s (s.writeLane n e v)
  /-- a write of the TAG space -/
  | tag (t : Nat) (v : BitVec 7) : Accessed op s (s.writeTag t v)
  /-- a write of the CSR space -/
  | csr (r : Nat) (v : BitVec 64) (hop : op = .writeCsr r v) : Accessed op s (s.writeCsr r v)

theorem accessed_of_answer {op : HostOp} {w : Nat} {s t : State} {x : Option (BitVec w)} (h : s.answer x = .next t) :
    Accessed op s t := by
  obtain ⟨v, -, rfl⟩ := State.answer_cases h
  exact .read _

/-- Everything a host access can do. -/
theorem accessed_of_hostAccess {op : HostOp} {s t : State} (h : hostAccess op s = .next t) : Accessed op s t := by
  have he := (hostAccess_cases h).2
  cases op
  case writeCmd a w => cases he; exact .cmd a w
  case writeCoef n j v => cases he; exact .coef n j v
  case writePoly a v => cases he; exact .coef _ _ v
  case writeLane n e v => cases he; exact .lane n e v
  case writeFreq a v => cases he; exact .lane _ _ v
  case writeTag n v => cases he; exact .tag n v
  case writeCsr r v => cases he; exact .csr r v rfl
  case readCsr r => cases he; exact .read _
  all_goals exact accessed_of_answer he

/-! ## Control and status registers -/

/-- A register read that is allowed returns the register's word (R28, R62). -/
theorem hostAccess_readCsr {s : State} {r : Nat} (h : s.runstate ≠ .busy ∨ r = 1 ∨ r = 2) :
    hostAccess (.readCsr r) s = .next { s with hostData := (s.csrWord r).setWidth 128 } := by
  refine if_neg ?_
  rintro ⟨hbusy, hno⟩
  simp only [HostOp.allowedWhileBusy, Bool.or_eq_false_iff, beq_eq_false_iff_ne] at hno
  tauto

/-- A register write that is allowed has its effect (R28, R62). -/
theorem hostAccess_writeCsr {s : State} {r : Nat} (h : s.runstate ≠ .busy ∨ r = 0 ∨ r = 2) (v : BitVec 64) :
    hostAccess (.writeCsr r v) s = .next (s.writeCsr r v) := by
  refine if_neg ?_
  rintro ⟨hbusy, hno⟩
  simp only [HostOp.allowedWhileBusy, Bool.or_eq_false_iff, beq_eq_false_iff_ne] at hno
  tauto

theorem State.writeCsr_zero (s : State) (v : BitVec 64) :
    s.writeCsr 0 v = if v.getLsbD 1 then s.softReset else if v.getLsbD 0 then s.go else s := rfl

theorem State.writeCsr_two (s : State) (v : BitVec 64) :
    s.writeCsr 2 v = if s.runstate = .busy then s else { s with cp := v.setWidth 32 } := by
  rw [BitVec.setWidth_eq_extractLsb' (by decide)]
  rfl

theorem State.writeCsr_other (s : State) {r : Nat} (h0 : r ≠ 0) (h2 : r ≠ 2) (v : BitVec 64) :
    s.writeCsr r v = s := by
  unfold State.writeCsr
  split
  · exact absurd rfl h0
  · exact absurd rfl h2
  · rfl

theorem State.go_of_busy {s : State} (h : s.runstate = .busy) : s.go = s := by
  unfold State.go; rw [h]

theorem State.go_of_ne_busy {s : State} (h : s.runstate ≠ .busy) :
    s.go = { s with runstate := .busy, errcode := ErrCode.none } := by
  unfold State.go
  split
  · next hb => exact absurd hb h
  all_goals rfl

/-- Settles O14: each write is allowed in the run state its clause names, and then has the effect `writeCsr` gives
its register. -/
theorem csrWrites : Obligations.CsrWrites := by
  unfold Obligations.CsrWrites
  intro s v
  have ctrl := hostAccess_writeCsr (s := s) (.inr (.inl rfl)) v
  have cp := hostAccess_writeCsr (s := s) (.inr (.inr rfl)) v
  rw [State.writeCsr_zero] at ctrl
  rw [State.writeCsr_two] at cp
  refine ⟨fun hs hg hb => ?go, fun hs hg => ?noGo, fun hb => ?cp, fun hb => ?cpBusy, fun r h0 h2 hb => ?other⟩
  case go => rw [ctrl, hs, hg, ← State.go_of_ne_busy hb]; rfl
  case noGo =>
    rw [ctrl, hs]
    rcases hg with hg | hb
    · rw [hg]; rfl
    · rw [State.go_of_busy hb, ite_self]; rfl
  case cp => rw [cp, if_neg hb]
  case cpBusy => rw [cp, if_pos hb]
  case other => rw [hostAccess_writeCsr (.inl hb), State.writeCsr_other s h0 h2]

/-! ### Fields of the words -/

/-- A field of a register's word, as the host reads it. -/
theorem toNat_field {m lo len : Nat} (hm : m < 2 ^ 64) :
    (((BitVec.ofNat 64 m).setWidth 128).extractLsb' lo len).toNat = m / 2 ^ lo % 2 ^ len := by
  rw [BitVec.extractLsb'_toNat, BitVec.toNat_setWidth, BitVec.toNat_ofNat, Nat.mod_eq_of_lt hm,
    Nat.mod_eq_of_lt (hm.trans (by decide)), Nat.shiftRight_eq_div_pow]

theorem field_eq {m lo len : Nat} (hm : m < 2 ^ 64) {f : BitVec len} (h : m / 2 ^ lo % 2 ^ len = f.toNat) :
    ((BitVec.ofNat 64 m).setWidth 128).extractLsb' lo len = f :=
  BitVec.eq_of_toNat_eq ((toNat_field hm).trans h)

/-- A one-bit field of a register's word, as the host reads it. -/
theorem bit_eq {m i : Nat} (hm : m < 2 ^ 64) {b : Bool} (h : m / 2 ^ i % 2 = b.toNat) :
    ((BitVec.ofNat 64 m).setWidth 128).getLsbD i = b := by
  rw [BitVec.getLsbD, BitVec.toNat_setWidth, BitVec.toNat_ofNat, Nat.mod_eq_of_lt hm,
    Nat.mod_eq_of_lt (hm.trans (by decide)), Nat.testBit_eq_decide_div_mod_eq, h]
  cases b <;> rfl

theorem Strat.code_lt (st : Strat) : st.code < 3 := by cases st <;> decide

/-- The fields of CONFIG (R28). -/
theorem confWord_fields (c : Conf) :
    let x := c.word.setWidth 128
    x.getLsbD 0 = c.cfgd ∧ x.extractLsb' 1 6 = c.logn ∧ x.extractLsb' 7 2 = c.wsel ∧ x.getLsbD 9 = c.sgn
      ∧ (x.extractLsb' 10 2).toNat = c.strat.code ∧ x.extractLsb' 12 7 = c.limbBits
      ∧ x.extractLsb' 19 8 = c.limbCount ∧ x.extractLsb' 27 6 = c.logKt ∧ x.extractLsb' 33 95 = 0 := by
  have cfgd := c.cfgd.toNat_lt
  have sgn := c.sgn.toNat_lt
  have strat := c.strat.code_lt
  have logn := c.logn.isLt
  have wsel := c.wsel.isLt
  have limbBits := c.limbBits.isLt
  have limbCount := c.limbCount.isLt
  have logKt := c.logKt.isLt
  have bound : c.cfgd.toNat + c.logn.toNat * 2 ^ 1 + c.wsel.toNat * 2 ^ 7 + c.sgn.toNat * 2 ^ 9
      + c.strat.code * 2 ^ 10 + c.limbBits.toNat * 2 ^ 12 + c.limbCount.toNat * 2 ^ 19
      + c.logKt.toNat * 2 ^ 27 < 2 ^ 33 := by omega
  have fits := bound.trans (b := 2 ^ 33) (c := 2 ^ 64) (by decide)
  refine ⟨bit_eq fits ?_, field_eq fits ?_, field_eq fits ?_, bit_eq fits ?_, (toNat_field fits).trans ?_,
    field_eq fits ?_, field_eq fits ?_, field_eq fits ?_, field_eq fits ?_⟩
  case refine_9 => rw [Nat.div_eq_of_lt bound]; rfl
  all_goals omega

/-- The fields of CAPS (R28), for sizes that R6 allows. -/
theorem capsWord_fields {k : Caps} (hk : k.legal = true) :
    let x := k.word.setWidth 128
    (x.extractLsb' 0 9).toNat = k.np ∧ (x.extractLsb' 9 9).toNat = k.nf ∧ (x.extractLsb' 18 6).toNat = k.minLogn
      ∧ (x.extractLsb' 24 6).toNat = k.maxLogn ∧ (x.extractLsb' 30 32).toNat = k.ncmd
      ∧ x.extractLsb' 62 66 = 0 := by
  simp only [Caps.legal, decide_eq_true_eq] at hk
  have bound : k.np % 2 ^ 9 + k.nf % 2 ^ 9 * 2 ^ 9 + k.minLogn % 2 ^ 6 * 2 ^ 18 + k.maxLogn % 2 ^ 6 * 2 ^ 24
      + k.ncmd % 2 ^ 32 * 2 ^ 30 < 2 ^ 62 := by omega
  have fits := bound.trans (b := 2 ^ 62) (c := 2 ^ 64) (by decide)
  refine ⟨(toNat_field fits).trans ?_, (toNat_field fits).trans ?_, (toNat_field fits).trans ?_,
    (toNat_field fits).trans ?_, (toNat_field fits).trans ?_, field_eq fits ?_⟩
  case refine_6 => rw [Nat.div_eq_of_lt bound]; rfl
  all_goals omega

/-- The fields of STATUS (R28). -/
theorem statusWord_fields (s : State) :
    let x := s.statusWord.setWidth 128
    (x.extractLsb' 0 2).toNat = s.runstate.code ∧ (x.extractLsb' 8 8).toNat = s.errcode.code
      ∧ x.extractLsb' 2 6 = 0 ∧ x.extractLsb' 16 112 = 0 := by
  unfold State.statusWord
  cases s.runstate <;> cases s.errcode <;> decide

/-- The fields of CP (R28). -/
theorem cpWord_fields (cp : BitVec 32) :
    let x := (cp.setWidth 64).setWidth 128
    x.extractLsb' 0 32 = cp ∧ x.extractLsb' 32 96 = 0 := by
  have hcp := cp.isLt
  have word : cp.setWidth 64 = BitVec.ofNat 64 cp.toNat := (BitVec.ofNat_toNat ..).symm
  have fits : cp.toNat < 2 ^ 64 := by omega
  simp only [word]
  refine ⟨field_eq fits ?_, field_eq fits ?_⟩
  · omega
  · rw [Nat.div_eq_of_lt hcp]; rfl

/-- Settles O15: the read returns the register's word, whose fields are those of the four lemmas above. -/
theorem csrReads : Obligations.CsrReads := by
  unfold Obligations.CsrReads
  intro s r hi hr
  refine ⟨_, hostAccess_readCsr hr, ?zero, ?status, ?cp, ?config, ?caps⟩
  case zero =>
    intro h
    have zero : s.csrWord r = 0 := by
      unfold State.csrWord
      split
      case h_5 => rfl
      all_goals omega
    rw [zero]
    rfl
  case status => rintro rfl; exact statusWord_fields s
  case cp => rintro rfl; exact cpWord_fields s.cp
  case config => rintro rfl; exact confWord_fields s.conf
  case caps => rintro rfl; exact capsWord_fields hi.capsLegal

end Sys2Proof.Machine
end

section
/-! PROOFS. The legal states: the state after reset is one, and every step keeps them. -/

namespace Sys2Proof.Machine

/-! ## Legal contents -/

theorem Poly.legal_iff {k : Caps} {W : Nat} {p : Poly} :
    p.legal k W = true
      ↔ (k.minLogn ≤ p.logn.toNat ∧ p.logn.toNat ≤ k.maxLogn) ∧ WBitPoly W (2 ^ p.logn.toNat) p.coefs := by
  simp only [Poly.legal, WBitPoly, Bool.and_eq_true, decide_eq_true_eq, List.all_eq_true, and_assoc]

theorem FreqPoly.legal_iff {k : Caps} {f : FreqPoly} :
    f.legal k = true
      ↔ (k.minLogn ≤ f.logn.toNat ∧ f.logn.toNat ≤ k.maxLogn) ∧ f.lanes.length = 2 ^ (f.logn.toNat - 1) := by
  simp only [FreqPoly.legal, decide_eq_true_eq, and_assoc]

theorem Conf.legal_reset (k : Caps) : Conf.reset.legal k = true := rfl

/-- Allocation zero-fills, so it makes a legal Poly (R51). -/
theorem wBitPoly_zero (W N : Nat) : WBitPoly W N (List.replicate N 0) := by
  refine ⟨List.length_replicate, fun c hc => ?_⟩
  rw [List.eq_of_mem_replicate hc]
  exact Nat.two_pow_pos W

theorem WBitPoly.set {W N : Nat} {a : List Coef} (h : WBitPoly W N a) (hW : W ≤ 64) (j : Nat) (z : Int) :
    WBitPoly W N (a.set j (wrap W z)) := by
  refine ⟨by rw [List.length_set, h.1], fun c hc => ?_⟩
  rcases List.mem_or_eq_of_mem_set hc with hc | rfl
  · exact h.2 c hc
  · exact wrap_lt hW z

/-! ## The updates of a legal state -/

section
variable {s : State} (hi : s.Inv)
include hi

theorem State.Inv.polyAt {n : Nat} {p : Poly} (h : s.polys.read n = some p) :
    n < s.caps.np ∧ p.legal s.caps s.conf.width = true := by
  simpa using List.all_eq_true.1 hi.polysLegal _ (Memory.mem_of_read h)

theorem State.Inv.freqAt {n : Nat} {f : FreqPoly} (h : s.freqs.read n = some f) :
    n < s.caps.nf ∧ f.legal s.caps = true := by
  simpa using List.all_eq_true.1 hi.freqsLegal _ (Memory.mem_of_read h)

/-- Only a configured engine holds a Poly. -/
theorem State.Inv.cfgd_of_poly {n : Nat} {p : Poly} (h : s.polys.read n = some p) : s.conf.cfgd = true := by
  by_contra hc
  rw [(hi.unconfigured (by simpa using hc)).1] at h
  cases h

/-- Only a configured engine holds a FrequencyPoly. -/
theorem State.Inv.cfgd_of_freq {n : Nat} {f : FreqPoly} (h : s.freqs.read n = some f) : s.conf.cfgd = true := by
  by_contra hc
  rw [(hi.unconfigured (by simpa using hc)).2] at h
  cases h

/-- The configured LOGN is a legal degree (R91). -/
theorem State.Inv.logn_bounds (hc : s.conf.cfgd = true) :
    s.caps.minLogn ≤ s.conf.logn.toNat ∧ s.conf.logn.toNat ≤ s.caps.maxLogn := by
  have h := hi.confLegal
  simp only [Conf.legal, hc, if_true, configError, Bool.not_eq_true', Bool.or_eq_false_iff,
    decide_eq_false_iff_not] at h
  omega

/-- CP and the model's own fields are under no condition. -/
theorem State.Inv.withFree (cp : BitVec 32) (draws : Nat) (turns : List Turn) (hostData : BitVec 128) :
    State.Inv { s with cp := cp, draws := draws, turns := turns, hostData := hostData } :=
  { hi with }

theorem State.Inv.raise {e : ErrCode} (he : e ≠ ErrCode.none) : (s.raise e).Inv :=
  { hi with errState := by simp [he] }

theorem State.Inv.stop (h : s.runstate ≠ .err) : s.stop.Inv :=
  have hcode : s.errcode = ErrCode.none := by
    by_contra hne
    exact h (hi.errState.mpr hne)
  { hi with errState := by simp [hcode] }

theorem State.Inv.go : s.go.Inv := by
  by_cases hb : s.runstate = .busy
  · rwa [State.go_of_busy hb]
  · rw [State.go_of_ne_busy hb]
    exact { hi with errState := by simp }

/-- A configuration that R91 accepts, with every slot freed. -/
theorem State.Inv.construct {c : Conf} (hc : c.cfgd = true) (hl : c.legal s.caps = true) : (s.construct c).Inv :=
  { hi with
    confLegal := hl
    unconfigured := fun h => absurd (hc.symm.trans h) (by decide)
    wf := ⟨hi.wf.1, rfl, rfl⟩
    polysLegal := rfl
    freqsLegal := rfl }

theorem State.Inv.softReset : s.softReset.Inv :=
  { hi with
    confLegal := Conf.legal_reset s.caps
    unconfigured := fun _ => ⟨rfl, rfl⟩
    wf := ⟨hi.wf.1, rfl, rfl⟩
    polysLegal := rfl
    freqsLegal := rfl
    errState := by simp }

theorem State.Inv.hardReset : s.hardReset.Inv :=
  { hi.softReset with wf := ⟨rfl, rfl, rfl⟩, cmdInRange := rfl }

theorem State.Inv.putPoly (hc : s.conf.cfgd = true) {n : Nat} (hn : n < s.caps.np) {p : Poly}
    (hp : p.legal s.caps s.conf.width = true) : State.Inv { s with polys := s.polys.write n p } :=
  { hi with
    unconfigured := fun h => absurd (hc.symm.trans h) (by decide)
    wf := ⟨hi.wf.1, Memory.wf_write _ _ hi.wf.2.1, hi.wf.2.2⟩
    polysLegal := Memory.all_write hi.polysLegal (by simp [hn, hp]) }

theorem State.Inv.putFreq (hc : s.conf.cfgd = true) {n : Nat} (hn : n < s.caps.nf) {f : FreqPoly}
    (hf : f.legal s.caps = true) : State.Inv { s with freqs := s.freqs.write n f } :=
  { hi with
    unconfigured := fun h => absurd (hc.symm.trans h) (by decide)
    wf := ⟨hi.wf.1, hi.wf.2.1, Memory.wf_write _ _ hi.wf.2.2⟩
    freqsLegal := Memory.all_write hi.freqsLegal (by simp [hn, hf]) }

/-! ## Commands -/

theorem State.Inv.writeResult {i : Instr} {o : Operands} (ho : i.operands = some o) (hr : s.ready o = true) :
    (s.writeResult i o.rd).Inv := by
  have hc := State.cfgd_of_ready hr
  have hl := hi.logn_bounds hc
  have hex := (State.takes_rd_of_ready hr).1
  cases hrd : o.rd with
  | poly n =>
    rw [hrd] at hex
    exact (hi.putPoly hc (of_decide_eq_true hex) (p := ⟨s.conf.logn, i.coefsResult s⟩)
      (Poly.legal_iff.2 ⟨hl, wBitPoly_coefsResult hi ho hrd hr⟩)).withFree _ _ _ _
  | freq n =>
    rw [hrd] at hex
    exact (hi.putFreq hc (of_decide_eq_true hex) (f := ⟨s.conf.logn, i.lanesResult s⟩)
      (FreqPoly.legal_iff.2 ⟨hl, length_lanesResult hi ho hrd hr⟩)).withFree _ _ _ _

theorem State.Inv.executed {i : Instr} {t : State} (h : s.runstate ≠ .err) (hx : Executed i s t) : t.Inv := by
  cases hx with
  | stopped e he => exact hi.raise he
  | ended => exact hi.stop h
  | constructed st _ _ hc =>
    refine (hi.construct rfl ?_).withFree _ _ _ _
    rw [Conf.legal, if_pos rfl, hc]
    rfl
  | completed o ho hr => exact (hi.writeResult ho hr).withFree _ _ _ _

theorem State.Inv.engineStep {t : State} (h : engineStep s = .next t) : t.Inv := by
  rcases engineStep_cases h with ⟨-, rfl⟩ | ⟨-, -, rfl⟩ | ⟨hb, i, -, hx⟩
  · exact hi
  · exact hi.raise (by decide)
  · exact hi.executed (by rw [hb]; decide) (executed_of_exec hx)

/-! ## Host accesses -/

theorem State.Inv.writeCmd (a : Nat) (w : Command) : (s.writeCmd a w).Inv := by
  unfold State.writeCmd
  split
  case isFalse => exact hi
  case isTrue h =>
    exact { hi with
      wf := ⟨Memory.wf_write _ _ hi.wf.1, hi.wf.2⟩
      cmdInRange := Memory.all_write hi.cmdInRange (by simpa using h) }

theorem State.Inv.writeCoef (n j : Nat) (v : BitVec 64) : (s.writeCoef n j v).Inv := by
  rcases s.writeCoef_cases n j v with h | ⟨p, hp, h⟩
  · rwa [h]
  · obtain ⟨hn, hl⟩ := hi.polyAt hp
    obtain ⟨hdeg, hbits⟩ := Poly.legal_iff.1 hl
    rw [h]
    exact hi.putPoly (hi.cfgd_of_poly hp) hn (Poly.legal_iff.2 ⟨hdeg, hbits.set s.conf.width_le j _⟩)

theorem State.Inv.writeLane (n e : Nat) (v : F64) : (s.writeLane n e v).Inv := by
  rcases s.writeLane_cases n e v with h | ⟨f, hf, h⟩
  · rwa [h]
  · obtain ⟨hn, hl⟩ := hi.freqAt hf
    obtain ⟨hdeg, hlen⟩ := FreqPoly.legal_iff.1 hl
    rw [h]
    exact hi.putFreq (hi.cfgd_of_freq hf) hn (FreqPoly.legal_iff.2 ⟨hdeg, by rw [List.length_modify, hlen]⟩)

theorem State.Inv.allocate {x : Slot} {logn : BitVec 6} (hx : s.slotExists x = true) (hc : s.conf.cfgd = true)
    (hl : s.caps.minLogn ≤ logn.toNat ∧ logn.toNat ≤ s.caps.maxLogn) : (s.allocate x logn).Inv := by
  cases x with
  | poly n => exact hi.putPoly hc (of_decide_eq_true hx) (Poly.legal_iff.2 ⟨hl, wBitPoly_zero ..⟩)
  | freq n => exact hi.putFreq hc (of_decide_eq_true hx) (FreqPoly.legal_iff.2 ⟨hl, List.length_replicate⟩)

theorem State.Inv.release (x : Slot) : (s.release x).Inv := by
  obtain ⟨hcmd, hpolys, hfreqs⟩ := hi.wf
  cases x with
  | poly n =>
    exact { hi with
      unconfigured := fun h => by
        obtain ⟨hp, hf⟩ := hi.unconfigured h
        exact ⟨congrArg (Memory.free · n.toNat) hp, hf⟩
      wf := ⟨hcmd, Memory.wf_free _ hpolys, hfreqs⟩
      polysLegal := Memory.all_free hi.polysLegal }
  | freq n =>
    exact { hi with
      unconfigured := fun h => by
        obtain ⟨hp, hf⟩ := hi.unconfigured h
        exact ⟨hp, congrArg (Memory.free · n.toNat) hf⟩
      wf := ⟨hcmd, hpolys, Memory.wf_free _ hfreqs⟩
      freqsLegal := Memory.all_free hi.freqsLegal }

theorem State.Inv.writeTag (a : Nat) (v : BitVec 7) : (s.writeTag a v).Inv := by
  rcases s.writeTag_cases a v with h | ⟨x, hx, ⟨logn, hc, hmin, hmax, h⟩ | h⟩ <;> rw [h]
  · exact hi
  · exact hi.allocate hx hc ⟨hmin, hmax⟩
  · exact hi.release x

theorem State.Inv.writeCsr (r : Nat) (v : BitVec 64) : (s.writeCsr r v).Inv := by
  rcases s.writeCsr_cases r v with ⟨-, -, h⟩ | h | ⟨cp, h⟩ | h <;> rw [h]
  · exact hi.softReset
  · exact hi.go
  · exact hi.withFree _ _ _ _
  · exact hi

theorem State.Inv.accessed {op : HostOp} {t : State} (h : Accessed op s t) : t.Inv := by
  cases h with
  | read x => exact hi.withFree _ _ _ _
  | cmd a w => exact hi.writeCmd a w
  | coef n j v => exact hi.writeCoef n j v
  | lane n e v => exact hi.writeLane n e v
  | tag n v => exact hi.writeTag n v
  | csr r v => exact hi.writeCsr r v

/-! ## Every step -/

theorem State.Inv.step {t : State} (h : step s = .next t) : t.Inv := by
  rcases step_cases h with ⟨-, he⟩ | ⟨rest, -, he⟩ | ⟨op, rest, -, ha⟩ | ⟨rest, -, rfl⟩
  · exact hi.engineStep he
  · exact (hi.withFree _ _ rest _).engineStep he
  · exact (hi.withFree _ _ rest _).accessed (accessed_of_hostAccess ha)
  · exact (hi.withFree _ _ rest _).hardReset

end

/-- Settles O11: each update that a command or a host access can make keeps the legal states. -/
theorem stepKeepsLegalStates : Obligations.StepKeepsLegalStates := fun _ _ hi h => hi.step h

/-- Settles O10: the sizes and the configuration are legal by evaluation, and there is no slot and no command. -/
theorem resetIsLegal : Obligations.ResetIsLegal where
  capsLegal := by decide
  confLegal := Conf.legal_reset _
  unconfigured _ := ⟨rfl, rfl⟩
  wf := State.reset_wf
  cmdInRange := rfl
  polysLegal := rfl
  freqsLegal := rfl
  errState := by simp [State.reset]

/-- Settles O9: the fields of `State.reset` and `Conf.reset`; an empty slot file holds no tag. -/
theorem resetState : Obligations.ResetState := by
  unfold Obligations.ResetState
  have tag : ∀ x, State.reset.tagLogn x = none := fun x => by cases x <;> rfl
  exact ⟨rfl, rfl, rfl, rfl, rfl, rfl, rfl, rfl, rfl, rfl, rfl, tag, fun _ => rfl⟩

end Sys2Proof.Machine
end

section
/-! PROOFS. Rules about the whole machine: who writes the configuration and CP, which tags a command changes, and
what its result depends on. -/

namespace Sys2Proof.Machine

/-! ## The configuration (R21) -/

theorem configError_eq_false {k : Caps} {logn : BitVec 6} {wsel : BitVec 2} {lb : BitVec 7} {lc : BitVec 8}
    {kt : BitVec 6} (h : configError k logn wsel lb lc kt = false) :
    k.minLogn ≤ logn.toNat ∧ logn.toNat ≤ k.maxLogn ∧ 1 ≤ lb.toNat ∧ lb.toNat ≤ 64 ∧ 1 ≤ lc.toNat
      ∧ 8 * 2 ^ wsel.toNat ≤ lc.toNat * lb.toNat ∧ 1 ≤ kt.toNat ∧ kt.toNat ≤ 62 := by
  simp only [configError, Bool.or_eq_false_iff, decide_eq_false_iff_not] at h
  omega

/-- The engine changes the configuration only where it runs a CFG that passes the checks of R91. -/
theorem engineStep_conf {s t : State} (h : engineStep s = .next t) :
    t.conf = s.conf
      ∨ ∃ logn wsel sgn strat lb lc kt st, s.runstate = .busy ∧ s.fetch = .command (.cfg logn wsel sgn strat lb lc kt)
          ∧ configError s.caps logn wsel lb lc kt = false ∧ strat.toNat = st.code
          ∧ t.conf = ⟨true, logn, wsel, sgn, st, lb, lc, kt⟩ := by
  rcases engineStep_cases h with ⟨-, rfl⟩ | ⟨-, -, rfl⟩ | ⟨hb, i, hf, hx⟩
  · exact .inl rfl
  · exact .inl rfl
  · cases executed_of_exec hx with
    | stopped => exact .inl rfl
    | ended => exact .inl rfl
    | constructed st hi hst hc => exact .inr ⟨_, _, _, _, _, _, _, st, hb, hi ▸ hf, hc, hst, rfl⟩
    | completed => exact .inl (State.writeResult_conf ..)

/-- The host changes the configuration only by the soft reset. -/
theorem accessed_conf {op : HostOp} {s t : State} (h : Accessed op s t) :
    t.conf = s.conf ∨ ∃ v, op = .writeCsr 0 v ∧ v.getLsbD 1 = true ∧ t.conf = Conf.reset := by
  cases h with
  | read => exact .inl rfl
  | cmd a w =>
    unfold State.writeCmd
    split <;> exact .inl rfl
  | coef n j v =>
    rcases s.writeCoef_cases n j v with h | ⟨p, -, h⟩ <;> rw [h] <;> exact .inl rfl
  | lane n e v =>
    rcases s.writeLane_cases n e v with h | ⟨f, -, h⟩ <;> rw [h] <;> exact .inl rfl
  | tag n v =>
    rcases s.writeTag_cases n v with h | ⟨x, -, ⟨logn, -, -, -, h⟩ | h⟩ <;> rw [h]
    · exact .inl rfl
    · cases x <;> exact .inl rfl
    · cases x <;> exact .inl rfl
  | csr r v hop =>
    rcases s.writeCsr_cases r v with ⟨rfl, hv, h⟩ | h | ⟨cp, h⟩ | h <;> rw [h]
    · exact .inr ⟨v, hop, hv, rfl⟩
    · exact .inl (State.go_conf s)
    · exact .inl rfl
    · exact .inl rfl

/-- A step is a move of the engine, from any list of moves left, or of the host, or of the reset input. -/
theorem step_agents {s t : State} (h : step s = .next t) :
    ((s.turns = [] ∨ ∃ rest, s.turns = .engine :: rest) ∧ ∃ turns, engineStep { s with turns := turns } = .next t)
      ∨ (∃ op rest, s.turns = .host op :: rest ∧ Accessed op { s with turns := rest } t)
      ∨ ∃ rest, s.turns = .hardReset :: rest ∧ t = State.hardReset { s with turns := rest } := by
  rcases step_cases h with ⟨ht, he⟩ | ⟨rest, ht, he⟩ | ⟨op, rest, ht, ha⟩ | ⟨rest, ht, rfl⟩
  · exact .inl ⟨.inl ht, s.turns, he⟩
  · exact .inl ⟨.inr ⟨rest, ht⟩, rest, he⟩
  · exact .inr (.inl ⟨op, rest, ht, accessed_of_hostAccess ha⟩)
  · exact .inr (.inr ⟨rest, ht, rfl⟩)

/-- Settles O16: of the moves, only a CFG of the engine and the two resets change the configuration. -/
theorem configurationWrittenOnlyByCfgAndReset : Obligations.ConfigurationWrittenOnlyByCfgAndReset := by
  unfold Obligations.ConfigurationWrittenOnlyByCfgAndReset
  intro s t h
  rcases step_agents h with ⟨hturn, turns, he⟩ | ⟨op, rest, ht, ha⟩ | ⟨rest, ht, rfl⟩
  · rcases engineStep_conf he with hc | ⟨logn, wsel, sgn, strat, lb, lc, kt, st, hb, hf, hok, hst, hc⟩
    · exact .inl hc
    · obtain ⟨hmin, hmax, hlb, hlb', hlc, hwide, hkt, hkt'⟩ := configError_eq_false hok
      exact .inr (.inr (.inr ⟨logn, wsel, sgn, strat, lb, lc, kt, st, hturn, hb, hmin, hmax, hlb, hlb', hlc, hwide,
        hkt, hkt', hf, hst, hc⟩))
  · rcases accessed_conf ha with hc | ⟨v, rfl, hv, hc⟩
    · exact .inl hc
    · exact .inr (.inr (.inl ⟨v, rest, ht, hv, hc⟩))
  · exact .inr (.inl ⟨rest, ht, rfl⟩)

/-! ## The command pointer (R26) -/

theorem State.cp_lt_of_fetch {s : State} {i : Instr} (h : s.fetch = .command i) : s.cp.toNat < s.caps.ncmd := by
  by_contra hcp
  rw [State.fetch, if_neg hcp] at h
  cases h

theorem Caps.ncmd_lt {k : Caps} (h : k.legal = true) : k.ncmd < 2 ^ 32 := by
  simp only [Caps.legal, decide_eq_true_eq] at h
  omega

/-- A command that leaves the engine BUSY has moved CP on by one; one that stops it has left CP (R90). -/
theorem executed_cp {i : Instr} {s t : State} (hb : s.runstate = .busy) (h : Executed i s t) :
    (t.runstate = .busy ∧ t.cp = s.cp + 1) ∨ (t.runstate ≠ .busy ∧ t.cp = s.cp) := by
  cases h with
  | stopped => exact .inr ⟨by simp, rfl⟩
  | ended => exact .inr ⟨by simp, rfl⟩
  | constructed => exact .inl ⟨hb, rfl⟩
  | completed => exact .inl ⟨by simpa using hb, by simp⟩

/-- Settles O17: the engine stays BUSY only past a command it has fetched, whose CP is below NCMD < 2^32. -/
theorem commandPointerCountsCompletedCommands : Obligations.CommandPointerCountsCompletedCommands := by
  unfold Obligations.CommandPointerCountsCompletedCommands
  intro s hi hb
  have read : ∀ u : State, hostAccess (.readCsr 2) u = .next { u with hostData := u.cp.setWidth 128 } := fun u => by
    have word : (u.csrWord 2).setWidth 128 = u.cp.setWidth 128 := BitVec.setWidth_setWidth (by decide)
    rw [hostAccess_readCsr (.inr (.inr rfl)), word]
  have write := fun (u : State) (v : BitVec 64) => hostAccess_writeCsr (s := u) (r := 2) (.inr (.inr rfl)) v
  refine ⟨fun t h => ?engine, fun hcp => ?beyond, read s, fun v => ?writeBusy, fun u v hu => ⟨read u, ?write⟩⟩
  case engine =>
    rcases engineStep_cases h with ⟨hn, -⟩ | ⟨-, -, rfl⟩ | ⟨-, i, hf, hx⟩
    · exact absurd hb hn
    · exact ⟨nofun, fun _ => rfl⟩
    · have below : s.cp.toNat + (1 : BitVec 32).toNat < 2 ^ 32 :=
        (Nat.succ_le_of_lt (State.cp_lt_of_fetch hf)).trans_lt (Caps.ncmd_lt hi.capsLegal)
      rcases executed_cp hb (executed_of_exec hx) with ⟨hrun, hcp⟩ | ⟨hrun, hcp⟩
      · refine ⟨fun _ => ?_, fun hn => absurd hrun hn⟩
        rw [hcp, BitVec.toNat_add_of_lt below]
        rfl
      · exact ⟨fun hr => absurd hr hrun, fun _ => hcp⟩
  case beyond =>
    refine ⟨s.raise .illegalCommand, ?_, rfl⟩
    rw [engineStep, hb, State.fetch, if_neg (Nat.not_lt.2 hcp)]
  case writeBusy => rw [write, State.writeCsr_two, if_pos hb]
  case write => rw [write, State.writeCsr_two, if_neg hu]

/-! ## Tags (R23, R30) -/

/-- A tag that has not changed meets both halves of the statement. -/
theorem tag_kept {s t : State} {x : Slot} {P : Prop} (h : t.tagLogn x = s.tagLogn x) :
    (∀ l, s.tagLogn x = some l → t.tagLogn x = some l) ∧ (s.tagLogn x = none → t.tagLogn x = none ∨ P) :=
  ⟨fun _ hl => h.trans hl, fun hn => .inl (h.trans hn)⟩

/-- Settles O19: only a ready ring command changes a tag, that of its destination, which is not valid or is
(1, LOGN) already. -/
theorem validTagKeepsItsDegree : Obligations.ValidTagKeepsItsDegree := by
  unfold Obligations.ValidTagKeepsItsDegree
  intro i s t x hcfg h
  cases executed_of_exec h with
  | stopped e => exact tag_kept (State.tagLogn_raise s e x)
  | ended => exact tag_kept (State.tagLogn_stop s x)
  | constructed st hi => exact absurd (congrArg Instr.mnemonic hi) hcfg
  | completed o ho hr =>
    have ht := State.tagLogn_writeResult s i o.rd x
    rw [← State.tagLogn_advance] at ht
    split at ht
    case isFalse => exact tag_kept ht
    case isTrue hx =>
      subst hx
      rcases (State.takes_rd_of_ready hr).2 with hvalid | ⟨hn, hread⟩
      · exact tag_kept (ht.trans hvalid.symm)
      · exact ⟨fun l hl => absurd (hn.symm.trans hl) nofun, fun _ => .inr ⟨ht, o, ho, rfl, hread⟩⟩

/-! ## What a result depends on (R31) -/

/-- Two states with the same configuration, slots and sizes, and the same name for the next draws. -/
structure SameData (s s' : State) : Prop where
  /-- configuration registers -/
  conf : s'.conf = s.conf
  /-- Poly slots -/
  polys : s'.polys = s.polys
  /-- FrequencyPoly slots -/
  freqs : s'.freqs = s.freqs
  /-- CAPS -/
  caps : s'.caps = s.caps
  /-- the model's own draw counter -/
  draws : s'.draws = s.draws

section
variable {s s' : State} (h : SameData s s')
include h

theorem SameData.coefs : s'.coefs = s.coefs := by
  funext n; rw [State.coefs, State.coefs, h.polys]

theorem SameData.lanes : s'.lanes = s.lanes := by
  funext n; rw [State.lanes, State.lanes, h.freqs]

theorem SameData.draw : s'.draw = s.draw := by rw [State.draw, State.draw, h.draws]

theorem SameData.tagLogn : s'.tagLogn = s.tagLogn := by
  funext x; cases x <;> simp only [State.tagLogn, h.polys, h.freqs]

theorem SameData.slotExists : s'.slotExists = s.slotExists := by
  funext x; cases x <;> simp only [State.slotExists, h.caps]

theorem SameData.ringError (o : Operands) (extra : Option ErrCode) : s'.ringError o extra = s.ringError o extra := by
  have bad : s'.badOperand = s.badOperand := by
    funext b x; rw [State.badOperand, State.badOperand, h.tagLogn, h.slotExists]
  have wrong : s'.wrongDegree = s.wrongDegree := by
    funext x; rw [State.wrongDegree, State.wrongDegree, h.tagLogn, h.conf]
  unfold State.ringError State.badSlot State.degreeMismatch
  rw [h.conf, bad, wrong]

theorem SameData.coefsResult (i : Instr) : i.coefsResult s' = i.coefsResult s := by
  cases i <;> simp only [Instr.coefsResult, Instr.coefsResult.mulCoefs, h.conf, h.coefs, h.lanes, h.draw]

theorem SameData.lanesResult (i : Instr) : i.lanesResult s' = i.lanesResult s := by
  cases i <;> simp only [Instr.lanesResult, h.conf, h.coefs, h.lanes, h.draw]

theorem SameData.writeResult (i : Instr) (x : Slot) : SameData (s.writeResult i x) (s'.writeResult i x) := by
  have hdraws : s'.draws + i.drawsTaken = s.draws + i.drawsTaken := congrArg (· + i.drawsTaken) h.draws
  cases x with
  | poly n =>
    refine ⟨h.conf, ?_, h.freqs, h.caps, hdraws⟩
    simp only [State.writeResult, State.writePoly_polys, h.coefsResult i, h.conf, h.polys]
  | freq n =>
    refine ⟨h.conf, h.polys, ?_, h.caps, hdraws⟩
    simp only [State.writeResult, State.writeFreq_freqs, h.lanesResult i, h.conf, h.freqs]

/-- The same command takes equal data to equal data. -/
theorem SameData.exec {i : Instr} {t t' : State} (ht : exec i s = .next t) (ht' : exec i s' = .next t') :
    SameData t t' := by
  cases ho : i.operands with
  | some o =>
    rw [exec_of_operands ho, ringCommand_eq] at ht ht'
    rw [h.ringError] at ht'
    cases ht
    cases ht'
    cases s.ringError o i.ownError with
    | some e => exact { h with }
    | none => exact { h.writeResult i o.rd with }
  | none =>
    rcases operands_eq_none ho with rfl | ⟨logn, wsel, sgn, strat, lb, lc, kt, rfl⟩
    · cases ht
      cases ht'
      exact { h with }
    · simp only [Machine.exec, execCfg, h.caps] at ht ht'
      cases hst : stratOf strat with
      | none =>
        rw [hst] at ht ht'
        cases ht
        cases ht'
        exact { h with }
      | some st =>
        simp only [hst] at ht ht'
        split_ifs at ht ht' <;> cases ht <;> cases ht'
        · exact { h with }
        · exact { h with conf := rfl, polys := rfl, freqs := rfl }

end

/-- Settles O22: the checks and the results of a command read nothing but the data `SameData` names. -/
theorem resultsDependOnlyOnSlotsAndConfiguration : Obligations.ResultsDependOnlyOnSlotsAndConfiguration := by
  unfold Obligations.ResultsDependOnlyOnSlotsAndConfiguration
  intro i s s' t t' hconf hpolys hfreqs hcaps hdraws ht ht'
  obtain ⟨conf, polys, freqs, -, -⟩ := SameData.exec ⟨hconf, hpolys, hfreqs, hcaps, hdraws⟩ ht ht'
  exact ⟨conf, polys, freqs⟩

end Sys2Proof.Machine
end

section
/-! PROOFS. The frame of every command (R61), and where a step stops (U5, U6, U7). -/

namespace Sys2Proof.Machine

/-! ## What a command leaves unchanged -/

@[simp] theorem State.writeResult_cmd (s : State) (i : Instr) (x : Slot) : (s.writeResult i x).cmd = s.cmd := by
  cases x <;> rfl

@[simp] theorem State.writeResult_caps (s : State) (i : Instr) (x : Slot) : (s.writeResult i x).caps = s.caps := by
  cases x <;> rfl

@[simp] theorem State.writeResult_turns (s : State) (i : Instr) (x : Slot) : (s.writeResult i x).turns = s.turns := by
  cases x <;> rfl

@[simp] theorem State.writeResult_hostData (s : State) (i : Instr) (x : Slot) :
    (s.writeResult i x).hostData = s.hostData := by
  cases x <;> rfl

theorem State.read_polys_writeResult_other (s : State) (i : Instr) {x : Slot} {n : PolySlot} (h : x ≠ .poly n) :
    (s.writeResult i x).polys.read n.toNat = s.polys.read n.toNat := by
  cases x with
  | poly m => exact Memory.read_write_other _ _ fun hnm => h (congrArg _ (BitVec.eq_of_toNat_eq hnm.symm))
  | freq m => rfl

theorem State.read_freqs_writeResult_other (s : State) (i : Instr) {x : Slot} {n : FreqSlot} (h : x ≠ .freq n) :
    (s.writeResult i x).freqs.read n.toNat = s.freqs.read n.toNat := by
  cases x with
  | poly m => rfl
  | freq m => exact Memory.read_write_other _ _ fun hnm => h (congrArg _ (BitVec.eq_of_toNat_eq hnm.symm))

/-- No end of a command touches command memory, CAPS or what belongs to the environment. -/
theorem executed_environment {i : Instr} {s t : State} (h : Executed i s t) :
    t.cmd = s.cmd ∧ t.caps = s.caps ∧ t.turns = s.turns ∧ t.hostData = s.hostData := by
  cases h with
  | stopped => exact ⟨rfl, rfl, rfl, rfl⟩
  | ended => exact ⟨rfl, rfl, rfl, rfl⟩
  | constructed => exact ⟨rfl, rfl, rfl, rfl⟩
  | completed => simp

/-- Each end of a command keeps both slot files but for a destination, or is that of CFG, which empties them. -/
theorem executed_slots {i : Instr} {s t : State} (h : Executed i s t) :
    (t.polys = s.polys ∧ t.freqs = s.freqs)
      ∨ (i.mnemonic = "CFG" ∧ t.polys = [] ∧ t.freqs = [])
      ∨ ∃ o, i.operands = some o ∧ t = (s.writeResult i o.rd).advance := by
  cases h with
  | stopped => exact .inl ⟨rfl, rfl⟩
  | ended => exact .inl ⟨rfl, rfl⟩
  | constructed st hi => subst hi; exact .inr (.inl ⟨rfl, rfl, rfl⟩)
  | completed o ho => exact .inr (.inr ⟨o, ho, rfl⟩)

/-- Settles O18: of the four ends of a command only completion and CFG touch the slot files. -/
theorem commandsWriteOnlyTheirDestination : Obligations.CommandsWriteOnlyTheirDestination := by
  unfold Obligations.CommandsWriteOnlyTheirDestination
  intro i s t h
  have hx := executed_of_exec h
  obtain ⟨hcmd, hcaps, hturns, hdata⟩ := executed_environment hx
  refine ⟨hcmd, hcaps, hturns, hdata, fun n hn => ?polys, fun n hn => ?freqs⟩
  case polys =>
    rcases executed_slots hx with ⟨hp, -⟩ | hcfg | ⟨o, ho, rfl⟩
    · exact .inl (by rw [hp])
    · exact .inr hcfg
    · exact .inl (s.read_polys_writeResult_other i (hn o ho))
  case freqs =>
    rcases executed_slots hx with ⟨-, hf⟩ | hcfg | ⟨o, ho, rfl⟩
    · exact .inl (by rw [hf])
    · exact .inr hcfg
    · exact .inl (s.read_freqs_writeResult_other i (hn o ho))

/-! ## Accesses and their conditions -/

/-- While the engine is not BUSY every access has its effect (R51 to R54). -/
theorem hostAccess_of_ne_busy {s : State} (h : s.runstate ≠ .busy) (op : HostOp) :
    hostAccess op s = hostEffect op s :=
  if_neg fun hb => h hb.1

/-- The accesses that are refused while BUSY, by constructor (R62, R28). -/
theorem HostOp.allowedWhileBusy_eq_false_iff {op : HostOp} :
    op.allowedWhileBusy = false
      ↔ ∀ v, op ≠ .readCsr 1 ∧ op ≠ .readCsr 2 ∧ op ≠ .writeCsr 0 v ∧ op ≠ .writeCsr 2 v := by
  cases op
  case readCsr r => simp [HostOp.allowedWhileBusy]
  case writeCsr r w =>
    simp only [HostOp.allowedWhileBusy, Bool.or_eq_false_iff, beq_eq_false_iff_ne, ne_eq, HostOp.writeCsr.injEq,
      reduceCtorEq, not_false_eq_true, true_and, not_and]
    exact ⟨fun ⟨h0, h2⟩ v => ⟨fun h => absurd h h0, fun h => absurd h h2⟩,
      fun h => ⟨fun h0 => (h w).1 h0 rfl, fun h2 => (h w).2 h2 rfl⟩⟩
  all_goals simp [HostOp.allowedWhileBusy]

/-- A command has no specified value exactly where it lies below NCMD and was never written (R53). -/
theorem State.readCmd_eq_none {s : State} {a : Nat} :
    s.readCmd a = none ↔ a < s.caps.ncmd ∧ s.cmd.read a = none := by
  unfold State.readCmd
  split <;> simp_all

theorem State.readCoef_eq_none {s : State} {n j : Nat} : s.readCoef n j = none ↔ ¬ s.CoefPresent n j := by
  rw [← not_iff_not, not_not, ← ne_eq, Option.ne_none_iff_exists']
  simp only [State.readCoef_eq_some, State.CoefPresent, List.getElem?_eq_some_iff]
  constructor
  · rintro ⟨c, hn, p, hp, hj, hl, -⟩
    exact ⟨hn, p, hp, hj, hl⟩
  · rintro ⟨hn, p, hp, hj, hl⟩
    exact ⟨_, hn, p, hp, hj, hl, rfl⟩

theorem State.readLane_eq_none {s : State} {n e : Nat} : s.readLane n e = none ↔ ¬ s.LanePresent n e := by
  rw [← not_iff_not, not_not, ← ne_eq, Option.ne_none_iff_exists']
  simp only [State.readLane_eq_some, State.LanePresent, List.getElem?_eq_some_iff]
  constructor
  · rintro ⟨x, hn, f, hf, he, c, ⟨hl, -⟩, -⟩
    exact ⟨hn, f, hf, he, hl⟩
  · rintro ⟨hn, f, hf, he, hl⟩
    exact ⟨_, hn, f, hf, he, _, ⟨hl, rfl⟩, rfl⟩

/-- The TAG addresses that name no slot (R50). -/
theorem State.tagSlot_eq_none {s : State} {t : Nat} :
    s.tagSlot t = none ↔ (s.caps.np ≤ t ∨ 256 ≤ t) ∧ (t < 256 ∨ 256 + s.caps.nf ≤ t ∨ 512 ≤ t) := by
  unfold State.tagSlot
  split_ifs <;> simp only [false_iff, true_iff] <;> omega

/-! ## Where a step stops -/

/-- Every command leaves a next state. -/
theorem exists_exec_eq_next (i : Instr) (s : State) : ∃ t, exec i s = .next t := by
  cases ho : i.operands with
  | some o => exact ⟨_, by rw [exec_of_operands ho, ringCommand_eq]⟩
  | none =>
    rcases operands_eq_none ho with rfl | ⟨logn, wsel, sgn, strat, lb, lc, kt, rfl⟩
    · exact ⟨_, rfl⟩
    · simp only [exec, execCfg]
      split
      · exact ⟨_, rfl⟩
      · split <;> exact ⟨_, rfl⟩

/-- The fetch finds an entry never written only below NCMD (U6). -/
theorem State.unwritten_of_fetch {s : State} (h : s.fetch = .unwritten) :
    s.cp.toNat < s.caps.ncmd ∧ s.cmd.read s.cp.toNat = none := by
  by_cases hcp : s.cp.toNat < s.caps.ncmd
  · refine ⟨hcp, ?_⟩
    cases hw : s.cmd.read s.cp.toNat with
    | none => rfl
    | some w =>
      rw [State.fetch_of_read hcp hw] at h
      split at h <;> cases h
  · rw [State.fetch, if_neg hcp] at h
    cases h

/-- The engine's step gives a next state, or faults at an entry never written (U6). -/
theorem engineStep_stops (s : State) :
    (∃ t, engineStep s = .next t)
      ∨ (engineStep s = .fault .unwrittenCommand ∧ s.runstate = .busy ∧ s.cp.toNat < s.caps.ncmd
        ∧ s.cmd.read s.cp.toNat = none) := by
  unfold engineStep
  cases hr : s.runstate
  case busy =>
    cases hf : s.fetch with
    | command i => exact .inl (exists_exec_eq_next i s)
    | illegal => exact .inl ⟨_, rfl⟩
    | unwritten => exact .inr ⟨rfl, rfl, State.unwritten_of_fetch hf⟩
  all_goals exact .inl ⟨_, rfl⟩

/-- The host read `op` has no specified value (U5). -/
inductive Unanswered (s : State) : HostOp → Prop
  /-- a command never written -/
  | cmd {a : Nat} (h : s.readCmd a = none) : Unanswered s (.readCmd a)
  /-- a coefficient not present -/
  | coef {n j : Nat} (h : s.readCoef n j = none) : Unanswered s (.readCoef n j)
  /-- the same by flat address -/
  | poly {a : Nat} (h : s.readCoef (s.caps.flatSlot a) (s.caps.flatIndex a) = none) : Unanswered s (.readPoly a)
  /-- a lane element not present -/
  | lane {n e : Nat} (h : s.readLane n e = none) : Unanswered s (.readLane n e)
  /-- the same by flat address -/
  | freq {a : Nat} (h : s.readLane (s.caps.flatSlot a) (s.caps.flatIndex a) = none) : Unanswered s (.readFreq a)
  /-- a TAG address that names no slot -/
  | tag {t : Nat} (h : s.tagSlot t = none) : Unanswered s (.readTag t)

theorem State.answer_stops {w : Nat} (s : State) (x : Option (BitVec w)) :
    (∃ t, s.answer x = .next t) ∨ (s.answer x = .refused .hostReadUnspecified ∧ x = none) := by
  cases x with
  | some v => exact .inl ⟨_, rfl⟩
  | none => exact .inr ⟨rfl, rfl⟩

/-- An access gives a next state, or is a read without a specified value, which is refused. -/
theorem hostEffect_stops (op : HostOp) (s : State) :
    (∃ t, hostEffect op s = .next t) ∨ (hostEffect op s = .refused .hostReadUnspecified ∧ Unanswered s op) := by
  cases op
  case readCmd a => exact (s.answer_stops _).imp_right (And.imp_right .cmd)
  case readCoef n j => exact (s.answer_stops _).imp_right (And.imp_right .coef)
  case readPoly a => exact (s.answer_stops _).imp_right (And.imp_right .poly)
  case readLane n e => exact (s.answer_stops _).imp_right (And.imp_right .lane)
  case readFreq a => exact (s.answer_stops _).imp_right (And.imp_right .freq)
  case readTag t =>
    exact (s.answer_stops _).imp_right (And.imp_right fun h => .tag (Option.map_eq_none_iff.1 h))
  all_goals exact .inl ⟨_, rfl⟩

theorem hostAccess_stops (op : HostOp) (s : State) :
    (∃ t, hostAccess op s = .next t)
      ∨ ∃ r, hostAccess op s = .refused r
        ∧ ((s.runstate = .busy ∧ op.allowedWhileBusy = false) ∨ Unanswered s op) := by
  unfold hostAccess
  split
  case isTrue h => exact .inr ⟨_, rfl, .inl h⟩
  case isFalse => exact (hostEffect_stops op s).imp_right fun ⟨hr, hu⟩ => ⟨_, hr, .inr hu⟩

/-- Every step gives a next state, faults at the engine's fetch, or is refused at a host access. -/
theorem step_stops (s : State) :
    (∃ t, step s = .next t)
      ∨ (step s = .fault .unwrittenCommand ∧ (s.turns = [] ∨ ∃ rest, s.turns = .engine :: rest)
        ∧ s.runstate = .busy ∧ s.cp.toNat < s.caps.ncmd ∧ s.cmd.read s.cp.toNat = none)
      ∨ ∃ r op rest, step s = .refused r ∧ s.turns = .host op :: rest
        ∧ ((s.runstate = .busy ∧ op.allowedWhileBusy = false) ∨ Unanswered { s with turns := rest } op) := by
  unfold step
  split
  case h_1 ht =>
    exact (engineStep_stops s).imp_right fun ⟨hf, hu⟩ => .inl ⟨hf, .inl ht, hu⟩
  case h_2 rest ht =>
    exact (engineStep_stops { s with turns := rest }).imp_right fun ⟨hf, hu⟩ => .inl ⟨hf, .inr ⟨rest, ht⟩, hu⟩
  case h_3 op rest ht =>
    exact (hostAccess_stops op { s with turns := rest }).imp_right fun ⟨r, hr, hu⟩ => .inr ⟨r, op, rest, hr, ht, hu⟩
  case h_4 => exact .inl ⟨_, rfl⟩

/-- Settles O3: a step that is no next state is one of the two stops of `step_stops`. -/
theorem stepStopsOnlyWhereUnspecified : Obligations.StepStopsOnlyWhereUnspecified := by
  unfold Obligations.StepStopsOnlyWhereUnspecified
  refine ⟨fun s f h => ?fault, fun s r h => ?refused, fun op s hb hop => ?busy⟩
  case fault =>
    rcases step_stops s with ⟨t, ht⟩ | ⟨-, hturn, hb, hcp, hread⟩ | ⟨r, op, rest, hr, -⟩
    · cases h.symm.trans ht
    · exact ⟨hb, hcp, hread, hturn⟩
    · cases h.symm.trans hr
  case refused =>
    rcases step_stops s with ⟨t, ht⟩ | ⟨hf, -⟩ | ⟨r, op, rest, -, hturn, hwhy⟩
    · cases h.symm.trans ht
    · cases h.symm.trans hf
    · refine ⟨op, rest, hturn, hwhy.imp (And.imp_right HostOp.allowedWhileBusy_eq_false_iff.1) fun hu => ?_⟩
      cases hu with
      | cmd hn => exact .inl ⟨_, rfl, State.readCmd_eq_none.1 hn⟩
      | coef hn => exact .inr (.inl ⟨_, _, rfl, State.readCoef_eq_none.1 hn⟩)
      | poly hn => exact .inr (.inr (.inl ⟨_, rfl, State.readCoef_eq_none.1 hn⟩))
      | lane hn => exact .inr (.inr (.inr (.inl ⟨_, _, rfl, State.readLane_eq_none.1 hn⟩)))
      | freq hn => exact .inr (.inr (.inr (.inr (.inl ⟨_, rfl, State.readLane_eq_none.1 hn⟩))))
      | tag hn => exact .inr (.inr (.inr (.inr (.inr ⟨_, rfl, State.tagSlot_eq_none.1 hn⟩))))
  case busy => exact if_pos ⟨hb, HostOp.allowedWhileBusy_eq_false_iff.2 hop⟩

end Sys2Proof.Machine
end

section
/-! PROOFS. What the host finds and leaves in command memory, in the tags and in the slots while the engine is not
BUSY (R50 to R53). -/

namespace Sys2Proof.Machine

/-! ## Command memory (R53) -/

theorem State.writeCmd_of_lt {s : State} {a : Nat} (h : a < s.caps.ncmd) (w : Command) :
    s.writeCmd a w = { s with cmd := s.cmd.write a w } := if_pos h

theorem State.writeCmd_of_ge {s : State} {a : Nat} (h : s.caps.ncmd ≤ a) (w : Command) : s.writeCmd a w = s :=
  if_neg (Nat.not_lt.2 h)

theorem State.readCmd_of_lt {s : State} {a : Nat} (h : a < s.caps.ncmd) : s.readCmd a = s.cmd.read a := if_pos h

theorem State.readCmd_of_ge {s : State} {a : Nat} (h : s.caps.ncmd ≤ a) : s.readCmd a = some 0 :=
  if_neg (Nat.not_lt.2 h)

theorem hostAccess_readCmd {s : State} (hb : s.runstate ≠ .busy) {a : Nat} {w : Command}
    (h : s.readCmd a = some w) : hostAccess (.readCmd a) s = .next { s with hostData := w } := by
  rw [hostAccess_of_ne_busy hb, hostEffect, h, State.answer, BitVec.setWidth_eq]

/-- Settles O60: a write below NCMD is the entry's new content, and beyond NCMD there is no entry. -/
theorem hostCommandMemory : Obligations.HostCommandMemory := by
  unfold Obligations.HostCommandMemory
  intro s a w hb
  refine ⟨fun ha => ⟨{ s with cmd := s.cmd.write a w }, ?written, rfl, ?stored, ?others, ?readBack⟩,
    fun ha hn => ?unwritten, fun ha => ⟨?ignored, ?zero⟩⟩
  case written => rw [hostAccess_of_ne_busy hb, hostEffect, State.writeCmd_of_lt ha]
  case stored => exact Memory.read_write_same ..
  case others => exact fun k hk => Memory.read_write_other _ _ hk
  case readBack =>
    have found : State.readCmd { s with cmd := s.cmd.write a w } a = some w :=
      (if_pos ha).trans (Memory.read_write_same ..)
    exact hostAccess_readCmd (s := { s with cmd := s.cmd.write a w }) hb found
  case unwritten => rw [hostAccess_of_ne_busy hb, hostEffect, State.readCmd_of_lt ha, hn, State.answer]
  case ignored => rw [hostAccess_of_ne_busy hb, hostEffect, State.writeCmd_of_ge ha]
  case zero => exact hostAccess_readCmd hb (State.readCmd_of_ge ha)

/-! ## Tags (R51, R52) -/

theorem Caps.slots_le {k : Caps} (h : k.legal = true) : k.np ≤ 256 ∧ k.nf ≤ 256 := by
  simp only [Caps.legal, decide_eq_true_eq] at h
  omega

theorem State.tagSlot_poly {s : State} {n : Nat} (hn : n < s.caps.np) (h : n < 256) :
    s.tagSlot n = some (.poly (BitVec.ofNat 8 n)) := if_pos ⟨hn, h⟩

theorem State.tagSlot_freq {s : State} {n : Nat} (hn : n < s.caps.nf) (h : n < 256) :
    s.tagSlot (256 + n) = some (.freq (BitVec.ofNat 8 n)) := by
  rw [State.tagSlot, if_neg (by omega), if_pos (by omega), Nat.add_sub_cancel_left]

theorem toNat_slotNumber {n : Nat} (h : n < 256) : (BitVec.ofNat 8 n).toNat = n := by
  rw [BitVec.toNat_ofNat, Nat.mod_eq_of_lt h]

theorem State.tagLogn_poly (s : State) {n : Nat} (h : n < 256) :
    s.tagLogn (.poly (BitVec.ofNat 8 n)) = (s.polys.read n).map Poly.logn := by
  rw [State.tagLogn, toNat_slotNumber h]

theorem State.tagLogn_freq (s : State) {n : Nat} (h : n < 256) :
    s.tagLogn (.freq (BitVec.ofNat 8 n)) = (s.freqs.read n).map FreqPoly.logn := by
  rw [State.tagLogn, toNat_slotNumber h]

/-- The slot file `m` after a TAG write of `v` to its slot `n`, where `zero` is the zero-filled content. -/
def Memory.retag {α : Type} (m : Memory α) (n : Nat) (v : BitVec 7) (legal : Prop) [Decidable legal] (zero : α) :
    Memory α :=
  if v.getLsbD 0 then if legal then m.write n zero else m else m.free n

section
variable {α : Type} (m : Memory α) (n : Nat) {v : BitVec 7} {legal : Prop} [Decidable legal] (zero : α)

theorem Memory.read_retag_other {k : Nat} (h : k ≠ n) : (m.retag n v legal zero).read k = m.read k := by
  unfold Memory.retag
  split_ifs
  · exact Memory.read_write_other _ _ h
  · rfl
  · exact Memory.read_free_other _ h

theorem Memory.read_retag_allocate (hv : v.getLsbD 0 = true) (h : legal) :
    (m.retag n v legal zero).read n = some zero := by
  rw [Memory.retag, if_pos hv, if_pos h, Memory.read_write_same]

theorem Memory.retag_of_not_legal (hv : v.getLsbD 0 = true) (h : ¬ legal) : m.retag n v legal zero = m := by
  rw [Memory.retag, if_pos hv, if_neg h]

theorem Memory.read_retag_free {m : Memory α} (hm : m.wf = true) (hv : v.getLsbD 0 = false) :
    (m.retag n v legal zero).read n = none := by
  rw [Memory.retag, hv, if_neg (by decide), Memory.read_free_same n hm]

end

/-- R51: the engine is configured and the log-degree is one it has. -/
abbrev State.Allocates (s : State) (logn : BitVec 6) : Prop :=
  s.conf.cfgd = true ∧ s.caps.minLogn ≤ logn.toNat ∧ logn.toNat ≤ s.caps.maxLogn

theorem State.writeTag_poly {s : State} {n : Nat} (hn : n < s.caps.np) (h : n < 256) (v : BitVec 7) :
    s.writeTag n v = { s with
      polys := s.polys.retag n v (s.Allocates (v.extractLsb' 1 6))
        ⟨v.extractLsb' 1 6, List.replicate (2 ^ (v.extractLsb' 1 6).toNat) 0⟩ } := by
  rw [State.writeTag, State.tagSlot_poly hn h]
  simp only [Memory.retag, State.allocate, State.release, toNat_slotNumber h]
  split_ifs <;> rfl

theorem State.writeTag_freq {s : State} {n : Nat} (hn : n < s.caps.nf) (h : n < 256) (v : BitVec 7) :
    s.writeTag (256 + n) v = { s with
      freqs := s.freqs.retag n v (s.Allocates (v.extractLsb' 1 6))
        ⟨v.extractLsb' 1 6, List.replicate (2 ^ ((v.extractLsb' 1 6).toNat - 1)) ⟨0, 0⟩⟩ } := by
  rw [State.writeTag, State.tagSlot_freq hn h]
  simp only [Memory.retag, State.allocate, State.release, toNat_slotNumber h]
  split_ifs <;> rfl

/-- The tag of an allocated slot has logn in bits 6:1 and 1 in bit 0 (R50). -/
theorem setWidth_tag (l : BitVec 6) : (l ++ (1 : BitVec 1)).setWidth 128 = BitVec.ofNat 128 (2 * l.toNat + 1) := by
  apply BitVec.eq_of_toNat_eq
  have hl := l.isLt
  have word : (l ++ (1 : BitVec 1)).toNat = 2 * l.toNat + 1 := by
    rw [BitVec.toNat_append, Nat.shiftLeft_eq, Nat.mul_comm]
    exact (Nat.two_pow_add_eq_or_of_lt (i := 1) (b := 1) (by decide) _).symm
  rw [BitVec.toNat_setWidth, word, BitVec.toNat_ofNat]

/-- A TAG read of a slot answers its tag: {logn, 1} for an allocated slot and 0 for another (R50). -/
theorem hostAccess_readTag {s : State} (hb : s.runstate ≠ .busy) {t : Nat} {x : Slot} (ht : s.tagSlot t = some x) :
    (∀ l, s.tagLogn x = some l →
        hostAccess (.readTag t) s = .next { s with hostData := BitVec.ofNat 128 (2 * l.toNat + 1) })
      ∧ (s.tagLogn x = none → hostAccess (.readTag t) s = .next { s with hostData := 0 }) := by
  have answer : hostAccess (.readTag t) s = .next { s with hostData := (s.tagWord x).setWidth 128 } := by
    rw [hostAccess_of_ne_busy hb, hostEffect, ht]
    rfl
  rw [answer, State.tagWord]
  refine ⟨fun l hl => ?_, fun hn => ?_⟩
  · rw [hl, setWidth_tag]
  · rw [hn]
    rfl

theorem hostAccess_tag_of_no_slot {s : State} (hb : s.runstate ≠ .busy) {t : Nat} (ht : s.tagSlot t = none)
    (v : BitVec 7) : hostAccess (.writeTag t v) s = .next s
      ∧ hostAccess (.readTag t) s = .refused .hostReadUnspecified := by
  rw [hostAccess_of_ne_busy hb, hostAccess_of_ne_busy hb, hostEffect, hostEffect, State.writeTag, ht]
  exact ⟨rfl, rfl⟩

/-- Settles O57: a TAG write of a slot is `Memory.retag` of its slot file, and a TAG read answers the tag. -/
theorem hostAllocation : Obligations.HostAllocation := by
  unfold Obligations.HostAllocation
  intro s v hi hb logn ok
  obtain ⟨hnp, hnf⟩ := Caps.slots_le hi.capsLegal
  obtain ⟨-, hpolys, hfreqs⟩ := hi.wf
  refine ⟨fun n hn => ⟨⟨s.writeTag n v, hostAccess_of_ne_busy hb _, ?writePoly⟩, ?readPoly⟩,
    fun n hn => ⟨⟨s.writeTag (256 + n) v, hostAccess_of_ne_busy hb _, ?writeFreq⟩, ?readFreq⟩, fun n hn hn' => ?noSlot⟩
  case writePoly =>
    rw [State.writeTag_poly hn (hn.trans_le hnp)]
    exact ⟨rfl, fun k hk => Memory.read_retag_other _ _ _ hk, fun hv hok => Memory.read_retag_allocate _ _ _ hv hok,
      fun hv hok => by rw [Memory.retag_of_not_legal _ _ _ hv hok], fun hv => Memory.read_retag_free _ _ hpolys hv⟩
  case readPoly =>
    have hn' := hn.trans_le hnp
    obtain ⟨valid, free⟩ := hostAccess_readTag hb (State.tagSlot_poly hn hn')
    rw [State.tagLogn_poly s hn'] at valid free
    exact ⟨fun p hp => valid _ (congrArg _ hp), fun hp => free (congrArg _ hp)⟩
  case writeFreq =>
    rw [State.writeTag_freq hn (hn.trans_le hnf)]
    exact ⟨rfl, fun k hk => Memory.read_retag_other _ _ _ hk, fun hv hok => Memory.read_retag_allocate _ _ _ hv hok,
      fun hv hok => by rw [Memory.retag_of_not_legal _ _ _ hv hok], fun hv => Memory.read_retag_free _ _ hfreqs hv⟩
  case readFreq =>
    have hn' := hn.trans_le hnf
    obtain ⟨valid, free⟩ := hostAccess_readTag hb (State.tagSlot_freq hn hn')
    rw [State.tagLogn_freq s hn'] at valid free
    exact ⟨fun f hf => valid _ (congrArg _ hf), fun hf => free (congrArg _ hf)⟩
  case noSlot => exact hostAccess_tag_of_no_slot hb (State.tagSlot_eq_none.2 (by omega)) v

/-! ## Flat addresses (R50) -/

/-- An access by flat address is the access by the pair it names, inside and beyond the slot's length. -/
theorem hostAccess_flatAddress (s : State) (n : Nat) {j : Nat} (hj : j < 2 ^ s.caps.maxLogn) (v : BitVec 64) :
    let a := n * 2 ^ s.caps.maxLogn + j
    (hostAccess (.readPoly a) s = hostAccess (.readCoef n j) s
        ∧ hostAccess (.writePoly a v) s = hostAccess (.writeCoef n j v) s)
      ∧ hostAccess (.readFreq a) s = hostAccess (.readLane n j) s
        ∧ hostAccess (.writeFreq a v) s = hostAccess (.writeLane n j v) s := by
  have slot := s.caps.flatSlot_flatAddress (slot := n) hj
  have index := s.caps.flatIndex_flatAddress (slot := n) hj
  rw [Caps.flatAddress] at slot index
  simp only [hostAccess, HostOp.allowedWhileBusy, hostEffect, slot, index, and_self]

/-! ## Coefficients (R51) -/

theorem wrap_natCast (W n : Nat) : wrap W n = BitVec.ofNat 64 (n % 2 ^ W) := by
  rw [wrap, ← Int.natCast_mod, Int.toNat_natCast]

theorem coefAt_set {a : List Coef} {j : Nat} (h : j < a.length) (c : Coef) (i : Nat) :
    coefAt (a.set j c) i = if i = j then c else coefAt a i := by
  simp only [coefAt, List.getD_eq_getElem?_getD, List.getElem?_set, eq_comm (a := i)]
  split_ifs <;> rfl

/-- A legal slot has as many coefficients as its degree. -/
theorem State.Inv.length_coefs {s : State} (hi : s.Inv) {n : Nat} {p : Poly} (hp : s.polys.read n = some p) :
    p.coefs.length = 2 ^ p.logn.toNat :=
  (Poly.legal_iff.1 (hi.polyAt hp).2).2.1

theorem hostAccess_readCoef {s : State} (hi : s.Inv) (hb : s.runstate ≠ .busy) {n j : Nat} {p : Poly}
    (hp : s.polys.read n = some p) (hj : j < 2 ^ p.logn.toNat) :
    hostAccess (.readCoef n j) s = .next { s with hostData := (coefAt p.coefs j).setWidth 128 } := by
  have read : s.readCoef n j = some (coefAt p.coefs j) := by
    refine State.readCoef_eq_some.2 ⟨(hi.polyAt hp).1, p, hp, hj, ?_⟩
    have hlen : j < p.coefs.length := by rwa [hi.length_coefs hp]
    rw [coefAt, List.getD_eq_getElem _ _ hlen, List.getElem?_eq_getElem hlen]
  rw [hostAccess_of_ne_busy hb, hostEffect, read, State.answer]

theorem State.writeCoef_of_read {s : State} {n j : Nat} {p : Poly} (hn : n < s.caps.np)
    (hp : s.polys.read n = some p) (hj : j < 2 ^ p.logn.toNat) (v : BitVec 64) :
    s.writeCoef n j v = { s with
      polys := s.polys.write n { p with coefs := p.coefs.set j (wrap s.conf.width v.toNat) } } := by
  rw [State.writeCoef, hp]
  exact if_pos ⟨hn, hj⟩

theorem State.not_coefPresent {s : State} {n j : Nat} (h : ∀ p, s.polys.read n = some p → 2 ^ p.logn.toNat ≤ j) :
    ¬ s.CoefPresent n j := by
  rintro ⟨-, p, hp, hj, -⟩
  exact Nat.not_lt.2 (h p hp) hj

theorem State.writeCoef_beyond {s : State} {n j : Nat} (h : ∀ p, s.polys.read n = some p → 2 ^ p.logn.toNat ≤ j)
    (v : BitVec 64) : s.writeCoef n j v = s := by
  unfold State.writeCoef
  split
  · next p hp => exact if_neg fun hj => Nat.not_lt.2 (h p hp) hj.2
  · rfl

/-- Settles O58: the slot's list with one element replaced is read back through `hostAccess_readCoef`. -/
theorem hostCoefficientsReadBack : Obligations.HostCoefficientsReadBack := by
  unfold Obligations.HostCoefficientsReadBack
  intro s n j v hi hb
  refine ⟨fun p hp hj => ⟨hostAccess_readCoef hi hb hp hj, ?inside⟩, fun h => ⟨?ignored, ?refused⟩,
    fun hj => (hostAccess_flatAddress s n hj v).1⟩
  case inside =>
    have hlen : j < p.coefs.length := by rwa [hi.length_coefs hp]
    have hw := State.writeCoef_of_read (hi.polyAt hp).1 hp hj v
    have ht := hi.writeCoef n j v
    rw [hw] at ht
    have stored : coefAt (p.coefs.set j (wrap s.conf.width v.toNat)) j
        = BitVec.ofNat 64 (v.toNat % 2 ^ s.conf.width) := by
      rw [coefAt_set hlen, if_pos rfl, wrap_natCast]
    refine ⟨_, _, by rw [hostAccess_of_ne_busy hb, hostEffect, hw], rfl, Memory.read_write_same .., stored,
      List.length_set, fun i hij => by rw [coefAt_set hlen, if_neg hij],
      fun k hk => Memory.read_write_other _ _ hk, ?_⟩
    have fits : v.toNat % 2 ^ s.conf.width < 2 ^ 64 := (Nat.mod_le ..).trans_lt v.isLt
    rw [hostAccess_readCoef ht hb (Memory.read_write_same ..) hj, stored,
      BitVec.setWidth_ofNat_of_le_of_lt (by decide) fits]
  case ignored => rw [hostAccess_of_ne_busy hb, hostEffect, State.writeCoef_beyond h]
  case refused =>
    rw [hostAccess_of_ne_busy hb, hostEffect, State.readCoef_eq_none.2 (State.not_coefPresent h), State.answer]

/-! ## Lane elements (R52) -/

/-- Element i of the interleaved lanes: parts 2k and 2k + 1 are those of lane k (R52). -/
def elementAt (lanes : List Cplx) (i : Nat) : F64 := getElement (lanes.getD (i / 2) ⟨0, 0⟩) i

theorem getElement_setElement (c : Cplx) (e i : Nat) (v : F64) :
    getElement (setElement c e v) i = if i % 2 = e % 2 then v else getElement c i := by
  rcases Nat.mod_two_eq_zero_or_one e with he | he <;> rcases Nat.mod_two_eq_zero_or_one i with hi | hi <;>
    simp [getElement, setElement, he, hi]

theorem elementAt_modify {lanes : List Cplx} {e : Nat} (h : e / 2 < lanes.length) (v : F64) (i : Nat) :
    elementAt (lanes.modify (e / 2) (setElement · e v)) i = if i = e then v else elementAt lanes i := by
  by_cases hk : i / 2 = e / 2
  · have same : i % 2 = e % 2 ↔ i = e := by omega
    rw [elementAt, elementAt, hk, List.getD_eq_getElem _ _ (by rwa [List.length_modify]), List.getElem_modify_eq,
      getElement_setElement, List.getD_eq_getElem _ _ h]
    simp only [same]
  · rw [if_neg (by rintro rfl; exact hk rfl), elementAt, elementAt, List.getD_eq_getElem?_getD,
      List.getElem?_modify_ne _ _ (Ne.symm hk), List.getD_eq_getElem?_getD]

/-- An element inside a legal slot lies in one of its lanes. -/
theorem State.Inv.lane_lt {s : State} (hi : s.Inv) {n e : Nat} {f : FreqPoly} (hf : s.freqs.read n = some f)
    (he : e < 2 ^ f.logn.toNat) : e / 2 < f.lanes.length := by
  obtain ⟨⟨hmin, -⟩, hlen⟩ := FreqPoly.legal_iff.1 (hi.freqAt hf).2
  have hk := hi.capsLegal
  simp only [Caps.legal, decide_eq_true_eq] at hk
  rw [hlen, Nat.div_lt_iff_lt_mul (by decide), ← pow_succ, Nat.sub_add_cancel (by omega)]
  exact he

theorem hostAccess_readLane {s : State} (hi : s.Inv) (hb : s.runstate ≠ .busy) {n e : Nat} {f : FreqPoly}
    (hf : s.freqs.read n = some f) (he : e < 2 ^ f.logn.toNat) :
    hostAccess (.readLane n e) s = .next { s with hostData := (elementAt f.lanes e).setWidth 128 } := by
  have hlen := hi.lane_lt hf he
  have read : s.readLane n e = some (elementAt f.lanes e) :=
    State.readLane_eq_some.2 ⟨(hi.freqAt hf).1, f, hf, he, _, List.getElem?_eq_getElem hlen, by
      rw [elementAt, List.getD_eq_getElem _ _ hlen]⟩
  rw [hostAccess_of_ne_busy hb, hostEffect, read, State.answer]

theorem State.writeLane_of_read {s : State} {n e : Nat} {f : FreqPoly} (hn : n < s.caps.nf)
    (hf : s.freqs.read n = some f) (he : e < 2 ^ f.logn.toNat) (v : F64) :
    s.writeLane n e v = { s with
      freqs := s.freqs.write n { f with lanes := f.lanes.modify (e / 2) (setElement · e v) } } := by
  rw [State.writeLane, hf]
  exact if_pos ⟨hn, he⟩

theorem State.not_lanePresent {s : State} {n e : Nat} (h : ∀ f, s.freqs.read n = some f → 2 ^ f.logn.toNat ≤ e) :
    ¬ s.LanePresent n e := by
  rintro ⟨-, f, hf, he, -⟩
  exact Nat.not_lt.2 (h f hf) he

theorem State.writeLane_beyond {s : State} {n e : Nat} (h : ∀ f, s.freqs.read n = some f → 2 ^ f.logn.toNat ≤ e)
    (v : F64) : s.writeLane n e v = s := by
  unfold State.writeLane
  split
  · next f hf => exact if_neg fun he => Nat.not_lt.2 (h f hf) he.2
  · rfl

/-- Settles O59: the slot's lanes with one element replaced are read back through `hostAccess_readLane`. -/
theorem hostLanesReadBack : Obligations.HostLanesReadBack := by
  unfold Obligations.HostLanesReadBack
  intro s n e v hi hb
  refine ⟨fun f hf he => ⟨hostAccess_readLane hi hb hf he, ?inside⟩, fun h => ⟨?ignored, ?refused⟩,
    fun he => (hostAccess_flatAddress s n he v).2⟩
  case inside =>
    have hlen := hi.lane_lt hf he
    have hw := State.writeLane_of_read (hi.freqAt hf).1 hf he v
    have ht := hi.writeLane n e v
    rw [hw] at ht
    have stored : elementAt (f.lanes.modify (e / 2) (setElement · e v)) e = v := by
      rw [elementAt_modify hlen, if_pos rfl]
    refine ⟨_, _, by rw [hostAccess_of_ne_busy hb, hostEffect, hw], rfl, Memory.read_write_same .., stored,
      List.length_modify .., fun i hie => (elementAt_modify hlen v i).trans (if_neg hie),
      fun k hk => Memory.read_write_other _ _ hk, ?_⟩
    rw [hostAccess_readLane ht hb (Memory.read_write_same ..) he, stored]
  case ignored => rw [hostAccess_of_ne_busy hb, hostEffect, State.writeLane_beyond h]
  case refused =>
    rw [hostAccess_of_ne_busy hb, hostEffect, State.readLane_eq_none.2 (State.not_lanePresent h), State.answer]

end Sys2Proof.Machine
end

section
/-! PROOFS. The words of R70 to R75: the bits of a packed word, the round trip of the encoder and the decoder, the
illegal encodings of R76 and the rows of the opcode table. -/

namespace Sys2Proof.Machine

/-! ## The bits of a packed word (R70) -/

/-- Where the mask fixes a range of bits, the word has the pattern's bits. -/
theorem extractLsb'_eq_of_and_eq {n lo len : Nat} {w m p : BitVec n} (h : w &&& m = p)
    (hm : m.extractLsb' lo len = BitVec.allOnes len) : w.extractLsb' lo len = p.extractLsb' lo len := by
  rw [← h, BitVec.extractLsb'_and, hm, BitVec.and_allOnes]

theorem append_eq_zero_iff {m n : Nat} {a : BitVec m} {b : BitVec n} : a ++ b = 0#(m + n) ↔ a = 0#m ∧ b = 0#n := by
  refine ⟨fun h => ⟨?_, ?_⟩, fun ⟨ha, hb⟩ => by rw [ha, hb, BitVec.zero_append_zero]⟩
  · rw [← BitVec.extractLsb'_append_eq_left (a := a) (b := b), h, BitVec.extractLsb'_zero]
  · rw [← BitVec.extractLsb'_append_eq_right (a := a) (b := b), h, BitVec.extractLsb'_zero]

section
variable (imm : BitVec 64) (rb ra rd mod opc : BitVec 8)

@[simp] theorem extractLsb'_packWord_opc : (packWord imm rb ra rd mod opc).extractLsb' 0 8 = opc :=
  opcField_packWord ..

@[simp] theorem extractLsb'_packWord_rsv : (packWord imm rb ra rd mod opc).extractLsb' 40 24 = 0 :=
  rsvField_packWord ..

@[simp] theorem extractLsb'_packWord_rb : (packWord imm rb ra rd mod opc).extractLsb' 32 8 = rb :=
  rbField_packWord ..

/-- The bits of a part of MOD. -/
@[simp] theorem extractLsb'_packWord_mod {lo len : Nat} (h : 8 ≤ lo) (h' : lo + len ≤ 16) :
    (packWord imm rb ra rd mod opc).extractLsb' lo len = mod.extractLsb' (lo - 8) len := by
  grind [packWord]

/-- The bits of a part of IMM. -/
@[simp] theorem extractLsb'_packWord_imm {lo len : Nat} (h : 64 ≤ lo) :
    (packWord imm rb ra rd mod opc).extractLsb' lo len = imm.extractLsb' (lo - 64) len := by
  grind [packWord]

@[simp] theorem extractLsb'_packWord_slots_eq_zero :
    (packWord imm rb ra rd mod opc).extractLsb' 16 24 = 0#24 ↔ (rd = 0 ∧ ra = 0) ∧ rb = 0 := by
  have h : (packWord imm rb ra rd mod opc).extractLsb' 16 24 = rb ++ ra ++ rd := by grind [packWord]
  rw [h]
  refine append_eq_zero_iff.trans ((and_congr_left' append_eq_zero_iff).trans ?_)
  tauto

@[simp] theorem extractLsb'_packWord_mod_slots_eq_zero :
    (packWord imm rb ra rd mod opc).extractLsb' 8 32 = 0#32 ↔ ((mod = 0 ∧ rd = 0) ∧ ra = 0) ∧ rb = 0 := by
  have h : (packWord imm rb ra rd mod opc).extractLsb' 8 32 = rb ++ ra ++ rd ++ mod := by grind [packWord]
  rw [h]
  refine append_eq_zero_iff.trans
    ((and_congr_left' (append_eq_zero_iff.trans (and_congr_left' append_eq_zero_iff))).trans ?_)
  tauto

/-- A mask acts on each field by itself. -/
theorem packWord_and (m : Command) : packWord imm rb ra rd mod opc &&& m =
    packWord (imm &&& immField m) (rb &&& rbField m) (ra &&& raField m) (rd &&& rdField m) (mod &&& modField m)
      (opc &&& opcField m) := by
  apply BitVec.eq_of_getLsbD_eq
  intro i hi
  simp only [packWord, immField, rbField, raField, rdField, modField, opcField, BitVec.getLsbD_and,
    BitVec.getLsbD_append, BitVec.getLsbD_extractLsb']
  grind

end

theorem exists_packWord {w : Command} (h : rsvField w = 0) :
    ∃ imm rb ra rd mod opc, w = packWord imm rb ra rd mod opc :=
  ⟨_, _, _, _, _, _, (packWord_fields w h).symm⟩

/-! ## The fields of CFG (R73) -/

section
variable (logn kt : BitVec 6) (wsel strat : BitVec 2) (sgn : Bool) (lb : BitVec 7) (lc : BitVec 8)

@[simp] theorem cfgMod_wsel : (cfgMod wsel sgn strat).extractLsb' 0 2 = wsel := by grind [cfgMod]
@[simp] theorem cfgMod_sgn : (cfgMod wsel sgn strat)[2] = sgn := by grind [cfgMod]
@[simp] theorem cfgMod_strat : (cfgMod wsel sgn strat).extractLsb' 3 2 = strat := by grind [cfgMod]
@[simp] theorem cfgMod_unused : (cfgMod wsel sgn strat).extractLsb' 5 3 = 0 := by grind [cfgMod]

@[simp] theorem cfgImm_logn : (cfgImm logn lb lc kt).extractLsb' 0 6 = logn := by grind [cfgImm]
@[simp] theorem cfgImm_limbBits : (cfgImm logn lb lc kt).extractLsb' 8 7 = lb := by grind [cfgImm]
@[simp] theorem cfgImm_limbCount : (cfgImm logn lb lc kt).extractLsb' 16 8 = lc := by grind [cfgImm]
@[simp] theorem cfgImm_logKt : (cfgImm logn lb lc kt).extractLsb' 24 6 = kt := by grind [cfgImm]
@[simp] theorem cfgImm_unused_low : (cfgImm logn lb lc kt).extractLsb' 6 2 = 0 := by grind [cfgImm]
@[simp] theorem cfgImm_unused_mid : (cfgImm logn lb lc kt).extractLsb' 15 1 = 0 := by grind [cfgImm]
@[simp] theorem cfgImm_unused_high : (cfgImm logn lb lc kt).extractLsb' 30 34 = 0 := by grind [cfgImm]

/-- The MOD bits the mask of CFG fixes are those no field of CFG has. -/
@[simp] theorem cfgMod_and : cfgMod wsel sgn strat &&& 0xE0#8 = 0 := by
  revert wsel sgn strat
  decide

/-- The IMM bits the mask of CFG fixes are those no field of CFG has. -/
@[simp] theorem cfgImm_and : cfgImm logn lb lc kt &&& 0xFFFFFFFFC00080C0#64 = 0 := by
  have hm : 0xFFFFFFFFC00080C0#64 =
      BitVec.allOnes 34 ++ 0#6 ++ 0#8 ++ BitVec.allOnes 1 ++ 0#7 ++ BitVec.allOnes 2 ++ 0#6 := rfl
  rw [cfgImm, hm]
  repeat rw [BitVec.and_append]
  simp

end

theorem exists_cfgMod {m : BitVec 8} (h : m.extractLsb' 5 3 = 0) : ∃ wsel sgn strat, m = cfgMod wsel sgn strat := by
  refine ⟨m.extractLsb' 0 2, m.getLsbD 2, m.extractLsb' 3 2, ?_⟩
  revert m
  decide

theorem exists_cfgImm {imm : BitVec 64} (hlow : imm.extractLsb' 6 2 = 0) (hmid : imm.extractLsb' 15 1 = 0)
    (hhigh : imm.extractLsb' 30 34 = 0) : ∃ logn lb lc kt, imm = cfgImm logn lb lc kt := by
  refine ⟨imm.extractLsb' 0 6, imm.extractLsb' 8 7, imm.extractLsb' 16 8, imm.extractLsb' 24 6, ?_⟩
  rw [cfgImm, ← hlow, ← hmid, ← hhigh]
  simp only [BitVec.extractLsb'_append_extractLsb'_eq_extractLsb', BitVec.extractLsb'_eq_self]

/-! ## The word of a command decodes to it -/

theorem decode_encode {i : Instr} (h : i.wellFormed = true) : decode (encode i) = .ok i := by
  cases i
  case endCmd => rfl
  case cfg logn wsel sgn strat lb lc kt =>
    have hs : strat ≠ 3#2 := by simpa [Instr.wellFormed] using h
    simp [encode, decode, decodeCfg, ifUnusedZero, hs]
  case mul | muladd | mulsub | muls | mulsadd | mulssub => simp [encode, decode, decodeMul, ifUnusedZero]
  case fmul | fmac | padd | psub => simp [encode, decode, decodeR3, ifUnusedZero]
  case fft | ifft | pneg => simp [encode, decode, decodeR2, ifUnusedZero]
  case pscl | mono | perm | fperm => simp [encode, decode, decodeRI, ifUnusedZero]

/-- Settles O4: each format's decoder on the fields its encoder packs. -/
theorem decodeInvertsEncode : Obligations.DecodeInvertsEncode := fun _ => decode_encode

/-- Settles O8: each printed word is its command's encoding. -/
theorem printedWordsDecode : Obligations.PrintedWordsDecode :=
  ⟨decode_encode (i := .muladd 2 0 1) rfl, decode_encode (i := .pscl 1 0 0xFFFFFFFFFFFFFFFD) rfl,
    decode_encode (i := .endCmd) rfl, decode_encode (i := .cfg 3 0 true 1 8 1 6) rfl,
    decode_encode (i := .fft 2 1) rfl, decode_encode (i := .fmac 255 254 253) rfl,
    decode_encode (i := .padd 4 5 6) rfl, decode_encode (i := .perm 2 1 3) rfl,
    decode_encode (i := .fperm 1 0 0x7FFFFFFFFFFFFFFF) rfl⟩

/-! ## Every word is an illegal encoding or the word of a command (R76, R77) -/

theorem not_illegalEncoding_encode {i : Instr} (h : i.wellFormed = true) : ¬ IllegalEncoding (encode i) := by
  cases i
  case cfg logn wsel sgn strat lb lc kt =>
    have hs : strat.toNat ≠ 3 := by simpa [Instr.wellFormed, ← BitVec.toNat_inj] using h
    simp [IllegalEncoding, encode, hs]
  all_goals simp [IllegalEncoding, encode]

/-- R76 calls the word illegal, and it does not decode. -/
def Rejected (w : Command) : Prop := IllegalEncoding w ∧ ∃ e, decode w = .error e

/-- The word is that of a command of R75. -/
def Encoded (w : Command) : Prop := ∃ i : Instr, i.wellFormed = true ∧ encode i = w

theorem rejected_of_rsv {w : Command} (h : rsvField w ≠ 0) : Rejected w := by
  refine ⟨.inr (.inl h), ?_⟩
  unfold decode
  extract_lets body
  cases body with
  | none => exact ⟨_, rfl⟩
  | some r => exact ⟨_, if_neg h⟩

theorem rejected_of_opcode {w : Command}
    (h : (opcField w).toNat ∉
      [0x00, 0x01, 0x10, 0x11, 0x18, 0x19, 0x20, 0x30, 0x31, 0x32, 0x33, 0x40, 0x41, 0x42]) : Rejected w := by
  refine ⟨.inl h, .unassignedOpcode, ?_⟩
  unfold decode
  split
  case h_15 => rfl
  all_goals exact absurd (by simp [*]) h

section
variable (imm : BitVec 64) (rb ra rd mod : BitVec 8) {opc : BitVec 8}

theorem rejected_or_encoded_end :
    Rejected (packWord imm rb ra rd mod 0x00) ∨ Encoded (packWord imm rb ra rd mod 0x00) := by
  by_cases hz : (((mod = 0 ∧ rd = 0) ∧ ra = 0) ∧ rb = 0) ∧ imm = 0
  · obtain ⟨⟨⟨⟨rfl, rfl⟩, rfl⟩, rfl⟩, rfl⟩ := hz
    exact .inr ⟨.endCmd, rfl, rfl⟩
  · refine .inl ⟨?_, .unusedField, ?_⟩
    · exact .inr (.inr (.inl ⟨by simp, by simpa [imp_iff_not_or] using hz⟩))
    · simpa [decode, ifUnusedZero] using hz

theorem rejected_or_encoded_cfg :
    Rejected (packWord imm rb ra rd mod 0x01) ∨ Encoded (packWord imm rb ra rd mod 0x01) := by
  by_cases hz : mod.extractLsb' 5 3 = 0#3 ∧ rd = 0#8 ∧ ra = 0#8 ∧ rb = 0#8 ∧ imm.extractLsb' 6 2 = 0#2
      ∧ imm.extractLsb' 15 1 = 0#1 ∧ imm.extractLsb' 30 34 = 0#34
  · obtain ⟨hmod, rfl, rfl, rfl, hlow, hmid, hhigh⟩ := hz
    obtain ⟨wsel, sgn, strat, rfl⟩ := exists_cfgMod hmod
    obtain ⟨logn, lb, lc, kt, rfl⟩ := exists_cfgImm hlow hmid hhigh
    by_cases hs : strat = 3
    · subst hs
      exact .inl ⟨by simp [IllegalEncoding], .reservedStrategy, by simp [decode, decodeCfg, ifUnusedZero]⟩
    · exact .inr ⟨.cfg logn wsel sgn strat lb lc kt, by simpa [Instr.wellFormed] using hs, rfl⟩
  · refine .inl ⟨?_, .unusedField, ?_⟩
    · exact .inr (.inr (.inr (.inl ⟨by simp, by simpa [imp_iff_not_or, or_assoc] using hz⟩)))
    · simp [decode, decodeCfg, ifUnusedZero, and_assoc, hz]

/-- The modifiers of the MUL family are those that R76(e) allows (R74). -/
theorem modifier_cases (mod : BitVec 8) :
    (((mod.extractLsb' 0 2).toNat = 3 ∨ mod.extractLsb' 3 5 ≠ 0) ∧ mod.toNat ∉ [0, 1, 2, 4, 5, 6])
      ∨ mod = 0 ∨ mod = 1 ∨ mod = 2 ∨ mod = 4 ∨ mod = 5 ∨ mod = 6 := by
  revert mod
  decide

theorem rejected_or_encoded_mul :
    Rejected (packWord imm rb ra rd mod 0x20) ∨ Encoded (packWord imm rb ra rd mod 0x20) := by
  by_cases hz : imm = 0#64
  · subst hz
    rcases modifier_cases mod with ⟨hm, hm'⟩ | hm
    · refine .inl ⟨by simpa [IllegalEncoding] using hm, .reservedModifier, ?_⟩
      simp only [List.mem_cons, List.not_mem_nil, or_false, not_or] at hm'
      simp [decode, decodeMul, ifUnusedZero, hm']
    · right
      rcases hm with rfl | rfl | rfl | rfl | rfl | rfl
      · exact ⟨.mul rd ra rb, rfl, rfl⟩
      · exact ⟨.muladd rd ra rb, rfl, rfl⟩
      · exact ⟨.mulsub rd ra rb, rfl, rfl⟩
      · exact ⟨.muls rd ra rb, rfl, rfl⟩
      · exact ⟨.mulsadd rd ra rb, rfl, rfl⟩
      · exact ⟨.mulssub rd ra rb, rfl, rfl⟩
  · exact .inl ⟨by simp [IllegalEncoding, hz], .unusedField, by simp [decode, decodeMul, ifUnusedZero, hz]⟩

theorem rejected_or_encoded_r3 (h : opc = 0x18 ∨ opc = 0x19 ∨ opc = 0x30 ∨ opc = 0x31) :
    Rejected (packWord imm rb ra rd mod opc) ∨ Encoded (packWord imm rb ra rd mod opc) := by
  by_cases hz : mod = 0 ∧ imm = 0
  · obtain ⟨rfl, rfl⟩ := hz
    right
    rcases h with rfl | rfl | rfl | rfl
    · exact ⟨.fmul rd ra rb, rfl, rfl⟩
    · exact ⟨.fmac rd ra rb, rfl, rfl⟩
    · exact ⟨.padd rd ra rb, rfl, rfl⟩
    · exact ⟨.psub rd ra rb, rfl, rfl⟩
  · refine .inl ⟨?_, .unusedField, ?_⟩
    · rcases h with rfl | rfl | rfl | rfl <;> simpa [IllegalEncoding, imp_iff_not_or] using hz
    · rcases h with rfl | rfl | rfl | rfl <;> simpa [decode, decodeR3, ifUnusedZero] using hz

theorem rejected_or_encoded_r2 (h : opc = 0x10 ∨ opc = 0x11 ∨ opc = 0x32) :
    Rejected (packWord imm rb ra rd mod opc) ∨ Encoded (packWord imm rb ra rd mod opc) := by
  by_cases hz : (mod = 0 ∧ rb = 0) ∧ imm = 0
  · obtain ⟨⟨rfl, rfl⟩, rfl⟩ := hz
    right
    rcases h with rfl | rfl | rfl
    · exact ⟨.fft rd ra, rfl, rfl⟩
    · exact ⟨.ifft rd ra, rfl, rfl⟩
    · exact ⟨.pneg rd ra, rfl, rfl⟩
  · refine .inl ⟨?_, .unusedField, ?_⟩
    · rcases h with rfl | rfl | rfl <;> simpa [IllegalEncoding, imp_iff_not_or, or_assoc] using hz
    · rcases h with rfl | rfl | rfl <;> simpa [decode, decodeR2, ifUnusedZero] using hz

theorem rejected_or_encoded_ri (h : opc = 0x33 ∨ opc = 0x40 ∨ opc = 0x41 ∨ opc = 0x42) :
    Rejected (packWord imm rb ra rd mod opc) ∨ Encoded (packWord imm rb ra rd mod opc) := by
  by_cases hz : mod = 0 ∧ rb = 0
  · obtain ⟨rfl, rfl⟩ := hz
    right
    rcases h with rfl | rfl | rfl | rfl
    · exact ⟨.pscl rd ra imm, rfl, rfl⟩
    · exact ⟨.mono rd ra imm, rfl, rfl⟩
    · exact ⟨.perm rd ra imm, rfl, rfl⟩
    · exact ⟨.fperm rd ra imm, rfl, rfl⟩
  · refine .inl ⟨?_, .unusedField, ?_⟩
    · rcases h with rfl | rfl | rfl | rfl <;> simpa [IllegalEncoding, imp_iff_not_or] using hz
    · rcases h with rfl | rfl | rfl | rfl <;> simpa [decode, decodeRI, ifUnusedZero] using hz

end

/-- The assigned opcodes, format by format (R71, R75). -/
theorem opcode_cases (opc : BitVec 8) :
    opc.toNat ∉ [0x00, 0x01, 0x10, 0x11, 0x18, 0x19, 0x20, 0x30, 0x31, 0x32, 0x33, 0x40, 0x41, 0x42]
      ∨ opc = 0x00 ∨ opc = 0x01 ∨ opc = 0x20
      ∨ (opc = 0x18 ∨ opc = 0x19 ∨ opc = 0x30 ∨ opc = 0x31)
      ∨ (opc = 0x10 ∨ opc = 0x11 ∨ opc = 0x32)
      ∨ (opc = 0x33 ∨ opc = 0x40 ∨ opc = 0x41 ∨ opc = 0x42) := by
  revert opc
  decide

/-- R76 is complete: a word that breaks none of its clauses is the word of a command. -/
theorem rejected_or_encoded (w : Command) : Rejected w ∨ Encoded w := by
  by_cases hr : rsvField w = 0
  · obtain ⟨imm, rb, ra, rd, mod, opc, rfl⟩ := exists_packWord hr
    obtain ho | rfl | rfl | rfl | ho | ho | ho := opcode_cases opc
    · exact .inl (rejected_of_opcode (by rwa [opcField_packWord]))
    · exact rejected_or_encoded_end ..
    · exact rejected_or_encoded_cfg ..
    · exact rejected_or_encoded_mul ..
    · exact rejected_or_encoded_r3 _ _ _ _ _ ho
    · exact rejected_or_encoded_r2 _ _ _ _ _ ho
    · exact rejected_or_encoded_ri _ _ _ _ _ ho
  · exact .inl (rejected_of_rsv hr)

theorem decode_eq_ok_iff {w : Command} {i : Instr} : decode w = .ok i ↔ encode i = w ∧ i.wellFormed = true := by
  refine ⟨fun h => ?_, fun ⟨hw, hi⟩ => hw ▸ decode_encode hi⟩
  obtain ⟨-, e, he⟩ | ⟨j, hj, rfl⟩ := rejected_or_encoded w
  · cases h.symm.trans he
  · cases h.symm.trans (decode_encode hj)
    exact ⟨rfl, hj⟩

theorem illegalEncoding_iff {w : Command} : IllegalEncoding w ↔ ∃ e, decode w = .error e := by
  obtain h | ⟨i, hi, rfl⟩ := rejected_or_encoded w
  · exact iff_of_true h.1 h.2
  · refine iff_of_false (not_illegalEncoding_encode hi) ?_
    rintro ⟨e, he⟩
    cases he.symm.trans (decode_encode hi)

/-- Settles O5: a word that is not rejected is a command's encoding, and decodes to that command. -/
theorem encodeInvertsDecode : Obligations.EncodeInvertsDecode := fun _ _ => decode_eq_ok_iff.1

/-! ## The rows of the opcode table (R75) -/

/-- Two different rows disagree at a bit that both masks fix. -/
theorem opcodeTable_overlap : ∀ r₁ ∈ opcodeTable, ∀ r₂ ∈ opcodeTable,
    r₁.pattern &&& r₂.mask = r₂.pattern &&& r₁.mask → r₁ = r₂ := by decide

theorem opcodeTable_disjoint {r₁ r₂ : OpcodeRow} (h₁ : r₁ ∈ opcodeTable) (h₂ : r₂ ∈ opcodeTable) {w : Command}
    (hw₁ : r₁.matchesWord w = true) (hw₂ : r₂.matchesWord w = true) : r₁ = r₂ := by
  refine opcodeTable_overlap r₁ h₁ r₂ h₂ ?_
  rw [← beq_iff_eq.1 hw₁, ← beq_iff_eq.1 hw₂, BitVec.and_assoc, BitVec.and_assoc, BitVec.and_comm r₁.mask]

theorem opcodeTable_mnemonic : ∀ r₁ ∈ opcodeTable, ∀ r₂ ∈ opcodeTable, r₁.mnemonic = r₂.mnemonic → r₁ = r₂ := by
  decide

/-- The word of a command matches the row of its mnemonic: what the mask fixes of each field is the row's pattern. -/
theorem exists_row_matchesWord_encode (i : Instr) :
    ∃ r ∈ opcodeTable, r.mnemonic = i.mnemonic ∧ r.matchesWord (encode i) = true := by
  cases i
  all_goals
    simp [opcodeTable, Instr.mnemonic, OpcodeRow.matchesWord, encode, maskR3, maskR2, maskRI, packWord_and, immField,
      rbField, raField, rdField, modField, opcField]
    rfl

section
variable {w m : Command} {imm : BitVec 64} {rb mod opc : BitVec 8}

/-- Every mask but those of END and CFG fixes RSV, MOD and OPC, and neither RA nor RD. -/
theorem eq_packWord_of_and (h : w &&& m = packWord imm rb 0 0 mod opc) (hrsv : rsvField m = BitVec.allOnes 24)
    (hmod : modField m = BitVec.allOnes 8) (hopc : opcField m = BitVec.allOnes 8) :
    packWord (immField w) (rbField w) (raField w) (rdField w) mod opc = w := by
  have hw : rsvField w = 0 := (extractLsb'_eq_of_and_eq h hrsv).trans (rsvField_packWord ..)
  conv_rhs => rw [← packWord_fields w hw]
  congr 1
  · exact ((extractLsb'_eq_of_and_eq h hmod).trans (modField_packWord ..)).symm
  · exact ((extractLsb'_eq_of_and_eq h hopc).trans (opcField_packWord ..)).symm

theorem eq_packWord_of_maskR3 (h : w &&& maskR3 = packWord 0 0 0 0 mod opc) :
    packWord 0 (rbField w) (raField w) (rdField w) mod opc = w := by
  have himm : immField w = 0 := (extractLsb'_eq_of_and_eq h rfl).trans (immField_packWord ..)
  rw [← himm, eq_packWord_of_and h rfl rfl rfl]

theorem eq_packWord_of_maskR2 (h : w &&& maskR2 = packWord 0 0 0 0 mod opc) :
    packWord 0 0 (raField w) (rdField w) mod opc = w := by
  have himm : immField w = 0 := (extractLsb'_eq_of_and_eq h rfl).trans (immField_packWord ..)
  have hrb : rbField w = 0 := (extractLsb'_eq_of_and_eq h rfl).trans (rbField_packWord ..)
  rw [← himm, ← hrb, eq_packWord_of_and h rfl rfl rfl]

theorem eq_packWord_of_maskRI (h : w &&& maskRI = packWord 0 0 0 0 mod opc) :
    packWord (immField w) 0 (raField w) (rdField w) mod opc = w := by
  have hrb : rbField w = 0 := (extractLsb'_eq_of_and_eq h rfl).trans (rbField_packWord ..)
  rw [← hrb, eq_packWord_of_and h rfl rfl rfl]

end

theorem exists_cfg_of_mask {w : Command} (h : w &&& 0xFFFFFFFFC00080C0FFFFFFFFFFFFE0FF = 1) :
    ∃ logn wsel sgn strat lb lc kt, encode (.cfg logn wsel sgn strat lb lc kt) = w := by
  have hrsv : rsvField w = 0 := extractLsb'_eq_of_and_eq h rfl
  obtain ⟨imm, rb, ra, rd, mod, opc, rfl⟩ := exists_packWord hrsv
  obtain rfl : opc = 1 := by simpa using extractLsb'_eq_of_and_eq (lo := 0) (len := 8) h rfl
  have hslots := (extractLsb'_packWord_slots_eq_zero ..).1 (extractLsb'_eq_of_and_eq h rfl)
  obtain ⟨⟨rfl, rfl⟩, rfl⟩ := hslots
  obtain ⟨wsel, sgn, strat, rfl⟩ := exists_cfgMod (m := mod) (by
    simpa using extractLsb'_eq_of_and_eq (lo := 13) (len := 3) h rfl)
  obtain ⟨logn, lb, lc, kt, rfl⟩ := exists_cfgImm (imm := imm)
    (by simpa using extractLsb'_eq_of_and_eq (lo := 70) (len := 2) h rfl)
    (by simpa using extractLsb'_eq_of_and_eq (lo := 79) (len := 1) h rfl)
    (by simpa using extractLsb'_eq_of_and_eq (lo := 94) (len := 34) h rfl)
  exact ⟨logn, wsel, sgn, strat, lb, lc, kt, rfl⟩

/-- A word that matches a row is the word of a command of that row, STRAT = 3 included. -/
theorem exists_encode_of_matchesWord {r : OpcodeRow} (hr : r ∈ opcodeTable) {w : Command}
    (h : r.matchesWord w = true) : ∃ i : Instr, encode i = w ∧ i.mnemonic = r.mnemonic := by
  have h := beq_iff_eq.1 h
  simp only [opcodeTable, List.cons_append, List.nil_append, List.mem_cons, List.not_mem_nil, or_false] at hr
  obtain rfl | rfl | rfl | rfl | rfl | rfl | rfl | rfl | rfl | rfl | rfl | rfl | rfl | rfl | rfl | rfl | rfl | rfl
    | rfl := hr
  · exact ⟨.endCmd, (BitVec.and_allOnes.symm.trans h).symm, rfl⟩
  · obtain ⟨logn, wsel, sgn, strat, lb, lc, kt, hw⟩ := exists_cfg_of_mask h
    exact ⟨.cfg logn wsel sgn strat lb lc kt, hw, rfl⟩
  · exact ⟨.fft .., eq_packWord_of_maskR2 h, rfl⟩
  · exact ⟨.ifft .., eq_packWord_of_maskR2 h, rfl⟩
  · exact ⟨.fmul .., eq_packWord_of_maskR3 h, rfl⟩
  · exact ⟨.fmac .., eq_packWord_of_maskR3 h, rfl⟩
  · exact ⟨.mul .., eq_packWord_of_maskR3 h, rfl⟩
  · exact ⟨.muladd .., eq_packWord_of_maskR3 h, rfl⟩
  · exact ⟨.mulsub .., eq_packWord_of_maskR3 h, rfl⟩
  · exact ⟨.muls .., eq_packWord_of_maskR3 h, rfl⟩
  · exact ⟨.mulsadd .., eq_packWord_of_maskR3 h, rfl⟩
  · exact ⟨.mulssub .., eq_packWord_of_maskR3 h, rfl⟩
  · exact ⟨.padd .., eq_packWord_of_maskR3 h, rfl⟩
  · exact ⟨.psub .., eq_packWord_of_maskR3 h, rfl⟩
  · exact ⟨.pneg .., eq_packWord_of_maskR2 h, rfl⟩
  · exact ⟨.pscl .., eq_packWord_of_maskRI h, rfl⟩
  · exact ⟨.mono .., eq_packWord_of_maskRI h, rfl⟩
  · exact ⟨.perm .., eq_packWord_of_maskRI h, rfl⟩
  · exact ⟨.fperm .., eq_packWord_of_maskRI h, rfl⟩

theorem matchesWord_iff {r : OpcodeRow} (hr : r ∈ opcodeTable) {w : Command} :
    r.matchesWord w = true ↔ ∃ i : Instr, encode i = w ∧ i.mnemonic = r.mnemonic := by
  refine ⟨exists_encode_of_matchesWord hr, ?_⟩
  rintro ⟨i, rfl, hi⟩
  obtain ⟨r', hr', hm, hw⟩ := exists_row_matchesWord_encode i
  rwa [opcodeTable_mnemonic r hr r' hr' (hi.symm.trans hm.symm)]

/-- The one term of a row that is no command is CFG with STRAT = 3 (R76(d)). -/
theorem wellFormed_iff {i : Instr} :
    i.wellFormed = true ↔ ¬ (i.mnemonic = "CFG" ∧ (encode i).extractLsb' 11 2 = 3) := by
  cases i
  case cfg => simp [Instr.wellFormed, Instr.mnemonic, encode]
  all_goals simp [Instr.wellFormed, Instr.mnemonic]

/-- Settles O7: the words that match a row are those of its terms, and `wellFormed_iff` sets the reserved STRAT
apart. -/
theorem opcodeTableDecides : Obligations.OpcodeTableDecides := by
  refine ⟨fun r hr w => ?_, fun _ h₁ _ h₂ _ => opcodeTable_disjoint h₁ h₂⟩
  simp only [matchesWord_iff hr, decode_eq_ok_iff, wellFormed_iff]
  constructor
  · rintro ⟨⟨i, rfl, hi⟩, hs⟩
    exact ⟨i, ⟨rfl, hi ▸ hs⟩, hi⟩
  · rintro ⟨i, ⟨rfl, hs⟩, hi⟩
    exact ⟨⟨i, rfl, hi⟩, hi ▸ hs⟩

/-- Settles O6: the illegal words are the rejected ones; a word of a command matches that command's row and, the rows
being disjoint, no other; and the fetch of a word that does not decode raises `IllegalCommand`. -/
theorem illegalEncodingsAreRejected : Obligations.IllegalEncodingsAreRejected := by
  refine ⟨fun _ => illegalEncoding_iff, fun w h => ?_, fun s w h hb hcp hw => ?_⟩
  · obtain ⟨i, -, rfl⟩ := (rejected_or_encoded w).resolve_left fun hr => h hr.1
    obtain ⟨r, hr, -, hm⟩ := exists_row_matchesWord_encode i
    exact ⟨r, ⟨hr, hm⟩, fun r' ⟨hr', hm'⟩ => opcodeTable_disjoint hr' hr hm' hm⟩
  · obtain ⟨e, he⟩ := illegalEncoding_iff.1 h
    have hf : s.fetch = .illegal := by rw [State.fetch_of_read hcp hw, he]
    exact ⟨s.raise .illegalCommand, by rw [engineStep, hb, hf], rfl⟩

end Sys2Proof.Machine
end

section
/-! PROOFS. What the engine's step does in each case of R90, and what CFG and END do (R91, R92). -/

namespace Sys2Proof.Machine

/-! ## The fetch (R90 steps 1 to 3) -/

theorem State.fetch_of_ge {s : State} (h : s.caps.ncmd ≤ s.cp.toNat) : s.fetch = .illegal :=
  if_neg (Nat.not_lt.2 h)

theorem State.fetch_of_read_none {s : State} (h : s.cp.toNat < s.caps.ncmd) (hw : s.cmd.read s.cp.toNat = none) :
    s.fetch = .unwritten := by
  rw [State.fetch, if_pos h, hw]

theorem State.fetch_of_decode_error {s : State} {w : Command} {e : DecodeError} (h : s.cp.toNat < s.caps.ncmd)
    (hw : s.cmd.read s.cp.toNat = some w) (hd : decode w = .error e) : s.fetch = .illegal := by
  rw [State.fetch_of_read h hw, hd]

theorem State.fetch_of_decode_ok {s : State} {w : Command} {i : Instr} (h : s.cp.toNat < s.caps.ncmd)
    (hw : s.cmd.read s.cp.toNat = some w) (hd : decode w = .ok i) : s.fetch = .command i := by
  rw [State.fetch_of_read h hw, hd]

/-! ## The engine's step and the machine's -/

theorem engineStep_of_ne_busy {s : State} (h : s.runstate ≠ .busy) : engineStep s = .next s := by
  unfold engineStep
  cases hr : s.runstate
  case busy => exact absurd hr h
  all_goals rfl

theorem engineStep_of_illegal {s : State} (h : s.runstate = .busy) (hf : s.fetch = .illegal) :
    engineStep s = .next (s.raise .illegalCommand) := by
  rw [engineStep, h, hf]

theorem engineStep_of_unwritten {s : State} (h : s.runstate = .busy) (hf : s.fetch = .unwritten) :
    engineStep s = .fault .unwrittenCommand := by
  rw [engineStep, h, hf]

theorem engineStep_of_command {s : State} {i : Instr} (h : s.runstate = .busy) (hf : s.fetch = .command i) :
    engineStep s = exec i s := by
  rw [engineStep, h, hf]

/-- Settles O1: each clause is one thing the fetch can find. -/
theorem engineStepFollowsR90 : Obligations.EngineStepFollowsR90 := by
  unfold Obligations.EngineStepFollowsR90
  exact fun s => ⟨engineStep_of_ne_busy,
    fun hb hcp => engineStep_of_illegal hb (State.fetch_of_ge hcp),
    fun hb hcp hw => engineStep_of_unwritten hb (State.fetch_of_read_none hcp hw),
    fun w e hb hcp hw hd => engineStep_of_illegal hb (State.fetch_of_decode_error hcp hw hd),
    fun w i hb hcp hw hd => engineStep_of_command hb (State.fetch_of_decode_ok hcp hw hd)⟩

theorem step_of_no_turns {s : State} (h : s.turns = []) : step s = engineStep s := by
  rw [step, h]

theorem step_of_engine_turn {s : State} {rest : List Turn} (h : s.turns = .engine :: rest) :
    step s = engineStep { s with turns := rest } := by
  rw [step, h]

theorem step_of_host_turn {s : State} {op : HostOp} {rest : List Turn} (h : s.turns = .host op :: rest) :
    step s = hostAccess op { s with turns := rest } := by
  rw [step, h]

/-- Settles O2: the fetch does not read the list of moves, so it finds the same command once the engine's move is
taken from it. -/
theorem stepRunsTheDecodedCommand : Obligations.StepRunsTheDecodedCommand := by
  unfold Obligations.StepRunsTheDecodedCommand
  refine fun s => ⟨step_of_no_turns, fun _ => step_of_engine_turn, fun _ _ => step_of_host_turn,
    fun w i hb hcp hw hd => ?_⟩
  have runs (turns : List Turn) : engineStep { s with turns := turns } = exec i { s with turns := turns } :=
    engineStep_of_command hb (State.fetch_of_decode_ok (s := { s with turns := turns }) hcp hw hd)
  exact ⟨fun ht => (step_of_no_turns ht).trans (runs s.turns),
    fun rest ht => (step_of_engine_turn ht).trans (runs rest)⟩

/-! ## CFG (R91) -/

theorem stratOf_of_code {v : BitVec 2} {st : Strat} (h : v.toNat = st.code) : stratOf v = some st := by
  rw [stratOf, h]
  cases st <;> rfl

theorem configError_eq_true {k : Caps} {logn : BitVec 6} {wsel : BitVec 2} {lb : BitVec 7} {lc : BitVec 8}
    {kt : BitVec 6} :
    configError k logn wsel lb lc kt = true ↔
      logn.toNat < k.minLogn ∨ k.maxLogn < logn.toNat ∨ lc.toNat = 0 ∨ lb.toNat = 0 ∨ 64 < lb.toNat
        ∨ lc.toNat * lb.toNat < 8 * 2 ^ wsel.toNat ∨ kt.toNat = 0 ∨ 62 < kt.toNat := by
  simp only [configError, Bool.or_eq_true, decide_eq_true_eq, or_assoc]

/-- A CFG whose STRAT is a strategy stops or constructs, as the conditions of R91 decide. -/
theorem exec_cfg_of_code {strat : BitVec 2} {st : Strat} (h : strat.toNat = st.code) (s : State) (logn : BitVec 6)
    (wsel : BitVec 2) (sgn : Bool) (lb : BitVec 7) (lc : BitVec 8) (kt : BitVec 6) :
    exec (.cfg logn wsel sgn strat lb lc kt) s =
      if configError s.caps logn wsel lb lc kt then .next (s.raise .configError)
      else .next (s.construct ⟨true, logn, wsel, sgn, st, lb, lc, kt⟩).advance := by
  rw [exec, execCfg, stratOf_of_code h]

/-- Settles O23: the conditions of R91 are those of `configError`. -/
theorem cfgConstructs : Obligations.CfgConstructs := by
  unfold Obligations.CfgConstructs
  intro s logn wsel strat sgn lb lc kt st hst
  rw [exec_cfg_of_code hst]
  exact ⟨fun hbad => if_pos (configError_eq_true.2 hbad), fun hok => if_neg (mt configError_eq_true.1 hok)⟩

/-! ## END (R92) -/

theorem exec_endCmd (s : State) : exec .endCmd s = .next s.stop := rfl

/-- Outside ERR a legal engine records no error (R27). -/
theorem State.Inv.errcode_of_ne_err {s : State} (hi : s.Inv) (h : s.runstate ≠ .err) : s.errcode = ErrCode.none :=
  by_contra fun he => h (hi.errState.mpr he)

/-- A GO that ends at once leaves a DONE engine without a recorded error as it was. -/
theorem State.stop_go_of_done {s : State} (h : s.runstate = .done) (he : s.errcode = ErrCode.none) :
    s.go.stop = s := by
  rw [State.go_of_ne_busy (by simp [h]), State.stop, ← h, ← he]

/-- Settles O24: the GO starts a DONE engine, whose fetch of the zero word finds END, and END undoes the start. -/
theorem endStops : Obligations.EndStops := by
  unfold Obligations.EndStops
  have zero : decode 0 = .ok .endCmd := decode_encode (i := .endCmd) rfl
  refine ⟨rfl, zero, exec_endCmd, fun s hi hdone hcp hw => ?_⟩
  have idle : s.runstate ≠ .busy := by simp [hdone]
  have go : s.go = { s with runstate := .busy, errcode := ErrCode.none } := State.go_of_ne_busy idle
  have busy : s.go.runstate = .busy := by rw [go]
  have found : s.go.fetch = .command .endCmd := by
    rw [go]
    exact State.fetch_of_decode_ok hcp hw zero
  refine ⟨s.go, hostAccess_writeCsr (.inl idle) 1, busy, ?_⟩
  rw [engineStep_of_command busy found, exec_endCmd,
    State.stop_go_of_done hdone (hi.errcode_of_ne_err (by simp [hdone]))]

end Sys2Proof.Machine
end

section
/-! PROOFS. The butterfly networks, which work on lists, leave in each lane what the loops of R105 and R107 leave in it,
over any lane arithmetic; and with that what FFT and IFFT write. -/

namespace Sys2Proof.Machine

/-! ## Lists as functions of the index -/

section
variable {α : Type}

/-- The list of the n values `f s`, `f (s + 1)`, …: lanes or coefficients by their number. -/
def tabulate (f : Nat → α) (s n : Nat) : List α := (List.range' s n).map f

variable (f : Nat → α) (s n : Nat)

theorem tabulate_zero : tabulate f s 0 = [] := rfl

theorem tabulate_succ : tabulate f s (n + 1) = f s :: tabulate f (s + 1) n := rfl

theorem tabulate_start : tabulate f 0 n = (List.range n).map f := by rw [tabulate, ← List.range_eq_range']

@[simp] theorem length_tabulate : (tabulate f s n).length = n := by simp [tabulate]

theorem tabulate_add (m : Nat) : tabulate f s (m + n) = tabulate f s m ++ tabulate f (s + m) n := by
  rw [tabulate, ← List.range'_append, List.map_append, one_mul, tabulate, tabulate]

theorem take_tabulate (m : Nat) : (tabulate f s (m + n)).take m = tabulate f s m := by
  rw [tabulate_add, List.take_left' (length_tabulate f s m)]

theorem drop_tabulate (m : Nat) : (tabulate f s (m + n)).drop m = tabulate f (s + m) n := by
  rw [tabulate_add, List.drop_left' (length_tabulate f s m)]

variable {f s n}

theorem tabulate_congr {g : Nat → α} (h : ∀ k, s ≤ k → k < s + n → f k = g k) :
    tabulate f s n = tabulate g s n :=
  List.map_congr_left fun k hk => by
    obtain ⟨hs, hn⟩ := List.mem_range'_1.1 hk
    exact h k hs hn

theorem eq_of_tabulate_eq {g : Nat → α} (h : tabulate f 0 n = tabulate g 0 n) {k : Nat} (hk : k < n) :
    f k = g k := by
  rw [tabulate_start, tabulate_start] at h
  exact List.map_inj_left.1 h k (List.mem_range.2 hk)

theorem tabulate_shift (f : Nat → α) (s n m : Nat) : tabulate f (s + m) n = tabulate (fun k => f (k + m)) s n := by
  induction n generalizing s with
  | zero => rfl
  | succ n ih => rw [tabulate_succ, tabulate_succ, Nat.add_right_comm, ih]

theorem tabulate_const (x : α) (s n : Nat) : tabulate (fun _ => x) s n = List.replicate n x := by
  rw [tabulate, List.map_const', List.length_range']

theorem map_tabulate {β : Type} (g : α → β) (f : Nat → α) (s n : Nat) :
    (tabulate f s n).map g = tabulate (fun k => g (f k)) s n := List.map_map

theorem zipWith_tabulate {β γ : Type} (g : α → β → γ) (a : Nat → α) (b : Nat → β) (s n : Nat) :
    List.zipWith g (tabulate a s n) (tabulate b s n) = tabulate (fun k => g (a k) (b k)) s n := by
  rw [tabulate, tabulate, List.zipWith_map, List.zipWith_self, tabulate]

/-- A list is the list of its own elements. -/
theorem tabulate_getD (c : List α) (x : α) : tabulate (fun k => c.getD k x) 0 c.length = c := by
  refine List.ext_getElem (length_tabulate ..) fun k _ hk => ?_
  simp [tabulate, hk]

end

/-! ## The networks lane by lane -/

section
variable {α : Type} (R : LaneOps α) (f g : Nat → α) (d : Draw) (s n t : Nat)

theorem mulRoots_tabulate (root : Nat → α) :
    mulRoots R root d s (tabulate f s n) = tabulate (fun k => R.mul (k :: d) (f k) (root k)) s n := by
  induction n generalizing s with
  | zero => rfl
  | succ n ih => rw [tabulate_succ, mulRoots, ih, tabulate_succ]

theorem scaleLanes_tabulate (scale : Draw → α → α) :
    scaleLanes scale d s (tabulate f s n) = tabulate (fun k => scale (k :: d) (f k)) s n := by
  induction n generalizing s with
  | zero => rfl
  | succ n ih => rw [tabulate_succ, scaleLanes, ih, tabulate_succ]

theorem sums_tabulate : sums R d s (tabulate f s n) (tabulate g (s + t) n)
    = tabulate (fun k => R.add (k :: d) (f k) (g (k + t))) s n := by
  induction n generalizing s with
  | zero => rfl
  | succ n ih => rw [tabulate_succ, tabulate_succ, sums, Nat.add_right_comm, ih, tabulate_succ]

theorem diffs_tabulate : diffs R d (s + t) (tabulate f s n) (tabulate g (s + t) n)
    = tabulate (fun k => R.sub (k :: d) (f (k - t)) (g k)) (s + t) n := by
  induction n generalizing s with
  | zero => rfl
  | succ n ih =>
    rw [tabulate_succ, tabulate_succ, diffs, Nat.add_right_comm, ih, Nat.add_right_comm, tabulate_succ,
      Nat.add_sub_cancel]

/-- Lane k of block u of a stage with pair distance t. -/
theorem block_index {u k : Nat} (hs : 2 * u * t ≤ k) (hk : k < 2 * u * t + 2 * t) :
    k / (2 * t) = u ∧ k % (2 * t) = k - 2 * u * t := by
  have e : 2 * t * u = 2 * u * t := by ring
  have hlt : k - 2 * t * u < 2 * t := by omega
  have hk' : k = 2 * t * u + (k - 2 * t * u) := by omega
  rw [← e]
  constructor
  · rw [hk', Nat.mul_add_div (by omega), Nat.div_eq_of_lt hlt, Nat.add_zero]
  · conv_lhs => rw [hk', Nat.mul_add_mod, Nat.mod_eq_of_lt hlt]

/-- The upper lane of a pair lies t lanes above the lower one, in the same block. -/
theorem upper_of_lower {t i : Nat} (hi : i % (2 * t) < t) :
    (i + t) / (2 * t) = i / (2 * t) ∧ (i + t) % (2 * t) = i % (2 * t) + t := by
  rw [Nat.div_mod_unique (by omega)]
  have := Nat.div_add_mod i (2 * t)
  omega

/-- A lane that is not the lower one of its pair is the upper one. -/
theorem exists_lower {t k : Nat} (ht : 0 < t) (hk : ¬ k % (2 * t) < t) : ∃ i, k = i + t ∧ i % (2 * t) < t := by
  have hm := Nat.mod_lt k (by omega : 0 < 2 * t)
  have hd := Nat.div_add_mod k (2 * t)
  have hi : (k - t) % (2 * t) = k % (2 * t) - t :=
    ((Nat.div_mod_unique (a := k - t) (d := k / (2 * t)) (by omega)).2 (by omega)).2
  exact ⟨k - t, by omega, by omega⟩

/-- The parts of the lanes from block u on that a stage works on: the halves of block u, and the blocks after it. -/
theorem parts_tabulate (u m : Nat) {c : List α} (hc : c = tabulate f (2 * u * t) ((m + 1) * (2 * t))) :
    c.take t = tabulate f (2 * u * t) t ∧ (c.drop t).take t = tabulate f (2 * u * t + t) t
      ∧ c.drop (2 * t) = tabulate f (2 * (u + 1) * t) (m * (2 * t)) := by
  have pairs : (m + 1) * (2 * t) = t + (t + m * (2 * t)) := by ring
  have blocks : (m + 1) * (2 * t) = 2 * t + m * (2 * t) := by ring
  have next : 2 * (u + 1) * t = 2 * u * t + 2 * t := by ring
  refine ⟨?_, ?_, ?_⟩
  · rw [hc, pairs, take_tabulate]
  · rw [hc, pairs, drop_tabulate, take_tabulate]
  · rw [hc, blocks, drop_tabulate, next]

/-- The lanes from block u on, put together from what the butterflies make of the lower and of the upper lanes of
block u, and the blocks after it. -/
theorem append_tabulate {lane lower upper : Nat → α} (u m : Nat)
    (hlow : ∀ k, k / (2 * t) = u → k % (2 * t) < t → lower k = lane k)
    (hupp : ∀ k, k / (2 * t) = u → ¬ k % (2 * t) < t → upper k = lane k) :
    tabulate lower (2 * u * t) t ++ tabulate upper (2 * u * t + t) t
        ++ tabulate lane (2 * (u + 1) * t) (m * (2 * t))
      = tabulate lane (2 * u * t) ((m + 1) * (2 * t)) := by
  have blocks : (m + 1) * (2 * t) = (t + t) + m * (2 * t) := by ring
  have next : 2 * (u + 1) * t = 2 * u * t + (t + t) := by ring
  rw [blocks, tabulate_add, tabulate_add lane _ t t, next]
  congr 2
  · refine tabulate_congr fun k hs hk => ?_
    obtain ⟨hu, hm⟩ := block_index t hs (by omega)
    exact hlow k hu (by omega)
  · refine tabulate_congr fun k hs hk => ?_
    obtain ⟨hu, hm⟩ := block_index t (u := u) (k := k) (by omega) (by omega)
    exact hupp k hu (by omega)

/-- One stage of R105. -/
theorem fwdStage_tabulate (twf : Nat → α) (m u : Nat) :
    fwdStage R twf t d m u (tabulate f (2 * u * t) (m * (2 * t)))
      = tabulate (fwdLane R twf t d f) (2 * u * t) (m * (2 * t)) := by
  induction m generalizing u with
  | zero => rw [fwdStage, Nat.zero_mul, tabulate_zero]
  | succ m ih =>
    obtain ⟨lower, upper, rest⟩ := parts_tabulate f t u m rfl
    simp only [fwdStage, lower, upper, rest, mulRoots_tabulate, sums_tabulate, diffs_tabulate, ih]
    refine append_tabulate t u m (fun k hu hk => ?_) fun k hu hk => ?_
    · rw [fwdLane, if_pos hk, hu]
    · rw [fwdLane, if_neg hk, hu]

/-- One stage of R107. -/
theorem invStage_tabulate (twi : Nat → α) (m u : Nat) :
    invStage R twi t d m u (tabulate f (2 * u * t) (m * (2 * t)))
      = tabulate (invLane R twi t d f) (2 * u * t) (m * (2 * t)) := by
  induction m generalizing u with
  | zero => rw [invStage, Nat.zero_mul, tabulate_zero]
  | succ m ih =>
    obtain ⟨lower, upper, rest⟩ := parts_tabulate f t u m rfl
    simp only [invStage, lower, upper, rest, mulRoots_tabulate, sums_tabulate, diffs_tabulate, ih]
    refine append_tabulate t u m (fun k hu hk => ?_) fun k hu hk => ?_
    · rw [invLane, if_pos hk]
    · rw [invLane, if_neg hk, hu]

/-- The stages of R105: with `l` stages left the lanes are 2^done blocks of 2^l. -/
theorem fwdStages_tabulate (twf : Nat → α) (l done : Nat) :
    fwdStages R twf d l done (tabulate f 0 (2 ^ (done + l)))
      = tabulate (fwdLoop R twf d l done f) 0 (2 ^ (done + l)) := by
  induction l generalizing done f with
  | zero => rfl
  | succ l ih =>
    have blocks : 2 ^ (done + (l + 1)) = 2 ^ done * (2 * 2 ^ l) := by ring
    have stage := fwdStage_tabulate R f ((done + 1) :: d) (2 ^ l) twf (2 ^ done) 0
    rw [← blocks, Nat.mul_zero, Nat.zero_mul] at stage
    rw [fwdStages, stage, ← Nat.add_assoc, Nat.add_right_comm]
    exact ih _ (done + 1)

/-- The stages read the lanes they work on only. -/
theorem fwdLoop_congr (twf : Nat → α) (l : Nat) {c c' : Nat → α} (h : ∀ k, k < 2 ^ l → c k = c' k) {k : Nat}
    (hk : k < 2 ^ l) : fwdLoop R twf d l 0 c k = fwdLoop R twf d l 0 c' k := by
  rw [← Nat.zero_add l] at hk
  refine eq_of_tabulate_eq ?_ hk
  rw [← fwdStages_tabulate, ← fwdStages_tabulate, Nat.zero_add]
  exact congrArg _ (tabulate_congr fun k _ hk => h k (by omega))

/-- The stages of R107: after `done` stages the lanes are 2^l blocks of 2^done. -/
theorem invStages_tabulate (twi : Nat → α) (l done : Nat) :
    invStages R twi d l done (tabulate f 0 (2 ^ (done + l)))
      = tabulate (invLoop R twi d l done f) 0 (2 ^ (done + l)) := by
  induction l generalizing done f with
  | zero => rfl
  | succ l ih =>
    have blocks : 2 ^ (done + (l + 1)) = 2 ^ l * (2 * 2 ^ done) := by ring
    have stage := invStage_tabulate R f ((done + 1) :: d) (2 ^ done) twi (2 ^ l) 0
    rw [← blocks, Nat.mul_zero, Nat.zero_mul] at stage
    rw [invStages, stage, ← Nat.add_assoc, Nat.add_right_comm]
    exact ih _ (done + 1)

theorem fwdTransform_tabulate (twist twf : Nat → α) (logn : Nat) :
    fwdTransform R twist twf logn d (tabulate f 0 (2 ^ (logn - 1)))
      = tabulate (forwardLane R twist twf logn d f) 0 (2 ^ (logn - 1)) := by
  have stages := fwdStages_tabulate R (fun j => R.mul (j :: 0 :: d) (f j) (twist j)) d twf (logn - 1) 0
  rw [Nat.zero_add] at stages
  rw [fwdTransform, mulRoots_tabulate, stages]
  rfl

theorem invTransform_tabulate (untwist twi : Nat → α) (scale : Draw → α → α) (logn : Nat) :
    invTransform R untwist twi scale logn d (tabulate f 0 (2 ^ (logn - 1)))
      = tabulate (inverseLane R untwist twi scale logn d f) 0 (2 ^ (logn - 1)) := by
  have stages := invStages_tabulate R f d twi (logn - 1) 0
  rw [Nat.zero_add] at stages
  rw [invTransform, stages, scaleLanes_tabulate, mulRoots_tabulate]
  rfl

end

/-! ## The float layer -/

theorem degree_eq_two_halves {logn : Nat} (hl : 1 ≤ logn) : 2 ^ logn = 2 ^ (logn - 1) + 2 ^ (logn - 1) := by
  rw [← mul_two, ← pow_succ, Nat.sub_add_cancel hl]

/-- Lane j of the fold pairs coefficient j with coefficient j + n (R103). -/
theorem fold_tabulate (n : Nat) (v : Nat → Int) :
    fold n (tabulate v 0 (n + n)) = tabulate (fun j => ⟨i2f (v j), i2f (v (j + n))⟩) 0 n := by
  rw [fold, take_tabulate, drop_tabulate, tabulate_shift, zipWith_tabulate]

/-- R103 to R105. -/
theorem fwdFloatInt_tabulate {logn : Nat} (hl : 1 ≤ logn) (d : Draw) (v : Nat → Int) :
    fwdFloatInt logn d (tabulate v 0 (2 ^ logn)) = tabulate (floatForward logn d v) 0 (2 ^ (logn - 1)) := by
  rw [fwdFloatInt, degree_eq_two_halves hl, fold_tabulate, fwdTransform_tabulate]
  rfl

/-- R107 and R108. -/
theorem invFloatZ_tabulate {logn : Nat} (hl : 1 ≤ logn) (d : Draw) (c : Nat → Cplx) :
    invFloatZ logn d (tabulate c 0 (2 ^ (logn - 1))) = tabulate (floatInverse logn d c) 0 (2 ^ logn) := by
  rw [invFloatZ, invLanes, invTransform_tabulate, degree_eq_two_halves hl, tabulate_add]
  rw [tabulate_shift, map_tabulate, map_tabulate]
  congr 1
  · exact tabulate_congr fun j _ hj => (if_pos (by omega)).symm
  · exact tabulate_congr fun j _ _ => by rw [floatInverse, if_neg (by omega), Nat.add_sub_cancel]

theorem storeAll_tabulate (W : Nat) (d : Draw) (z : Nat → Option Int) (s n : Nat) :
    storeAll W d s (tabulate z s n) = tabulate (fun j => storeRounded W (j :: d) (z j)) s n := by
  induction n generalizing s with
  | zero => rfl
  | succ n ih => rw [tabulate_succ, storeAll, ih, tabulate_succ]

/-! ## FFT and IFFT -/

/-- FFT on ready operands (R106). -/
theorem exec_fft_of_ready {s : State} (hi : s.Inv) {fd : FreqSlot} {pa : PolySlot}
    (hr : s.ready ⟨.freq fd, false, [.poly pa]⟩ = true) :
    ∃ t, exec (.fft fd pa) s = .next t ∧ FreqWritten s t fd (floatForward s.conf.log s.draw (s.value pa)) := by
  obtain ⟨hlen, -⟩ := hi.coefs_of_holds (State.holds_of_ready hr List.mem_cons_self)
  have values : (s.coefs pa).map (val s.conf.width s.conf.sgn) = tabulate (s.value pa) 0 (2 ^ s.conf.log) := by
    conv_lhs => rw [← tabulate_getD (s.coefs pa) 0, map_tabulate, hlen]
    rfl
  refine ⟨_, ringCommand_of_ready hr _, freqWritten_of_list_draw ?_⟩
  rw [values, fwdFloatInt_tabulate (hi.log_bounds (State.cfgd_of_ready hr)).1, tabulate_start]
  rfl

/-- Settles O34: the network on lists leaves in each lane what the loops leave in it. -/
theorem fftResult : Obligations.FftResult := by
  unfold Obligations.FftResult
  exact fun s fd pa hi hr => exec_fft_of_ready hi hr

/-- IFFT on ready operands (R109). -/
theorem exec_ifft_of_ready {s : State} (hi : s.Inv) {pd : PolySlot} {fa : FreqSlot}
    (hr : s.ready ⟨.poly pd, false, [.freq fa]⟩ = true) :
    ∃ t, exec (.ifft pd fa) s = .next t ∧ PolyWritten s t pd fun j =>
      storeRounded s.conf.width (j :: 300 :: s.draw) (floatInverse s.conf.log s.draw (s.lane fa) j) := by
  have hlen := hi.lanes_of_holds (State.holds_of_ready hr List.mem_cons_self)
  have lanes : s.lanes fa = tabulate (s.lane fa) 0 (2 ^ (s.conf.log - 1)) := by
    conv_lhs => rw [← tabulate_getD (s.lanes fa) ⟨0, 0⟩, hlen]
    rfl
  refine ⟨_, ringCommand_of_ready hr _, polyWritten_of_list_draw ?_⟩
  rw [lanes, invFloatZ_tabulate (hi.log_bounds (State.cfgd_of_ready hr)).1, storeAll_tabulate, tabulate_start]
  rfl

/-- Settles O35: the same for the inverse network; `storeRounded` is the statement's case split on ⊥. -/
theorem ifftResult : Obligations.IfftResult := by
  unfold Obligations.IfftResult
  intro s pd fa hi hr
  obtain ⟨t, ht, hw⟩ := exec_ifft_of_ready hi hr
  refine ⟨t, ht, ?_⟩
  convert hw using 2 with j
  cases floatInverse s.conf.log s.draw (s.lane fa) j <;> rfl

end Sys2Proof.Machine
end

section
/-! PROOFS. The butterfly networks carry any relation of lanes that the lane operations keep; with that, the transforms
do not depend on the draws, up to the patterns of NaN results (U13). -/

namespace Sys2Proof.Machine

/-! ## Relations of lanes -/

/-- The lane operations keep the relation, whichever draws they take. -/
structure LaneOps.Keeps {α : Type} (R : LaneOps α) (rel : α → α → Prop) : Prop where
  /-- sums of related lanes are related -/
  add : ∀ d d' x x' y y', rel x x' → rel y y' → rel (R.add d x y) (R.add d' x' y')
  /-- differences -/
  sub : ∀ d d' x x' y y', rel x x' → rel y y' → rel (R.sub d x y) (R.sub d' x' y')
  /-- products with one root -/
  mul : ∀ d d' x x' w, rel x x' → rel (R.mul d x w) (R.mul d' x' w)

/-- The differences are the sums of the arithmetic whose addition is the subtraction. -/
theorem diffs_eq_sums {α : Type} (R : LaneOps α) (d : Draw) (j : Nat) (U V : List α) :
    diffs R d j U V = sums { R with add := R.sub } d j U V := by
  induction U generalizing j V with
  | nil => rfl
  | cons x U ih =>
    cases V with
    | nil => rfl
    | cons y V => exact congrArg _ (ih (j + 1) V)

section
variable {α : Type} {R : LaneOps α} {rel : α → α → Prop} (h : R.Keeps rel)
include h

theorem forall₂_mulRoots (root : Nat → α) (d d' : Draw) (j : Nat) {c c' : List α} (hc : List.Forall₂ rel c c') :
    List.Forall₂ rel (mulRoots R root d j c) (mulRoots R root d' j c') := by
  induction hc generalizing j with
  | nil => exact .nil
  | cons hx _ ih => exact .cons (h.mul _ _ _ _ _ hx) (ih (j + 1))

theorem forall₂_sums (d d' : Draw) (j : Nat) {U U' V V' : List α} (hU : List.Forall₂ rel U U')
    (hV : List.Forall₂ rel V V') : List.Forall₂ rel (sums R d j U V) (sums R d' j U' V') := by
  induction hU generalizing j V V' with
  | nil => cases hV <;> exact .nil
  | cons hx _ ih =>
    cases hV with
    | nil => exact .nil
    | cons hy hV => exact .cons (h.add _ _ _ _ _ _ hx hy) (ih (j + 1) hV)

theorem forall₂_diffs (d d' : Draw) (j : Nat) {U U' V V' : List α} (hU : List.Forall₂ rel U U')
    (hV : List.Forall₂ rel V V') : List.Forall₂ rel (diffs R d j U V) (diffs R d' j U' V') := by
  rw [diffs_eq_sums, diffs_eq_sums]
  exact forall₂_sums (R := { R with add := R.sub }) ⟨h.sub, h.sub, h.mul⟩ d d' j hU hV

theorem forall₂_fwdStage (twf : Nat → α) (t : Nat) (d d' : Draw) (m u : Nat) {c c' : List α}
    (hc : List.Forall₂ rel c c') : List.Forall₂ rel (fwdStage R twf t d m u c) (fwdStage R twf t d' m u c') := by
  induction m generalizing u c c' with
  | zero => exact .nil
  | succ m ih =>
    have lower := List.forall₂_take t hc
    have upper := forall₂_mulRoots h (fun _ => twf u) (0 :: d) (0 :: d') (2 * u * t + t)
      (List.forall₂_take t (List.forall₂_drop t hc))
    exact List.rel_append (List.rel_append (forall₂_sums h _ _ _ lower upper) (forall₂_diffs h _ _ _ lower upper))
      (ih (u + 1) (List.forall₂_drop (2 * t) hc))

theorem forall₂_fwdStages (twf : Nat → α) (d d' : Draw) (l done : Nat) {c c' : List α}
    (hc : List.Forall₂ rel c c') : List.Forall₂ rel (fwdStages R twf d l done c) (fwdStages R twf d' l done c') := by
  induction l generalizing done c c' with
  | zero => exact hc
  | succ l ih => exact ih (done + 1) (forall₂_fwdStage h twf _ _ _ _ 0 hc)

theorem forall₂_fwdTransform (twist twf : Nat → α) (logn : Nat) (d d' : Draw) {c c' : List α}
    (hc : List.Forall₂ rel c c') :
    List.Forall₂ rel (fwdTransform R twist twf logn d c) (fwdTransform R twist twf logn d' c') :=
  forall₂_fwdStages h twf d d' _ 0 (forall₂_mulRoots h twist _ _ 0 hc)

theorem forall₂_invStage (twi : Nat → α) (t : Nat) (d d' : Draw) (m u : Nat) {c c' : List α}
    (hc : List.Forall₂ rel c c') : List.Forall₂ rel (invStage R twi t d m u c) (invStage R twi t d' m u c') := by
  induction m generalizing u c c' with
  | zero => exact .nil
  | succ m ih =>
    have lower := List.forall₂_take t hc
    have upper := List.forall₂_take t (List.forall₂_drop t hc)
    exact List.rel_append (List.rel_append (forall₂_sums h _ _ _ lower upper)
      (forall₂_mulRoots h _ _ _ _ (forall₂_diffs h _ _ _ lower upper))) (ih (u + 1) (List.forall₂_drop (2 * t) hc))

theorem forall₂_invStages (twi : Nat → α) (d d' : Draw) (l done : Nat) {c c' : List α}
    (hc : List.Forall₂ rel c c') : List.Forall₂ rel (invStages R twi d l done c) (invStages R twi d' l done c') := by
  induction l generalizing done c c' with
  | zero => exact hc
  | succ l ih => exact ih (done + 1) (forall₂_invStage h twi _ _ _ _ 0 hc)

theorem forall₂_invTransform (untwist twi : Nat → α) {scale : Draw → α → α}
    (hs : ∀ d d' x x', rel x x' → rel (scale d x) (scale d' x')) (logn : Nat) (d d' : Draw) {c c' : List α}
    (hc : List.Forall₂ rel c c') :
    List.Forall₂ rel (invTransform R untwist twi scale logn d c) (invTransform R untwist twi scale logn d' c') := by
  have scaled : ∀ (j : Nat) {c c' : List α}, List.Forall₂ rel c c' →
      List.Forall₂ rel (scaleLanes scale (100 :: d) j c) (scaleLanes scale (100 :: d') j c') := fun j _ _ hc => by
    induction hc generalizing j with
    | nil => exact .nil
    | cons hx _ ih => exact .cons (hs _ _ _ _ hx) (ih (j + 1))
  exact forall₂_mulRoots h untwist _ _ 0 (scaled 0 (forall₂_invStages h twi d d' _ 0 hc))

end

/-! ## Equality up to the patterns of NaNs -/

theorem SameNumber.refl (x : F64) : SameNumber x x := .inl rfl

theorem SameNumber.fneg {x x' : F64} (h : SameNumber x x') : SameNumber (fneg x) (fneg x') := by
  rcases h with rfl | ⟨hx, hx'⟩
  · exact .refl _
  · exact .inr ⟨(isNaN_fneg x).trans hx, (isNaN_fneg x').trans hx'⟩

theorem sameNumber_anyNaN (d d' : Draw) : SameNumber (anyNaN d) (anyNaN d') := .inr ⟨isNaN_anyNaN d, isNaN_anyNaN d'⟩

/-- A sum is the free NaN of its draw under every draw, or the same under all. -/
theorem fadd_draw (x y : F64) : (∀ d, fadd d x y = anyNaN d) ∨ ∀ d d', fadd d x y = fadd d' x y := by
  by_cases nan : isNaN x = true ∨ isNaN y = true
  · exact .inl fun d => fadd_of_isNaN d nan
  have hx : isNaN x = false := by simpa using (not_or.1 nan).1
  have hy : isNaN y = false := by simpa using (not_or.1 nan).2
  by_cases inf : isInf x = true
  · by_cases clash : (isInf y && fsign x != fsign y) = true
    · exact .inl fun d => by rw [fadd_of_isInf_left d inf hy, if_pos clash]
    · exact .inr fun d d' => by
        rw [fadd_of_isInf_left d inf hy, fadd_of_isInf_left d' inf hy, if_neg clash, if_neg clash]
  · exact .inr fun d d' => by simp only [fadd, if_neg inf, hx, hy, Bool.or_self, Bool.false_eq_true, if_false]

/-- The same of a product. -/
theorem fmul_draw (x y : F64) : (∀ d, fmul d x y = anyNaN d) ∨ ∀ d d', fmul d x y = fmul d' x y := by
  by_cases nan : isNaN x = true ∨ isNaN y = true
  · exact .inl fun d => fmul_of_isNaN d nan
  have hx : isNaN x = false := by simpa using (not_or.1 nan).1
  have hy : isNaN y = false := by simpa using (not_or.1 nan).2
  by_cases inf : isInf x = true ∨ isInf y = true
  · by_cases zero : (fsig x = 0 || fsig y = 0) = true
    · exact .inl fun d => by rw [fmul_of_isInf d hx hy inf, if_pos zero]
    · exact .inr fun d d' => by rw [fmul_of_isInf d hx hy inf, fmul_of_isInf d' hx hy inf, if_neg zero, if_neg zero]
  · obtain ⟨hx', hy'⟩ := not_or.1 inf
    have fx : isFinite x = true := isFinite_iff.2 ⟨hx, by simpa using hx'⟩
    have fy : isFinite y = true := isFinite_iff.2 ⟨hy, by simpa using hy'⟩
    exact .inr fun d d' => by rw [fmul_of_isFinite d fx fy, fmul_of_isFinite d' fx fy]

/-- An operation that answers the free NaN of its draw on every NaN, and otherwise depends on the draw only where it
answers that NaN, keeps `SameNumber`. -/
theorem sameNumber_of_draw {op : Draw → F64 → F64 → F64}
    (hnan : ∀ d {x y : F64}, isNaN x = true ∨ isNaN y = true → op d x y = anyNaN d)
    (hdraw : ∀ x y, (∀ d, op d x y = anyNaN d) ∨ ∀ d d', op d x y = op d' x y) (d d' : Draw) {x x' y y' : F64}
    (hx : SameNumber x x') (hy : SameNumber y y') : SameNumber (op d x y) (op d' x' y') := by
  rcases hx with rfl | ⟨hx, hx'⟩
  · rcases hy with rfl | ⟨hy, hy'⟩
    · rcases hdraw x y with h | h
      · rw [h, h]; exact sameNumber_anyNaN d d'
      · exact .inl (h d d')
    · rw [hnan d (.inr hy), hnan d' (.inr hy')]; exact sameNumber_anyNaN d d'
  · rw [hnan d (.inl hx), hnan d' (.inl hx')]; exact sameNumber_anyNaN d d'

section
variable (d d' : Draw) {x x' y y' : F64} (hx : SameNumber x x') (hy : SameNumber y y')
include hx hy

theorem sameNumber_fadd : SameNumber (fadd d x y) (fadd d' x' y') :=
  sameNumber_of_draw fadd_of_isNaN fadd_draw d d' hx hy

theorem sameNumber_fsub : SameNumber (fsub d x y) (fsub d' x' y') := sameNumber_fadd d d' hx hy.fneg

theorem sameNumber_fmul : SameNumber (fmul d x y) (fmul d' x' y') :=
  sameNumber_of_draw fmul_of_isNaN fmul_draw d d' hx hy

end

/-- `f2z` has no value on a NaN. -/
theorem f2z_congr {x x' : F64} (h : SameNumber x x') : f2z x = f2z x' := by
  have none_of_nan : ∀ {y : F64}, isNaN y = true → f2z y = none := fun {y} hy => by
    have hf : isFinite y = false := by
      by_contra hf
      simp [(isFinite_iff.1 (by simpa using hf)).1] at hy
    rw [f2z, hf, Bool.false_and, if_neg Bool.false_ne_true]
  rcases h with rfl | ⟨hx, hx'⟩
  · rfl
  · rw [none_of_nan hx, none_of_nan hx']

/-- Both parts are equal up to the patterns of NaNs. -/
def SameLane (a b : Cplx) : Prop := SameNumber a.re b.re ∧ SameNumber a.im b.im

theorem SameLane.refl (a : Cplx) : SameLane a a := ⟨.refl _, .refl _⟩

theorem floatOps_keeps_sameLane : floatOps.Keeps SameLane where
  add _ _ _ _ _ _ hx hy := ⟨sameNumber_fadd _ _ hx.1 hy.1, sameNumber_fadd _ _ hx.2 hy.2⟩
  sub _ _ _ _ _ _ hx hy := ⟨sameNumber_fsub _ _ hx.1 hy.1, sameNumber_fsub _ _ hx.2 hy.2⟩
  mul _ _ _ _ _ hx := by
    have product := fun (d d' : Draw) {x x' : F64} (h : SameNumber x x') (y : F64) => sameNumber_fmul d d' h (.refl y)
    exact ⟨sameNumber_fsub _ _ (product _ _ hx.1 _) (product _ _ hx.2 _),
      sameNumber_fadd _ _ (product _ _ hx.1 _) (product _ _ hx.2 _)⟩

theorem sameLane_cscale (d d' : Draw) {x x' : Cplx} (h : SameLane x x') (k : Nat) :
    SameLane (cscale d x k) (cscale d' x' k) :=
  ⟨sameNumber_fmul _ _ h.1 (.refl _), sameNumber_fmul _ _ h.2 (.refl _)⟩

theorem map_eq_of_forall₂ {α β : Type} {rel : α → α → Prop} {f : α → β} (hf : ∀ a b, rel a b → f a = f b)
    {l l' : List α} (h : List.Forall₂ rel l l') : l.map f = l'.map f := by
  induction h with
  | nil => rfl
  | cons hx _ ih => rw [List.map_cons, List.map_cons, hf _ _ hx, ih]

/-- Settles O44: every operation of the networks keeps `SameLane`, and `f2z` has no value on a NaN. -/
theorem transformsAreDeterministic : Obligations.TransformsAreDeterministic := by
  unfold Obligations.TransformsAreDeterministic
  refine ⟨fun logn d d' z => ?_, fun logn d d' Y Y' hY => ?_⟩
  · exact forall₂_fwdTransform floatOps_keeps_sameLane _ _ logn d d' (List.forall₂_same.2 fun c _ => .refl c)
  · have lanes : List.Forall₂ SameLane (invLanes logn d Y) (invLanes logn d' Y') :=
      forall₂_invTransform floatOps_keeps_sameLane _ _ (fun _ _ _ _ h => sameLane_cscale _ _ h _) logn d d' hY
    rw [invFloatZ, invFloatZ]
    exact congrArg₂ _ (map_eq_of_forall₂ (fun _ _ h => f2z_congr h.1) lanes)
      (map_eq_of_forall₂ (fun _ _ h => f2z_congr h.2) lanes)

end Sys2Proof.Machine
end

section
/-! PROOFS. The exact layer (R100, R102, R109): over any commutative ring in which −1 is the 2^(L−1)-th power of ω, the
loops evaluate a polynomial at the powers of ω in bit-reversed order, and back. -/

namespace Sys2Proof.Machine

/-! ## Bit reversal (R9) -/

/-- One more bit, which is not set, appends a zero. -/
theorem brev_succ_of_lt {k i : Nat} (h : i < 2 ^ k) : brev (k + 1) i = 2 * brev k i := by
  induction k generalizing i with
  | zero =>
    obtain rfl : i = 0 := by omega
    rfl
  | succ k ih => rw [brev_succ, ih (by omega), brev_succ k]; ring

@[simp] theorem brev_of_zero (k : Nat) : brev k 0 = 0 := by
  induction k with
  | zero => rfl
  | succ k ih => rw [brev_succ, Nat.zero_div, ih, Nat.zero_mod, Nat.zero_mul]

theorem brev_two_mul (k i : Nat) : brev (k + 1) (2 * i) = brev k i := by
  rw [brev_succ, Nat.mul_mod_right, Nat.zero_mul, Nat.zero_add, Nat.mul_div_cancel_left _ two_pos]

theorem brev_two_mul_add_one (k i : Nat) : brev (k + 1) (2 * i + 1) = 2 ^ k + brev k i := by
  rw [brev_succ, show (2 * i + 1) % 2 = 1 by omega, Nat.one_mul, show (2 * i + 1) / 2 = i by omega]

/-! ## The forward loop -/

section
variable {A : Type} [CommRing A] {ω : A} {M : Nat} (hω : ω ^ 2 ^ M = -1)
include hω

theorem pow_two_pow_succ : ω ^ 2 ^ (M + 1) = 1 := by rw [pow_succ, pow_mul, hω, neg_one_sq]

/-- Squaring a power with bit-reversed exponent drops the lowest bit of the index. -/
theorem pow_brev_sq {k : Nat} (hk : k < 2 ^ (M + 1)) : (ω ^ brev (M + 1) k) ^ 2 = ω ^ brev (M + 1) (k / 2) := by
  have half : k / 2 < 2 ^ M := by rw [pow_succ] at hk; omega
  have exponent : brev (M + 1) k * 2 = 2 ^ (M + 1) * (k % 2) + brev (M + 1) (k / 2) := by
    rw [brev_succ_of_lt half, brev_succ]; ring
  rw [← pow_mul, exponent, pow_add, pow_mul, pow_two_pow_succ hω, one_pow, one_mul]

theorem pow_brev_two_pow {l k : Nat} (hk : k < 2 ^ (M + 1)) :
    (ω ^ brev (M + 1) k) ^ 2 ^ l = ω ^ brev (M + 1) (k / 2 ^ l) := by
  induction l with
  | zero => simp
  | succ l ih =>
    rw [pow_succ, pow_mul, ih, pow_brev_sq hω ((Nat.div_le_self ..).trans_lt hk), Nat.div_div_eq_div_mul]

/-- The root of a block of 2^(l+1) lanes and its negative are the roots of the two halves (R102). -/
theorem pow_brev_half {l k : Nat} (hk : k < 2 ^ (M + 1)) :
    (ω ^ brev (M + 1) k) ^ 2 ^ l = (-1) ^ (k / 2 ^ l % 2) * ω ^ brev M (k / 2 ^ (l + 1)) := by
  rw [pow_brev_two_pow hω hk, brev_succ, pow_add, mul_comm (_ % 2), pow_mul, hω, Nat.div_div_eq_div_mul, ← pow_succ]

end

/-- The lanes of the half-block of lane k before and after a stage with pair distance 2^l. -/
theorem fwdLane_exact {A : Type} [CommRing A] (twf : Nat → A) (d : Draw) (c : Nat → A) (l k q : Nat) (hq : q < 2 ^ l) :
    fwdLane (exactOps A) twf (2 ^ l) d c (k / 2 ^ l * 2 ^ l + q)
      = c (k / 2 ^ (l + 1) * 2 ^ (l + 1) + q)
        + (-1) ^ (k / 2 ^ l % 2) * twf (k / 2 ^ (l + 1)) * c (k / 2 ^ (l + 1) * 2 ^ (l + 1) + (2 ^ l + q)) := by
  have block : k / 2 ^ (l + 1) = k / 2 ^ l / 2 := by rw [pow_succ, Nat.div_div_eq_div_mul]
  rw [block, pow_succ]
  generalize k / 2 ^ l = b
  generalize 2 ^ l = t at hq ⊢
  obtain ⟨u, rfl | rfl⟩ := Nat.even_or_odd' b
  · have at_u : u * (t * 2) = 2 * u * t := by ring
    obtain ⟨hu, hm⟩ := block_index t (u := u) (k := 2 * u * t + q) (by omega) (by omega)
    rw [fwdLane, if_pos (by omega), hu, Nat.mul_mod_right, Nat.mul_div_cancel_left u two_pos, at_u]
    simp only [exactOps]
    ring_nf
  · have at_u : u * (t * 2) = 2 * u * t := by ring
    have at_k : (2 * u + 1) * t + q = 2 * u * t + (t + q) := by ring
    obtain ⟨hu, hm⟩ := block_index t (u := u) (k := (2 * u + 1) * t + q) (by omega) (by omega)
    rw [fwdLane, if_neg (by omega), hu, show (2 * u + 1) % 2 = 1 by omega, show (2 * u + 1) / 2 = u by omega, at_u,
      at_k, show 2 * u * t + (t + q) - t = 2 * u * t + q by omega]
    simp only [exactOps]
    ring_nf

/-- The stages that are left evaluate the polynomial of a block at the root of each of its lanes. -/
theorem fwdLoop_exact {A : Type} [CommRing A] {ω : A} {twf : Nat → A} {M : Nat} (hω : ω ^ 2 ^ M = -1)
    (ht : ∀ u, twf u = ω ^ brev M u) (d : Draw) (l done : Nat) (c : Nat → A) {k : Nat} (hk : k < 2 ^ (M + 1)) :
    fwdLoop (exactOps A) twf d l done c k
      = ∑ q ∈ Finset.range (2 ^ l), c (k / 2 ^ l * 2 ^ l + q) * (ω ^ brev (M + 1) k) ^ q := by
  induction l generalizing done c with
  | zero => simp [fwdLoop]
  | succ l ih =>
    have halves : Finset.range (2 ^ (l + 1)) = Finset.range (2 ^ l + 2 ^ l) := by rw [pow_succ, mul_two]
    rw [fwdLoop, ih, halves, Finset.sum_range_add, ← Finset.sum_add_distrib]
    refine Finset.sum_congr rfl fun q hq => ?_
    rw [fwdLane_exact _ _ _ _ _ _ (Finset.mem_range.1 hq), ht, ← pow_brev_half hω hk, pow_add _ (2 ^ l) q]
    ring

/-! ## The inverse loop -/

/-- The pairs of a stage with pair distance t, by the lane of the pair that j names within its block. -/
theorem invLane_exact {A : Type} [CommRing A] (twi : Nat → A) (d : Draw) (c : Nat → A) {t : Nat} (ht : 0 < t)
    (b j : Nat) :
    invLane (exactOps A) twi t d c (b * (t * 2) + j % (t * 2))
      = twi b ^ (j / t % 2) * (c (2 * b * t + j % t) + (-1) ^ (j / t % 2) * c ((2 * b + 1) * t + j % t)) := by
  have at_b : b * (t * 2) = 2 * b * t := by ring
  have upper : (2 * b + 1) * t = 2 * b * t + t := by ring
  have hlt : j % t < t := Nat.mod_lt j ht
  rw [Nat.mod_mul, at_b, upper]
  rcases Nat.mod_two_eq_zero_or_one (j / t) with h | h
  · obtain ⟨hb, hm⟩ := block_index t (u := b) (k := 2 * b * t + j % t) (by omega) (by omega)
    rw [h, Nat.mul_zero, Nat.add_zero, invLane, if_pos (by omega)]
    simp only [exactOps]
    ring_nf
  · obtain ⟨hb, hm⟩ := block_index t (u := b) (k := 2 * b * t + (j % t + t * 1)) (by omega) (by omega)
    rw [h, invLane, if_neg (by omega), hb, show 2 * b * t + (j % t + t * 1) - t = 2 * b * t + j % t by omega]
    simp only [exactOps]
    ring_nf

theorem sum_range_pairs {A : Type} [CommRing A] (f : Nat → A) (n : Nat) :
    ∑ i ∈ Finset.range (2 * n), f i = ∑ i ∈ Finset.range n, (f (2 * i) + f (2 * i + 1)) := by
  induction n with
  | zero => rfl
  | succ n ih => rw [Nat.mul_succ, Finset.sum_range_succ, Finset.sum_range_succ, ih, Finset.sum_range_succ, add_assoc]

/-- The stages that are left sum over the blocks of 2^done lanes, each at the root of its lanes. -/
theorem invLoop_exact {A : Type} [CommRing A] {ω : A} {twi : Nat → A} {M : Nat} (hω : ω ^ 2 ^ M = -1)
    (ht : ∀ u, twi u = ω ^ brev M u) (d : Draw) (l done : Nat) (hl : done + l = M + 1) (c : Nat → A) {j : Nat}
    (hj : j < 2 ^ (M + 1)) :
    invLoop (exactOps A) twi d l done c j
      = ∑ b ∈ Finset.range (2 ^ l), c (b * 2 ^ done + j % 2 ^ done) * (ω ^ brev (M + 1) b) ^ (j / 2 ^ done) := by
  induction l generalizing done c with
  | zero =>
    obtain rfl : done = M + 1 := by omega
    rw [invLoop, pow_zero, Finset.sum_range_one, Nat.zero_mul, Nat.zero_add, Nat.mod_eq_of_lt hj, brev_of_zero,
      pow_zero, one_pow, mul_one]
  | succ l ih =>
    rw [invLoop, ih (done + 1) (by omega), pow_succ' 2 l, sum_range_pairs]
    refine Finset.sum_congr rfl fun b hb => ?_
    have hb : b < 2 ^ M := (Finset.mem_range.1 hb).trans_le (Nat.pow_le_pow_right two_pos (by omega))
    rw [pow_succ, invLane_exact _ _ _ (Nat.two_pow_pos done), ht, brev_succ_of_lt hb, brev_two_mul,
      brev_two_mul_add_one, pow_add, hω, ← Nat.div_div_eq_div_mul, ← neg_one_pow_eq_pow_mod_two]
    generalize j / 2 ^ done = s
    have parts : (ω ^ brev M b) ^ s = (ω ^ brev M b) ^ (s % 2) * (ω ^ (2 * brev M b)) ^ (s / 2) := by
      rw [mul_comm 2, pow_mul ω, ← pow_mul _ 2, ← pow_add, Nat.mod_add_div]
    rw [mul_pow, parts]
    ring

/-! ## The inverse loop after the forward one -/

theorem invLoop_succ_last {α : Type} (R : LaneOps α) (twi : Nat → α) (d : Draw) (l done : Nat) (c : Nat → α) :
    invLoop R twi d (l + 1) done c
      = invLane R twi (2 ^ (done + l)) ((done + l + 1) :: d) (invLoop R twi d l done c) := by
  induction l generalizing done c with
  | zero => rfl
  | succ l ih => rw [invLoop, ih, invLoop, Nat.add_right_comm done 1 l, Nat.add_assoc done l 1]

/-- One inverse stage undoes one forward stage up to a factor 2 (R107). -/
theorem invLane_fwdLane {A : Type} [CommRing A] {twf twi : Nat → A} (h : ∀ u, twf u * twi u = 1) (d d' : Draw) {t : Nat}
    (ht : 0 < t) (a : A) (c : Nat → A) (k : Nat) :
    invLane (exactOps A) twi t d (fun k => a * fwdLane (exactOps A) twf t d' c k) k = 2 * a * c k := by
  by_cases hk : k % (2 * t) < t
  · obtain ⟨hdiv, hmod⟩ := upper_of_lower hk
    rw [invLane, if_pos hk, fwdLane, if_pos hk, fwdLane, if_neg (by omega), Nat.add_sub_cancel, hdiv]
    simp only [exactOps]
    ring
  · obtain ⟨i, rfl, hi⟩ := exists_lower ht hk
    obtain ⟨hdiv, hmod⟩ := upper_of_lower hi
    rw [invLane, if_neg hk, Nat.add_sub_cancel, fwdLane, if_pos hi, fwdLane, if_neg hk, Nat.add_sub_cancel, hdiv]
    simp only [exactOps]
    linear_combination (2 * a * c (i + t)) * h (i / (2 * t))

theorem invLoop_fwdLoop {A : Type} [CommRing A] {twf twi : Nat → A} (h : ∀ u, twf u * twi u = 1) (d d' : Draw)
    (l done : Nat) (c : Nat → A) :
    invLoop (exactOps A) twi d l 0 (fwdLoop (exactOps A) twf d' l done c) = fun k => 2 ^ l * c k := by
  induction l generalizing done c with
  | zero => simp [invLoop, fwdLoop]
  | succ l ih =>
    rw [fwdLoop, invLoop_succ_last, ih]
    funext k
    rw [Nat.zero_add, invLane_fwdLane h _ _ (Nat.two_pow_pos l), pow_succ']

/-! ## Roots of unity (R10, R100) -/

theorem cis_eq_exp (x : ℝ) : cis x = Complex.exp (x * Complex.I) :=
  Complex.ext (Complex.exp_ofReal_mul_I_re x).symm (Complex.exp_ofReal_mul_I_im x).symm

theorem zeta_zpow (logn : Nat) (m : ℤ) : zeta logn ^ m = cis (Real.pi * m / 2 ^ logn) := by
  rw [zeta, cis_eq_exp, cis_eq_exp, ← Complex.exp_int_mul]
  congr 1
  push_cast
  ring

theorem zeta_ne_zero (logn : Nat) : zeta logn ≠ 0 := by rw [zeta, cis_eq_exp]; exact Complex.exp_ne_zero _

theorem conj_cis (x : ℝ) : (starRingEnd ℂ) (cis x) = (cis x)⁻¹ := by
  rw [cis_eq_exp, ← Complex.exp_neg, ← Complex.exp_conj, map_mul, Complex.conj_ofReal, Complex.conj_I, mul_neg]

/-- ζ^N = −1 (R10). -/
theorem zeta_pow_degree (logn : Nat) : zeta logn ^ (2 ^ logn : ℤ) = -1 := by
  rw [zeta_zpow]
  push_cast
  rw [mul_div_cancel_right₀ _ (by positivity)]
  refine Complex.ext ?_ ?_ <;> simp [cis]

/-- ζ^n = i (R102). -/
theorem zeta_pow_laneCount {logn : Nat} (hl : 1 ≤ logn) : zeta logn ^ (2 ^ (logn - 1) : ℤ) = Complex.I := by
  obtain ⟨L, rfl⟩ : ∃ L, logn = L + 1 := ⟨logn - 1, by omega⟩
  have half : Real.pi * ((2 ^ L : ℤ) : ℝ) / 2 ^ (L + 1) = Real.pi / 2 := by push_cast; rw [pow_succ]; field_simp
  rw [zeta_zpow, Nat.add_sub_cancel, half]
  refine Complex.ext ?_ ?_ <;> simp [cis]

theorem exactTWIST_eq (logn j : Nat) : exactTWIST logn j = zeta logn ^ (j : ℤ) := by
  rw [zeta_zpow, exactTWIST, Int.cast_natCast]

theorem conj_exactTWIST (logn j : Nat) : (starRingEnd ℂ) (exactTWIST logn j) = zeta logn ^ (-(j : ℤ)) := by
  rw [zpow_neg, ← exactTWIST_eq, exactTWIST, conj_cis]

/-- The root cis(S·2π/n) of the transform, with S = −1 (R100). -/
noncomputable def kernelRoot (logn : Nat) : ℂ := zeta logn ^ (-4 : ℤ)

theorem exactTWF_eq {logn : Nat} (hl : 1 ≤ logn) (u : Nat) : exactTWF logn u = kernelRoot logn ^ brev (logn - 2) u := by
  have degree : (2 : ℝ) ^ logn = 2 * 2 ^ (logn - 1) := by rw [← pow_succ', Nat.sub_add_cancel hl]
  rw [exactTWF, kernelRoot, ← zpow_natCast (zeta _ ^ (-4 : ℤ)), ← zpow_mul, zeta_zpow, degree]
  congr 1
  push_cast
  field_simp
  ring

theorem conj_exactTWF {logn : Nat} (hl : 1 ≤ logn) (u : Nat) :
    (starRingEnd ℂ) (exactTWF logn u) = (kernelRoot logn)⁻¹ ^ brev (logn - 2) u := by
  rw [inv_pow, ← exactTWF_eq hl, exactTWF, conj_cis]

theorem exactTWF_mul_conj {logn : Nat} (u : Nat) : exactTWF logn u * (starRingEnd ℂ) (exactTWF logn u) = 1 := by
  rw [exactTWF, conj_cis, cis_eq_exp, mul_inv_cancel₀ (Complex.exp_ne_zero _)]

theorem kernelRoot_pow (M : Nat) : kernelRoot (M + 2) ^ 2 ^ M = -1 := by
  have exponent : (-4 : ℤ) * (2 ^ M : ℕ) = 2 ^ (M + 2) * -1 := by push_cast; ring
  rw [kernelRoot, ← zpow_natCast, ← zpow_mul, exponent, zpow_mul, zeta_pow_degree]
  norm_num

theorem kernelRoot_inv_pow (M : Nat) : (kernelRoot (M + 2))⁻¹ ^ 2 ^ M = -1 := by
  rw [inv_pow, kernelRoot_pow]
  norm_num

/-- The value at which lane k evaluates (R102). -/
theorem zeta_pow_laneExp (logn k : Nat) :
    zeta logn ^ laneExp logn k = zeta logn ^ (1 - 4 * brev (logn - 1) k : ℤ) := by
  have period : zeta logn ^ ((2 ^ (logn + 1) : ℕ) : ℤ) = 1 := by
    push_cast
    rw [pow_succ, zpow_mul, zeta_pow_degree]
    norm_num
  have positive : (0 : ℤ) < (2 ^ (logn + 1) : ℕ) := by positivity
  rw [← zpow_natCast, laneExp, Int.toNat_of_nonneg (Int.emod_nonneg _ positive.ne')]
  conv_rhs => rw [← Int.emod_add_mul_ediv (1 - 4 * brev (logn - 1) k : ℤ) (2 ^ (logn + 1) : ℕ),
    zpow_add₀ (zeta_ne_zero logn), zpow_mul, period, one_zpow, mul_one]

/-- The n-th power of every such value is i (R102). -/
theorem zeta_pow_laneExp_pow {logn : Nat} (hl : 1 ≤ logn) (k : Nat) :
    (zeta logn ^ laneExp logn k) ^ 2 ^ (logn - 1) = Complex.I := by
  have hn : (4 : ℤ) * 2 ^ (logn - 1) = 2 ^ logn * 2 := by
    obtain ⟨L, rfl⟩ : ∃ L, logn = L + 1 := ⟨logn - 1, by omega⟩
    rw [Nat.add_sub_cancel]; ring
  have exponent : (1 - 4 * brev (logn - 1) k : ℤ) * (2 ^ (logn - 1) : ℕ)
      = 2 ^ (logn - 1) + 2 ^ logn * (2 * -(brev (logn - 1) k : ℤ)) := by
    push_cast
    linear_combination (-(brev (logn - 1) k : ℤ)) * hn
  rw [zeta_pow_laneExp, ← zpow_natCast, ← zpow_mul, exponent, zpow_add₀ (zeta_ne_zero logn), zeta_pow_laneCount hl,
    zpow_mul, zeta_pow_degree, zpow_mul]
  norm_num

theorem zeta_mul_kernelRoot (logn k : Nat) :
    zeta logn * kernelRoot logn ^ brev (logn - 1) k = zeta logn ^ laneExp logn k := by
  rw [zeta_pow_laneExp, kernelRoot, ← zpow_natCast, ← zpow_mul, ← zpow_one_add₀ (zeta_ne_zero logn), neg_mul,
    ← sub_eq_add_neg]

/-! ## The exact transforms -/

theorem eq_one_or_two_le {logn : Nat} (hl : 1 ≤ logn) : logn = 1 ∨ ∃ M, logn = M + 2 := by
  rcases Nat.eq_or_lt_of_le hl with h | h
  · exact .inl h.symm
  · exact .inr ⟨logn - 2, by omega⟩

/-- Lane k of the twist and the forward stages over the complex numbers. -/
noncomputable def exactForward (logn : Nat) (c : Nat → ℂ) : Nat → ℂ :=
  forwardLane (exactOps ℂ) (exactTWIST logn) (exactTWF logn) logn [] c

/-- Lane j of the inverse stages, the division by n and the untwist over the complex numbers. -/
noncomputable def exactInverse (logn : Nat) (c : Nat → ℂ) : Nat → ℂ :=
  inverseLane (exactOps ℂ) (fun j => (starRingEnd ℂ) (exactTWIST logn j)) (fun u => (starRingEnd ℂ) (exactTWF logn u))
    (fun _ x => x / 2 ^ (logn - 1)) logn [] c

theorem fwdExact_eq (logn : Nat) (v : Nat → Int) :
    fwdExact logn v
      = tabulate (exactForward logn fun j => ⟨v j, v (j + 2 ^ (logn - 1))⟩) 0 (2 ^ (logn - 1)) := by
  rw [fwdExact, exactFold, ← tabulate_start, fwdTransform_tabulate]
  rfl

theorem invExact_tabulate (logn : Nat) (c : Nat → ℂ) :
    invExact logn (tabulate c 0 (2 ^ (logn - 1))) = tabulate (exactInverse logn c) 0 (2 ^ (logn - 1)) :=
  invTransform_tabulate ..

section
variable {logn : Nat} (hl : 1 ≤ logn)
include hl

/-- The forward stages over the complex numbers. -/
theorem fwdLoop_complex (d : Draw) (c : Nat → ℂ) {k : Nat} (hk : k < 2 ^ (logn - 1)) :
    fwdLoop (exactOps ℂ) (exactTWF logn) d (logn - 1) 0 c k
      = ∑ q ∈ Finset.range (2 ^ (logn - 1)), c q * (kernelRoot logn ^ brev (logn - 1) k) ^ q := by
  obtain rfl | ⟨M, rfl⟩ := eq_one_or_two_le hl
  · obtain rfl : k = 0 := by simpa using hk
    simp [fwdLoop]
  · have h := fwdLoop_exact (kernelRoot_pow M) (exactTWF_eq hl) d (M + 1) 0 c hk
    rw [show M + 2 - 1 = M + 1 from rfl] at hk ⊢
    simpa [Nat.div_eq_of_lt hk] using h

/-- The inverse stages over the complex numbers. -/
theorem invLoop_complex (d : Draw) (c : Nat → ℂ) {j : Nat} (hj : j < 2 ^ (logn - 1)) :
    invLoop (exactOps ℂ) (fun u => (starRingEnd ℂ) (exactTWF logn u)) d (logn - 1) 0 c j
      = ∑ k ∈ Finset.range (2 ^ (logn - 1)), c k * ((kernelRoot logn)⁻¹ ^ brev (logn - 1) k) ^ j := by
  obtain rfl | ⟨M, rfl⟩ := eq_one_or_two_le hl
  · obtain rfl : j = 0 := by simpa using hj
    simp [invLoop]
  · have h := invLoop_exact (kernelRoot_inv_pow M) (conj_exactTWF hl) d (M + 1) 0 (Nat.zero_add _) c hj
    simpa [Nat.mod_one] using h

/-- R102: each lane is the value of the polynomial at its root. -/
theorem exactForward_eq (v : Nat → Int) {k : Nat} (hk : k < 2 ^ (logn - 1)) :
    exactForward logn (fun j => ⟨v j, v (j + 2 ^ (logn - 1))⟩) k
      = ∑ j ∈ Finset.range (2 ^ logn), (v j : ℂ) * zeta logn ^ (laneExp logn k * j) := by
  have lane : ∀ q, (⟨v q, v (q + 2 ^ (logn - 1))⟩ : ℂ) = v q + v (2 ^ (logn - 1) + q) * Complex.I := fun q => by
    rw [Nat.add_comm q]
    refine Complex.ext ?_ ?_ <;> simp
  rw [exactForward, forwardLane, fwdLoop_complex hl _ _ hk, degree_eq_two_halves hl, Finset.sum_range_add,
    ← Finset.sum_add_distrib]
  refine Finset.sum_congr rfl fun q _ => ?_
  simp only [exactOps, lane, exactTWIST_eq, zpow_natCast, pow_mul]
  rw [pow_add _ (2 ^ (logn - 1)), zeta_pow_laneExp_pow hl, ← zeta_mul_kernelRoot, mul_pow]
  ring

/-- R109: each lane is the sum over the roots. -/
theorem exactInverse_eq (c : Nat → ℂ) {j : Nat} (hj : j < 2 ^ (logn - 1)) :
    exactInverse logn c j
      = (∑ k ∈ Finset.range (2 ^ (logn - 1)), c k * zeta logn ^ (-(laneExp logn k * j : Int)))
        / 2 ^ (logn - 1) := by
  have root : ∀ k, ((kernelRoot logn)⁻¹ ^ brev (logn - 1) k) ^ j * zeta logn ^ (-(j : ℤ))
      = zeta logn ^ (-(laneExp logn k * j : Int)) := fun k => by
    rw [zpow_neg, zpow_neg, zpow_mul, zpow_natCast, zpow_natCast, zpow_natCast, ← zeta_mul_kernelRoot, mul_pow,
      inv_pow, inv_pow, mul_inv, mul_comm]
  rw [exactInverse, inverseLane, invLoop_complex hl _ c hj, conj_exactTWIST]
  simp only [exactOps]
  rw [div_mul_eq_mul_div, Finset.sum_mul]
  exact congrArg (· / _) (Finset.sum_congr rfl fun k _ => by rw [mul_assoc, root])

end

theorem exactInverse_exactForward (logn : Nat) (c : Nat → ℂ) (j : Nat) :
    exactInverse logn (exactForward logn c) j = c j := by
  have scaled : (2 : ℂ) ^ (logn - 1) ≠ 0 := pow_ne_zero _ two_ne_zero
  have roots : zeta logn ^ (j : ℤ) * zeta logn ^ (-(j : ℤ)) = 1 := by
    rw [← zpow_add₀ (zeta_ne_zero logn), add_neg_cancel, zpow_zero]
  rw [exactInverse, inverseLane, exactForward, forwardLane, invLoop_fwdLoop exactTWF_mul_conj, conj_exactTWIST]
  simp only [exactOps, exactTWIST_eq]
  rw [mul_div_cancel_left₀ _ scaled, mul_assoc, roots, mul_one]

/-- Settles O45: each stage splits the polynomials of its blocks at the roots of their halves. -/
theorem forwardTransformEvaluates : Obligations.ForwardTransformEvaluates := by
  unfold Obligations.ForwardTransformEvaluates
  intro logn v hl
  rw [fwdExact_eq, tabulate_start]
  exact List.map_congr_left fun k hk => exactForward_eq hl v (List.mem_range.1 hk)

theorem invExact_eq {logn : Nat} (hl : 1 ≤ logn) {Y : List ℂ} (hY : Y.length = 2 ^ (logn - 1)) :
    invExact logn Y = (List.range (2 ^ (logn - 1))).map fun j : Nat =>
      (∑ k ∈ Finset.range (2 ^ (logn - 1)), Y.getD k 0 * zeta logn ^ (-(laneExp logn k * j : Int)))
        / 2 ^ (logn - 1) := by
  conv_lhs => rw [← tabulate_getD Y 0, hY, invExact_tabulate, tabulate_start]
  exact List.map_congr_left fun j hj => exactInverse_eq hl _ (List.mem_range.1 hj)

theorem invExact_fwdExact (logn : Nat) (v : Nat → Int) : invExact logn (fwdExact logn v) = exactFold logn v := by
  rw [fwdExact_eq, invExact_tabulate, exactFold, ← tabulate_start]
  exact tabulate_congr fun j _ _ => exactInverse_exactForward ..

/-! ## FFT, then IFFT (R110) -/

/-- The inverse transform reads the n lanes only. -/
theorem floatInverse_congr {logn : Nat} (hl : 1 ≤ logn) (d : Draw) {c c' : Nat → Cplx}
    (h : ∀ k, k < 2 ^ (logn - 1) → c k = c' k) {j : Nat} (hj : j < 2 ^ logn) :
    floatInverse logn d c j = floatInverse logn d c' j := by
  refine eq_of_tabulate_eq ?_ hj
  rw [← invFloatZ_tabulate hl, ← invFloatZ_tabulate hl]
  exact congrArg _ (tabulate_congr fun k _ hk => h k (by omega))

/-- The lanes of the slot a command has written. -/
theorem FreqWritten.lane {s t : State} {fd : FreqSlot} {f : Nat → Cplx} (h : FreqWritten s t fd f) {k : Nat}
    (hk : k < s.conf.laneCount) : t.lane fd k = f k := by
  simp [State.lane, State.lanes, h.written, hk]

/-- The coefficients of the slot a command has written. -/
theorem PolyWritten.coefs {s t : State} {pd : PolySlot} {f : Nat → Coef} (h : PolyWritten s t pd f) :
    t.coefs pd = (List.range s.conf.degree).map f := by
  rw [State.coefs, h.written]

/-- A FrequencyPoly that a command has written is a ready source. -/
theorem FreqWritten.ready_poly {s t : State} {fd : FreqSlot} {f : Nat → Cplx} (h : FreqWritten s t fd f) {pd : PolySlot}
    (hc : s.conf.cfgd = true) (hfd : s.slotExists (.freq fd) = true) (hpd : s.takes (.poly pd) = true) :
    t.ready ⟨.poly pd, false, [.freq fd]⟩ = true := by
  have conf : t.conf = s.conf := by rw [h.frame]
  have caps : t.caps = s.caps := by rw [h.frame]
  have polys : t.polys = s.polys := by rw [h.frame]
  have hfd' : t.holds (.freq fd) = true := by
    simp only [State.holds_iff, State.tagLogn, h.written, conf, Option.map_some]
    exact ⟨by rwa [State.slotExists, caps], trivial⟩
  have hpd' : t.takes (.poly pd) = true := by
    rwa [State.takes, State.slotExists, State.tagLogn, caps, polys, conf]
  rw [State.ready_iff, conf]
  exact ⟨hc, hpd', by simpa using hfd'⟩

theorem State.Inv.exec_of_ready {s t : State} (hi : s.Inv) {i : Instr} {o : Operands} (ho : i.operands = some o)
    (hr : s.ready o = true) (hown : i.ownError = none) (h : exec i s = .next t) : t.Inv := by
  rw [exec_of_operands ho, hown, ringCommand_of_ready hr] at h
  cases h
  exact (hi.writeResult ho hr).withFree _ _ _ _

theorem storeRounded_of_map_eq {W : Nat} {z : Option Int} {c : Coef} (h : z.map (wrap W) = some c) (d : Draw) :
    storeRounded W d z = c := by
  cases z with
  | none => cases h
  | some z => exact Option.some.inj h

/-- Within the budget, IFFT after FFT gives the Poly back. -/
theorem exec_fft_ifft {s : State} {rtBits : Config.Budget} {fd : FreqSlot} {pa pd : PolySlot} (hi : s.Inv)
    (hrt : RoundTrip s.caps rtBits) (hb : InRoundTripBudget rtBits s.conf (s.coefs pa))
    (hr : s.ready ⟨.freq fd, false, [.poly pa]⟩ = true) (hpd : s.takes (.poly pd) = true) :
    ∃ t₁ t₂, exec (.fft fd pa) s = .next t₁ ∧ exec (.ifft pd fd) t₁ = .next t₂ ∧ t₂.coefs pd = s.coefs pa := by
  obtain ⟨t₁, h₁, w₁⟩ := exec_fft_of_ready hi hr
  have conf : t₁.conf = s.conf := by rw [w₁.frame]
  have hc := State.cfgd_of_ready hr
  have hi₁ : t₁.Inv := hi.exec_of_ready (i := .fft fd pa) rfl hr rfl h₁
  obtain ⟨t₂, h₂, w₂⟩ := exec_ifft_of_ready hi₁ (w₁.ready_poly hc (State.takes_rd_of_ready hr).1 hpd)
  refine ⟨t₁, t₂, h₁, h₂, ?_⟩
  have coefficient : ∀ j, j < s.conf.degree → storeRounded s.conf.width (j :: 300 :: t₁.draw)
      (floatInverse s.conf.log t₁.draw (t₁.lane fd) j) = coefAt (s.coefs pa) j := fun j hj => by
    rw [floatInverse_congr (hi.log_bounds hc).1 t₁.draw (fun k hk => w₁.lane hk) hj]
    obtain ⟨hmin, hmax⟩ := hi.logn_bounds hc
    exact storeRounded_of_map_eq (hrt s.conf s.draw t₁.draw _ hmin hmax hb j hj) _
  conv_rhs => rw [← tabulate_getD (s.coefs pa) 0, hb.1.1, tabulate_start]
  rw [w₂.coefs, conf]
  exact List.map_congr_left fun j hj => coefficient j (List.mem_range.1 hj)

/-- The statement lets j range over the numbers below n as integers. -/
theorem map_natCast_list {α : Type} (f : ℤ → α) (l : List Nat) :
    List.map f (do let j ← l; pure (j : ℤ)) = l.map fun j : Nat => f j := by
  rw [bind_pure_comp]
  exact List.map_map

/-- Settles O46: the exact loops are sums over the roots and undo each other; the commands compute what `RoundTrip` is
about. -/
theorem inverseTransformInverts : Obligations.InverseTransformInverts := by
  unfold Obligations.InverseTransformInverts
  refine ⟨fun logn hl => ⟨fun Y hY => ?_, invExact_fwdExact logn⟩,
    fun s rtBits fd pa pd hi hrt hb hr hpd => exec_fft_ifft hi hrt hb hr hpd⟩
  rw [map_natCast_list]
  exact invExact_eq hl hY

end Sys2Proof.Machine
end

section
/-! PROOFS. The Twiddle Table (R101) at every degree: its reduction to the first quadrant, its symmetries, and its
exact entries. -/

namespace Sys2Proof.Machine

/-! ## Reduction to the first quadrant -/

/-- The residue of x modulo 2^(logn+1), reflected into the upper half turn: an angle between 0 and π. -/
def halfTurn (logn : Nat) (x : Int) : Nat :=
  let r := (x % (2 ^ (logn + 1) : Nat)).toNat
  if 2 ^ logn < r then 2 ^ (logn + 1) - r else r

theorem cosBits_eq (logn : Nat) (x : Int) :
    cosBits logn x = if 2 ^ logn < 2 * halfTurn logn x then fneg (cosFirstQuadrant logn (2 ^ logn - halfTurn logn x))
      else cosFirstQuadrant logn (halfTurn logn x) := rfl

section
variable {logn : Nat} {x : Int}

theorem halfTurn_le : halfTurn logn x ≤ 2 ^ logn := by
  have turn : 2 ^ (logn + 1) = 2 * 2 ^ logn := pow_succ' 2 logn
  have hr := Int.emod_lt_of_pos x (by positivity : (0 : Int) < (2 ^ (logn + 1) : Nat))
  unfold halfTurn
  simp only
  split <;> omega

/-- The angle is its half turn up to sign and whole turns. -/
theorem dvd_halfTurn :
    (2 ^ (logn + 1) : Int) ∣ x - halfTurn logn x ∨ (2 ^ (logn + 1) : Int) ∣ x + halfTurn logn x := by
  have h0 := Int.emod_nonneg x (by positivity : ((2 ^ (logn + 1) : Nat) : Int) ≠ 0)
  have hr := Int.emod_lt_of_pos x (by positivity : (0 : Int) < (2 ^ (logn + 1) : Nat))
  have hx := Int.emod_add_mul_ediv x (2 ^ (logn + 1) : Nat)
  unfold halfTurn
  simp only
  split
  · refine .inr ⟨x / (2 ^ (logn + 1) : Nat) + 1, ?_⟩
    rw [Nat.cast_sub (by omega), Int.toNat_of_nonneg h0]
    push_cast at hx ⊢
    linear_combination -hx
  · refine .inl ⟨x / (2 ^ (logn + 1) : Nat), ?_⟩
    rw [Int.toNat_of_nonneg h0]
    push_cast at hx ⊢
    linear_combination -hx

theorem halfTurn_of_dvd {y : Nat} (hy : y ≤ 2 ^ logn)
    (h : (2 ^ (logn + 1) : Int) ∣ x - y ∨ (2 ^ (logn + 1) : Int) ∣ x + y) : halfTurn logn x = y := by
  have turn : 2 ^ (logn + 1) = 2 * 2 ^ logn := pow_succ' 2 logn
  have positive := Nat.two_pow_pos logn
  have residue : ∀ r : Nat, r < 2 ^ (logn + 1) → (2 ^ (logn + 1) : Int) ∣ x - r →
      (x % (2 ^ (logn + 1) : Nat)).toNat = r := fun r hr hd => by
    have same := Int.emod_eq_emod_iff_emod_sub_eq_zero.2 (Int.emod_eq_zero_of_dvd hd)
    push_cast
    rw [same, Int.emod_eq_of_lt (Int.natCast_nonneg r) (by exact_mod_cast hr), Int.toNat_natCast]
  unfold halfTurn
  simp only
  rcases h with h | h
  · rw [residue y (by omega) h]
    split <;> omega
  · rcases Nat.eq_zero_or_pos y with rfl | hpos
    · rw [residue 0 (by omega) (by simpa using h)]
      split <;> omega
    · have h' : (2 ^ (logn + 1) : Int) ∣ x - (2 ^ (logn + 1) - y : Nat) := by
        have e : x - (((2 ^ (logn + 1) : Nat) : Int) - y) = x + y - 2 ^ (logn + 1) := by push_cast; ring
        rw [Nat.cast_sub (by omega), e]
        exact Int.dvd_sub h dvd_rfl
      rw [residue _ (by omega) h']
      split <;> omega

theorem halfTurn_neg : halfTurn logn (-x) = halfTurn logn x := by
  refine halfTurn_of_dvd halfTurn_le ?_
  rcases dvd_halfTurn (logn := logn) (x := x) with h | h
  · exact .inr (by rw [← Int.dvd_neg]; convert h using 1; ring)
  · exact .inl (by rw [← Int.dvd_neg]; convert h using 1; ring)

theorem halfTurn_sub : halfTurn logn (2 ^ logn - x) = 2 ^ logn - halfTurn logn x := by
  refine halfTurn_of_dvd (Nat.sub_le ..) ?_
  rw [Nat.cast_sub halfTurn_le]
  push_cast
  rcases dvd_halfTurn (logn := logn) (x := x) with h | h
  · exact .inl (by rw [← Int.dvd_neg]; convert h using 1; ring)
  · refine .inr ?_
    have e : (2 ^ logn - x + (2 ^ logn - halfTurn logn x) : Int) = 2 ^ (logn + 1) - (x + halfTurn logn x) := by ring
    rw [e]
    exact Int.dvd_sub dvd_rfl h

theorem halfTurn_natCast {y : Nat} (hy : y ≤ 2 ^ logn) : halfTurn logn y = y :=
  halfTurn_of_dvd hy (.inl (by simp))

end

theorem fneg_fneg (x : F64) : fneg (fneg x) = x := by
  rw [fneg, fneg, BitVec.xor_assoc, BitVec.xor_self, BitVec.xor_zero]

/-! ## Symmetries of the stored components (R101) -/

theorem cosBits_neg (logn : Nat) (x : Int) : cosBits logn (-x) = cosBits logn x := by
  rw [cosBits_eq, cosBits_eq, halfTurn_neg]

/-- The stored cosine of a right angle is +0.0. -/
theorem cosFirstQuadrant_right {logn y : Nat} (h : 2 * y = 2 ^ logn) : cosFirstQuadrant logn y = 0 := by
  have := Nat.two_pow_pos logn
  rw [cosFirstQuadrant, if_neg (by omega), if_pos h]

/-- The stored values of opposite cosines are opposite, or both are +0.0. -/
theorem cosBits_sub (logn : Nat) (x : Int) :
    cosBits logn (2 ^ logn - x) = fneg (cosBits logn x) ∨ (cosBits logn (2 ^ logn - x) = 0 ∧ cosBits logn x = 0) := by
  have hle := halfTurn_le (logn := logn) (x := x)
  rw [cosBits_eq, cosBits_eq, halfTurn_sub]
  generalize halfTurn logn x = y at *
  rcases lt_trichotomy (2 * y) (2 ^ logn) with below | right | above
  · rw [if_pos (by omega), if_neg (by omega), Nat.sub_sub_self hle]
    exact .inl rfl
  · rw [if_neg (by omega), if_neg (by omega), cosFirstQuadrant_right right, cosFirstQuadrant_right (by omega)]
    exact .inr ⟨rfl, rfl⟩
  · rw [if_neg (by omega), if_pos above, fneg_fneg]
    exact .inl rfl

theorem sinBits_neg {logn : Nat} (hl : 1 ≤ logn) (x : Int) :
    sinBits logn (-x) = fneg (sinBits logn x) ∨ (sinBits logn (-x) = 0 ∧ sinBits logn x = 0) := by
  have e : ((2 ^ (logn - 1) : Nat) : Int) - -x = 2 ^ logn - ((2 ^ (logn - 1) : Nat) - x) := by
    have := degree_eq_two_halves hl
    zify at this
    push_cast
    linear_combination -this
  rw [sinBits, sinBits, e]
  exact cosBits_sub logn _

/-! ## Exact entries -/

theorem cosBits_zero (logn : Nat) : cosBits logn 0 = 0x3FF0000000000000 := by
  have h0 : halfTurn logn 0 = 0 := by exact_mod_cast halfTurn_natCast (Nat.zero_le (2 ^ logn))
  rw [cosBits_eq, h0, if_neg (Nat.not_lt_zero _), cosFirstQuadrant, if_pos rfl]
  decide

theorem cosBits_right {logn : Nat} (hl : 1 ≤ logn) : cosBits logn (2 ^ (logn - 1) : Nat) = 0 := by
  have halves := degree_eq_two_halves hl
  have positive := Nat.two_pow_pos (logn - 1)
  rw [cosBits_eq, halfTurn_natCast (by omega), if_neg (by omega), cosFirstQuadrant_right (by omega)]

theorem cosBits_straight (logn : Nat) : cosBits logn (2 ^ logn : Nat) = 0xBFF0000000000000 := by
  have positive := Nat.two_pow_pos logn
  rw [cosBits_eq, halfTurn_natCast le_rfl, if_pos (by omega), Nat.sub_self, cosFirstQuadrant, if_pos rfl]
  decide

theorem cisBits_zero {logn : Nat} (hl : 1 ≤ logn) : cisBits logn 0 = ⟨0x3FF0000000000000, 0⟩ := by
  rw [cisBits, sinBits, Int.sub_zero, cosBits_zero, cosBits_right hl]

/-- The stored values of cis(π/2) and cis(−π/2). -/
theorem cisBits_right {logn : Nat} (hl : 1 ≤ logn) :
    cisBits logn (2 ^ (logn - 1) : Nat) = ⟨0, 0x3FF0000000000000⟩
      ∧ cisBits logn (-(2 ^ (logn - 1) : Nat)) = ⟨0, 0xBFF0000000000000⟩ := by
  have straight : ((2 ^ (logn - 1) : Nat) : Int) - -(2 ^ (logn - 1) : Nat) = (2 ^ logn : Nat) := by
    rw [degree_eq_two_halves hl]; push_cast; ring
  simp only [cisBits, sinBits, cosBits_neg, cosBits_right hl, sub_self, cosBits_zero, straight, cosBits_straight,
    and_self]

theorem twfExp_zero (logn : Nat) : twfExp logn 0 = 0 := by rw [twfExp, brev_of_zero]; rfl

theorem twfExp_one {logn : Nat} (hl : 3 ≤ logn) : twfExp logn 1 = -(2 ^ (logn - 1) : Nat) := by
  obtain ⟨k, rfl⟩ : ∃ k, logn = k + 3 := ⟨logn - 3, by omega⟩
  have e : 4 * brev (k + 1) 1 = 2 ^ (k + 2) := by rw [brev_succ, brev_of_zero]; ring
  exact congrArg (fun n : Nat => -(n : Int)) e

/-- Settles O39: the entries are `cisBits` of 0 and of ± a right angle, and `cisBits` of opposite angles. -/
theorem twiddleTableExactEntries : Obligations.TwiddleTableExactEntries := by
  unfold Obligations.TwiddleTableExactEntries
  intro logn hl
  refine ⟨?zero, fun h3 => ?one, fun u => ⟨cosBits_neg .., cosBits_neg .., sinBits_neg hl _, sinBits_neg hl _⟩⟩
  case zero =>
    simp only [TWF, TWI, TWIST, UNTWIST, twfExp_zero, Int.neg_zero, Nat.cast_zero, cisBits_zero hl, and_self]
  case one =>
    rw [TWF, TWI, twfExp_one h3, Int.neg_neg]
    exact (cisBits_right hl).symm

end Sys2Proof.Machine
end

section
/-! PROOFS. What the Twiddle Table holds (R101): the first quadrant gives the whole table, and at N = 8 each entry of
it is the nearest binary64. -/

namespace Sys2Proof.Machine

/-! ## Nearest patterns of reals -/

theorem dist_le_dist_iff {a b : ℝ} (h : a < b) (v : ℝ) : |a - v| ≤ |b - v| ↔ 2 * v ≤ a + b := by
  rw [← sq_le_sq]
  constructor <;> intro <;> nlinarith

theorem dist_le_dist_iff' {a b : ℝ} (h : a < b) (v : ℝ) : |b - v| ≤ |a - v| ↔ a + b ≤ 2 * v := by
  rw [← sq_le_sq]
  constructor <;> intro <;> nlinarith

/-- A pattern nearest to both ends of an interval is nearest to every number in it. -/
theorem NearestEven.of_between {lo hi v : ℝ} {r : F64} (hlo : NearestEven lo r) (hhi : NearestEven hi r) (h1 : lo ≤ v)
    (h2 : v ≤ hi) : NearestEven v r := by
  refine ⟨hlo.1, fun y hy => ?_⟩
  obtain ⟨dlo, tlo⟩ := hlo.2 y hy
  obtain ⟨dhi, thi⟩ := hhi.2 y hy
  rcases lt_trichotomy (f64Val r : ℝ) (f64Val y) with above | same | below
  · rw [dist_le_dist_iff above] at dhi
    refine ⟨(dist_le_dist_iff above v).2 (by linarith), fun tie => ?_⟩
    have := (dist_le_dist_iff' above v).1 tie.le
    obtain rfl : v = hi := by linarith
    exact thi tie
  · rw [same]
    exact ⟨le_rfl, fun _ => .inl (by exact_mod_cast same.symm)⟩
  · rw [dist_le_dist_iff' below] at dlo
    refine ⟨(dist_le_dist_iff' below v).2 (by linarith), fun tie => ?_⟩
    have := (dist_le_dist_iff below v).1 tie.le
    obtain rfl : v = lo := by linarith
    exact tlo tie

theorem NearestEven.neg {v : ℝ} {r : F64} (h : NearestEven v r) : NearestEven (-v) (fneg r) := by
  refine ⟨(isFinite_fneg r).trans h.1, fun y hy => ?_⟩
  have mirror : ∀ a : ℝ, |-a - -v| = |a - v| := fun a => by rw [← abs_neg]; ring_nf
  have hy' := h.2 (fneg y) ((isFinite_fneg y).trans hy)
  have e : |((f64Val y : ℚ) : ℝ) - -v| = |-((f64Val y : ℚ) : ℝ) - v| := by rw [← mirror, neg_neg]
  rw [f64Val_fneg, Rat.cast_neg] at hy'
  rw [f64Val_fneg, Rat.cast_neg, mirror, e, ffrac_fneg]
  exact ⟨hy'.1, fun tie => (hy'.2 tie).imp_left fun h => by rw [← h, neg_neg]⟩

theorem cast_dyadic (m : Nat) (q : Int) : ((m * (2 : ℚ) ^ q : ℚ) : ℝ) = m * (2 : ℝ) ^ q := by
  rw [Rat.cast_mul, Rat.cast_natCast, Rat.cast_zpow, Rat.cast_ofNat]

theorem nearestEven_roundDyadic {m : Nat} {q : Int} (h : (m : ℚ) * 2 ^ q ≤ 2 ^ 53) :
    NearestEven (m * (2 : ℝ) ^ q) (roundDyadic false m q) := by
  have rounded := (rounded_roundDyadic false m q).1
  rw [← overflowThreshold_cast, ← Rat.cast_abs, Rat.cast_lt] at rounded
  have e : signFactor false * (m * (2 : ℚ) ^ q) = m * 2 ^ q := one_mul _
  rw [e, abs_of_nonneg (by positivity), cast_dyadic] at rounded
  exact rounded (lt_overflowThreshold_of_le h)

/-- The pattern of a real between two dyadic numbers that are rounded alike. -/
theorem nearestEven_of_bounds {m m' : Nat} {q : Int} {v : ℝ} {r : F64} (hr : r = roundDyadic false m q)
    (hr' : r = roundDyadic false m' q) (h : (m' : ℚ) * 2 ^ q ≤ 2 ^ 53) (h1 : m * (2 : ℝ) ^ q ≤ v)
    (h2 : v ≤ m' * (2 : ℝ) ^ q) : NearestEven v r := by
  have order : (m : ℚ) * 2 ^ q ≤ m' * 2 ^ q := by
    rw [← Rat.cast_le (K := ℝ), cast_dyadic, cast_dyadic]
    exact h1.trans h2
  exact .of_between (hr ▸ nearestEven_roundDyadic (order.trans h)) (hr' ▸ nearestEven_roundDyadic h) h1 h2

/-! ## From the first quadrant to the table -/

/-- A stored component of the value v is correct (R101). -/
def ComponentCorrect (v : ℝ) (r : F64) : Prop := NearestEven v r ∧ (v = 0 → r = 0)

/-- The angle π·x / N of an integer x. -/
noncomputable def angle (logn : Nat) (x : ℝ) : ℝ := Real.pi * x / 2 ^ logn

theorem angle_add (logn : Nat) (x y : ℝ) : angle logn (x + y) = angle logn x + angle logn y := by
  rw [angle, mul_add, add_div]; rfl

theorem angle_neg (logn : Nat) (x : ℝ) : angle logn (-x) = -angle logn x := by rw [angle, mul_neg, neg_div]; rfl

theorem cos_angle_halfTurn (logn : Nat) (x : Int) :
    Real.cos (angle logn x) = Real.cos (angle logn (halfTurn logn x)) := by
  have turns : ∀ k : ℤ, angle logn ((2 ^ (logn + 1) * k : ℤ) : ℝ) = k * (2 * Real.pi) := fun k => by
    rw [angle, pow_succ]; push_cast; field_simp
  rcases dvd_halfTurn (logn := logn) (x := x) with ⟨k, h⟩ | ⟨k, h⟩
  · have e : (x : ℝ) = halfTurn logn x + ((2 ^ (logn + 1) * k : ℤ) : ℝ) := by rw [← h]; push_cast; ring
    rw [e, angle_add, turns, Real.cos_add_int_mul_two_pi]
  · have e : (x : ℝ) = ((2 ^ (logn + 1) * k : ℤ) : ℝ) + -(halfTurn logn x : ℝ) := by rw [← h]; push_cast; ring
    rw [e, angle_add, turns, angle_neg, ← sub_eq_add_neg, Real.cos_int_mul_two_pi_sub]

/-- Correct components in the first quadrant make every component of the table correct. -/
theorem componentCorrect_cosBits {logn : Nat}
    (h : ∀ y : Nat, 2 * y ≤ 2 ^ logn → ComponentCorrect (Real.cos (angle logn y)) (cosFirstQuadrant logn y)) (x : Int) :
    ComponentCorrect (Real.cos (angle logn x)) (cosBits logn x) := by
  have hle := halfTurn_le (logn := logn) (x := x)
  rw [cos_angle_halfTurn, cosBits_eq]
  generalize halfTurn logn x = y at *
  split
  case isFalse first => exact h y (not_lt.1 first)
  case isTrue second =>
    have mirror : angle logn y = Real.pi - angle logn ((2 ^ logn - y : Nat) : ℝ) := by
      rw [angle, angle, Nat.cast_sub hle]
      push_cast
      field_simp
      ring
    have acute : 0 < Real.cos (angle logn ((2 ^ logn - y : Nat) : ℝ)) := by
      have small : ((2 ^ logn - y : Nat) : ℝ) * 2 < 2 ^ logn := by
        exact_mod_cast (by omega : (2 ^ logn - y) * 2 < 2 ^ logn)
      refine Real.cos_pos_of_mem_Ioo ⟨?_, ?_⟩
      · have : 0 ≤ angle logn ((2 ^ logn - y : Nat) : ℝ) := by unfold angle; positivity
        linarith [Real.pi_pos]
      · rw [angle, div_lt_div_iff₀ (by positivity) two_pos, mul_assoc]
        exact mul_lt_mul_of_pos_left small Real.pi_pos
    rw [mirror, Real.cos_pi_sub]
    exact ⟨(h _ (by omega)).1.neg, fun zero => absurd zero (neg_ne_zero.2 acute.ne')⟩

/-- Correct components in the first quadrant make every entry of the table correct. -/
theorem twCorrect_cisBits {logn : Nat} (hl : 1 ≤ logn)
    (h : ∀ y : Nat, 2 * y ≤ 2 ^ logn → ComponentCorrect (Real.cos (angle logn y)) (cosFirstQuadrant logn y)) (x : Int) :
    TwCorrect (cis (angle logn x)) (cisBits logn x) := by
  have complement : angle logn (((2 ^ (logn - 1) : Nat) - x : Int) : ℝ) = Real.pi / 2 - angle logn x := by
    have halves : (2 : ℝ) ^ logn = 2 ^ (logn - 1) + 2 ^ (logn - 1) := by exact_mod_cast degree_eq_two_halves hl
    rw [angle, angle, halves]
    push_cast
    field_simp
    ring
  have cosine := componentCorrect_cosBits h x
  have sine := componentCorrect_cosBits h ((2 ^ (logn - 1) : Nat) - x)
  rw [complement, Real.cos_pi_div_two_sub] at sine
  exact ⟨cosine.1, sine.1, cosine.2, sine.2⟩

/-! ## N = 8 -/

theorem bounds_cos_eighth : 33286268146824471 * (2 : ℝ) ^ (-55 : ℤ) ≤ Real.cos (Real.pi / 8)
    ∧ Real.cos (Real.pi / 8) ≤ 33286268146824473 * (2 : ℝ) ^ (-55 : ℤ) := by
  rw [Real.cos_pi_div_eight, le_div_iff₀ two_pos, div_le_iff₀ two_pos]
  have lower : (33286268146824471 * (2 : ℝ) ^ (-55 : ℤ) * 2) ^ 2 - 2 ≤ √2 := Real.le_sqrt_of_sq_le (by norm_num)
  have upper : √2 ≤ (33286268146824473 * (2 : ℝ) ^ (-55 : ℤ) * 2) ^ 2 - 2 := Real.sqrt_le_iff.2 (by norm_num)
  exact ⟨Real.le_sqrt_of_sq_le (by linarith), Real.sqrt_le_iff.2 ⟨by positivity, by linarith⟩⟩

theorem bounds_sin_eighth : 27575247414404491 * (2 : ℝ) ^ (-56 : ℤ) ≤ Real.sin (Real.pi / 8)
    ∧ Real.sin (Real.pi / 8) ≤ 27575247414404493 * (2 : ℝ) ^ (-56 : ℤ) := by
  rw [Real.sin_pi_div_eight, le_div_iff₀ two_pos, div_le_iff₀ two_pos]
  have upper : √2 ≤ 2 - (27575247414404491 * (2 : ℝ) ^ (-56 : ℤ) * 2) ^ 2 := Real.sqrt_le_iff.2 (by norm_num)
  have lower : 2 - (27575247414404493 * (2 : ℝ) ^ (-56 : ℤ) * 2) ^ 2 ≤ √2 := Real.le_sqrt_of_sq_le (by norm_num)
  exact ⟨Real.le_sqrt_of_sq_le (by linarith), Real.sqrt_le_iff.2 ⟨by positivity, by linarith⟩⟩

theorem bounds_cos_fourth : 101904826760412361 * (2 : ℝ) ^ (-57 : ℤ) ≤ Real.cos (Real.pi / 4)
    ∧ Real.cos (Real.pi / 4) ≤ 101904826760412362 * (2 : ℝ) ^ (-57 : ℤ) := by
  rw [Real.cos_pi_div_four, le_div_iff₀ two_pos, div_le_iff₀ two_pos]
  exact ⟨Real.le_sqrt_of_sq_le (by norm_num), Real.sqrt_le_iff.2 (by norm_num)⟩

/-- The model's values of the first quadrant are what the bounds of each cosine round to. -/
theorem cosFirstQuadrant_three :
    (cosFirstQuadrant 3 1 = roundDyadic false 33286268146824471 (-55)
      ∧ cosFirstQuadrant 3 1 = roundDyadic false 33286268146824473 (-55))
    ∧ (cosFirstQuadrant 3 2 = roundDyadic false 101904826760412361 (-57)
      ∧ cosFirstQuadrant 3 2 = roundDyadic false 101904826760412362 (-57))
    ∧ cosFirstQuadrant 3 3 = roundDyadic false 27575247414404491 (-56)
      ∧ cosFirstQuadrant 3 3 = roundDyadic false 27575247414404493 (-56) := by decide +kernel

/-- The component of a positive real between two dyadic numbers that are rounded alike. -/
theorem componentCorrect_of_bounds {m m' : Nat} {q : Int} {v : ℝ} {r : F64} (hm : 0 < m)
    (hr : r = roundDyadic false m q ∧ r = roundDyadic false m' q) (h : (m' : ℚ) * 2 ^ q ≤ 2 ^ 53)
    (hv : m * (2 : ℝ) ^ q ≤ v ∧ v ≤ m' * (2 : ℝ) ^ q) : ComponentCorrect v r := by
  have positive : 0 < m * (2 : ℝ) ^ q := by positivity
  exact ⟨nearestEven_of_bounds hr.1 hr.2 h hv.1 hv.2, fun zero => absurd zero (positive.trans_le hv.1).ne'⟩

theorem componentCorrect_three (y : Nat) (hy : 2 * y ≤ 2 ^ 3) :
    ComponentCorrect (Real.cos (angle 3 y)) (cosFirstQuadrant 3 y) := by
  obtain ⟨table1, table2, table3⟩ := cosFirstQuadrant_three
  have hy : y ≤ 4 := by omega
  interval_cases y
  · rw [angle, Nat.cast_zero, mul_zero, zero_div, Real.cos_zero]
    exact componentCorrect_of_bounds (m := 1) (m' := 1) (q := 0) one_pos ⟨rfl, rfl⟩ (by norm_num) (by norm_num)
  · have e : angle 3 (1 : ℕ) = Real.pi / 8 := by rw [angle]; norm_num
    rw [e]
    exact componentCorrect_of_bounds (by decide) table1 (by norm_num) (by exact_mod_cast bounds_cos_eighth)
  · have e : angle 3 (2 : ℕ) = Real.pi / 4 := by rw [angle]; push_cast; ring
    rw [e]
    exact componentCorrect_of_bounds (by decide) table2 (by norm_num) (by exact_mod_cast bounds_cos_fourth)
  · have e : angle 3 (3 : ℕ) = Real.pi / 2 - Real.pi / 8 := by rw [angle]; push_cast; ring
    rw [e, Real.cos_pi_div_two_sub]
    exact componentCorrect_of_bounds (by decide) table3 (by norm_num) (by exact_mod_cast bounds_sin_eighth)
  · have e : angle 3 (4 : ℕ) = Real.pi / 2 := by rw [angle]; push_cast; ring
    rw [e, Real.cos_pi_div_two]
    exact ⟨nearestEven_fpack_zero false, fun _ => rfl⟩

theorem exactTWF_eq_cis {logn : Nat} (hl : 1 ≤ logn) (u : Nat) :
    exactTWF logn u = cis (angle logn (twfExp logn u)) := by
  rw [exactTWF_eq hl, kernelRoot, ← zpow_natCast, ← zpow_mul, zeta_zpow, angle, twfExp]
  push_cast
  rw [neg_mul]

theorem exactTWIST_eq_cis (logn j : Nat) : exactTWIST logn j = cis (angle logn (j : ℤ)) := by
  rw [exactTWIST_eq, zeta_zpow, angle]

theorem conj_cis_angle (logn : Nat) (x : ℤ) :
    (starRingEnd ℂ) (cis (angle logn x)) = cis (angle logn (-x : ℤ)) := by
  rw [Int.cast_neg, angle_neg]
  refine Complex.ext ?_ ?_ <;> simp [cis]

/-- Settles O40: four dyadic intervals fix the first quadrant at N = 8, and it the table. -/
theorem twiddleTableCorrectAtDegreeEight : Obligations.TwiddleTableCorrectAtDegreeEight := by
  unfold Obligations.TwiddleTableCorrectAtDegreeEight
  have table : ∀ x : ℤ, TwCorrect (cis (angle 3 x)) (cisBits 3 x) :=
    twCorrect_cisBits (by decide) componentCorrect_three
  have entry : ∀ x : ℤ, TwCorrect (cis (angle 3 x)) (cisBits 3 x)
      ∧ TwCorrect ((starRingEnd ℂ) (cis (angle 3 x))) (cisBits 3 (-x)) := fun x =>
    ⟨table x, conj_cis_angle 3 x ▸ table (-x)⟩
  refine ⟨fun u _ => ?_, fun j _ => ?_⟩
  · rw [exactTWF_eq_cis (by decide)]
    exact entry _
  · rw [exactTWIST_eq_cis]
    exact entry _

end Sys2Proof.Machine
end

section
/-! PROOFS. The transform of a constant Poly (R112): every entry of the Twiddle Table is finite, so the lanes that hold
no coefficient stay zeros, and adding such a zero to the constant gives the constant. -/

namespace Sys2Proof.Machine

/-! ## The Twiddle Table is finite -/

/-- An alternating sum of falling terms lies between 0 and its first term. -/
theorem taylor_bounds {th2 : Nat} (h : th2 ≤ 2 ^ twPrec) (fuel k t : Nat) :
    0 ≤ taylor th2 fuel k t ∧ taylor th2 fuel k t ≤ t := by
  induction fuel generalizing k t with
  | zero => simp [taylor]
  | succ fuel ih =>
    have falling : t * th2 / 2 ^ twPrec / ((k + 1) * (k + 2)) ≤ t :=
      (Nat.div_le_self ..).trans (Nat.div_le_of_le_mul (by rw [Nat.mul_comm]; exact Nat.mul_le_mul_right t h))
    obtain ⟨low, high⟩ := ih (k + 2) (t * th2 / 2 ^ twPrec / ((k + 1) * (k + 2)))
    rw [taylor]
    omega

/-- The angles of the first eighth of a turn are below 1. -/
theorem thetaFix_le {logn y : Nat} (h : 4 * y ≤ 2 ^ logn) : thetaFix logn y ≤ 2 ^ twPrec := by
  have hpi : piFix ≤ 2 ^ twPrec * 2 ^ 46 := by decide
  refine Nat.div_le_of_le_mul ?_
  calc piFix * y ≤ 2 ^ twPrec * 2 ^ 46 * y := Nat.mul_le_mul_right y hpi
    _ = 2 ^ 44 * (4 * y) * 2 ^ twPrec := by ring
    _ ≤ 2 ^ 44 * 2 ^ logn * 2 ^ twPrec := Nat.mul_le_mul_right _ (Nat.mul_le_mul_left _ h)
    _ = 2 ^ (logn + (300 - twPrec)) * 2 ^ twPrec := by rw [← pow_add, Nat.add_comm]; rfl

theorem cosFix_le {th : Nat} (h : th ≤ 2 ^ twPrec) : cosFix th ≤ 2 ^ twPrec := by
  have := (taylor_bounds (Nat.div_le_of_le_mul (Nat.mul_le_mul h h)) 32 0 (2 ^ twPrec)).2
  rw [cosFix]
  omega

theorem sinFix_le {th : Nat} (h : th ≤ 2 ^ twPrec) : sinFix th ≤ 2 ^ twPrec := by
  have := (taylor_bounds (Nat.div_le_of_le_mul (Nat.mul_le_mul h h)) 32 1 th).2
  rw [sinFix]
  omega

theorem fexp_nearestOf_le (roundsUp : Bool) {v : Nat} (h : v ≤ 2 ^ twPrec) : fexp (nearestOf roundsUp v) ≤ 1024 := by
  have room : ∀ n, 16 < n → 2 ^ n + 2 ^ 16 < 2 ^ (n + 1) := fun n hn => by
    have := Nat.pow_lt_pow_right one_lt_two hn
    rw [pow_succ]
    omega
  have rounded : ∀ m, m ≤ 2 ^ twPrec + 2 ^ 16 → fexp (roundDyadic false m (-(twPrec : Int))) ≤ 1024 := fun m hm =>
    fexp_roundDyadic_le (l := twPrec) _ (hm.trans_lt (room twPrec (by decide))) (by omega) (by omega) (by omega)
  unfold nearestOf
  simp only
  split_ifs
  · exact rounded _ (by omega)
  · exact rounded _ (by omega)
  · exact rounded _ (by omega)

theorem fexp_cosFirstQuadrant_le (logn y : Nat) : fexp (cosFirstQuadrant logn y) ≤ 1024 := by
  unfold cosFirstQuadrant
  split_ifs with zero right eighth
  · decide
  · decide
  · exact fexp_nearestOf_le _ (cosFix_le (thetaFix_le eighth))
  · refine fexp_nearestOf_le _ (sinFix_le (thetaFix_le ?_))
    rcases Nat.eq_zero_or_pos logn with rfl | hl
    · omega
    · have halves := degree_eq_two_halves hl
      generalize 2 ^ (logn - 1) = n at *
      omega

/-- Every entry of the Twiddle Table is finite. -/
theorem laneBound_cisBits (logn : Nat) (x : Int) : LaneBound 2046 (cisBits logn x) := by
  have component : ∀ x, fexp (cosBits logn x) ≤ 2046 := fun x => by
    rw [cosBits_eq]
    split
    · rw [fexp_fneg]; exact (fexp_cosFirstQuadrant_le ..).trans (by decide)
    · exact (fexp_cosFirstQuadrant_le ..).trans (by decide)
  exact ⟨component _, component _⟩

/-! ## Exact operations -/

theorem eq_of_fields {x y : F64} (hs : fsign x = fsign y) (hm : fsig x = fsig y) (he : fscaleExp x = fscaleExp y) :
    x = y := by
  have hx : ffrac x < 2 ^ 52 := Nat.mod_lt _ (by decide)
  have hy : ffrac y < 2 ^ 52 := Nat.mod_lt _ (by decide)
  have fields : fexp x = fexp y ∧ ffrac x = ffrac y := by
    unfold fsig at hm
    unfold fscaleExp at he
    split_ifs at hm he <;> omega
  rw [← fpack_fields x, ← fpack_fields y, hs, fields.1, fields.2]

theorem fscaleExp_eq_one_or (x : F64) : fscaleExp x = 1 ∨ 2 ^ 52 ≤ fsig x := by
  unfold fscaleExp fsig
  split
  · exact .inl rfl
  · exact .inr (Nat.le_add_right ..)

/-- Of two forms of one number, a normalized one has the smaller unit. -/
theorem scale_le_of_mul_pow_eq {a b e f : Nat} (h : a * 2 ^ e = b * 2 ^ f) (ha : e = 1 ∨ 2 ^ 52 ≤ a)
    (hb : b < 2 ^ 53) (hf : 1 ≤ f) : e ≤ f := by
  by_contra hlt
  obtain ⟨k, rfl⟩ : ∃ k, e = f + k + 1 := ⟨e - f - 1, by omega⟩
  have hab : a * 2 ^ (k + 1) = b := by
    rw [Nat.add_assoc, pow_add, mul_left_comm, mul_comm] at h
    exact Nat.eq_of_mul_eq_mul_right (Nat.two_pow_pos f) h
  have : a * 2 ≤ a * 2 ^ (k + 1) := Nat.mul_le_mul_left a (by rw [pow_succ]; have := Nat.two_pow_pos k; omega)
  omega

/-- Patterns of one value that is not zero are equal: their significands are normalized. -/
theorem eq_of_f64Val_eq {x y : F64} (h : f64Val x = f64Val y) (h0 : f64Val x ≠ 0) : x = y := by
  have magnitude : ∀ z, |f64Val z| * 2 ^ (1075 : ℤ) = (fsig z * 2 ^ fscaleExp z : ℕ) := fun z => by
    rw [f64Val_eq, abs_mul, abs_mul, abs_signFactor, one_mul, Nat.abs_cast, abs_of_pos (zpow_pos two_pos _), mul_assoc,
      ← zpow_add₀ two_ne_zero, sub_add_cancel, zpow_natCast]
    push_cast
    rfl
  have same : fsig x * 2 ^ fscaleExp x = fsig y * 2 ^ fscaleExp y := by
    exact_mod_cast (magnitude x).symm.trans ((congrArg (|·| * 2 ^ (1075 : ℤ)) h).trans (magnitude y))
  have scale : fscaleExp x = fscaleExp y := le_antisymm
    (scale_le_of_mul_pow_eq same (fscaleExp_eq_one_or x) (fsig_lt y) (one_le_fscaleExp y))
    (scale_le_of_mul_pow_eq same.symm (fscaleExp_eq_one_or y) (fsig_lt x) (one_le_fscaleExp x))
  have sig : fsig x = fsig y := by
    rw [scale] at same
    exact Nat.eq_of_mul_eq_mul_right (Nat.two_pow_pos _) same
  have sign : fsign x = fsign y := by
    rw [f64Val_eq] at h0
    rw [f64Val_eq, f64Val_eq, ← sig, ← scale, mul_assoc, mul_assoc] at h
    have := mul_right_cancel₀ (right_ne_zero_of_mul (mul_assoc (signFactor _) _ _ ▸ h0)) h
    revert this
    cases fsign x <;> cases fsign y <;> norm_num [signFactor]
  exact eq_of_fields sign sig scale

/-- A value that a binary64 holds is rounded to it. -/
theorem eq_of_rounded {x r : F64} (hx : isFinite x = true) (h0 : f64Val x ≠ 0) (hle : |f64Val x| ≤ 2 ^ 53)
    (h : Rounded (f64Val x : ℝ) r) : r = x := by
  have low : |(f64Val x : ℝ)| < 2 ^ 1024 - 2 ^ 970 := by
    rw [← overflowThreshold_cast, ← Rat.cast_abs, Rat.cast_lt]
    exact lt_overflowThreshold_of_le hle
  have near := ((h.1 low).2 x hx).1
  rw [sub_self, abs_zero, abs_nonpos_iff, sub_eq_zero] at near
  exact (eq_of_f64Val_eq (by exact_mod_cast near.symm) h0).symm

theorem IsZero.isFinite {x : F64} (h : IsZero x) : isFinite x = true := by rw [Machine.isFinite, h.fexp]; rfl

theorem IsZero.f64Val {x : F64} (h : IsZero x) : f64Val x = 0 := f64Val_eq_zero_iff.2 h.fsig

/-- A sum of zeros is +0.0 when one of them is. -/
theorem fadd_zero_left (d : Draw) {w : F64} (hw : IsZero w) : fadd d 0 w = 0 := by
  rw [fadd_of_sum_zero d isZero_zero.isFinite hw.isFinite (by rw [isZero_zero.f64Val, hw.f64Val, add_zero])]
  rfl

theorem fadd_zero_right (d : Draw) {w : F64} (hw : IsZero w) : fadd d w 0 = 0 := by
  rw [fadd_of_sum_zero d hw.isFinite isZero_zero.isFinite (by rw [isZero_zero.f64Val, hw.f64Val, add_zero]),
    show fsign 0 = false by decide, Bool.and_false]
  rfl

section
variable {v : Int} (hv : |v| ≤ 2 ^ 53)
include hv

theorem isFinite_i2f : isFinite (i2f v) = true := by
  have := fexp_i2f_le (z := v) (by rw [Int.abs_eq_natAbs] at hv; omega)
  rw [isFinite, bne_iff_ne]
  omega

theorem eq_i2f_of_rounded (h0 : v ≠ 0) {r : F64} (h : Rounded (v : ℝ) r) : r = i2f v := by
  have value := f64Val_i2f hv
  refine eq_of_rounded (isFinite_i2f hv) ?_ ?_ ?_
  · rw [value]; exact_mod_cast h0
  · rw [value]; exact_mod_cast hv
  · rw [value, Rat.cast_intCast]; exact h

/-- Adding a zero of either sign to a stored integer gives the stored integer. -/
theorem fadd_i2f (d : Draw) {w : F64} (hw : IsZero w) : fadd d (i2f v) w = i2f v := by
  rcases eq_or_ne v 0 with rfl | h0
  · exact fadd_zero_left d hw
  · refine eq_i2f_of_rounded hv h0 ?_
    have h := rounded_fadd d (isFinite_i2f hv) hw.isFinite
    rwa [hw.f64Val, f64Val_i2f hv, Rat.cast_zero, add_zero, Rat.cast_intCast] at h

theorem fmul_i2f_one (d : Draw) : fmul d (i2f v) 0x3FF0000000000000 = i2f v := by
  rcases eq_or_ne v 0 with rfl | h0
  · rw [fmul_of_isFinite d (isFinite_i2f hv) (by decide)]; decide
  · refine eq_i2f_of_rounded hv h0 ?_
    have one : f64Val 0x3FF0000000000000 = 1 := by
      have h := (roundDyadic_one_neg (k := 0) (by decide)).2
      rwa [pow_zero, div_one] at h
    have h := rounded_fmul d (isFinite_i2f hv) (y := 0x3FF0000000000000) (by decide)
    rwa [one, f64Val_i2f hv, Rat.cast_one, mul_one, Rat.cast_intCast] at h

theorem cmul_i2f_one (d : Draw) : cmul d ⟨i2f v, 0⟩ ⟨0x3FF0000000000000, 0⟩ = ⟨i2f v, 0⟩ := by
  have finite := fexp_le_of_isFinite (isFinite_i2f hv)
  have zero : ∀ d, fmul d 0 0x3FF0000000000000 = 0 := fun d => by
    rw [fmul_of_isFinite d (by decide) (by decide)]; decide
  have low : ∀ d, IsZero (fmul d (i2f v) 0) := fun d => isZero_fmul d finite (by decide) (.inr isZero_zero)
  have cross : ∀ d, IsZero (fmul d 0 0) := fun d => isZero_fmul d (by decide) (by decide) (.inr isZero_zero)
  simp only [cmul, fsub, fmul_i2f_one hv, zero, fadd_i2f hv _ (cross _).fneg, fadd_zero_right _ (low _)]

theorem cadd_i2f (d : Draw) {w : Cplx} (hw : LaneZero w) : cadd d ⟨i2f v, 0⟩ w = ⟨i2f v, 0⟩ := by
  rw [cadd, fadd_i2f hv _ hw.1, fadd_zero_left _ hw.2]

theorem csub_i2f (d : Draw) {w : Cplx} (hw : LaneZero w) : csub d ⟨i2f v, 0⟩ w = ⟨i2f v, 0⟩ := by
  rw [csub, fsub, fsub, fadd_i2f hv _ hw.1.fneg, fadd_zero_left _ hw.2.fneg]

/-! ## The loops on a constant -/

end

/-- The coefficients of the constant Poly v. -/
def constantPoly (v : Int) (j : Nat) : Int := if j = 0 then v else 0

theorem tabulate_constantPoly (v : Int) {n : Nat} (hn : 1 ≤ n) :
    tabulate (constantPoly v) 0 n = v :: List.replicate (n - 1) 0 := by
  obtain ⟨m, rfl⟩ : ∃ m, n = m + 1 := ⟨n - 1, by omega⟩
  rw [tabulate_succ, Nat.add_sub_cancel, ← tabulate_const 0 1]
  exact congrArg _ (tabulate_congr fun j hj _ => if_neg (by omega))

/-- The lanes a multiple of t hold the constant, the others zeros. -/
def ConstantEvery (v : Int) (t : Nat) (c : Nat → Cplx) : Prop :=
  ∀ k, (t ∣ k → c k = ⟨i2f v, 0⟩) ∧ (¬ t ∣ k → LaneZero (c k))

/-- The twisted lanes of the constant Poly v, with the constant in every n-th lane. -/
def constantLanes (v : Int) (logn : Nat) (d : Draw) (k : Nat) : Cplx :=
  if 2 ^ (logn - 1) ∣ k then ⟨i2f v, 0⟩ else cmul (k :: 0 :: d) ⟨i2f 0, i2f 0⟩ (TWIST logn k)

theorem constantEvery_constantLanes (v : Int) (logn : Nat) (d : Draw) :
    ConstantEvery v (2 ^ (logn - 1)) (constantLanes v logn d) := by
  refine fun k => ⟨fun h => if_pos h, fun h => ?_⟩
  have zero : LaneZero ⟨i2f 0, i2f 0⟩ := ⟨.inl (by decide), .inl (by decide)⟩
  rw [constantLanes, if_neg h]
  exact laneZero_cmul _ (zero.bound.mono (by decide)) (laneBound_cisBits ..) (.inl zero)

/-- A lower lane of a pair holds the constant when t divides its number, the upper one never. -/
theorem dvd_of_lower {t i : Nat} (hi : i % (2 * t) < t) : (2 * t ∣ i ↔ t ∣ i) ∧ ¬ 2 * t ∣ i + t := by
  have hm := Nat.mod_mod_of_dvd i (Dvd.intro_left 2 rfl : t ∣ 2 * t)
  rw [Nat.mod_eq_of_lt hi] at hm
  rw [Nat.dvd_iff_mod_eq_zero, Nat.dvd_iff_mod_eq_zero, Nat.dvd_iff_mod_eq_zero, hm, (upper_of_lower hi).2]
  exact ⟨Iff.rfl, by omega⟩

section
variable {v : Int} (hv : |v| ≤ 2 ^ 53)
include hv

/-- A stage adds to the constant, and subtracts from it, a zero times a root. -/
theorem fwdLane_constant {twf : Nat → Cplx} (htw : ∀ u, LaneBound 2046 (twf u)) (d : Draw) {t : Nat} (ht : 0 < t)
    {c : Nat → Cplx} (hc : ConstantEvery v (2 * t) c) : ConstantEvery v t (fwdLane floatOps twf t d c) := by
  have product : ∀ i, i % (2 * t) < t → ∀ d u, LaneZero (cmul d (c (i + t)) (twf u)) := fun i hi d u => by
    have zero := (hc (i + t)).2 (dvd_of_lower hi).2
    exact laneZero_cmul d (zero.bound.mono (by decide)) (htw u) (.inl zero)
  intro k
  unfold fwdLane
  by_cases low : k % (2 * t) < t
  · have hd := (dvd_of_lower low).1
    rw [if_pos low]
    refine ⟨fun h => ?_, fun h => laneZero_cadd _ ((hc k).2 (mt hd.1 h)) (product k low _ _)⟩
    rw [(hc k).1 (hd.2 h)]
    exact cadd_i2f hv _ (product k low _ _)
  · obtain ⟨i, rfl, hi⟩ := exists_lower ht low
    have hd : 2 * t ∣ i ↔ t ∣ i + t := (dvd_of_lower hi).1.trans (Nat.dvd_add_self_right ..).symm
    rw [if_neg low, Nat.add_sub_cancel]
    refine ⟨fun h => ?_, fun h => laneZero_csub _ ((hc i).2 (mt hd.1 h)) (product i hi _ _)⟩
    rw [(hc i).1 (hd.2 h)]
    exact csub_i2f hv _ (product i hi _ _)

theorem fwdLoop_constant {twf : Nat → Cplx} (htw : ∀ u, LaneBound 2046 (twf u)) (d : Draw) (l done : Nat)
    {c : Nat → Cplx} (hc : ConstantEvery v (2 ^ l) c) (k : Nat) :
    fwdLoop floatOps twf d l done c k = ⟨i2f v, 0⟩ := by
  induction l generalizing done c with
  | zero => exact (hc k).1 (one_dvd k)
  | succ l ih => exact ih (done + 1) (fwdLane_constant hv htw _ (Nat.two_pow_pos l) (pow_succ' 2 l ▸ hc))

theorem twist_constantPoly {logn : Nat} (hl : 1 ≤ logn) (d : Draw) {k : Nat} (hk : k < 2 ^ (logn - 1)) :
    cmul (k :: 0 :: d) ⟨i2f (constantPoly v k), i2f (constantPoly v (k + 2 ^ (logn - 1)))⟩ (TWIST logn k)
      = constantLanes v logn d k := by
  have beyond : constantPoly v (k + 2 ^ (logn - 1)) = 0 := if_neg (by omega)
  rcases Nat.eq_zero_or_pos k with rfl | hpos
  · rw [beyond, constantLanes, if_pos (dvd_zero _), TWIST, Nat.cast_zero, cisBits_zero hl]
    exact cmul_i2f_one hv _
  · rw [beyond, constantLanes, if_neg (Nat.not_dvd_of_pos_of_lt hpos hk), constantPoly, if_neg hpos.ne']

/-- R112(c): after the twist only lane 0 is not a zero, and every stage copies it. -/
theorem fwdFloatInt_constant {logn : Nat} (hl : 1 ≤ logn) (d : Draw) :
    fwdFloatInt logn d (v :: List.replicate (2 ^ logn - 1) 0) = List.replicate (2 ^ (logn - 1)) ⟨i2f v, 0⟩ := by
  rw [← tabulate_constantPoly v Nat.one_le_two_pow, fwdFloatInt_tabulate hl, ← tabulate_const _ 0]
  refine tabulate_congr fun k _ hk => ?_
  rw [Nat.zero_add] at hk
  calc floatForward logn d (constantPoly v) k
      = fwdLoop floatOps (TWF logn) d (logn - 1) 0 (constantLanes v logn d) k :=
        fwdLoop_congr _ d _ _ (fun j hj => twist_constantPoly hv hl d hj) hk
    _ = ⟨i2f v, 0⟩ :=
        fwdLoop_constant hv (fun u => laneBound_cisBits ..) d _ 0 (constantEvery_constantLanes v logn d) k

end

/-- Settles O38: the zero Poly is the constant 0, which is stored as +0.0. -/
theorem fftOfZeroAndConstant : Obligations.FftOfZeroAndConstant := by
  unfold Obligations.FftOfZeroAndConstant
  intro logn d hl _
  refine ⟨?_, fun v hv => fwdFloatInt_constant hv hl d⟩
  have zeros : List.replicate (2 ^ logn) (0 : Int) = 0 :: List.replicate (2 ^ logn - 1) 0 := by
    rw [← List.replicate_succ, Nat.sub_add_cancel Nat.one_le_two_pow]
  rw [zeros, fwdFloatInt_constant (by decide) hl]
  exact congrArg _ (by decide)

end Sys2Proof.Machine
end

section
/-! PROOFS. The pointwise commands FMUL and FMAC, lane by lane (R130, R131). -/

namespace Sys2Proof.Machine

/-! ## Products and sums lane by lane -/

theorem mulLanes_tabulate (d : Draw) (a b : Nat → Cplx) (s n : Nat) :
    mulLanes d s (tabulate a s n) (tabulate b s n) = tabulate (fun k => cmul (k :: d) (a k) (b k)) s n := by
  induction n generalizing s with
  | zero => rfl
  | succ n ih => rw [tabulate_succ, tabulate_succ, mulLanes, ih, tabulate_succ]

theorem addLanes_tabulate (d : Draw) (c p : Nat → Cplx) (s n : Nat) :
    addLanes d s (tabulate c s n) (tabulate p s n) = tabulate (fun k => cadd (k :: d) (c k) (p k)) s n := by
  induction n generalizing s with
  | zero => rfl
  | succ n ih => rw [tabulate_succ, tabulate_succ, addLanes, ih, tabulate_succ]

/-- The lanes of a slot of the configured degree, by their number. -/
theorem State.Inv.lanes_eq_tabulate {s : State} (hi : s.Inv) {n : FreqSlot} (h : s.holds (.freq n) = true) :
    s.lanes n = tabulate (s.lane n) 0 s.conf.laneCount := by
  conv_lhs => rw [← tabulate_getD (s.lanes n) ⟨0, 0⟩, hi.lanes_of_holds h]
  rfl

/-! ## FMUL and FMAC -/

/-- FMUL on ready operands (R130). -/
theorem exec_fmul_of_ready {s : State} (hi : s.Inv) {fd fa fb : FreqSlot}
    (hr : s.ready ⟨.freq fd, false, [.freq fa, .freq fb]⟩ = true) :
    ∃ t, exec (.fmul fd fa fb) s = .next t
      ∧ FreqWritten s t fd fun k => cmul (k :: 0 :: s.draw) (s.lane fa k) (s.lane fb k) := by
  have ha := hi.lanes_eq_tabulate (State.holds_of_ready hr (x := .freq fa) (by simp))
  have hb := hi.lanes_eq_tabulate (State.holds_of_ready hr (x := .freq fb) (by simp))
  refine ⟨_, ringCommand_of_ready hr _, freqWritten_of_list_draw ?_⟩
  rw [ha, hb, mulLanes_tabulate, tabulate_start]

/-- Settles O36: `cmul` of R12 is four products and two sums, each rounded once. -/
theorem fmulResult : Obligations.FmulResult := by
  unfold Obligations.FmulResult
  exact fun s fd fa fb hi hr => exec_fmul_of_ready hi hr

/-- FMAC on ready operands (R131). -/
theorem exec_fmac_of_ready {s : State} (hi : s.Inv) {fd fa fb : FreqSlot}
    (hr : s.ready ⟨.freq fd, true, [.freq fa, .freq fb]⟩ = true) :
    ∃ t, exec (.fmac fd fa fb) s = .next t
      ∧ FreqWritten s t fd fun k =>
        cadd (k :: 1 :: s.draw) (s.lane fd k) (cmul (k :: 0 :: s.draw) (s.lane fa k) (s.lane fb k)) := by
  have hd := hi.lanes_eq_tabulate (State.holds_rd_of_ready hr rfl)
  have ha := hi.lanes_eq_tabulate (State.holds_of_ready hr (x := .freq fa) (by simp))
  have hb := hi.lanes_eq_tabulate (State.holds_of_ready hr (x := .freq fb) (by simp))
  refine ⟨_, ringCommand_of_ready hr _, freqWritten_of_list_draw ?_⟩
  rw [macLanes, hd, ha, hb, mulLanes_tabulate, addLanes_tabulate, tabulate_start]

/-- Settles O37: the product of `fmulResult`, then one `cadd` of R12 with the old lane. -/
theorem fmacResult : Obligations.FmacResult := by
  unfold Obligations.FmacResult
  exact fun s fd fa fb hi hr => exec_fmac_of_ready hi hr

end Sys2Proof.Machine
end

section
/-! PROOFS. The product computed by hand with FFT, FFT, FMUL and IFFT (R132): before the inverse transform its lanes are,
up to the patterns of NaNs, those of the one accumulator that MUL has with one limb (R149). -/

namespace Sys2Proof.Machine

/-! ## Lanes up to the patterns of NaNs -/

theorem forall₂_tabulate {α : Type} {rel : α → α → Prop} {f g : Nat → α} {n : Nat} :
    List.Forall₂ rel (tabulate f 0 n) (tabulate g 0 n) ↔ ∀ k, k < n → rel (f k) (g k) := by
  simp [tabulate_start, List.forall₂_same]

theorem sameLane_cmul (d d' : Draw) {x x' y y' : Cplx} (hx : SameLane x x') (hy : SameLane y y') :
    SameLane (cmul d x y) (cmul d' x' y') :=
  ⟨sameNumber_fsub _ _ (sameNumber_fmul _ _ hx.1 hy.1) (sameNumber_fmul _ _ hx.2 hy.2),
    sameNumber_fadd _ _ (sameNumber_fmul _ _ hx.1 hy.2) (sameNumber_fmul _ _ hx.2 hy.1)⟩

/-- The forward transform does not depend on the draws (R112(e)). -/
theorem sameLane_floatForward {logn : Nat} (hl : 1 ≤ logn) (d d' : Draw) (v : Nat → Int) {k : Nat}
    (hk : k < 2 ^ (logn - 1)) : SameLane (floatForward logn d v k) (floatForward logn d' v k) := by
  have lanes := transformsAreDeterministic.1 logn d d' (tabulate v 0 (2 ^ logn))
  rw [fwdFloatInt_tabulate hl, fwdFloatInt_tabulate hl] at lanes
  exact forall₂_tabulate.1 lanes k hk

/-- The inverse transform has one value on lanes that are the same up to the patterns of NaNs. -/
theorem floatInverse_eq_of_sameLane {logn : Nat} (hl : 1 ≤ logn) (d d' : Draw) {c c' : Nat → Cplx}
    (h : ∀ k, k < 2 ^ (logn - 1) → SameLane (c k) (c' k)) {j : Nat} (hj : j < 2 ^ logn) :
    floatInverse logn d c j = floatInverse logn d' c' j := by
  refine eq_of_tabulate_eq ?_ hj
  rw [← invFloatZ_tabulate hl, ← invFloatZ_tabulate hl]
  exact transformsAreDeterministic.2 logn d d' _ _ (forall₂_tabulate.2 h)

/-! ## What a written FrequencyPoly slot leaves to the next command -/

section
variable {s t : State} {fd : FreqSlot} {f : Nat → Cplx} (h : FreqWritten s t fd f)
include h

theorem FreqWritten.conf : t.conf = s.conf := by rw [h.frame]

theorem FreqWritten.slotExists (x : Slot) : t.slotExists x = s.slotExists x := by rw [h.frame]; cases x <;> rfl

theorem FreqWritten.value (pa : PolySlot) : t.value pa = s.value pa := by rw [h.frame]; rfl

theorem FreqWritten.lane_other {fa : FreqSlot} (hne : fa ≠ fd) : t.lane fa = s.lane fa := by
  have hread := h.others fa.toNat (mt BitVec.eq_of_toNat_eq hne)
  funext k
  rw [State.lane, State.lane, State.lanes, State.lanes, hread]

theorem FreqWritten.tagLogn_same : t.tagLogn (.freq fd) = some s.conf.logn := by
  rw [State.tagLogn, h.written]; rfl

theorem FreqWritten.tagLogn_other {x : Slot} (hne : x ≠ .freq fd) : t.tagLogn x = s.tagLogn x := by
  cases x with
  | poly n => rw [h.frame]; rfl
  | freq n =>
    have hread := h.others n.toNat fun hn => hne (congrArg _ (BitVec.eq_of_toNat_eq hn))
    rw [State.tagLogn, State.tagLogn, hread]

theorem FreqWritten.holds_same (hex : s.slotExists (.freq fd) = true) : t.holds (.freq fd) = true := by
  rw [State.holds_iff, h.slotExists, h.tagLogn_same, h.conf]
  exact ⟨hex, rfl⟩

theorem FreqWritten.holds {x : Slot} (hx : s.holds x = true) : t.holds x = true := by
  by_cases hfd : x = .freq fd
  · subst hfd
    exact h.holds_same ((s.holds_iff _).1 hx).1
  · rwa [State.holds_iff, h.slotExists, h.tagLogn_other hfd, h.conf, ← State.holds_iff]

theorem FreqWritten.takes {x : Slot} (hx : s.takes x = true) : t.takes x = true := by
  by_cases hfd : x = .freq fd
  · subst hfd
    rw [State.takes_iff, h.slotExists, h.tagLogn_same, h.conf]
    exact ⟨((s.takes_iff _).1 hx).1, .inr rfl⟩
  · rwa [State.takes_iff, h.slotExists, h.tagLogn_other hfd, h.conf, ← State.takes_iff]

end

theorem PolyWritten.coef {s t : State} {pd : PolySlot} {f : Nat → Coef} (h : PolyWritten s t pd f) {j : Nat}
    (hj : j < s.conf.degree) : t.coef pd j = f j := by
  simp [State.coef, h.coefs, coefAt, hj]

/-! ## MUL with one limb -/

/-- One limb holds the whole value of a coefficient (R143, R144). -/
theorem limbs_one {W b : Nat} (hb : W ≤ b) (sgn : Bool) {c : Coef} (hc : c.toNat < 2 ^ W) :
    limbs W sgn b 1 c = [val W sgn c] := by
  cases sgn with
  | true => rfl
  | false =>
    have small : uval c % 2 ^ b = uval c := Nat.mod_eq_of_lt (hc.trans_le (Nat.pow_le_pow_right (by decide) hb))
    simp only [limbs, unsignedLimbs, val, List.range_one, List.map_singleton, Nat.zero_mul, pow_zero, Nat.div_one,
      small, Bool.false_eq_true, if_false]

/-- The one limb-polynomial is the sequence of the values. -/
theorem limbPolys_one {c : Conf} (hc : c.limbCount = 1) (hb : c.width ≤ c.limbBits.toNat) {a : List Coef}
    (ha : WBitPoly c.width c.degree a) :
    limbPolys c.width c.sgn c.limbBits.toNat c.limbCount.toNat a = [tabulate (polyValue c a) 0 (2 ^ c.log)] := by
  have limb : a.map (fun x => (limbs c.width c.sgn c.limbBits.toNat 1 x).getD 0 0) = a.map (val c.width c.sgn) :=
    List.map_congr_left fun x hx => by rw [limbs_one hb c.sgn (ha.2 x hx)]; rfl
  have values : a.map (val c.width c.sgn) = tabulate (polyValue c a) 0 (2 ^ c.log) := by
    conv_lhs => rw [← tabulate_getD a 0, map_tabulate, ha.1]
    rfl
  rw [← values, ← limb, hc]
  rfl

theorem coefAt_recombine (W b : Nat) (d : Draw) (Rz : List (List (Option Int))) {N j : Nat} (hj : j < N) :
    coefAt (recombine W b N d Rz) j = storeRounded W (j :: 4 :: d) (slotSum b j 0 Rz) := by
  simp [coefAt, recombine, hj]

theorem slotSum_singleton (b : Nat) (z : Nat → Option Int) {N j : Nat} (hj : j < N) :
    slotSum b j 0 [tabulate z 0 N] = z j := by
  have entry : (tabulate z 0 N).getD j none = z j := by simp [tabulate_start, hj]
  rw [slotSum, entry]
  cases z j <;> simp [slotSum]

/-- Lane k of the product of two transforms, under the names that the draws have in MUL with one limb. -/
def oneLimbLane (c : Conf) (d : Draw) (a q : List Coef) (k : Nat) : Cplx :=
  cmul (k :: 0 :: 0 :: 0 :: 2 :: d) (floatForward c.log (0 :: 0 :: d) (polyValue c a) k)
    (floatForward c.log (0 :: 1 :: d) (polyValue c q) k)

/-- The limb convolution of one limb with one limb has one slot, whose accumulator is one product (R146, R147). -/
theorem recombineInputs_singleton (logn : Nat) (d : Draw) (F G : List Cplx) :
    recombineInputs logn d [F] [G] = [invFloatZ logn (0 :: 3 :: d) (mulLanes (0 :: 0 :: 0 :: 2 :: d) 0 F G)] := rfl

/-- With one limb on each side the inverse transform of one product is stored (R145 to R147). -/
theorem coefAt_splitProduct_one {c : Conf} (hl : 1 ≤ c.log) (hc : c.limbCount = 1) (hb : c.width ≤ c.limbBits.toNat)
    (d : Draw) {a q : List Coef} (ha : WBitPoly c.width c.degree a) (hq : WBitPoly c.width c.degree q) {j : Nat}
    (hj : j < c.degree) :
    coefAt (splitProduct c d false a q) j
      = storeRounded c.width (j :: 4 :: d) (floatInverse c.log (0 :: 3 :: d) (oneLimbLane c d a q) j) := by
  rw [splitProduct, if_neg Bool.false_ne_true, limbPolys_one hc hb ha, limbPolys_one hc hb hq,
    coefAt_recombine _ _ _ _ hj]
  simp only [transformLimbs]
  rw [recombineInputs_singleton, fwdFloatInt_tabulate hl, fwdFloatInt_tabulate hl, mulLanes_tabulate,
    invFloatZ_tabulate hl, slotSum_singleton _ _ (N := 2 ^ c.log) hj]
  rfl

/-- MUL on ready operands (R152). -/
theorem exec_mul_of_ready {s : State} (hi : s.Inv) {pd pa pb : PolySlot}
    (hr : s.ready ⟨.poly pd, false, [.poly pa, .poly pb]⟩ = true) :
    ∃ t, exec (.mul pd pa pb) s = .next t
      ∧ PolyWritten s t pd (coefAt (product s.conf s.draw false (s.coefs pa) (s.coefs pb))) := by
  obtain ⟨ha, -⟩ := hi.coefs_of_holds (State.holds_of_ready hr (x := .poly pa) (by simp))
  obtain ⟨hb, -⟩ := hi.coefs_of_holds (State.holds_of_ready hr (x := .poly pb) (by simp))
  refine ⟨_, ringCommand_of_ready hr _, polyWritten_of_list_draw ?_⟩
  rw [← tabulate_start, ← length_product s.conf s.draw false _ _ ha hb]
  exact (tabulate_getD _ _).symm

theorem product_of_split {c : Conf} (h : c.strat = .split) (d : Draw) (short : Bool) (a q : List Coef) :
    product c d short a q = splitProduct c d short a q := by
  have strategy : c.karaEffective = false := by rw [Conf.karaEffective, h]
  rw [product, strategy, if_neg Bool.false_ne_true]

/-- With one limb the limb is at least as wide as a coefficient (R91). -/
theorem State.Inv.width_le_limbBits {s : State} (hi : s.Inv) (hc : s.conf.cfgd = true) (h1 : s.conf.limbCount = 1) :
    s.conf.width ≤ s.conf.limbBits.toNat := by
  have legal := hi.confLegal
  rw [Conf.legal, if_pos hc, Bool.not_eq_true'] at legal
  obtain ⟨-, -, -, -, -, wide, -⟩ := configError_eq_false legal
  rw [h1] at wide
  simpa [Conf.width] using wide

/-! ## The sequence by hand -/

/-- The lanes after two FFTs, into two slots or, for a square, into one: the transforms, up to the patterns of NaNs. -/
theorem sameLane_of_two_ffts {s t₁ t₂ : State} {fa fb : FreqSlot} {pa pb : PolySlot} (hl : 1 ≤ s.conf.log)
    (hsame : fa = fb → pa = pb) (w₁ : FreqWritten s t₁ fa (floatForward s.conf.log s.draw (s.value pa)))
    (w₂ : FreqWritten t₁ t₂ fb (floatForward t₁.conf.log t₁.draw (t₁.value pb))) (d d' : Draw) {k : Nat}
    (hk : k < s.conf.laneCount) :
    SameLane (t₂.lane fa k) (floatForward s.conf.log d (s.value pa) k)
      ∧ SameLane (t₂.lane fb k) (floatForward s.conf.log d' (s.value pb) k) := by
  have second : t₂.lane fb k = floatForward s.conf.log t₁.draw (s.value pb) k := by
    rw [w₂.lane (by rwa [w₁.conf]), w₁.conf, w₁.value pb]
  have first : ∃ e, t₂.lane fa k = floatForward s.conf.log e (s.value pa) k := by
    by_cases hfab : fa = fb
    · exact ⟨t₁.draw, by rw [hfab, second, hsame hfab]⟩
    · exact ⟨s.draw, by rw [w₂.lane_other hfab, w₁.lane hk]⟩
  obtain ⟨e, first⟩ := first
  rw [first, second]
  exact ⟨sameLane_floatForward hl _ _ _ hk, sameLane_floatForward hl _ _ _ hk⟩

/-- FFT, FFT and FMUL complete and leave in `fc` the lanes of MUL's accumulator, up to the patterns of NaNs. -/
theorem exec_fft_fft_fmul {s : State} (hi : s.Inv) {fa fb fc : FreqSlot} {pa pb : PolySlot} (hc : s.conf.cfgd = true)
    (hsame : fa = fb → pa = pb) (ha : s.holds (.poly pa) = true) (hb : s.holds (.poly pb) = true)
    (hfa : s.takes (.freq fa) = true) (hfb : s.takes (.freq fb) = true) (hfc : s.takes (.freq fc) = true) :
    ∃ t₁ t₂ t₃, exec (.fft fa pa) s = .next t₁ ∧ exec (.fft fb pb) t₁ = .next t₂
      ∧ exec (.fmul fc fa fb) t₂ = .next t₃ ∧ t₃.Inv ∧ t₃.conf = s.conf
      ∧ (∀ pd, s.takes (.poly pd) = true → t₃.ready ⟨.poly pd, false, [.freq fc]⟩ = true)
      ∧ ∀ k, k < s.conf.laneCount →
        SameLane (t₃.lane fc k) (oneLimbLane s.conf s.draw (s.coefs pa) (s.coefs pb) k) := by
  have hr₁ : s.ready ⟨.freq fa, false, [.poly pa]⟩ = true := (s.ready_iff _).2 ⟨hc, hfa, by simpa using ha⟩
  obtain ⟨t₁, h₁, w₁⟩ := exec_fft_of_ready hi hr₁
  have hi₁ : t₁.Inv := hi.exec_of_ready (i := .fft fa pa) rfl hr₁ rfl h₁
  have hr₂ : t₁.ready ⟨.freq fb, false, [.poly pb]⟩ = true :=
    (t₁.ready_iff _).2 ⟨by rwa [w₁.conf], w₁.takes hfb, by simpa using w₁.holds hb⟩
  obtain ⟨t₂, h₂, w₂⟩ := exec_fft_of_ready hi₁ hr₂
  have hi₂ : t₂.Inv := hi₁.exec_of_ready (i := .fft fb pb) rfl hr₂ rfl h₂
  have conf₂ : t₂.conf = s.conf := w₂.conf.trans w₁.conf
  have hfa₂ : t₂.holds (.freq fa) = true := w₂.holds (w₁.holds_same (State.takes_rd_of_ready hr₁).1)
  have hfb₂ : t₂.holds (.freq fb) = true := w₂.holds_same (State.takes_rd_of_ready hr₂).1
  have hr₃ : t₂.ready ⟨.freq fc, false, [.freq fa, .freq fb]⟩ = true :=
    (t₂.ready_iff _).2 ⟨by rwa [conf₂], w₂.takes (w₁.takes hfc), by simp [hfa₂, hfb₂]⟩
  obtain ⟨t₃, h₃, w₃⟩ := exec_fmul_of_ready hi₂ hr₃
  have hi₃ : t₃.Inv := hi₂.exec_of_ready (i := .fmul fc fa fb) rfl hr₃ rfl h₃
  refine ⟨t₁, t₂, t₃, h₁, h₂, h₃, hi₃, w₃.conf.trans conf₂, fun pd hpd => ?_, fun k hk => ?_⟩
  · exact w₃.ready_poly (by rwa [conf₂]) (State.takes_rd_of_ready hr₃).1 (w₂.takes (w₁.takes hpd))
  · obtain ⟨first, second⟩ :=
      sameLane_of_two_ffts (hi.log_bounds hc).1 hsame w₁ w₂ (0 :: 0 :: s.draw) (0 :: 1 :: s.draw) hk
    rw [w₃.lane (by rwa [conf₂])]
    exact sameLane_cmul _ _ first second

/-- Settles O55: the two inverse transforms work on the same lanes up to the patterns of NaNs, so they have one value,
and only the free value stored for ⊥ has another name. -/
theorem handProductIsSplitProduct : Obligations.HandProductIsSplitProduct := by
  unfold Obligations.HandProductIsSplitProduct
  intro s fa fb fc pa pb pd hi hsplit hone hsame hr hfa hfb hfc
  obtain ⟨hc, hpd, -⟩ := (s.ready_iff _).1 hr
  have hl := (hi.log_bounds hc).1
  have ha := State.holds_of_ready hr (x := .poly pa) (by simp)
  have hb := State.holds_of_ready hr (x := .poly pb) (by simp)
  obtain ⟨t₁, t₂, t₃, h₁, h₂, h₃, hi₃, conf, hready, lanes⟩ :=
    exec_fft_fft_fmul hi hc hsame ha hb hfa hfb hfc
  obtain ⟨t₄, h₄, w₄⟩ := exec_ifft_of_ready hi₃ (hready pd hpd)
  obtain ⟨t, h, w⟩ := exec_mul_of_ready hi hr
  refine ⟨t₁, t₂, t₃, t₄, t, h₁, h₂, h₃, h₄, h, fun j hj hvalue => ?_⟩
  have same := floatInverse_eq_of_sameLane hl t₃.draw (0 :: 3 :: s.draw) lanes hj
  obtain ⟨z, hz⟩ := Option.ne_none_iff_exists'.1 hvalue
  rw [w₄.coef (by rwa [conf]), conf, w.coef hj, product_of_split hsplit, coefAt_splitProduct_one hl hone
    (hi.width_le_limbBits hc hone) _ (hi.coefs_of_holds ha) (hi.coefs_of_holds hb) hj, ← same, hz]
  rfl

end Sys2Proof.Machine
end

section
/-! PROOFS. What the six MUL-family commands share (R148, R159): on ready operands they complete and write `prodw`,
overwriting, added to or subtracted from the old destination. -/

namespace Sys2Proof.Machine

/-! ## The destination variants, coefficient by coefficient (R148) -/

/-- One coefficient of `combine`. -/
def combineCoef (W : Nat) : Acc → (old prodw : Coef) → Coef
  | .overwrite, _, p => p
  | .addInto, x, p => addCoef W x p
  | .subFrom, x, p => subCoef W x p

/-- The variants of R148 on integers, before the reduction modulo 2^W. -/
def combineInt : Acc → (old prod : Int) → Int
  | .overwrite, _, p => p
  | .addInto, x, p => x + p
  | .subFrom, x, p => x - p

theorem combine_eq_tabulate {W N : Nat} {acc : Acc} {old prodw : List Coef}
    (ho : acc.readsDestination = true → old.length = N) (hp : prodw.length = N) :
    combine W acc old prodw = tabulate (fun j => combineCoef W acc (coefAt old j) (coefAt prodw j)) 0 N := by
  have hprodw : prodw = tabulate (coefAt prodw) 0 N := by rw [← hp]; exact (tabulate_getD prodw 0).symm
  have hold : acc.readsDestination = true → old = tabulate (coefAt old) 0 N := fun h => by
    rw [← ho h]; exact (tabulate_getD old 0).symm
  cases acc
  case overwrite => exact hprodw
  case addInto =>
    conv_lhs => rw [combine, hold rfl, hprodw, zipWith_tabulate]
    rfl
  case subFrom =>
    conv_lhs => rw [combine, hold rfl, hprodw, zipWith_tabulate]
    rfl

/-- A product that is known modulo 2^W meets the old coefficient as the integer it stands for. -/
theorem combineCoef_wrap {W : Nat} (hW : W ≤ 64) (acc : Acc) (x : Coef) (p : Int) :
    combineCoef W acc x (wrap W p) = wrap W (combineInt acc (uval x) p) := by
  have residue := uval_wrap_emod hW p
  cases acc
  case overwrite => rfl
  case addInto => exact wrap_congr (Int.ModEq.add_left (uval x : Int) residue)
  case subFrom => exact wrap_congr (Int.ModEq.sub_left (uval x : Int) residue)

/-! ## The six commands -/

theorem PolyWritten.congr {s t : State} {pd : PolySlot} {f g : Nat → Coef} (h : PolyWritten s t pd f)
    (hfg : ∀ j, j < s.conf.degree → f j = g j) : PolyWritten s t pd g where
  frame := h.frame
  others := h.others
  written := by
    rw [h.written, List.map_congr_left fun j hj => hfg j (List.mem_range.1 hj)]

section
variable {s : State} (hi : s.Inv) {acc : Acc} {short : Bool} {pd pa pb : PolySlot}
  (hr : s.ready ⟨.poly pd, acc.readsDestination, [.poly pa, .poly pb]⟩ = true)
include hi hr

/-- A command of the family on ready operands (R148, R227). -/
theorem mulCommand_of_ready :
    ∃ t, mulCommand acc short pd pa pb s = .next t ∧ PolyWritten s t pd fun j =>
      combineCoef s.conf.width acc (s.coef pd j)
        (coefAt (product s.conf s.draw short (s.coefs pa) (s.coefs pb)) j) := by
  have length : ∀ {n}, s.holds (.poly n) = true → (s.coefs n).length = s.conf.degree :=
    fun h => (wBitPoly_coefs hi h).1
  have ha := length (State.holds_of_ready hr (x := .poly pa) (by simp))
  have hb := length (State.holds_of_ready hr (x := .poly pb) (by simp))
  refine ⟨_, ringCommand_of_ready hr _, polyWritten_of_list_draw ?_⟩
  rw [← tabulate_start]
  exact combine_eq_tabulate (fun h => length (State.holds_rd_of_ready hr h)) (length_product _ _ _ _ _ ha hb)

/-- The same where the product is known modulo 2^W. -/
theorem mulCommand_of_product {prod : Nat → Int}
    (hp : ∀ j, j < s.conf.degree →
      coefAt (product s.conf s.draw short (s.coefs pa) (s.coefs pb)) j = wrap s.conf.width (prod j)) :
    ∃ t, mulCommand acc short pd pa pb s = .next t ∧ PolyWritten s t pd fun j =>
      wrap s.conf.width (combineInt acc (uval (s.coef pd j)) (prod j)) := by
  obtain ⟨t, ht, written⟩ := mulCommand_of_ready hi (short := short) hr
  exact ⟨t, ht, written.congr fun j hj => by rw [hp j hj, combineCoef_wrap s.conf.width_le]⟩

end

/-- Settles O52: the six commands are `mulCommand`, and `combineCoef` is R148 for each of them. -/
theorem mulFamilyDestinationVariants : Obligations.MulFamilyDestinationVariants := by
  unfold Obligations.MulFamilyDestinationVariants
  intro s pd pa pb hi
  refine ⟨fun hr => ⟨?_, ?_⟩, fun hr => ⟨?_, ?_, ?_, ?_⟩⟩
  · exact mulCommand_of_ready hi (acc := .overwrite) hr
  · exact mulCommand_of_ready hi (acc := .overwrite) hr
  · exact mulCommand_of_ready hi (acc := .addInto) hr
  · exact mulCommand_of_ready hi (acc := .subFrom) hr
  · exact mulCommand_of_ready hi (acc := .addInto) hr
  · exact mulCommand_of_ready hi (acc := .subFrom) hr

end Sys2Proof.Machine
end

section
/-! PROOFS. The limbs of a coefficient (R143, R144): the digits they are, and that they add up to its value. -/

namespace Sys2Proof.Machine

/-! ## Mask and shift (R143) -/

theorem intAt_unsignedLimbs (b u : Nat) {lc k : Nat} (hk : k < lc) :
    intAt (unsignedLimbs b lc u) k = (u / 2 ^ (k * b) % 2 ^ b : Nat) := by
  simp [intAt, unsignedLimbs, hk]

/-- The lowest `lc` digits in base 2^b are the residue modulo 2^(lc·b). -/
theorem sum_digits (b u lc : Nat) :
    ∑ k ∈ Finset.range lc, u / 2 ^ (k * b) % 2 ^ b * 2 ^ (k * b) = u % 2 ^ (lc * b) := by
  induction lc with
  | zero => rw [Finset.sum_range_zero, Nat.zero_mul, pow_zero, Nat.mod_one]
  | succ lc ih => rw [Finset.sum_range_succ, ih, Nat.succ_mul, pow_add, Nat.mod_mul, Nat.mul_comm (u / _ % _)]

theorem sum_unsignedLimbs {b lc u : Nat} (hu : u < 2 ^ (lc * b)) :
    (u : Int) = ∑ k ∈ Finset.range lc, intAt (unsignedLimbs b lc u) k * 2 ^ (k * b) := by
  calc (u : Int) = (∑ k ∈ Finset.range lc, u / 2 ^ (k * b) % 2 ^ b * 2 ^ (k * b) : Nat) := by
        rw [sum_digits, Nat.mod_eq_of_lt hu]
    _ = ∑ k ∈ Finset.range lc, intAt (unsignedLimbs b lc u) k * 2 ^ (k * b) := by
        rw [Nat.cast_sum]
        refine Finset.sum_congr rfl fun k hk => ?_
        rw [intAt_unsignedLimbs b u (Finset.mem_range.1 hk)]
        push_cast
        rfl

/-- Limb-polynomial k is the sequence of the k-th limbs (R143). -/
theorem limbPolys_getElem? (W : Nat) (sgn : Bool) (b : Nat) (a : List Coef) {lc k : Nat} (hk : k < lc) :
    (limbPolys W sgn b lc a)[k]? = some (a.map fun x => intAt (limbs W sgn b lc x) k) := by
  simp [limbPolys, hk, intAt]

/-- Settles O53: a limb is a digit in base 2^b, and 2^W ≤ 2^(lc·b). -/
theorem unsignedLimbsRecombine : Obligations.UnsignedLimbsRecombine := by
  unfold Obligations.UnsignedLimbsRecombine
  intro W b lc c a _ hW hc
  refine ⟨by simp [limbs, unsignedLimbs], fun k hk => ?_, ?_, fun k hk => limbPolys_getElem? W false b a hk⟩
  · have digit : intAt (limbs W false b lc c) k = (c.toNat >>> (k * b) % 2 ^ b : Nat) := by
      rw [Nat.shiftRight_eq_div_pow]
      exact intAt_unsignedLimbs b c.toNat hk
    have small : c.toNat >>> (k * b) % 2 ^ b < 2 ^ b := Nat.mod_lt _ (Nat.two_pow_pos b)
    rw [digit]
    exact ⟨rfl, Int.natCast_nonneg _, by exact_mod_cast small⟩
  · exact sum_unsignedLimbs (hc.trans_le (Nat.pow_le_pow_right (by decide) hW))

/-! ## Balanced digits (R144) -/

/-- What is left of `r` for the digits above its balanced digit (R144). -/
def balRest (b : Nat) (r : Int) : Int := (r - bal b r) / (2 ^ b : Nat)

theorem int_two_pow_eq_two_halves {b : Nat} (hb : 1 ≤ b) : (2 : Int) ^ b = 2 ^ (b - 1) + 2 ^ (b - 1) := by
  exact_mod_cast degree_eq_two_halves hb

theorem bal_bounds {b : Nat} (hb : 1 ≤ b) (r : Int) : -2 ^ (b - 1) ≤ bal b r ∧ bal b r < 2 ^ (b - 1) := by
  have two := int_two_pow_eq_two_halves hb
  have nonneg := Int.emod_nonneg (r + 2 ^ (b - 1)) (b := 2 ^ b) (by positivity)
  have lt := Int.emod_lt_of_pos (r + 2 ^ (b - 1)) (b := 2 ^ b) (by positivity)
  rw [bal]
  push_cast
  omega

theorem balRest_mul (b : Nat) (r : Int) : balRest b r * 2 ^ b = r - bal b r := by
  have divisible : ((2 ^ b : Nat) : Int) ∣ r - bal b r := by
    rw [bal, sub_sub_eq_add_sub]
    exact Int.dvd_self_sub_emod
  rw [balRest]
  exact_mod_cast Int.ediv_mul_cancel divisible

theorem balancedLimbs_succ (b lc : Nat) (r : Int) :
    balancedLimbs b (lc + 2) r = bal b r :: balancedLimbs b (lc + 1) (balRest b r) := rfl

theorem length_balancedLimbs (b lc : Nat) (r : Int) : (balancedLimbs b lc r).length = lc := by
  fun_induction balancedLimbs b lc r <;> simp_all

section
variable (b : Nat)

theorem intAt_balancedLimbs {lc k : Nat} (hk : k + 1 < lc) (r : Int) :
    intAt (balancedLimbs b lc r) k = bal b ((balRest b)^[k] r) := by
  induction k generalizing lc r with
  | zero =>
    obtain ⟨lc, rfl⟩ : ∃ n, lc = n + 2 := ⟨lc - 2, by omega⟩
    rfl
  | succ k ih =>
    obtain ⟨lc, rfl⟩ : ∃ n, lc = n + 2 := ⟨lc - 2, by omega⟩
    exact ih (by omega) (balRest b r)

theorem intAt_balancedLimbs_last (lc : Nat) (r : Int) :
    intAt (balancedLimbs b (lc + 1) r) lc = (balRest b)^[lc] r := by
  induction lc generalizing r with
  | zero => rfl
  | succ lc ih => exact ih (balRest b r)

theorem sum_balancedLimbs (lc : Nat) (r : Int) :
    r = ∑ k ∈ Finset.range (lc + 1), intAt (balancedLimbs b (lc + 1) r) k * 2 ^ (k * b) := by
  induction lc generalizing r with
  | zero => simp [balancedLimbs, intAt]
  | succ lc ih =>
    have higher : ∀ k, intAt (balancedLimbs b (lc + 2) r) (k + 1) * 2 ^ ((k + 1) * b)
        = intAt (balancedLimbs b (lc + 1) (balRest b r)) k * 2 ^ (k * b) * 2 ^ b := fun k => by
      rw [Nat.succ_mul, pow_add, ← mul_assoc]; rfl
    have lowest : intAt (balancedLimbs b (lc + 2) r) 0 = bal b r := rfl
    rw [Finset.sum_range_succ', Finset.sum_congr rfl fun k _ => higher k, ← Finset.sum_mul, ← ih, balRest_mul, lowest,
      Nat.zero_mul, pow_zero, mul_one, sub_add_cancel]

/-- Each digit takes its b bits off what is left, and at most half a unit is carried (R144). -/
theorem abs_balRest_le {b m : Nat} (hb : 1 ≤ b) {r : Int} (hr : |r| ≤ 2 ^ (m + b)) : |balRest b r| ≤ 2 ^ m := by
  obtain ⟨low, high⟩ := bal_bounds hb r
  have rest := balRest_mul b r
  have two := int_two_pow_eq_two_halves hb
  have half : (0 : Int) < 2 ^ (b - 1) := by positivity
  rw [pow_add] at hr
  obtain ⟨hr1, hr2⟩ := abs_le.1 hr
  rw [abs_le]
  constructor <;> nlinarith

/-- The last limb, which is not reduced (R144). -/
theorem abs_last_balancedLimb_le {b : Nat} (hb : 1 ≤ b) (lc : Nat) {r : Int} (hr : |r| ≤ 2 ^ (lc * b + (b - 1))) :
    |(balRest b)^[lc] r| ≤ 2 ^ (b - 1) := by
  induction lc generalizing r with
  | zero => simpa using hr
  | succ lc ih =>
    rw [Function.iterate_succ_apply]
    refine ih (abs_balRest_le hb ?_)
    rwa [Nat.add_right_comm, ← Nat.succ_mul]

end

theorem abs_sval_le {W : Nat} (hW : 1 ≤ W) {c : Coef} (hc : c.toNat < 2 ^ W) : |sval W c| ≤ 2 ^ (W - 1) := by
  have two := degree_eq_two_halves hW
  have cast : ((2 ^ (W - 1) : Nat) : Int) = 2 ^ (W - 1) := by push_cast; rfl
  rw [← cast, abs_le, sval]
  split <;> omega

/-- Settles O54: the sequence r of R144 is `balRest` iterated. -/
theorem signedLimbsRecombine : Obligations.SignedLimbsRecombine := by
  unfold Obligations.SignedLimbsRecombine
  intro W b lc c hW hb hlc hWb hc
  obtain ⟨lc, rfl⟩ : ∃ n, lc = n + 1 := ⟨lc - 1, by omega⟩
  have last : intAt (limbs W true b (lc + 1) c) lc = (balRest b)^[lc] (sval W c) := intAt_balancedLimbs_last b lc _
  have digit : ∀ k, k + 1 < lc + 1 →
      intAt (limbs W true b (lc + 1) c) k = bal b ((balRest b)^[k] (sval W c)) := fun k hk => intAt_balancedLimbs b hk _
  have small : |sval W c| ≤ 2 ^ (lc * b + (b - 1)) :=
    (abs_sval_le hW hc).trans (pow_le_pow_right₀ (by decide) (by rw [Nat.succ_mul] at hWb; omega))
  have two := int_two_pow_eq_two_halves hb
  have one : (1 : Int) ≤ 2 ^ (b - 1) := one_le_pow₀ (by decide)
  refine ⟨length_balancedLimbs b _ _, ⟨fun k => (balRest b)^[k] (sval W c), rfl, fun k hk => ⟨?_, ?_⟩, last⟩,
    sum_balancedLimbs b lc _, fun k hk => ?_, ?_, by omega⟩
  · rw [digit k hk, bal]
    push_cast
    rfl
  · rw [digit k hk, ← balRest_mul, ← Function.iterate_succ_apply' (balRest b)]
  · rw [digit k hk]
    exact bal_bounds hb _
  · rw [Nat.add_sub_cancel, last]
    exact (abs_last_balancedLimb_le hb lc small).trans (by omega)

/-- With either value of SGN the limbs add up to the value of the coefficient (R143, R144). -/
theorem val_eq_sum_limbs {W b lc : Nat} (hlc : 1 ≤ lc) (hW : W ≤ lc * b) (sgn : Bool) {c : Coef}
    (hc : c.toNat < 2 ^ W) :
    val W sgn c = ∑ k ∈ Finset.range lc, intAt (limbs W sgn b lc c) k * 2 ^ (k * b) := by
  cases sgn with
  | false => exact sum_unsignedLimbs (hc.trans_le (Nat.pow_le_pow_right (by decide) hW))
  | true =>
    obtain ⟨lc, rfl⟩ : ∃ n, lc = n + 1 := ⟨lc - 1, by omega⟩
    exact sum_balancedLimbs b lc _

end Sys2Proof.Machine
end

section
/-! PROOFS. The Karatsuba recursion (R171 to R174) as an identity of polynomials modulo 2^W: a list of patterns is the
polynomial of its residues, on which `addAt`, the schoolbook loop and the assembly of a node are ring operations. -/

namespace Sys2Proof.Machine

open Polynomial

/-! ## Residues modulo 2^W -/

theorem cast_uval_wrap {W : Nat} (hW : W ≤ 64) (z : Int) : (uval (wrap W z) : ZMod (2 ^ W)) = z := by
  have residue := (ZMod.intCast_eq_intCast_iff' _ _ _).2 (uval_wrap_emod hW z)
  exact_mod_cast residue

theorem eq_wrap_of_cast {W : Nat} {c : Coef} (hc : c.toNat < 2 ^ W) {z : Int} (h : (uval c : ZMod (2 ^ W)) = z) :
    c = wrap W z := by
  rw [← wrap_uval hc]
  exact wrap_congr ((ZMod.intCast_eq_intCast_iff' _ _ _).1 (by exact_mod_cast h))

theorem wrap_eq_of_cast {W : Nat} {x y : Int} (h : (x : ZMod (2 ^ W)) = y) : wrap W x = wrap W y :=
  wrap_congr ((ZMod.intCast_eq_intCast_iff' _ _ _).1 h)

theorem cast_val (W : Nat) (sgn : Bool) (c : Coef) : (val W sgn c : ZMod (2 ^ W)) = uval c := by
  have residue := (ZMod.intCast_eq_intCast_iff' _ _ _).2 (val_emod W sgn c)
  exact_mod_cast residue

/-! ## A list of patterns as a polynomial -/

/-- The polynomial with the patterns' residues as coefficients, the head's the lowest. -/
noncomputable def polyMod (W : Nat) : List Coef → (ZMod (2 ^ W))[X]
  | [] => 0
  | c :: r => C (uval c : ZMod (2 ^ W)) + X * polyMod W r

section
variable {W : Nat}

theorem polyMod_cons (c : Coef) (r : List Coef) :
    polyMod W (c :: r) = C (uval c : ZMod (2 ^ W)) + X * polyMod W r := rfl

theorem polyMod_eq_sum (r : List Coef) :
    polyMod W r = ∑ u ∈ Finset.range r.length, monomial u (uval (coefAt r u) : ZMod (2 ^ W)) := by
  induction r with
  | nil => rfl
  | cons c r ih =>
    rw [polyMod_cons, ih, List.length_cons, Finset.sum_range_succ', add_comm, Finset.mul_sum]
    simp only [X_mul_monomial]
    rfl

theorem coeff_polyMod {r : List Coef} {k : Nat} (hk : k < r.length) :
    (polyMod W r).coeff k = (uval (coefAt r k) : ZMod (2 ^ W)) := by
  simp [polyMod_eq_sum, coeff_monomial, hk]

theorem polyMod_append (r r' : List Coef) : polyMod W (r ++ r') = polyMod W r + X ^ r.length * polyMod W r' := by
  induction r with
  | nil => simp [polyMod]
  | cons c r ih =>
    rw [List.cons_append, polyMod_cons, ih, polyMod_cons, List.length_cons, pow_succ]
    ring

theorem polyMod_zero_cons (r : List Coef) : polyMod W (0 :: r) = X * polyMod W r := by
  have zero : uval 0 = 0 := rfl
  rw [polyMod_cons, zero, Nat.cast_zero, C_0, zero_add]

theorem polyMod_zero (n : Nat) : polyMod W (List.replicate n 0) = 0 := by
  induction n with
  | zero => rfl
  | succ n ih => rw [List.replicate_succ, polyMod_zero_cons, ih, mul_zero]

/-- A list is its lower part and its upper part, shifted. -/
theorem polyMod_halves {g n : Nat} {x : List Coef} (hx : x.length = g + n) :
    polyMod W x = polyMod W (x.take g) + X ^ g * polyMod W (x.drop g) := by
  have hg : (x.take g).length = g := by rw [List.length_take, hx]; omega
  conv_lhs => rw [← List.take_append_drop g x, polyMod_append, hg]

variable (hW : W ≤ 64)
include hW

theorem polyMod_zipWith_add {x y : List Coef} (h : x.length = y.length) :
    polyMod W (List.zipWith (addCoef W) x y) = polyMod W x + polyMod W y := by
  induction x generalizing y with
  | nil => simp [List.length_eq_zero_iff.1 h.symm, polyMod]
  | cons c x ih =>
    obtain ⟨d, y, rfl⟩ := List.exists_cons_of_length_eq_add_one h.symm
    rw [List.zipWith_cons_cons, polyMod_cons, polyMod_cons, polyMod_cons, ih (Nat.succ.inj h), addCoef,
      cast_uval_wrap hW]
    push_cast
    rw [C_add]
    ring

theorem polyMod_zipWith_sub {x y : List Coef} (h : x.length = y.length) :
    polyMod W (List.zipWith (subCoef W) x y) = polyMod W x - polyMod W y := by
  induction x generalizing y with
  | nil => simp [List.length_eq_zero_iff.1 h.symm, polyMod]
  | cons c x ih =>
    obtain ⟨d, y, rfl⟩ := List.exists_cons_of_length_eq_add_one h.symm
    rw [List.zipWith_cons_cons, polyMod_cons, polyMod_cons, polyMod_cons, ih (Nat.succ.inj h), subCoef,
      cast_uval_wrap hW]
    push_cast
    rw [C_sub]
    ring

theorem polyMod_map_mul (u : Coef) (y : List Coef) :
    polyMod W (y.map (mulCoef W u)) = C (uval u : ZMod (2 ^ W)) * polyMod W y := by
  induction y with
  | nil => simp [polyMod]
  | cons d y ih =>
    rw [List.map_cons, polyMod_cons, polyMod_cons, ih, mulCoef, cast_uval_wrap hW]
    push_cast
    rw [C_mul]
    ring

theorem polyMod_addAt {g : Nat} {m r : List Coef} (h : g + m.length ≤ r.length) :
    polyMod W (addAt W g m r) = polyMod W r + X ^ g * polyMod W m := by
  fun_induction addAt W g m r
  case case1 g m =>
    obtain ⟨rfl, hm⟩ := Nat.add_eq_zero_iff.1 (Nat.le_zero.1 h)
    simp [List.length_eq_zero_iff.1 hm, polyMod]
  case case2 => simp [polyMod]
  case case3 x m y r ih =>
    rw [polyMod_cons, ih (by simpa using h), polyMod_cons, polyMod_cons, addCoef, cast_uval_wrap hW]
    push_cast
    rw [C_add]
    ring
  case case4 g m y r hm ih =>
    rw [polyMod_cons, ih (by rw [List.length_cons] at h; omega), polyMod_cons, pow_succ]
    ring

/-! ## The recursion (R171 to R173) -/

theorem polyMod_school (x y : List Coef) : polyMod W (school W x y) = polyMod W x * polyMod W y := by
  induction x with
  | nil => rw [school, polyMod_zero, polyMod, zero_mul]
  | cons u x ih =>
    have fits : 0 + (y.map (mulCoef W u)).length ≤ (0 :: school W x y).length := by
      simp [length_school]
      omega
    rw [school, polyMod_addAt hW fits, polyMod_zero_cons, ih, polyMod_map_mul hW, polyMod_cons]
    ring

theorem polyMod_assemble {g : Nat} {d0 d1 d2 : List Coef} (h0 : d0.length = g + g) (h1 : d1.length = g + g)
    (h2 : d2.length = g + g) : polyMod W (assemble W g d0 d1 d2)
      = polyMod W d0 + X ^ g * (polyMod W d2 - polyMod W d0 - polyMod W d1) + X ^ (g + g) * polyMod W d1 := by
  have outer : (List.zipWith (subCoef W) d2 d0).length = d1.length := by simp [h0, h1, h2]
  have fits : g + (middleBand W d0 d1 d2).length ≤ (d0 ++ d1).length := by
    simp [middleBand, h0, h1, h2]
  rw [assemble, polyMod_addAt hW fits, polyMod_append, h0, middleBand, polyMod_zipWith_sub hW outer,
    polyMod_zipWith_sub hW (h2.trans h0.symm)]
  ring

/-- A node is the product of its operands: `(x0 + x1)(y0 + y1) − x0·y0 − x1·y1` is the middle band. -/
theorem polyMod_kmul (kt l : Nat) {x y : List Coef} (hx : x.length = 2 ^ l) (hy : y.length = 2 ^ l) :
    polyMod W (kmul W kt l x y) = polyMod W x * polyMod W y := by
  induction l generalizing x y with
  | zero => exact polyMod_school hW x y
  | succ l ih =>
    rw [kmul]
    split
    · exact polyMod_school hW x y
    · have two : 2 ^ (l + 1) = 2 ^ l + 2 ^ l := by rw [pow_succ, mul_two]
      have lower : ∀ {z : List Coef}, z.length = 2 ^ (l + 1) → (z.take (2 ^ l)).length = 2 ^ l :=
        fun hz => by rw [List.length_take, hz]; omega
      have upper : ∀ {z : List Coef}, z.length = 2 ^ (l + 1) → (z.drop (2 ^ l)).length = 2 ^ l :=
        fun hz => by rw [List.length_drop, hz]; omega
      have folded : ∀ {z : List Coef}, z.length = 2 ^ (l + 1) →
          (List.zipWith (addCoef W) (z.take (2 ^ l)) (z.drop (2 ^ l))).length = 2 ^ l :=
        fun hz => by rw [List.length_zipWith, lower hz, upper hz, min_self]
      have node : ∀ {u v : List Coef}, u.length = 2 ^ l → v.length = 2 ^ l →
          (kmul W kt l u v).length = 2 ^ l + 2 ^ l := fun hu hv => by rw [length_kmul W kt l _ _ hu hv, two]
      rw [polyMod_assemble hW (node (lower hx) (lower hy)) (node (upper hx) (upper hy)) (node (folded hx) (folded hy)),
        ih (lower hx) (lower hy), ih (upper hx) (upper hy), ih (folded hx) (folded hy),
        polyMod_zipWith_add hW ((lower hx).trans (upper hx).symm),
        polyMod_zipWith_add hW ((lower hy).trans (upper hy).symm), polyMod_halves (hx.trans two),
        polyMod_halves (hy.trans two), pow_add]
      ring

end

/-! ## Every result is reduced modulo 2^W -/

section
variable {W : Nat} {P : Coef → Prop} (hP : ∀ z, P (wrap W z))
include hP

theorem forall_mem_addAt (g : Nat) (m : List Coef) {r : List Coef} (hr : ∀ c ∈ r, P c) :
    ∀ c ∈ addAt W g m r, P c := by
  fun_induction addAt W g m r
  case case1 => exact hr
  case case2 => exact hr
  case case3 x m y r ih => exact List.forall_mem_cons.2 ⟨hP _, ih (List.forall_mem_cons.1 hr).2⟩
  case case4 g m y r hm ih =>
    obtain ⟨hy, hr⟩ := List.forall_mem_cons.1 hr
    exact List.forall_mem_cons.2 ⟨hy, ih hr⟩

theorem forall_mem_school (x y : List Coef) : ∀ c ∈ school W x y, P c := by
  have zero : P 0 := by simpa [wrap] using hP 0
  induction x with
  | nil => exact fun c hc => List.eq_of_mem_replicate hc ▸ zero
  | cons u x ih => exact forall_mem_addAt hP _ _ (List.forall_mem_cons.2 ⟨zero, ih⟩)

theorem forall_mem_kmul (kt l : Nat) (x y : List Coef) : ∀ c ∈ kmul W kt l x y, P c := by
  induction l generalizing x y with
  | zero => exact forall_mem_school hP x y
  | succ l ih =>
    rw [kmul]
    split
    · exact forall_mem_school hP x y
    · exact forall_mem_addAt hP _ _ (List.forall_mem_append.2 ⟨ih _ _, ih _ _⟩)

end

/-! ## Coefficients of the products -/

theorem coeff_polyMod_mul {W h : Nat} {x y : List Coef} (hx : x.length = h) (hy : y.length = h) (k : Nat) :
    (polyMod W x * polyMod W y).coeff k
      = (plainMul h (fun j => uval (coefAt x j)) (fun j => uval (coefAt y j)) k : ZMod (2 ^ W)) := by
  rw [polyMod_eq_sum, polyMod_eq_sum, hx, hy, Finset.sum_mul_sum, plainMul]
  simp only [monomial_mul_monomial, finsetSum_coeff, coeff_monomial, Int.cast_sum, Int.cast_ite, Int.cast_mul,
    Int.cast_natCast, Int.cast_zero]

/-- Coefficient k of a node of size 2^l (R171). -/
theorem coefAt_kmul {W : Nat} (hW : W ≤ 64) (kt : Nat) {l : Nat} {x y : List Coef} (hx : x.length = 2 ^ l)
    (hy : y.length = 2 ^ l) {k : Nat} (hk : k < 2 ^ (l + 1)) :
    coefAt (kmul W kt l x y) k
      = wrap W (plainMul (2 ^ l) (fun j => uval (coefAt x j)) (fun j => uval (coefAt y j)) k) := by
  have hlen : k < (kmul W kt l x y).length := by rwa [length_kmul W kt l x y hx hy]
  have bits : (coefAt (kmul W kt l x y) k).toNat < 2 ^ W := by
    rw [coefAt, List.getD_eq_getElem _ _ hlen]
    exact forall_mem_kmul (P := fun c => c.toNat < 2 ^ W) (wrap_lt hW) kt l x y _ (List.getElem_mem hlen)
  refine eq_wrap_of_cast bits ?_
  rw [← coeff_polyMod hlen, polyMod_kmul hW kt l hx hy, coeff_polyMod_mul hx hy]

/-- The fold of R174 on integers. -/
theorem negaMul_eq_plainMul_sub {N : Nat} (hN : 0 < N) (a b : Nat → Int) (k : Nat) :
    negaMul N a b k = plainMul N a b k - plainMul N a b (k + N) := by
  rw [negaMul, plainMul, plainMul, ← Finset.sum_sub_distrib]
  refine Finset.sum_congr rfl fun u _ => ?_
  rw [← Finset.sum_sub_distrib]
  refine Finset.sum_congr rfl fun v _ => ?_
  split_ifs <;> omega

/-- The exact product modulo 2^W does not depend on the representatives of its operands' residues. -/
theorem cast_negaMul {R : Type} [CommRing R] {N : Nat} {a a' b b' : Nat → Int} (ha : ∀ j, (a j : R) = a' j)
    (hb : ∀ j, (b j : R) = b' j) (k : Nat) : (negaMul N a b k : R) = negaMul N a' b' k := by
  simp only [negaMul, Int.cast_sum, Int.cast_ite, Int.cast_neg, Int.cast_mul, ha, hb]

/-- The product under KARA is exact modulo 2^W, with either value of SGN (R177). -/
theorem coefAt_karaProduct (c : Conf) (sgn : Bool) {a q : List Coef} (ha : a.length = c.degree)
    (hq : q.length = c.degree) {j : Nat} (hj : j < c.degree) :
    coefAt (karaProduct c a q) j = wrap c.width (negaMul c.degree (fun u => val c.width sgn (coefAt a u))
      (fun u => val c.width sgn (coefAt q u)) j) := by
  have hW := c.width_le
  have double : 2 ^ (c.log + 1) = c.degree + c.degree := by rw [pow_succ, mul_two]; rfl
  have hlen := length_kmul c.width c.logKt.toNat c.log a q ha hq
  have low := coefAt_kmul hW c.logKt.toNat ha hq (k := j) (by omega)
  have high := coefAt_kmul hW c.logKt.toNat ha hq (k := j + c.degree) (by omega)
  have entry : coefAt (karaProduct c a q) j
      = subCoef c.width (coefAt (kmul c.width c.logKt.toNat c.log a q) j)
        (coefAt (kmul c.width c.logKt.toNat c.log a q) (j + c.degree)) := by
    have h1 : j < (kmul c.width c.logKt.toNat c.log a q).length := by omega
    have h2 : j + c.degree < (kmul c.width c.logKt.toNat c.log a q).length := by omega
    simp [coefAt, karaProduct, negacyclicFold, List.getElem?_zipWith, hj, h1, h2, Nat.add_comm]
  have fold := negaMul_eq_plainMul_sub (N := c.degree) (Nat.two_pow_pos c.log) (fun u => uval (coefAt a u))
    (fun u => uval (coefAt q u)) j
  have residue : ∀ x : Coef, (((uval x : Nat) : Int) : ZMod (2 ^ c.width)) = val c.width sgn x := fun x => by
    rw [cast_val, Int.cast_natCast]
  rw [entry, low, high, subCoef]
  refine wrap_eq_of_cast ?_
  rw [Int.cast_sub, Int.cast_natCast, Int.cast_natCast, cast_uval_wrap hW, cast_uval_wrap hW, ← Int.cast_sub]
  exact (congrArg _ fold.symm).trans (cast_negaMul (fun u => residue _) (fun u => residue _) j)

/-! ## The commands under KARA -/

theorem Conf.karaEffective_iff {c : Conf} :
    c.karaEffective = true ↔ c.strat = .kara ∨ (c.strat = .auto ∧ c.degree < 2 ^ c.logKt.toNat) := by
  rw [Conf.karaEffective]
  cases c.strat <;> simp

theorem product_of_kara {c : Conf} (h : c.karaEffective = true) (d : Draw) (short : Bool) (a q : List Coef) :
    product c d short a q = karaProduct c a q := by
  rw [product, if_pos h]

/-- A command of the family on ready operands where the effective strategy is KARA. -/
theorem mulCommand_of_kara {s : State} (hi : s.Inv) (hk : s.conf.karaEffective = true) {acc : Acc} {short : Bool}
    {pd pa pb : PolySlot} (hr : s.ready ⟨.poly pd, acc.readsDestination, [.poly pa, .poly pb]⟩ = true) :
    ∃ t, mulCommand acc short pd pa pb s = .next t ∧ PolyWritten s t pd fun j => wrap s.conf.width
      (combineInt acc (uval (s.coef pd j)) (negaMul s.conf.degree (s.value pa) (s.value pb) j)) := by
  obtain ⟨ha, -⟩ := wBitPoly_coefs hi (State.holds_of_ready hr (x := .poly pa) (by simp))
  obtain ⟨hb, -⟩ := wBitPoly_coefs hi (State.holds_of_ready hr (x := .poly pb) (by simp))
  refine mulCommand_of_product hi hr fun j hj => ?_
  rw [product_of_kara hk]
  exact coefAt_karaProduct s.conf s.conf.sgn ha hb hj

/-- Settles O50: the Karatsuba product is exact, and the six commands are `mulCommand`. -/
theorem mulFamilyUnderKara : Obligations.MulFamilyUnderKara := by
  unfold Obligations.MulFamilyUnderKara
  intro s pd pa pb hi hk
  rw [← Conf.karaEffective_iff] at hk
  refine ⟨fun hr => ⟨?_, ?_⟩, fun hr => ⟨?_, ?_, ?_, ?_⟩⟩
  · exact mulCommand_of_kara hi hk (acc := .overwrite) hr
  · exact mulCommand_of_kara hi hk (acc := .overwrite) hr
  · exact mulCommand_of_kara hi hk (acc := .addInto) hr
  · exact mulCommand_of_kara hi hk (acc := .subFrom) hr
  · exact mulCommand_of_kara hi hk (acc := .addInto) hr
  · exact mulCommand_of_kara hi hk (acc := .subFrom) hr

end Sys2Proof.Machine
end

section
/-! PROOFS. The limb convolution of SPLIT (R145 to R147): the accumulators and the recombination on lists are the loops
of R146 and R147 lane by lane, for any number of limbs; and where every slot product is exact, their sum is the exact
product (R151). -/

namespace Sys2Proof.Machine

theorem getD_tabulate {α : Type} (f : Nat → α) {n k : Nat} (hk : k < n) (x : α) : (tabulate f 0 n).getD k x = f k := by
  simp [tabulate_start, hk]

/-! ## The pairs of one slot (R146) -/

theorem filter_range_eq (n a : Nat) : (List.range n).filter (fun v => decide (v = a)) = if a < n then [a] else [] := by
  induction n with
  | zero => rfl
  | succ n ih =>
    rw [List.range_succ, List.filter_append, ih]
    by_cases h : n = a
    · simp [h]
    · simp [h, show a < n + 1 ↔ a < n by omega]

/-- The pairs (u, v) with u + v = slot of one row of the double loop. -/
theorem filter_row (lcB slot u : Nat) :
    ((List.range lcB).map fun v => (u, v)).filter (fun p => decide (p.1 + p.2 = slot))
      = if u ≤ slot ∧ slot - u < lcB then [(u, slot - u)] else [] := by
  rw [List.filter_map]
  by_cases hu : u ≤ slot
  · have same : (fun p : Nat × Nat => decide (p.1 + p.2 = slot)) ∘ (fun v => (u, v))
        = fun v => decide (v = slot - u) := by
      funext v
      exact decide_eq_decide.2 (by dsimp only; omega)
    rw [same, filter_range_eq]
    split <;> simp_all
  · have none : (List.range lcB).filter ((fun p : Nat × Nat => decide (p.1 + p.2 = slot)) ∘ fun v => (u, v)) = [] :=
      List.filter_eq_nil_iff.2 fun v _ => by simp; omega
    rw [none, if_neg fun h => hu h.1, List.map_nil]

/-- `slotPairs` are the pairs of the double loop of R146 that act on the slot, in its order. -/
theorem slotPairs_eq_filter (lcA lcB slot : Nat) :
    slotPairs lcA lcB slot = ((List.range lcA).flatMap fun u => (List.range lcB).map fun v => (u, v)).filter
      (fun p => decide (p.1 + p.2 = slot)) := by
  rw [slotPairs, List.filter_flatMap]
  simp only [filter_row]
  induction List.range lcA with
  | nil => rfl
  | cons u us ih =>
    rw [List.flatMap_cons, ← ih, List.filter_cons]
    split <;> simp_all

theorem mem_slotPairs {lcA lcB slot : Nat} {p : Nat × Nat} :
    p ∈ slotPairs lcA lcB slot ↔ p.1 < lcA ∧ p.2 < lcB ∧ p.1 + p.2 = slot := by
  obtain ⟨u, v⟩ := p
  simp only [slotPairs_eq_filter, List.mem_filter, List.mem_flatMap, List.mem_map, List.mem_range, Prod.mk.injEq,
    decide_eq_true_eq]
  constructor
  · rintro ⟨⟨_, hu, _, hv, rfl, rfl⟩, hs⟩
    exact ⟨hu, hv, hs⟩
  · rintro ⟨hu, hv, hs⟩
    exact ⟨⟨u, hu, v, hv, rfl, rfl⟩, hs⟩

/-- Every slot of R146 has a pair. -/
theorem slotPairs_ne_nil {lcA lcB slot : Nat} (hA : 1 ≤ lcA) (hB : 1 ≤ lcB) (hs : slot < lcA + lcB - 1) :
    slotPairs lcA lcB slot ≠ [] := by
  have pair : (min slot (lcA - 1), slot - min slot (lcA - 1)) ∈ slotPairs lcA lcB slot :=
    mem_slotPairs.2 ⟨by dsimp only; omega, by dsimp only; omega, by dsimp only; omega⟩
  exact List.ne_nil_of_mem pair

/-! ## The accumulators (R146) -/

section
variable (d : Draw) (FA FB : Nat → Nat → Cplx) (slot : Nat)

/-- The pairs that do not act on the slot may be left out of the loop. -/
theorem accLane_eq_foldl (lcA lcB k : Nat) :
    accLane d lcA lcB FA FB slot k = (slotPairs lcA lcB slot).foldl (accStep d FA FB slot k) none := by
  have idle : (fun acc p => if decide (p.1 + p.2 = slot) = true then accStep d FA FB slot k acc p else acc)
      = accStep d FA FB slot k := by
    funext acc p
    rw [accStep]
    split <;> simp_all
  rw [accLane, slotPairs_eq_filter, List.foldl_filter, idle]

theorem accStep_none (k : Nat) {p : Nat × Nat} (hp : p.1 + p.2 = slot) :
    accStep d FA FB slot k none p = some (cmul (k :: 0 :: p.1 :: p.2 :: d) (FA p.1 k) (FB p.2 k)) := by
  rw [accStep, if_pos hp]

theorem accStep_some (k : Nat) {p : Nat × Nat} (hp : p.1 + p.2 = slot) (c : Cplx) :
    accStep d FA FB slot k (some c) p
      = some (cadd (k :: 1 :: p.1 :: p.2 :: d) c (cmul (k :: 0 :: p.1 :: p.2 :: d) (FA p.1 k) (FB p.2 k))) := by
  rw [accStep, if_pos hp]

theorem macLanes_tabulate (e : Draw) (c a b : Nat → Cplx) (n : Nat) :
    macLanes e (tabulate c 0 n) (tabulate a 0 n) (tabulate b 0 n)
      = tabulate (fun k => cadd (k :: 1 :: e) (c k) (cmul (k :: 0 :: e) (a k) (b k))) 0 n := by
  rw [macLanes, mulLanes_tabulate, addLanes_tabulate]

/-- The lanes of the transforms of the limbs, limb by limb. -/
def limbLanes (F : Nat → Nat → Cplx) (n lc : Nat) : List (List Cplx) := tabulate (fun u => tabulate (F u) 0 n) 0 lc

variable {lcA lcB slot} (n : Nat)

/-- The accumulation of further pairs, lane by lane. -/
theorem foldl_macLanes_tabulate (ps : List (Nat × Nat)) (hps : ∀ p ∈ ps, p ∈ slotPairs lcA lcB slot) (c : Nat → Cplx) :
    ps.foldl (fun acc q => macLanes (q.1 :: q.2 :: d) acc ((limbLanes FA n lcA).getD q.1 [])
        ((limbLanes FB n lcB).getD q.2 [])) (tabulate c 0 n)
      = tabulate (fun k => (ps.foldl (accStep d FA FB slot k) (some (c k))).getD ⟨0, 0⟩) 0 n := by
  induction ps generalizing c with
  | nil => rfl
  | cons p ps ih =>
    obtain ⟨hp, hps⟩ := List.forall_mem_cons.1 hps
    obtain ⟨hu, hv, hs⟩ := mem_slotPairs.1 hp
    simp only [List.foldl_cons, accStep_some d FA FB slot _ hs]
    rw [limbLanes, limbLanes, getD_tabulate _ hu, getD_tabulate _ hv, macLanes_tabulate]
    exact ih hps _

/-- The accumulator of a slot is what the double loop of R146 leaves, lane by lane. -/
theorem accumulator_tabulate (hA : 1 ≤ lcA) (hB : 1 ≤ lcB) (hs : slot < lcA + lcB - 1) :
    accumulator d (limbLanes FA n lcA) (limbLanes FB n lcB) slot
      = tabulate (fun k => (accLane d lcA lcB FA FB slot k).getD ⟨0, 0⟩) 0 n := by
  obtain ⟨p, ps, hcons⟩ := List.exists_cons_of_ne_nil (slotPairs_ne_nil hA hB hs)
  have members : ∀ q ∈ p :: ps, q ∈ slotPairs lcA lcB slot := fun q hq => hcons ▸ hq
  obtain ⟨hp, hps⟩ := List.forall_mem_cons.1 members
  obtain ⟨hu, hv, hsum⟩ := mem_slotPairs.1 hp
  simp only [accLane_eq_foldl, hcons, List.foldl_cons, accStep_none d FA FB slot _ hsum]
  rw [← foldl_macLanes_tabulate d FA FB n ps hps, accumulator, limbLanes, limbLanes, length_tabulate, length_tabulate,
    hcons]
  simp only [getD_tabulate _ hu, getD_tabulate _ hv, mulLanes_tabulate]

end

/-! ## The slots (R145, R147) -/

theorem transformLimbs_tabulate (logn : Nat) (d : Draw) (Z : Nat → List Int) (s n : Nat) :
    transformLimbs logn d s (tabulate Z s n) = tabulate (fun u => fwdFloatInt logn (u :: d) (Z u)) s n := by
  induction n generalizing s with
  | zero => rfl
  | succ n ih => rw [tabulate_succ, transformLimbs, ih, tabulate_succ]

/-- The transforms of limb-polynomials of full length (R145). -/
theorem transformLimbs_eq {logn : Nat} (hl : 1 ≤ logn) (d : Draw) {A : List (List Int)}
    (hA : ∀ z ∈ A, z.length = 2 ^ logn) :
    transformLimbs logn d 0 A
      = limbLanes (fun u => floatForward logn (u :: d) (intAt (A.getD u []))) (2 ^ (logn - 1)) A.length := by
  conv_lhs => rw [← tabulate_getD A [], transformLimbs_tabulate]
  refine tabulate_congr fun u _ hu => ?_
  rw [Nat.zero_add] at hu
  have full : (A.getD u []).length = 2 ^ logn := by
    rw [List.getD_eq_getElem _ _ hu]
    exact hA _ (List.getElem_mem hu)
  have values : tabulate (intAt (A.getD u [])) 0 (2 ^ logn) = A.getD u [] := by rw [← full]; exact tabulate_getD _ 0
  rw [← fwdFloatInt_tabulate hl, values]

/-- `Rz` of the machine is `splitSlot`, slot by slot (R145 to R147). -/
theorem recombineInputs_eq {logn : Nat} (hl : 1 ≤ logn) (d : Draw) {A B : List (List Int)} (hA : 1 ≤ A.length)
    (hB : 1 ≤ B.length) (hAlen : ∀ z ∈ A, z.length = 2 ^ logn) (hBlen : ∀ z ∈ B, z.length = 2 ^ logn) :
    recombineInputs logn d (transformLimbs logn (0 :: d) 0 A) (transformLimbs logn (1 :: d) 0 B)
      = tabulate (fun slot => tabulate (splitSlot logn d A B slot) 0 (2 ^ logn)) 0 (A.length + B.length - 1) := by
  rw [transformLimbs_eq hl _ hAlen, transformLimbs_eq hl _ hBlen, recombineInputs, limbLanes, limbLanes,
    length_tabulate, length_tabulate, ← tabulate_start]
  refine tabulate_congr fun slot _ hs => ?_
  rw [← limbLanes, ← limbLanes, accumulator_tabulate _ _ _ _ hA hB (by omega), invFloatZ_tabulate hl]
  rfl

/-! ## The recombination (R147) -/

section
variable (b : Nat) (R : Nat → Nat → Option Int) {N j : Nat} (hj : j < N) (s n : Nat)
include hj

theorem slotSum_tabulate_succ :
    slotSum b j s (tabulate (fun slot => tabulate (R slot) 0 N) s (n + 1))
      = Option.map₂ (fun z t : Int => z * (2 ^ (s * b) : Nat) + t) (R s j)
        (slotSum b j (s + 1) (tabulate (fun slot => tabulate (R slot) 0 N) (s + 1) n)) := by
  rw [tabulate_succ, slotSum, getD_tabulate _ hj]
  cases R s j with
  | none => rfl
  | some z => cases slotSum b j (s + 1) (tabulate (fun slot => tabulate (R slot) 0 N) (s + 1) n) <;> rfl

theorem slotSum_eq_none (h : ∃ slot, s ≤ slot ∧ slot < s + n ∧ R slot j = none) :
    slotSum b j s (tabulate (fun slot => tabulate (R slot) 0 N) s n) = none := by
  induction n generalizing s with
  | zero => omega
  | succ n ih =>
    obtain ⟨slot, h1, h2, hnone⟩ := h
    rw [slotSum_tabulate_succ b R hj]
    rcases h1.eq_or_lt with rfl | h1
    · rw [hnone, Option.map₂_none_left]
    · rw [ih (s + 1) ⟨slot, h1, by omega, hnone⟩, Option.map₂_none_right]

theorem slotSum_eq_some {z : Nat → Int} (h : ∀ slot, s ≤ slot → slot < s + n → R slot j = some (z slot)) :
    slotSum b j s (tabulate (fun slot => tabulate (R slot) 0 N) s n)
      = some (∑ i ∈ Finset.range n, z (s + i) * 2 ^ ((s + i) * b)) := by
  induction n generalizing s with
  | zero => rfl
  | succ n ih =>
    rw [slotSum_tabulate_succ b R hj, h s le_rfl (by omega), ih (s + 1) fun slot h1 h2 => h slot (by omega) (by omega),
      Finset.sum_range_succ', Option.map₂_some_some]
    simp only [Nat.add_right_comm s 1, ← Nat.add_assoc, Nat.add_zero]
    push_cast
    rw [add_comm]

end

/-! ## The product under SPLIT -/

theorem length_firstLimbs (c : Conf) (a : List Coef) : (firstLimbs c a).length = c.limbCount.toNat := by
  simp [firstLimbs, limbPolys]

theorem length_of_mem_firstLimbs {c : Conf} {a : List Coef} (ha : a.length = c.degree) :
    ∀ z ∈ firstLimbs c a, z.length = 2 ^ c.log := by
  rw [firstLimbs, limbPolys, List.forall_mem_map]
  exact fun k _ => by rw [List.length_map, ha]; rfl

theorem one_le_length_secondLimbs {c : Conf} (hc : 1 ≤ c.limbCount.toNat) (short : Bool) (q : List Coef) :
    1 ≤ (secondLimbs c short q).length := by
  cases short with
  | true => exact le_rfl
  | false => exact (length_firstLimbs c q).symm ▸ hc

theorem length_secondLimbs_le (c : Conf) (short : Bool) (q : List Coef) :
    (secondLimbs c short q).length ≤ 255 := by
  cases short with
  | true => exact (by decide : 1 ≤ 255)
  | false => exact (length_firstLimbs c q).trans_le (Nat.le_of_lt_succ c.limbCount.isLt)

theorem length_of_mem_secondLimbs {c : Conf} {q : List Coef} (hq : q.length = c.degree) (short : Bool) :
    ∀ z ∈ secondLimbs c short q, z.length = 2 ^ c.log := by
  cases short with
  | true => exact List.forall_mem_singleton.2 (by rw [List.length_map, hq]; rfl)
  | false => exact length_of_mem_firstLimbs hq

theorem Conf.karaEffective_eq_false_iff {c : Conf} :
    c.karaEffective = false ↔ c.strat = .split ∨ (c.strat = .auto ∧ 2 ^ c.logKt.toNat ≤ c.degree) := by
  rw [Conf.karaEffective]
  cases c.strat <;> simp

section
variable {c : Conf} (hs : c.karaEffective = false) (hl : 1 ≤ c.log) (hc : 1 ≤ c.limbCount.toNat) (d : Draw)
  (short : Bool) {a q : List Coef} (ha : a.length = c.degree) (hq : q.length = c.degree) {j : Nat} (hj : j < c.degree)
include hs hl hc ha hq hj

/-- Coefficient j of the product under SPLIT, from the slots of `splitSlot` (R147). -/
theorem coefAt_product_of_split :
    coefAt (product c d short a q) j = storeRounded c.width (j :: 4 :: d) (slotSum c.limbBits.toNat j 0
      (tabulate (fun slot => tabulate (splitSlot c.log d (firstLimbs c a) (secondLimbs c short q) slot) 0 c.degree) 0
        ((firstLimbs c a).length + (secondLimbs c short q).length - 1))) := by
  have inputs := recombineInputs_eq hl d (by rwa [length_firstLimbs]) (one_le_length_secondLimbs hc short q)
    (length_of_mem_firstLimbs ha) (length_of_mem_secondLimbs hq short)
  rw [product, if_neg (Bool.eq_false_iff.1 hs), Conf.degree, ← inputs]
  exact coefAt_recombine _ _ _ _ hj

theorem coefAt_product_of_none (h : ∃ slot, slot < (firstLimbs c a).length + (secondLimbs c short q).length - 1
      ∧ splitSlot c.log d (firstLimbs c a) (secondLimbs c short q) slot j = none) :
    coefAt (product c d short a q) j = wrap c.width (Config.anyBits (j :: 4 :: d)).toNat := by
  obtain ⟨slot, hslot, hnone⟩ := h
  rw [coefAt_product_of_split hs hl hc d short ha hq hj,
    slotSum_eq_none _ _ hj _ _ ⟨slot, Nat.zero_le _, by omega, hnone⟩]
  rfl

theorem coefAt_product_of_slots {Rz : Nat → Int}
    (h : ∀ slot, slot < (firstLimbs c a).length + (secondLimbs c short q).length - 1 →
      splitSlot c.log d (firstLimbs c a) (secondLimbs c short q) slot j = some (Rz slot)) :
    coefAt (product c d short a q) j = wrap c.width
      (∑ slot ∈ Finset.range ((firstLimbs c a).length + (secondLimbs c short q).length - 1),
        Rz slot * 2 ^ (slot * c.limbBits.toNat)) := by
  rw [coefAt_product_of_split hs hl hc d short ha hq hj,
    slotSum_eq_some _ _ hj _ _ fun slot _ hslot => h slot (by omega)]
  simp only [Nat.zero_add]
  rfl

end

/-! ## The exact product (R151) -/

/-- What the pair of coefficients u and v contributes to coefficient k of `NegaMul` (R13). -/
def negaSign (N k u v : Nat) : Int := if u + v = k then 1 else if u + v = k + N then -1 else 0

section
variable (N : Nat) (k : Nat)

theorem negaMul_eq_sum_sign (a b : Nat → Int) :
    negaMul N a b k = ∑ u ∈ Finset.range N, ∑ v ∈ Finset.range N, negaSign N k u v * (a u * b v) := by
  refine Finset.sum_congr rfl fun u _ => Finset.sum_congr rfl fun v _ => ?_
  rw [negaSign]
  split_ifs <;> ring

theorem negaMul_comm (a b : Nat → Int) : negaMul N a b k = negaMul N b a k := by
  rw [negaMul, Finset.sum_comm]
  exact Finset.sum_congr rfl fun v _ => Finset.sum_congr rfl fun u _ => by rw [Nat.add_comm u v, mul_comm (a u)]

theorem negaMul_sum_left (A : Nat → Nat → Int) (w : Nat → Int) (m : Nat) (b : Nat → Int) :
    negaMul N (fun j => ∑ i ∈ Finset.range m, A i j * w i) b k = ∑ i ∈ Finset.range m, negaMul N (A i) b k * w i := by
  simp only [negaMul_eq_sum_sign, Finset.sum_mul, Finset.mul_sum]
  rw [Finset.sum_comm (s := Finset.range m)]
  refine Finset.sum_congr rfl fun u _ => ?_
  rw [Finset.sum_comm (s := Finset.range m)]
  exact Finset.sum_congr rfl fun v _ => Finset.sum_congr rfl fun i _ => by ring

theorem negaMul_sum_right (a : Nat → Int) (B : Nat → Nat → Int) (w : Nat → Int) (m : Nat) :
    negaMul N a (fun j => ∑ i ∈ Finset.range m, B i j * w i) k = ∑ i ∈ Finset.range m, negaMul N a (B i) k * w i := by
  rw [negaMul_comm, negaMul_sum_left]
  exact Finset.sum_congr rfl fun i _ => by rw [negaMul_comm]

variable {N}

theorem negaMul_congr {a a' b b' : Nat → Int} (ha : ∀ j, j < N → a j = a' j) (hb : ∀ j, j < N → b j = b' j) :
    negaMul N a b k = negaMul N a' b' k :=
  Finset.sum_congr rfl fun u hu => Finset.sum_congr rfl fun v hv => by
    rw [ha u (Finset.mem_range.1 hu), hb v (Finset.mem_range.1 hv)]

end

/-- The limbs of coefficient j put together by shift and add. -/
def limbValue (b : Nat) (A : List (List Int)) (j : Nat) : Int :=
  ∑ u ∈ Finset.range A.length, intAt (A.getD u []) j * 2 ^ (u * b)

/-- The slot products, shifted and added, are the product of the recombined operands: `NegaMul` is bilinear. -/
theorem sum_slotProduct (N b j : Nat) (A B : List (List Int)) :
    ∑ slot ∈ Finset.range (A.length + B.length - 1), slotProduct N A B slot j * 2 ^ (slot * b)
      = negaMul N (limbValue b A) (limbValue b B) j := by
  calc ∑ slot ∈ Finset.range (A.length + B.length - 1), slotProduct N A B slot j * 2 ^ (slot * b)
      = ∑ u ∈ Finset.range A.length, ∑ v ∈ Finset.range B.length,
          negaMul N (intAt (A.getD u [])) (intAt (B.getD v [])) j * 2 ^ ((u + v) * b) := by
        simp only [slotProduct, Finset.sum_mul, ite_mul, zero_mul]
        rw [Finset.sum_comm]
        refine Finset.sum_congr rfl fun u hu => ?_
        rw [Finset.sum_comm]
        refine Finset.sum_congr rfl fun v hv => ?_
        rw [Finset.mem_range] at hu hv
        rw [Finset.sum_ite_eq, if_pos (Finset.mem_range.2 (by omega))]
    _ = negaMul N (limbValue b A) (limbValue b B) j := by
        unfold limbValue
        rw [negaMul_sum_left]
        refine Finset.sum_congr rfl fun u _ => ?_
        rw [negaMul_sum_right, Finset.sum_mul]
        exact Finset.sum_congr rfl fun v _ => by rw [Nat.add_mul, pow_add]; ring

section
variable {c : Conf} (hc : 1 ≤ c.limbCount.toNat) (hW : c.width ≤ c.limbCount.toNat * c.limbBits.toNat) {a : List Coef}
  (ha : WBitPoly c.width c.degree a) {j : Nat} (hj : j < c.degree)
include hc hW ha hj

theorem limbValue_firstLimbs : limbValue c.limbBits.toNat (firstLimbs c a) j = polyValue c a j := by
  obtain ⟨hlen, hbits⟩ := ha
  have hja : j < a.length := by rwa [hlen]
  have small : (coefAt a j).toNat < 2 ^ c.width := by
    rw [coefAt, List.getD_eq_getElem _ _ hja]
    exact hbits _ (List.getElem_mem hja)
  rw [limbValue, length_firstLimbs, polyValue, val_eq_sum_limbs hc hW c.sgn small]
  refine Finset.sum_congr rfl fun k hk => ?_
  have limb : intAt ((firstLimbs c a).getD k []) j
      = intAt (limbs c.width c.sgn c.limbBits.toNat c.limbCount.toNat (coefAt a j)) k := by
    rw [List.getD_eq_getElem?_getD, firstLimbs, limbPolys_getElem? _ _ _ _ (Finset.mem_range.1 hk)]
    simp [intAt, coefAt, hja]
  rw [limb]

theorem limbValue_secondLimbs (short : Bool) :
    limbValue c.limbBits.toNat (secondLimbs c short a) j = polyValue c a j := by
  cases short with
  | false => exact limbValue_firstLimbs hc hW ha hj
  | true =>
    have hja : j < a.length := by rwa [ha.1]
    simp [limbValue, secondLimbs, intAt, polyValue, coefAt, hja]

end

/-- Within the budget that `SafeProduct` assumes every slot product is recovered (R151). -/
theorem splitExact_of_safeProduct {k : Caps} {safeBits : Config.Budget} (hk : SafeProduct k safeBits) {c : Conf}
    (hmin : k.minLogn ≤ c.log) (hmax : c.log ≤ k.maxLogn) (hc : 1 ≤ c.limbCount.toNat) (d : Draw) (short : Bool)
    {a q : List Coef} (ha : a.length = c.degree) (hq : q.length = c.degree)
    (hb : InBudget safeBits c.log (firstLimbs c a) (secondLimbs c short q)) : SplitExact c d short a q := by
  have full : ∀ z ∈ firstLimbs c a ++ secondLimbs c short q, z.length = 2 ^ c.log :=
    List.forall_mem_append.2 ⟨length_of_mem_firstLimbs ha, length_of_mem_secondLimbs hq short⟩
  have first : 1 ≤ (firstLimbs c a).length ∧ (firstLimbs c a).length ≤ 255 := by
    rw [length_firstLimbs]
    exact ⟨hc, Nat.le_of_lt_succ c.limbCount.isLt⟩
  exact hk c.log d _ _ hmin hmax first.1 first.2 (one_le_length_secondLimbs hc short q)
    (length_secondLimbs_le c short q) full hb

/-- Where every slot product is exact, the product is (R140). -/
theorem coefAt_product_of_splitExact {c : Conf} (hs : c.karaEffective = false) (hl : 1 ≤ c.log)
    (hc : 1 ≤ c.limbCount.toNat) (hW : c.width ≤ c.limbCount.toNat * c.limbBits.toNat) {d : Draw} {short : Bool}
    {a q : List Coef} (ha : WBitPoly c.width c.degree a) (hq : WBitPoly c.width c.degree q)
    (hexact : SplitExact c d short a q) {j : Nat} (hj : j < c.degree) :
    coefAt (product c d short a q) j = wrap c.width (negaMul c.degree (polyValue c a) (polyValue c q) j) := by
  rw [coefAt_product_of_slots hs hl hc d short ha.1 hq.1 hj fun slot hslot => hexact slot hslot j hj, sum_slotProduct]
  exact congrArg _ (negaMul_congr j (fun i hi => limbValue_firstLimbs hc hW ha hi)
    fun i hi => limbValue_secondLimbs hc hW hq hi short)

/-! ## The commands under SPLIT -/

/-- There is a limb, and together the limbs are at least as wide as a coefficient (R91). -/
theorem State.Inv.limbs_cover {s : State} (hi : s.Inv) (hc : s.conf.cfgd = true) :
    1 ≤ s.conf.limbCount.toNat ∧ s.conf.width ≤ s.conf.limbCount.toNat * s.conf.limbBits.toNat := by
  have legal := hi.confLegal
  rw [Conf.legal, if_pos hc, Bool.not_eq_true'] at legal
  obtain ⟨-, -, -, -, count, wide, -⟩ := configError_eq_false legal
  exact ⟨count, wide⟩

/-- A command of the family on ready operands where the effective strategy is SPLIT and every slot product is exact. -/
theorem mulCommand_of_split {s : State} (hi : s.Inv) (hs : s.conf.karaEffective = false) {acc : Acc} {short : Bool}
    {pd pa pb : PolySlot} (hr : s.ready ⟨.poly pd, acc.readsDestination, [.poly pa, .poly pb]⟩ = true)
    (hexact : SplitExact s.conf s.draw short (s.coefs pa) (s.coefs pb)) :
    ∃ t, mulCommand acc short pd pa pb s = .next t ∧ PolyWritten s t pd fun j => wrap s.conf.width
      (combineInt acc (uval (s.coef pd j)) (negaMul s.conf.degree (s.value pa) (s.value pb) j)) := by
  have ha := wBitPoly_coefs hi (State.holds_of_ready hr (x := .poly pa) (by simp))
  have hb := wBitPoly_coefs hi (State.holds_of_ready hr (x := .poly pb) (by simp))
  have configured := State.cfgd_of_ready hr
  obtain ⟨count, wide⟩ := hi.limbs_cover configured
  exact mulCommand_of_product hi hr fun j hj =>
    coefAt_product_of_splitExact hs (hi.log_bounds configured).1 count wide ha hb hexact hj

/-- Settles O51: the lists of the machine are the loops of R146 and R147; `SafeProduct` is applied to the limbs of the
operands; and `NegaMul` is bilinear. -/
theorem mulFamilyUnderSplit : Obligations.MulFamilyUnderSplit := by
  unfold Obligations.MulFamilyUnderSplit
  simp only [← Conf.karaEffective_eq_false_iff]
  refine ⟨fun c d short a q j hs hl hc ha hq hj => ⟨?_, fun Rz => ?_⟩, fun k safeBits c d short a q => ?_,
    fun s pd pa pb hi hs => ⟨fun hr => ⟨?_, ?_⟩, fun hr => ⟨?_, ?_⟩⟩⟩
  · exact coefAt_product_of_none hs hl hc d short ha hq hj
  · exact coefAt_product_of_slots hs hl hc d short ha hq hj
  · exact fun hk hmin hmax hc ha hq => splitExact_of_safeProduct hk hmin hmax hc d short ha hq
  · exact mulCommand_of_split hi hs (acc := .overwrite) hr
  · exact mulCommand_of_split hi hs (acc := .overwrite) hr
  · exact fun hexact => ⟨mulCommand_of_split hi hs (acc := .addInto) hr hexact,
      mulCommand_of_split hi hs (acc := .subFrom) hr hexact⟩
  · exact fun hexact => ⟨mulCommand_of_split hi hs (acc := .addInto) hr hexact,
      mulCommand_of_split hi hs (acc := .subFrom) hr hexact⟩

end Sys2Proof.Machine
end

section
/-! PROOFS. The Karatsuba node and product as lists of exact coefficients (R171, R177), and the numbering of the scratch
tree (R175): level by level, the flat numbers under a node are consecutive, and the levels of the root fill the buffer. -/

namespace Sys2Proof.Machine

/-! ## The products as lists -/

theorem eq_map_range_of_coefAt {a : List Coef} {n : Nat} {f : Nat → Coef} (hlen : a.length = n)
    (h : ∀ k, k < n → coefAt a k = f k) : a = (List.range n).map f := by
  subst hlen
  rw [← tabulate_start]
  exact (tabulate_getD a 0).symm.trans (tabulate_congr fun k _ hk => h k (by omega))

/-- Settles O48: the node has 2h coefficients, and each is that of the plain product. -/
theorem karatsubaNodeIsPlainProduct : Obligations.KaratsubaNodeIsPlainProduct := by
  unfold Obligations.KaratsubaNodeIsPlainProduct
  intro W kt l x y hW _ hx hy
  rw [← pow_succ']
  exact eq_map_range_of_coefAt (length_kmul W kt l x y hx hy) fun k hk => coefAt_kmul hW kt hx hy hk

/-- Settles O49: the product has N coefficients, and each is that of `NegaMul`. -/
theorem karatsubaIsExact : Obligations.KaratsubaIsExact := by
  unfold Obligations.KaratsubaIsExact
  intro c sgn a q _ ha hq
  exact eq_map_range_of_coefAt (length_karaProduct c a q ha.1 hq.1) fun j hj =>
    coefAt_karaProduct c sgn ha.1 hq.1 hj

/-! ## Flat numbers (R175) -/

theorem scratchNumber_add (depth i j : Nat) : scratchNumber depth i + j = scratchNumber depth (i + j) :=
  Nat.add_assoc ..

/-- A level begins where the one above it ends. -/
theorem scratchNumber_succ (depth index : Nat) :
    scratchNumber (depth + 1) index = scratchNumber depth (3 ^ depth + index) := by
  have positive : 0 < 3 ^ depth := Nat.pow_pos (by decide)
  simp only [scratchNumber, pow_succ]
  omega

/-- The flat numbers of the nodes `e` levels below the node (δ, ι): the indices from 3^e·ι on, 3^e of them. -/
def scratchLevel (depth index e : Nat) : List Nat :=
  List.range' (scratchNumber (depth + e) (3 ^ e * index)) (3 ^ e)

theorem scratchLevel_zero (depth index : Nat) : scratchLevel depth index 0 = [scratchNumber depth index] := by
  simp [scratchLevel]

/-- The levels under the three children of a node are the levels under the node, one further down. -/
theorem scratchLevel_children (depth index e : Nat) :
    scratchLevel (depth + 1) (3 * index) e ++ scratchLevel (depth + 1) (3 * index + 1) e
      ++ scratchLevel (depth + 1) (3 * index + 2) e = scratchLevel depth index (e + 1) := by
  have deeper : depth + 1 + e = depth + (e + 1) := by omega
  have first : 3 ^ e * (3 * index) = 3 ^ (e + 1) * index := by ring
  have third : 3 ^ e * (3 * index + 2) = 3 ^ (e + 1) * index + (3 ^ e + 3 ^ e) := by ring
  have count : 3 ^ e + 3 ^ e + 3 ^ e = 3 ^ (e + 1) := by ring
  rw [scratchLevel, scratchLevel, scratchLevel, scratchLevel, deeper, Nat.mul_succ, first, third, ← scratchNumber_add,
    ← scratchNumber_add, List.range'_append_1, List.range'_append_1, count]

/-- The depth of the leaves under a node of size 2^l (R175). -/
def leafDepth (kt l : Nat) : Nat := if kt ≤ l then l - kt + 1 else 0

theorem leafDepth_eq_zero {kt l : Nat} (h : l < kt) : leafDepth kt l = 0 := if_neg h.not_ge

theorem leafDepth_succ {kt l : Nat} (h : ¬ l + 1 < kt) : leafDepth kt (l + 1) = leafDepth kt l + 1 := by
  unfold leafDepth
  split_ifs <;> omega

/-- The flat numbers under the node (δ, ι), down to n levels below it. -/
def subtreeNumbers (depth index n : Nat) : List Nat := (List.range (n + 1)).flatMap (scratchLevel depth index)

theorem subtreeNumbers_zero (depth index : Nat) : subtreeNumbers depth index 0 = [scratchNumber depth index] := by
  simp [subtreeNumbers, scratchLevel_zero]

/-- A node and the subtrees of its three children. -/
theorem subtreeNumbers_succ_perm (depth index n : Nat) :
    (scratchNumber depth index :: (subtreeNumbers (depth + 1) (3 * index) n
      ++ subtreeNumbers (depth + 1) (3 * index + 1) n ++ subtreeNumbers (depth + 1) (3 * index + 2) n)).Perm
      (subtreeNumbers depth index (n + 1)) := by
  have top : subtreeNumbers depth index (n + 1)
      = scratchNumber depth index :: (List.range (n + 1)).flatMap fun e => scratchLevel depth index (e + 1) := by
    rw [subtreeNumbers, List.range_succ_eq_map, List.flatMap_cons, scratchLevel_zero, List.flatMap_map,
      List.singleton_append]
  simp only [top, ← scratchLevel_children]
  exact (((List.flatMap_append_perm _ _ _).append_right _).trans (List.flatMap_append_perm _ _ _)).cons _

/-- Under the root nothing is left out: the levels fill the buffer from 0 on. -/
theorem subtreeNumbers_root (n : Nat) : subtreeNumbers 0 0 n = List.range ((3 ^ (n + 1) - 1) / 2) := by
  induction n with
  | zero => rfl
  | succ n ih =>
    have level : scratchLevel 0 0 (n + 1) = List.range' ((3 ^ (n + 1) - 1) / 2) (3 ^ (n + 1)) := by
      simp [scratchLevel, scratchNumber]
    have count : (3 ^ (n + 1 + 1) - 1) / 2 = (3 ^ (n + 1) - 1) / 2 + 3 ^ (n + 1) := scratchNumber_succ (n + 1) 0
    rw [subtreeNumbers, List.range_succ, List.flatMap_append, ← subtreeNumbers, ih, List.flatMap_singleton, level,
      count, List.range_eq_range', List.range_eq_range']
    simpa using List.range'_append_1 (s := 0) (m := (3 ^ (n + 1) - 1) / 2) (n := 3 ^ (n + 1))

/-! ## The scratch tree (R175, R176) -/

section
variable (W kt : Nat)

theorem scratchTree_leaf {l : Nat} (hl : l < kt) (depth index : Nat) (x y : List Coef) :
    scratchTree W kt l depth index x y = [⟨scratchNumber depth index, school W x y, [], []⟩] := by
  cases l with
  | zero => rw [scratchTree]
  | succ l => rw [scratchTree, if_pos hl]

theorem map_number_scratchTree_leaf {l : Nat} (hl : l < kt) (depth index : Nat) (x y : List Coef) :
    (scratchTree W kt l depth index x y).map ScratchNode.number = subtreeNumbers depth index (leafDepth kt l) := by
  rw [scratchTree_leaf W kt hl, leafDepth_eq_zero hl, subtreeNumbers_zero, List.map_singleton]

/-- The flat numbers of a tree, in some order, are those of its levels. -/
theorem map_number_scratchTree_perm (hk : 1 ≤ kt) (l depth index : Nat) (x y : List Coef) :
    ((scratchTree W kt l depth index x y).map ScratchNode.number).Perm
      (subtreeNumbers depth index (leafDepth kt l)) := by
  induction l generalizing depth index x y with
  | zero => exact .of_eq (map_number_scratchTree_leaf W kt hk ..)
  | succ l ih =>
    by_cases hl : l + 1 < kt
    · exact .of_eq (map_number_scratchTree_leaf W kt hl ..)
    · rw [scratchTree, if_neg hl, leafDepth_succ hl, List.map_cons, List.map_append, List.map_append]
      exact ((((ih ..).append (ih ..)).append (ih ..)).cons _).trans (subtreeNumbers_succ_perm ..)

/-- The node itself comes first and holds the product of its operands (R176). -/
theorem head?_scratchTree (l depth index : Nat) (x y : List Coef) :
    (scratchTree W kt l depth index x y).head?.map (fun m => (m.number, m.res))
      = some (scratchNumber depth index, kmul W kt l x y) := by
  cases l with
  | zero => rw [scratchTree, kmul]; rfl
  | succ l =>
    rw [scratchTree]
    split
    · next hl => rw [kmul, if_pos hl]; rfl
    · rfl

end

/-- Settles O56: the numbers of the tree are a permutation of 0 to (3^(D+1) − 1)/2 − 1, and its head is the root. -/
theorem scratchTreeFillsItsBuffer : Obligations.ScratchTreeFillsItsBuffer := by
  unfold Obligations.ScratchTreeFillsItsBuffer
  intro W kt l x y hk _ _ D T
  have numbers : (T.map ScratchNode.number).Perm (List.range ((3 ^ (D + 1) - 1) / 2)) :=
    subtreeNumbers_root D ▸ map_number_scratchTree_perm W kt hk l 0 0 x y
  have size : T.length = (3 ^ (D + 1) - 1) / 2 := by simpa using numbers.length_eq
  refine ⟨size, fun v hv => ?_, numbers.nodup_iff.2 List.nodup_range, head?_scratchTree W kt l 0 0 x y⟩
  exact List.mem_map.1 (numbers.mem_iff.2 (List.mem_range.2 (size ▸ hv)))

end Sys2Proof.Machine
end

section
/-! PROOFS. The coefficient-wise commands (R190 to R193): what each writes, coefficient by coefficient; and the laws of
R195, which are ring identities once lists of patterns are read as polynomials modulo 2^W. -/

namespace Sys2Proof.Machine

open Polynomial

/-! ## What the commands write -/

/-- A Poly of the configured degree is the list of its coefficients. -/
theorem State.Inv.coefs_eq_map_range {s : State} (hi : s.Inv) {n : PolySlot} (h : s.holds (.poly n) = true) :
    s.coefs n = (List.range s.conf.degree).map (s.coef n) :=
  eq_map_range_of_coefAt (wBitPoly_coefs hi h).1 fun _ _ => rfl

section
variable {s : State} (hi : s.Inv) {pa pb : PolySlot} (ha : s.holds (.poly pa) = true)
include hi ha

theorem map_coefs (f : Coef → Coef) :
    (s.coefs pa).map f = (List.range s.conf.degree).map fun j => f (s.coef pa j) := by
  rw [hi.coefs_eq_map_range ha, List.map_map]
  rfl

theorem zipWith_coefs (hb : s.holds (.poly pb) = true) (f : Coef → Coef → Coef) :
    List.zipWith f (s.coefs pa) (s.coefs pb)
      = (List.range s.conf.degree).map fun j => f (s.coef pa j) (s.coef pb j) := by
  rw [hi.coefs_eq_map_range ha, hi.coefs_eq_map_range hb, List.zipWith_map, List.zipWith_self]

end

/-- Settles O25: the operands have N coefficients each, and the commands work on them coefficient by coefficient. -/
theorem paddPsubResult : Obligations.PaddPsubResult := by
  unfold Obligations.PaddPsubResult
  intro s pd pa pb hi hr
  have written := zipWith_coefs hi (State.holds_of_ready hr (x := .poly pa) (by simp))
    (State.holds_of_ready hr (x := .poly pb) (by simp))
  exact ⟨⟨_, ringCommand_of_ready hr _, polyWritten_of_list (written (addCoef s.conf.width))⟩,
    ⟨_, ringCommand_of_ready hr _, polyWritten_of_list (written (subCoef s.conf.width))⟩⟩

/-- Settles O26: the operand has N coefficients, and the commands work on it coefficient by coefficient. -/
theorem pnegPsclResult : Obligations.PnegPsclResult := by
  unfold Obligations.PnegPsclResult
  intro s pd pa imm hi hr
  have written := map_coefs hi (State.holds_of_ready hr (x := .poly pa) (by simp))
  exact ⟨⟨_, ringCommand_of_ready hr _, polyWritten_of_list (written (negCoef s.conf.width))⟩,
    ⟨_, ringCommand_of_ready hr _,
      polyWritten_of_list (written (sclCoef s.conf.width (scalarOf s.conf.width imm)))⟩⟩

/-! ## Lists of W-bit patterns as polynomials modulo 2^W -/

/-- Patterns of W bits are determined by their residues, so lists of them by their polynomials. -/
theorem WBitPoly.eq_of_polyMod_eq {W N : Nat} {x y : List Coef} (hx : WBitPoly W N x) (hy : WBitPoly W N y)
    (h : polyMod W x = polyMod W y) : x = y := by
  obtain ⟨hxlen, hxbits⟩ := hx
  obtain ⟨hylen, hybits⟩ := hy
  refine List.ext_getElem (hxlen.trans hylen.symm) fun k hkx hky => ?_
  have residues : (uval (coefAt x k) : ZMod (2 ^ W)) = ((uval (coefAt y k) : Int) : ZMod (2 ^ W)) := by
    rw [Int.cast_natCast, ← coeff_polyMod hkx, h, coeff_polyMod hky]
  rw [coefAt, coefAt, List.getD_eq_getElem _ _ hkx, List.getD_eq_getElem _ _ hky] at residues
  rw [eq_wrap_of_cast (hxbits _ (List.getElem_mem hkx)) residues, wrap_uval (hybits _ (List.getElem_mem hky))]

/-- A map that multiplies every residue by `k` multiplies the polynomial by `k`. -/
theorem polyMod_map {W : Nat} {f : Coef → Coef} {k : ZMod (2 ^ W)}
    (hf : ∀ x, (uval (f x) : ZMod (2 ^ W)) = k * uval x) (x : List Coef) :
    polyMod W (x.map f) = C k * polyMod W x := by
  induction x with
  | nil => exact (mul_zero _).symm
  | cons d x ih =>
    rw [List.map_cons, polyMod_cons, polyMod_cons, ih, hf, C_mul]
    ring

section
variable {W : Nat} (hW : W ≤ 64)
include hW

theorem polyMod_map_neg (x : List Coef) : polyMod W (x.map (negCoef W)) = -polyMod W x := by
  have residue : ∀ d, (uval (negCoef W d) : ZMod (2 ^ W)) = -1 * uval d := fun d => by
    rw [negCoef, cast_uval_wrap hW]
    push_cast
    ring
  rw [polyMod_map residue, C_neg, C_1, neg_one_mul]

theorem polyMod_map_scl (c : Nat) (x : List Coef) :
    polyMod W (x.map (sclCoef W c)) = C (c : ZMod (2 ^ W)) * polyMod W x :=
  polyMod_map (fun d => by
    rw [sclCoef, cast_uval_wrap hW]
    push_cast
    ring) x

variable {N : Nat} {a b e : List Coef} (ha : WBitPoly W N a) (hb : WBitPoly W N b) (he : WBitPoly W N e)

section
include ha

theorem WBitPoly.neg : WBitPoly W N (a.map (negCoef W)) := wBitPoly_map (fun _ => wrap_lt hW _) ha.1

theorem WBitPoly.scl (c : Nat) : WBitPoly W N (a.map (sclCoef W c)) := wBitPoly_map (fun _ => wrap_lt hW _) ha.1

end

section
include ha hb

theorem WBitPoly.add : WBitPoly W N (List.zipWith (addCoef W) a b) :=
  wBitPoly_zipWith (fun _ _ => wrap_lt hW _) ha.1 hb.1

theorem WBitPoly.sub : WBitPoly W N (List.zipWith (subCoef W) a b) :=
  wBitPoly_zipWith (fun _ _ => wrap_lt hW _) ha.1 hb.1

theorem WBitPoly.polyMod_add : polyMod W (List.zipWith (addCoef W) a b) = polyMod W a + polyMod W b :=
  polyMod_zipWith_add hW (ha.1.trans hb.1.symm)

theorem WBitPoly.polyMod_sub : polyMod W (List.zipWith (subCoef W) a b) = polyMod W a - polyMod W b :=
  polyMod_zipWith_sub hW (ha.1.trans hb.1.symm)

end

/-! ## The laws of the ring Z/2^W[X] (R195) -/

section
include ha

theorem padd_pneg_self : List.zipWith (addCoef W) a (a.map (negCoef W)) = List.replicate N 0 :=
  (ha.add hW (ha.neg hW)).eq_of_polyMod_eq (wBitPoly_zero W N) (by
    rw [ha.polyMod_add hW (ha.neg hW), polyMod_map_neg hW, polyMod_zero, add_neg_cancel])

include hb

theorem padd_comm : List.zipWith (addCoef W) a b = List.zipWith (addCoef W) b a :=
  (ha.add hW hb).eq_of_polyMod_eq (hb.add hW ha) (by rw [ha.polyMod_add hW hb, hb.polyMod_add hW ha, add_comm])

theorem psub_eq_padd_pneg : List.zipWith (subCoef W) a b = List.zipWith (addCoef W) a (b.map (negCoef W)) :=
  (ha.sub hW hb).eq_of_polyMod_eq (ha.add hW (hb.neg hW)) (by
    rw [ha.polyMod_sub hW hb, ha.polyMod_add hW (hb.neg hW), polyMod_map_neg hW, sub_eq_add_neg])

theorem pscl_padd (c : Nat) : (List.zipWith (addCoef W) a b).map (sclCoef W c)
    = List.zipWith (addCoef W) (a.map (sclCoef W c)) (b.map (sclCoef W c)) :=
  ((ha.add hW hb).scl hW c).eq_of_polyMod_eq ((ha.scl hW c).add hW (hb.scl hW c)) (by
    rw [(ha.scl hW c).polyMod_add hW (hb.scl hW c), polyMod_map_scl hW, polyMod_map_scl hW, polyMod_map_scl hW,
      ha.polyMod_add hW hb, mul_add])

include he

theorem padd_assoc : List.zipWith (addCoef W) (List.zipWith (addCoef W) a b) e
    = List.zipWith (addCoef W) a (List.zipWith (addCoef W) b e) :=
  ((ha.add hW hb).add hW he).eq_of_polyMod_eq (ha.add hW (hb.add hW he)) (by
    rw [(ha.add hW hb).polyMod_add hW he, ha.polyMod_add hW (hb.add hW he), ha.polyMod_add hW hb,
      hb.polyMod_add hW he, add_assoc])

end

end

/-! ## The product under KARA distributes over PADD (R195) -/

/-- The exact product is linear in its first operand (R13). -/
theorem negaMul_add_left (N : Nat) (a a' b : Nat → Int) (k : Nat) :
    negaMul N (fun u => a u + a' u) b k = negaMul N a b k + negaMul N a' b k := by
  simp only [negaMul, ← Finset.sum_add_distrib]
  refine Finset.sum_congr rfl fun u _ => Finset.sum_congr rfl fun v _ => ?_
  split_ifs <;> ring

theorem addCoef_wrap {W : Nat} (hW : W ≤ 64) (x y : Int) : addCoef W (wrap W x) (wrap W y) = wrap W (x + y) :=
  wrap_eq_of_cast (by
    push_cast
    rw [cast_uval_wrap hW, cast_uval_wrap hW])

/-- The residues of a sum of two Polys, beyond its N coefficients too. -/
theorem cast_uval_coefAt_add {W : Nat} (hW : W ≤ 64) {a b : List Coef} (h : a.length = b.length) (j : Nat) :
    (uval (coefAt (List.zipWith (addCoef W) a b) j) : ZMod (2 ^ W)) = uval (coefAt a j) + uval (coefAt b j) := by
  by_cases hj : j < a.length
  · have hjb : j < b.length := h ▸ hj
    have entry : coefAt (List.zipWith (addCoef W) a b) j = addCoef W (coefAt a j) (coefAt b j) := by
      simp [coefAt, hj, hjb]
    rw [entry, addCoef, cast_uval_wrap hW]
    push_cast
    rfl
  · have hjb : ¬ j < b.length := h ▸ hj
    simp [coefAt, uval, hj, hjb]

theorem karaProduct_eq_map_range (c : Conf) {a q : List Coef} (ha : a.length = c.degree) (hq : q.length = c.degree) :
    karaProduct c a q = (List.range c.degree).map fun j =>
      wrap c.width (negaMul c.degree (fun u => uval (coefAt a u)) (fun u => uval (coefAt q u)) j) :=
  eq_map_range_of_coefAt (length_karaProduct c a q ha hq) fun _ hj => coefAt_karaProduct c false ha hq hj

theorem karaProduct_padd (c : Conf) {a b q : List Coef} (ha : a.length = c.degree) (hb : b.length = c.degree)
    (hq : q.length = c.degree) : karaProduct c (List.zipWith (addCoef c.width) a b) q
      = List.zipWith (addCoef c.width) (karaProduct c a q) (karaProduct c b q) := by
  have hsum : (List.zipWith (addCoef c.width) a b).length = c.degree := by rw [List.length_zipWith, ha, hb, min_self]
  have residue : ∀ u, (((uval (coefAt (List.zipWith (addCoef c.width) a b) u) : Nat) : Int) : ZMod (2 ^ c.width))
      = ((uval (coefAt a u) + uval (coefAt b u) : Int) : ZMod (2 ^ c.width)) := fun u => by
    push_cast
    exact cast_uval_coefAt_add c.width_le (ha.trans hb.symm) u
  rw [karaProduct_eq_map_range c hsum hq, karaProduct_eq_map_range c ha hq, karaProduct_eq_map_range c hb hq,
    List.zipWith_map, List.zipWith_self]
  refine List.map_congr_left fun j _ => ?_
  rw [addCoef_wrap c.width_le, ← negaMul_add_left]
  exact wrap_eq_of_cast (cast_negaMul residue (fun _ => rfl) j)

/-- Settles O27: the commands are the operations of Z/2^W[X] on the polynomials of their operands, and the exact
product is linear. -/
theorem linearLaws : Obligations.LinearLaws := by
  unfold Obligations.LinearLaws
  intro W N a b e c hW ha hb he
  refine ⟨padd_pneg_self hW ha, padd_comm hW ha hb, padd_assoc hW ha hb he, psub_eq_padd_pneg hW ha hb,
    pscl_padd hW ha hb c, ?_⟩
  rintro k rfl rfl
  exact karaProduct_padd k ha.1 hb.1 he.1

end Sys2Proof.Machine
end

section
/-! PROOFS. The index remapper (R200 to R204): MONO and PERM send coefficient i to an exponent modulo 2N, read as an
index and a sign, and no two coefficients to one index; with that what MONO, PERM and FPERM write. -/

namespace Sys2Proof.Machine

/-! ## Targets as exponents modulo 2N -/

/-- Where the coefficient of X^t lies modulo X^N + 1. -/
def exponentTarget (N t : Nat) : Target :=
  if t % (2 * N) < N then ⟨t % (2 * N), false⟩ else ⟨t % (2 * N) - N, true⟩

theorem exponentTarget_index (N t : Nat) : (exponentTarget N t).index = t % N := by
  have residue : t % (2 * N) % N = t % N := Nat.mod_mod_of_dvd t (Nat.dvd_mul_left N 2)
  unfold exponentTarget
  split
  case isTrue h => rw [← residue, Nat.mod_eq_of_lt h]
  case isFalse h =>
    rcases Nat.eq_zero_or_pos N with rfl | hN
    · simp
    · have hlt := Nat.mod_lt t (by omega : 0 < 2 * N)
      have above : t % (2 * N) % N = t % (2 * N) - N := by
        rw [Nat.mod_eq_sub_mod (Nat.le_of_not_lt h), Nat.mod_eq_of_lt (by omega)]
      exact above.symm.trans residue

/-- `target` sends coefficient i to the exponent `t i` for every i < N, and no two of them to one index. -/
structure Relabels (N : Nat) (target : Nat → Target) (t : Nat → Nat) : Prop where
  /-- the index and the sign are those of the exponent -/
  target_eq : ∀ i, i < N → target i = exponentTarget N (t i)
  /-- two coefficients have two indices -/
  injOn : Set.InjOn (fun i => t i % N) (Set.Iio N)

/-- A map of the numbers below n into themselves that is injective reaches each of them once. -/
theorem existsUnique_of_injOn {n : Nat} {f : Nat → Nat} (hlt : ∀ i, i < n → f i < n) (hf : Set.InjOn f (Set.Iio n))
    {k : Nat} (hk : k < n) : ∃! i, i < n ∧ f i = k := by
  obtain ⟨i, hi, hik⟩ := (((Set.finite_Iio n).injOn_iff_bijOn_of_mapsTo hlt).1 hf).surjOn hk
  exact ⟨i, ⟨hi, hik⟩, fun j ⟨hj, hjk⟩ => hf hj hi (hjk.trans hik.symm)⟩

/-- The four cases of R200 are the exponent i + d. -/
theorem monoTarget_eq {N d i : Nat} (hd : d < 2 * N) (hi : i < N) : monoTarget N d i = exponentTarget N (i + d) := by
  unfold monoTarget exponentTarget
  rcases Nat.lt_or_ge d N with h | h
  · rw [Nat.div_eq_of_lt h, Nat.mod_eq_of_lt h, if_pos rfl, Nat.mod_eq_of_lt (by omega : i + d < 2 * N)]
  · have hdiv : d / N = 1 ∧ d % N = d - N := (Nat.div_mod_unique (by omega)).2 (by omega)
    rw [hdiv.1, hdiv.2, if_neg one_ne_zero]
    rcases Nat.lt_or_ge (i + d) (2 * N) with h' | h'
    · rw [Nat.mod_eq_of_lt h', if_pos (by omega), if_neg (by omega), Nat.add_sub_assoc h]
    · rw [Nat.mod_eq_sub_mod h', Nat.mod_eq_of_lt (by omega : i + d - 2 * N < 2 * N), if_neg (by omega),
        if_pos (by omega), show i + (d - N) - N = i + d - 2 * N by omega]

theorem relabels_mono {N d : Nat} (hd : d < 2 * N) : Relabels N (monoTarget N d) fun i => i + d where
  target_eq _ hi := monoTarget_eq hd hi
  injOn _ hi _ hj h := (Nat.ModEq.add_right_cancel' d h).eq_of_lt_of_lt hi hj

theorem relabels_perm {logn d : Nat} (hd : d % 2 = 1) :
    Relabels (2 ^ logn) (permTarget (2 ^ logn) d) fun i => d * i where
  target_eq _ _ := rfl
  injOn _ hi _ hj h := by
    have coprime : Nat.gcd (2 ^ logn) d = 1 := ((Nat.coprime_two_left.2 (Nat.odd_iff.2 hd)).pow_left logn)
    exact (Nat.ModEq.cancel_left_of_coprime coprime h).eq_of_lt_of_lt hi hj

/-! ## The degree immediate (R72(b)) -/

theorem degreeOf_eq (logn : Nat) (imm : BitVec 64) : degreeOf logn imm = imm.toNat % (2 * 2 ^ logn) := by
  rw [degreeOf, pow_succ']

theorem degreeOf_lt (logn : Nat) (imm : BitVec 64) : degreeOf logn imm < 2 * 2 ^ logn := by
  rw [degreeOf_eq]
  exact Nat.mod_lt _ (by positivity)

theorem getLsbD_zero_eq_true_iff {imm : BitVec 64} : imm.getLsbD 0 = true ↔ imm.toNat % 2 = 1 := by
  rw [BitVec.getLsbD, Nat.testBit_zero, decide_eq_true_iff]

theorem degreeOf_odd (logn : Nat) {imm : BitVec 64} (h : imm.getLsbD 0 = true) : degreeOf logn imm % 2 = 1 := by
  rw [degreeOf_eq, Nat.mod_mod_of_dvd _ (Nat.dvd_mul_right 2 _), getLsbD_zero_eq_true_iff.1 h]

/-! ## The loop over the source coefficients -/

/-- The loop leaves what no source coefficient is written to. -/
theorem coefAt_scatter_of_ne (W : Nat) (target : Nat → Target) (i : Nat) (a dst : List Coef) {k : Nat}
    (h : ∀ j, j < a.length → (target (i + j)).index ≠ k) : coefAt (scatter W target i a dst) k = coefAt dst k := by
  induction a generalizing i dst with
  | nil => rfl
  | cons c a ih =>
    have head : (target i).index ≠ k := h 0 (Nat.zero_lt_succ _)
    rw [scatter, ih (i + 1) _ fun j hj => by rw [Nat.add_right_comm]; exact h (j + 1) (Nat.succ_lt_succ hj)]
    simp [coefAt, head]

/-- Where one source coefficient only is written, the loop leaves that one. -/
theorem coefAt_scatter (W : Nat) (target : Nat → Target) (i : Nat) (a dst : List Coef) {j k : Nat} {negate : Bool}
    (hj : j < a.length) (ht : target (i + j) = ⟨k, negate⟩) (hk : k < dst.length)
    (honly : ∀ j', j' < a.length → (target (i + j')).index = k → j' = j) :
    coefAt (scatter W target i a dst) k = signed W negate (coefAt a j) := by
  induction a generalizing i j dst with
  | nil => cases hj
  | cons c a ih =>
    have next : ∀ j', i + 1 + j' = i + (j' + 1) := fun j' => Nat.add_right_comm i 1 j'
    rw [scatter]
    cases j with
    | zero =>
      rw [Nat.add_zero] at ht
      rw [ht, coefAt_scatter_of_ne, coefAt_set hk, if_pos rfl]
      · rfl
      · intro j' hj' hindex
        exact Nat.succ_ne_zero j' (honly (j' + 1) (Nat.succ_lt_succ hj') (by rwa [← next]))
    | succ j =>
      exact ih (i + 1) _ (Nat.lt_of_succ_lt_succ hj) (by rwa [next]) (by rwa [List.length_set]) fun j' hj' hindex =>
        Nat.succ.inj (honly (j' + 1) (Nat.succ_lt_succ hj') (by rwa [← next]))

/-- Coefficient i is found where it was sent. -/
theorem Relabels.coefAt_remap {N : Nat} {target : Nat → Target} {t : Nat → Nat} (h : Relabels N target t) (W : Nat)
    {a : List Coef} (ha : a.length = N) {i k : Nat} {negate : Bool} (hi : i < N) (ht : target i = ⟨k, negate⟩) :
    coefAt (remap W N target a) k = signed W negate (coefAt a i) := by
  have index : ∀ j, j < N → (target j).index = t j % N := fun j hj => by
    rw [h.target_eq j hj, exponentTarget_index]
  have hk : k = t i % N := by rw [← index i hi, ht]
  have ht' : target (0 + i) = ⟨k, negate⟩ := by rwa [Nat.zero_add]
  refine coefAt_scatter W target 0 a _ (ha ▸ hi) ht' ?_ fun j hj hjk => ?_
  · rw [List.length_replicate, hk]
    exact Nat.mod_lt _ (by omega)
  · rw [Nat.zero_add] at hjk
    exact h.injOn (ha ▸ hj) hi (by show t j % N = t i % N; rw [← index j (ha ▸ hj), hjk, hk])

theorem remap_eq_map_range (W N : Nat) (target : Nat → Target) (a : List Coef) :
    remap W N target a = (List.range N).map (coefAt (remap W N target a)) :=
  eq_map_range_of_coefAt (length_remap ..) fun _ _ => rfl

/-! ## MONO, PERM and FPERM -/

theorem ringCommand_of_error {s : State} {o : Operands} (h : s.ready o = true) {extra : Option ErrCode} {e : ErrCode}
    (hx : extra = some e) (effect : State) : ringCommand s o extra effect = .next (s.raise e) := by
  rw [ringCommand_eq, State.ringError_of_ready h, hx]

theorem overlapError_of_ne {rd ra : BitVec 8} (h : rd ≠ ra) : overlapError rd ra = none := if_neg h

theorem automorphismError_of_even (rd ra : BitVec 8) {imm : BitVec 64} (h : imm.getLsbD 0 = false) :
    automorphismError rd ra imm = some .invalidDegree := if_pos h

theorem automorphismError_of_odd {rd ra : BitVec 8} {imm : BitVec 64} (h : imm.getLsbD 0 = true) (hne : rd ≠ ra) :
    automorphismError rd ra imm = none := by
  rw [automorphismError, if_neg (by simp [h]), overlapError_of_ne hne]

section
variable {s : State} {pd pa : PolySlot} {fd fa : FreqSlot} {imm : BitVec 64}

/-- MONO on ready operands (R200). -/
theorem exec_mono_of_ready (hr : s.ready ⟨.poly pd, false, [.poly pa]⟩ = true) (hne : pd ≠ pa) :
    ∃ t, exec (.mono pd pa imm) s = .next t
      ∧ PolyWritten s t pd (coefAt (monoList s.conf.width s.conf.log imm (s.coefs pa))) := by
  refine ⟨_, ?_, polyWritten_of_list (remap_eq_map_range ..)⟩
  rw [exec, execMono, overlapError_of_ne hne, ringCommand_of_ready hr]
  rfl

/-- PERM by an odd degree on ready operands (R201). -/
theorem exec_perm_of_ready (hr : s.ready ⟨.poly pd, false, [.poly pa]⟩ = true) (hne : pd ≠ pa)
    (hodd : imm.getLsbD 0 = true) : ∃ t, exec (.perm pd pa imm) s = .next t
      ∧ PolyWritten s t pd (coefAt (permList s.conf.width s.conf.log imm (s.coefs pa))) := by
  refine ⟨_, ?_, polyWritten_of_list (remap_eq_map_range ..)⟩
  rw [exec, execPerm, automorphismError_of_odd hodd hne, ringCommand_of_ready hr]
  rfl

theorem permuteLanes_cconj (logn d : Nat) (c : List Cplx) :
    permuteLanes cconj ⟨0, 0⟩ logn d c
      = (List.range (2 ^ (logn - 1))).map (fpermLane logn d fun k => c.getD k ⟨0, 0⟩) :=
  List.map_congr_left fun k _ => by simp only [fpermLane, PCONJ, beq_iff_eq, cconj, fneg]; rfl

/-- FPERM by an odd degree on ready operands (R202). -/
theorem exec_fperm_of_ready (hr : s.ready ⟨.freq fd, false, [.freq fa]⟩ = true) (hne : fd ≠ fa)
    (hodd : imm.getLsbD 0 = true) : ∃ t, exec (.fperm fd fa imm) s = .next t
      ∧ FreqWritten s t fd (fpermLane s.conf.log (degreeOf s.conf.log imm) (s.lane fa)) := by
  refine ⟨_, ?_, freqWritten_of_list (permuteLanes_cconj ..)⟩
  rw [exec, execFperm, automorphismError_of_odd hodd hne, ringCommand_of_ready hr]

end

/-- Settles O28: the target of coefficient i in each of the four cases. -/
theorem monoResult : Obligations.MonoResult := by
  unfold Obligations.MonoResult
  intro s pd pa imm hi hr hne
  obtain ⟨t, ht, written⟩ := exec_mono_of_ready (imm := imm) hr hne
  obtain ⟨hlen, -⟩ := wBitPoly_coefs hi (State.holds_of_ready hr List.mem_cons_self)
  refine ⟨t, _, ht, written, ?_⟩
  intro N d r i hiN
  have sent : ∀ {k negate}, monoTarget N d i = ⟨k, negate⟩ →
      coefAt (monoList s.conf.width s.conf.log imm (s.coefs pa)) k = signed s.conf.width negate (s.coef pa i) := by
    intro k negate htarget
    have hd : degreeOf s.conf.log imm = d := degreeOf_eq ..
    rw [monoList, hd]
    exact (relabels_mono (hd ▸ degreeOf_lt ..)).coefAt_remap _ hlen hiN htarget
  refine ⟨fun hband hlt => sent (negate := false) ?_, fun hband hge => sent (negate := true) ?_,
    fun hband hlt => sent (negate := true) ?_, fun hband hge => sent (negate := false) ?_⟩
  · rw [monoTarget, if_pos hband, if_pos hlt]
  · rw [monoTarget, if_pos hband, if_neg hge.not_gt]
  · rw [monoTarget, if_neg (by omega), if_pos hlt]
  · rw [monoTarget, if_neg (by omega), if_neg hge.not_gt]

/-- Settles O29: the target of coefficient i on either side of N. -/
theorem permResult : Obligations.PermResult := by
  unfold Obligations.PermResult
  intro s pd pa imm hi hr
  refine ⟨fun heven => ⟨_, ringCommand_of_error hr (automorphismError_of_even pd pa heven) _, rfl⟩,
    fun hodd hne => ?_⟩
  obtain ⟨t, ht, written⟩ := exec_perm_of_ready hr hne hodd
  obtain ⟨hlen, -⟩ := wBitPoly_coefs hi (State.holds_of_ready hr List.mem_cons_self)
  refine ⟨t, _, ht, written, ?_⟩
  intro N d i hiN
  have sent : ∀ {k negate}, permTarget N d i = ⟨k, negate⟩ →
      coefAt (permList s.conf.width s.conf.log imm (s.coefs pa)) k = signed s.conf.width negate (s.coef pa i) := by
    intro k negate htarget
    have hd : degreeOf s.conf.log imm = d := degreeOf_eq ..
    rw [permList, hd]
    exact (relabels_perm (hd ▸ degreeOf_odd _ hodd)).coefAt_remap _ hlen hiN htarget
  refine ⟨fun hlt => sent (negate := false) ?_, fun hge => sent (negate := true) ?_⟩
  · rw [permTarget, if_pos hlt]
  · rw [permTarget, if_neg hge.not_gt]

/-- Settles O30: `fpermLane` is the lane of R202. -/
theorem fpermResult : Obligations.FpermResult := by
  unfold Obligations.FpermResult
  intro s fd fa imm hi hr
  refine ⟨fun heven => ⟨_, ringCommand_of_error hr (automorphismError_of_even fd fa heven) _, rfl⟩,
    fun hodd hne => ?_⟩
  obtain ⟨t, ht, written⟩ := exec_fperm_of_ready hr hne hodd
  rw [degreeOf_eq] at written
  exact ⟨t, ht, written⟩

end Sys2Proof.Machine
end

section
/-! PROOFS. The laws of MONO and PERM (R205): in the negacyclic ring, where ζ^N = −1, MONO by d is the multiplication by
ζ^d and PERM by an odd d is the endomorphism that sends ζ to ζ^d, so the laws are identities of rings. -/

namespace Sys2Proof.Machine

open Polynomial

/-! ## Placing a value at an exponent modulo 2N -/

/-- Coefficient k of x·X^t modulo X^N + 1. -/
def placed (N t : Nat) (x : Int) (k : Nat) : Int :=
  if t % (2 * N) = k then x else if t % (2 * N) = k + N then -x else 0

/-- Coefficient k of the polynomial whose coefficient `v i` is sent to the exponent `t i`. -/
def relabeled (N : Nat) (t : Nat → Nat) (v : Nat → Int) (k : Nat) : Int :=
  ∑ i ∈ Finset.range N, placed N (t i) (v i) k

theorem permuted_eq (N d : Nat) (v : Nat → Int) : permuted N d v = relabeled N (fun i => d * i) v := rfl

theorem placed_of_ne {N t k : Nat} (hk : k < N) (h : t % N ≠ k) (x : Int) : placed N t x k = 0 := by
  have index : t % N = t % (2 * N) % N := (Nat.mod_mod_of_dvd t (Nat.dvd_mul_left N 2)).symm
  have low : t % (2 * N) ≠ k := fun e => h (by rw [index, e, Nat.mod_eq_of_lt hk])
  have high : t % (2 * N) ≠ k + N := fun e => h (by rw [index, e, Nat.add_mod_right, Nat.mod_eq_of_lt hk])
  rw [placed, if_neg low, if_neg high]

theorem placed_exponentTarget {N : Nat} (hN : 0 < N) (t : Nat) (x : Int) :
    placed N t x (exponentTarget N t).index = if (exponentTarget N t).negate then -x else x := by
  unfold exponentTarget placed
  split
  case isTrue => rw [if_pos rfl]; rfl
  case isFalse h =>
    have moved : t % (2 * N) ≠ t % (2 * N) - N := by omega
    rw [if_neg moved, if_pos (Nat.sub_add_cancel (Nat.le_of_not_lt h)).symm]
    rfl

theorem negaMul_eq_sum_placed (N : Nat) (a b : Nat → Int) (k : Nat) :
    negaMul N a b k = ∑ u ∈ Finset.range N, ∑ v ∈ Finset.range N, placed N (u + v) (a u * b v) k := by
  refine Finset.sum_congr rfl fun u hu => Finset.sum_congr rfl fun v hv => ?_
  rw [Finset.mem_range] at hu hv
  rw [placed, Nat.mod_eq_of_lt (by omega : u + v < 2 * N)]

section
variable {A : Type} [CommRing A] {ω : A} {N : Nat} (hω : ω ^ N = -1) (hN : 0 < N)
include hω

theorem pow_two_mul_of_pow_eq_neg_one : ω ^ (2 * N) = 1 := by rw [mul_comm, pow_mul, hω, neg_one_sq]

theorem pow_exponentTarget (t : Nat) :
    ω ^ t = (if (exponentTarget N t).negate then -1 else 1) * ω ^ (exponentTarget N t).index := by
  rw [pow_eq_pow_mod t (pow_two_mul_of_pow_eq_neg_one hω)]
  unfold exponentTarget
  split
  case isTrue => exact (one_mul _).symm
  case isFalse h =>
    conv_lhs => rw [← Nat.sub_add_cancel (Nat.le_of_not_lt h), pow_add, hω, mul_comm]
    rfl

include hN

/-- Where the N-th power of ω is −1, the value placed at t is the multiple of ω^t. -/
theorem sum_placed (t : Nat) (x : Int) : ∑ k ∈ Finset.range N, (placed N t x k : A) * ω ^ k = x * ω ^ t := by
  have index := exponentTarget_index N t
  have hlt : (exponentTarget N t).index ∈ Finset.range N := Finset.mem_range.2 (index ▸ Nat.mod_lt t hN)
  have only : ∀ k ∈ Finset.range N, k ≠ (exponentTarget N t).index → (placed N t x k : A) * ω ^ k = 0 :=
    fun k hk hne => by
      rw [placed_of_ne (Finset.mem_range.1 hk) (index ▸ hne.symm), Int.cast_zero, zero_mul]
  rw [Finset.sum_eq_single_of_mem _ hlt only, placed_exponentTarget hN, pow_exponentTarget hω t]
  split
  · push_cast
    ring
  · rw [one_mul]

theorem sum_relabeled (t : Nat → Nat) (v : Nat → Int) :
    ∑ k ∈ Finset.range N, (relabeled N t v k : A) * ω ^ k = ∑ i ∈ Finset.range N, (v i : A) * ω ^ t i := by
  simp only [relabeled, Int.cast_sum, Finset.sum_mul]
  rw [Finset.sum_comm]
  exact Finset.sum_congr rfl fun i _ => sum_placed hω hN (t i) (v i)

theorem sum_negaMul (a b : Nat → Int) : ∑ k ∈ Finset.range N, (negaMul N a b k : A) * ω ^ k
    = (∑ u ∈ Finset.range N, (a u : A) * ω ^ u) * ∑ v ∈ Finset.range N, (b v : A) * ω ^ v := by
  simp only [negaMul_eq_sum_placed, Int.cast_sum, Finset.sum_mul]
  rw [Finset.sum_comm]
  refine Finset.sum_congr rfl fun u _ => ?_
  rw [Finset.sum_comm, Finset.mul_sum]
  refine Finset.sum_congr rfl fun v _ => ?_
  rw [sum_placed hω hN]
  push_cast
  ring

/-- The monomial X^d, as reduced modulo X^N + 1. -/
theorem sum_monomial (d : Nat) : ∑ v ∈ Finset.range N,
    ((if v = d % N then (if d / N % 2 = 0 then 1 else -1) else 0 : Int) : A) * ω ^ v = ω ^ d := by
  rw [Finset.sum_eq_single_of_mem (d % N) (Finset.mem_range.2 (Nat.mod_lt d hN)) fun v _ hne => by
    rw [if_neg hne, Int.cast_zero, zero_mul], if_pos rfl]
  conv_rhs => rw [← Nat.div_add_mod d N, pow_add, pow_mul, hω, neg_one_pow_eq_pow_mod_two]
  rcases Nat.mod_two_eq_zero_or_one (d / N) with h | h <;> simp [h]

end

/-! ## The remapper on whole lists -/

theorem signed_eq_wrap {W : Nat} {c : Coef} (hc : c.toNat < 2 ^ W) (negate : Bool) :
    signed W negate c = wrap W (if negate then -(uval c : Int) else uval c) := by
  cases negate
  · exact (wrap_uval hc).symm
  · rfl

/-- The remapped coefficients, each as the sum of what is placed in it. -/
theorem Relabels.remap_eq {W N : Nat} {target : Nat → Target} {t : Nat → Nat} (h : Relabels N target t) {a : List Coef}
    (ha : WBitPoly W N a) : remap W N target a
      = (List.range N).map fun k => wrap W (relabeled N t (fun i => uval (coefAt a i)) k) := by
  refine eq_map_range_of_coefAt (length_remap ..) fun k hk => ?_
  have hN : 0 < N := by omega
  obtain ⟨i, ⟨hi, rfl⟩, honly⟩ := existsUnique_of_injOn (fun i _ => Nat.mod_lt (t i) hN) h.injOn hk
  have others : ∀ j ∈ Finset.range N, j ≠ i → placed N (t j) (uval (coefAt a j)) (t i % N) = 0 := fun j hj hne =>
    placed_of_ne hk (fun e => hne (honly j ⟨Finset.mem_range.1 hj, e⟩)) _
  have bits : (coefAt a i).toNat < 2 ^ W := by
    rw [coefAt, List.getD_eq_getElem _ _ (ha.1 ▸ hi)]
    exact ha.2 _ (List.getElem_mem _)
  have written := placed_exponentTarget hN (t i) (uval (coefAt a i))
  rw [exponentTarget_index] at written
  rw [relabeled, Finset.sum_eq_single_of_mem i (Finset.mem_range.2 hi) others, written, ← signed_eq_wrap bits]
  refine h.coefAt_remap W ha.1 hi ?_
  rw [h.target_eq i hi, ← exponentTarget_index]

/-! ## The negacyclic ring -/

/-- (Z/2^W)[X] modulo X^N + 1. -/
abbrev NegacyclicRing (W N : Nat) : Type := AdjoinRoot (X ^ N + 1 : (ZMod (2 ^ W))[X])

/-- ζ, the class of X. -/
noncomputable def negaRoot (W N : Nat) : NegacyclicRing W N := AdjoinRoot.root _

/-- The class of the polynomial of a list of patterns. -/
noncomputable def negacyclic (W N : Nat) (a : List Coef) : NegacyclicRing W N := AdjoinRoot.mk _ (polyMod W a)

theorem negaRoot_pow (W N : Nat) : negaRoot W N ^ N = -1 := by
  have root := AdjoinRoot.eval₂_root (X ^ N + 1 : (ZMod (2 ^ W))[X])
  rw [eval₂_add, eval₂_pow, eval₂_X, eval₂_one] at root
  exact eq_neg_of_add_eq_zero_left root

/-- An odd power of ζ is a root of X^N + 1 too, so it is the image of ζ under an endomorphism. -/
theorem exists_automorphism (W N : Nat) {d : Nat} (hd : d % 2 = 1) :
    ∃ σ : NegacyclicRing W N →+* NegacyclicRing W N, σ (negaRoot W N) = negaRoot W N ^ d := by
  have root : (X ^ N + 1 : (ZMod (2 ^ W))[X]).eval₂ (AdjoinRoot.of _) (negaRoot W N ^ d) = 0 := by
    rw [eval₂_add, eval₂_pow, eval₂_X, eval₂_one, ← pow_mul, mul_comm, pow_mul, negaRoot_pow,
      (Nat.odd_iff.2 hd).neg_one_pow, neg_add_cancel]
  exact ⟨AdjoinRoot.lift _ _ root, AdjoinRoot.lift_root root⟩

theorem negacyclic_eq_sum {W N : Nat} {a : List Coef} (ha : a.length = N) :
    negacyclic W N a = ∑ u ∈ Finset.range N, ((uval (coefAt a u) : Int) : NegacyclicRing W N) * negaRoot W N ^ u := by
  rw [negacyclic, polyMod_eq_sum, ha, map_sum]
  refine Finset.sum_congr rfl fun u _ => ?_
  rw [← C_mul_X_pow_eq_monomial, map_mul, map_pow, AdjoinRoot.mk_C, AdjoinRoot.mk_X, map_natCast, Int.cast_natCast]
  rfl

theorem negacyclic_map_range {W : Nat} (hW : W ≤ 64) (N : Nat) (f : Nat → Int) :
    negacyclic W N ((List.range N).map fun k => wrap W (f k))
      = ∑ k ∈ Finset.range N, (f k : NegacyclicRing W N) * negaRoot W N ^ k := by
  have residue : ∀ z : Int, ((uval (wrap W z) : Int) : NegacyclicRing W N) = z := fun z => by
    have := congrArg (AdjoinRoot.of (X ^ N + 1 : (ZMod (2 ^ W))[X])) (cast_uval_wrap hW z)
    rwa [map_natCast, map_intCast, ← Int.cast_natCast] at this
  rw [negacyclic_eq_sum (by simp)]
  refine Finset.sum_congr rfl fun k hk => ?_
  have entry : coefAt ((List.range N).map fun k => wrap W (f k)) k = wrap W (f k) := by
    simp [coefAt, Finset.mem_range.1 hk]
  rw [entry, residue]

theorem degree_polyMod_lt (W : Nat) (a : List Coef) : (polyMod W a).degree < a.length := by
  refine (degree_lt_iff_coeff_zero _ _).2 fun k hk => ?_
  simp [polyMod_eq_sum, coeff_monomial, hk.not_gt]

/-- N patterns of W bits are determined by their class. -/
theorem WBitPoly.eq_of_negacyclic_eq {W N : Nat} (hW : 1 ≤ W) (hN : 0 < N) {a b : List Coef} (ha : WBitPoly W N a)
    (hb : WBitPoly W N b) (h : negacyclic W N a = negacyclic W N b) : a = b := by
  have : Fact (1 < 2 ^ W) := ⟨Nat.one_lt_two_pow (by omega)⟩
  refine ha.eq_of_polyMod_eq hb (sub_eq_zero.1 (by_contra fun hne => ?_))
  have small : (polyMod W a - polyMod W b).degree < N :=
    (degree_sub_le _ _).trans_lt (max_lt (ha.1 ▸ degree_polyMod_lt W a) (hb.1 ▸ degree_polyMod_lt W b))
  rw [← degree_X_pow_add_C hN (1 : ZMod (2 ^ W))] at small
  exact (monic_X_pow_add_C _ hN.ne').not_dvd_of_degree_lt hne small (by rw [C_1]; exact AdjoinRoot.mk_eq_mk.1 h)

/-! ## MONO, PERM and the product in the ring -/

theorem getLsbD_zero_mul {d₁ d₂ : BitVec 64} (h₁ : d₁.getLsbD 0 = true) (h₂ : d₂.getLsbD 0 = true) :
    (d₁ * d₂).getLsbD 0 = true := by
  rw [getLsbD_zero_eq_true_iff] at *
  rw [BitVec.toNat_mul, Nat.mod_mod_of_dvd _ (by decide), Nat.mul_mod, h₁, h₂]

section
variable {W logn : Nat} (hW : W ≤ 64)

theorem negaRoot_pow_degreeOf (W logn : Nat) (d : BitVec 64) :
    negaRoot W (2 ^ logn) ^ degreeOf logn d = negaRoot W (2 ^ logn) ^ d.toNat := by
  rw [degreeOf_eq, ← pow_eq_pow_mod _ (pow_two_mul_of_pow_eq_neg_one (negaRoot_pow W (2 ^ logn)))]

/-- Exponents of 64 bits may be reduced modulo 2^64, a multiple of 2N. -/
theorem negaRoot_pow_mod (W : Nat) (hl : logn ≤ 62) (e : Nat) :
    negaRoot W (2 ^ logn) ^ (e % 2 ^ 64) = negaRoot W (2 ^ logn) ^ e := by
  have divides : 2 * 2 ^ logn ∣ 2 ^ 64 := by rw [← pow_succ']; exact Nat.pow_dvd_pow 2 (by omega)
  have period := pow_two_mul_of_pow_eq_neg_one (negaRoot_pow W (2 ^ logn))
  rw [pow_eq_pow_mod _ period, Nat.mod_mod_of_dvd _ divides, ← pow_eq_pow_mod _ period]

include hW

theorem wBitPoly_monoList (d : BitVec 64) {p : List Coef} (hp : WBitPoly W (2 ^ logn) p) :
    WBitPoly W (2 ^ logn) (monoList W logn d p) := wBitPoly_remap hW _ hp.2

theorem wBitPoly_permList (d : BitVec 64) {p : List Coef} (hp : WBitPoly W (2 ^ logn) p) :
    WBitPoly W (2 ^ logn) (permList W logn d p) := wBitPoly_remap hW _ hp.2

theorem wBitPoly_map_range (N : Nat) (f : Nat → Int) : WBitPoly W N ((List.range N).map fun k => wrap W (f k)) :=
  ⟨by simp, List.forall_mem_map.2 fun _ _ => wrap_lt hW _⟩

theorem wBitPoly_mulList (N : Nat) (p q : List Coef) : WBitPoly W N (mulList W N p q) := wBitPoly_map_range hW N _

theorem negacyclic_remap {N : Nat} (hN : 0 < N) {target : Nat → Target} {t : Nat → Nat} (h : Relabels N target t)
    {a : List Coef} (ha : WBitPoly W N a) : negacyclic W N (remap W N target a)
      = ∑ i ∈ Finset.range N, ((uval (coefAt a i) : Int) : NegacyclicRing W N) * negaRoot W N ^ t i := by
  rw [h.remap_eq ha, negacyclic_map_range hW, sum_relabeled (negaRoot_pow W N) hN]

theorem negacyclic_monoList (d : BitVec 64) {p : List Coef} (hp : WBitPoly W (2 ^ logn) p) :
    negacyclic W (2 ^ logn) (monoList W logn d p)
      = negaRoot W (2 ^ logn) ^ d.toNat * negacyclic W (2 ^ logn) p := by
  rw [monoList, negacyclic_remap hW (Nat.two_pow_pos logn) (relabels_mono (degreeOf_lt logn d)) hp,
    negacyclic_eq_sum hp.1, ← negaRoot_pow_degreeOf, Finset.mul_sum]
  exact Finset.sum_congr rfl fun i _ => by rw [pow_add]; ring

theorem negacyclic_permList {d : BitVec 64} (hd : d.getLsbD 0 = true)
    {σ : NegacyclicRing W (2 ^ logn) →+* NegacyclicRing W (2 ^ logn)}
    (hσ : σ (negaRoot W (2 ^ logn)) = negaRoot W (2 ^ logn) ^ d.toNat) {p : List Coef}
    (hp : WBitPoly W (2 ^ logn) p) :
    negacyclic W (2 ^ logn) (permList W logn d p) = σ (negacyclic W (2 ^ logn) p) := by
  rw [permList, negacyclic_remap hW (Nat.two_pow_pos logn) (relabels_perm (degreeOf_odd logn hd)) hp,
    negacyclic_eq_sum hp.1, map_sum]
  refine Finset.sum_congr rfl fun i _ => ?_
  rw [map_mul, map_intCast, map_pow, hσ, ← negaRoot_pow_degreeOf, pow_mul]

theorem negacyclic_mulList {N : Nat} (hN : 0 < N) {p q : List Coef} (hp : p.length = N) (hq : q.length = N) :
    negacyclic W N (mulList W N p q) = negacyclic W N p * negacyclic W N q := by
  rw [mulList, negacyclic_map_range hW, sum_negaMul (negaRoot_pow W N) hN, negacyclic_eq_sum hp, negacyclic_eq_sum hq]

theorem negacyclic_add {N : Nat} {p q : List Coef} (hp : WBitPoly W N p) (hq : WBitPoly W N q) :
    negacyclic W N (List.zipWith (addCoef W) p q) = negacyclic W N p + negacyclic W N q := by
  rw [negacyclic, hp.polyMod_add hW hq, map_add]
  rfl

theorem negacyclic_neg (N : Nat) (p : List Coef) : negacyclic W N (p.map (negCoef W)) = -negacyclic W N p := by
  rw [negacyclic, polyMod_map_neg hW, map_neg]
  rfl

/-! ## The laws (R205) -/

variable (hW1 : 1 ≤ W) {p q : List Coef} (hp : WBitPoly W (2 ^ logn) p) (hq : WBitPoly W (2 ^ logn) q)
include hW1 hp

theorem monoList_monoList (hl : logn ≤ 62) (d₁ d₂ : BitVec 64) :
    monoList W logn d₂ (monoList W logn d₁ p) = monoList W logn (d₁ + d₂) p := by
  have first := wBitPoly_monoList hW d₁ hp
  refine (wBitPoly_monoList hW d₂ first).eq_of_negacyclic_eq hW1 (Nat.two_pow_pos logn)
    (wBitPoly_monoList hW _ hp) ?_
  rw [negacyclic_monoList hW _ first, negacyclic_monoList hW _ hp, negacyclic_monoList hW _ hp, BitVec.toNat_add,
    negaRoot_pow_mod W hl, pow_add]
  ring

theorem monoList_degree (hl : logn ≤ 62) : monoList W logn (BitVec.ofNat 64 (2 ^ logn)) p = p.map (negCoef W) := by
  refine (wBitPoly_monoList hW _ hp).eq_of_negacyclic_eq hW1 (Nat.two_pow_pos logn) (hp.neg hW) ?_
  rw [negacyclic_monoList hW _ hp, negacyclic_neg hW, BitVec.toNat_ofNat, negaRoot_pow_mod W hl, negaRoot_pow,
    neg_one_mul]

theorem monoList_two_degree (hl : logn ≤ 62) : monoList W logn (BitVec.ofNat 64 (2 ^ (logn + 1))) p = p := by
  refine (wBitPoly_monoList hW _ hp).eq_of_negacyclic_eq hW1 (Nat.two_pow_pos logn) hp ?_
  rw [negacyclic_monoList hW _ hp, BitVec.toNat_ofNat, negaRoot_pow_mod W hl, pow_succ',
    pow_two_mul_of_pow_eq_neg_one (negaRoot_pow W (2 ^ logn)), one_mul]

theorem permList_permList (hl : logn ≤ 62) {d₁ d₂ : BitVec 64} (h₁ : d₁.getLsbD 0 = true)
    (h₂ : d₂.getLsbD 0 = true) : permList W logn d₂ (permList W logn d₁ p) = permList W logn (d₁ * d₂) p := by
  obtain ⟨σ₁, hσ₁⟩ := exists_automorphism W (2 ^ logn) (getLsbD_zero_eq_true_iff.1 h₁)
  obtain ⟨σ₂, hσ₂⟩ := exists_automorphism W (2 ^ logn) (getLsbD_zero_eq_true_iff.1 h₂)
  have composed : (σ₂.comp σ₁) (negaRoot W (2 ^ logn)) = negaRoot W (2 ^ logn) ^ (d₁ * d₂).toNat := by
    rw [RingHom.comp_apply, hσ₁, map_pow, hσ₂, ← pow_mul, BitVec.toNat_mul, negaRoot_pow_mod W hl, mul_comm]
  have first := wBitPoly_permList hW d₁ hp
  refine (wBitPoly_permList hW d₂ first).eq_of_negacyclic_eq hW1 (Nat.two_pow_pos logn)
    (wBitPoly_permList hW _ hp) ?_
  rw [negacyclic_permList hW h₂ hσ₂ first, negacyclic_permList hW h₁ hσ₁ hp,
    negacyclic_permList hW (getLsbD_zero_mul h₁ h₂) composed hp, RingHom.comp_apply]

theorem permList_monoList (hl : logn ≤ 62) {d : BitVec 64} (hd : d.getLsbD 0 = true) (e : BitVec 64) :
    permList W logn d (monoList W logn e p) = monoList W logn (d * e) (permList W logn d p) := by
  obtain ⟨σ, hσ⟩ := exists_automorphism W (2 ^ logn) (getLsbD_zero_eq_true_iff.1 hd)
  have inner := wBitPoly_monoList hW e hp
  have outer := wBitPoly_permList hW d hp
  refine (wBitPoly_permList hW d inner).eq_of_negacyclic_eq hW1 (Nat.two_pow_pos logn)
    (wBitPoly_monoList hW _ outer) ?_
  rw [negacyclic_permList hW hd hσ inner, negacyclic_monoList hW _ hp, negacyclic_monoList hW _ outer,
    negacyclic_permList hW hd hσ hp, BitVec.toNat_mul, negaRoot_pow_mod W hl, map_mul, map_pow, hσ, pow_mul]

theorem monoList_eq_product (d : BitVec 64) : monoList W logn d p = (List.range (2 ^ logn)).map fun k => wrap W
    (negaMul (2 ^ logn) (fun j => uval (coefAt p j))
      (fun j => if j = d.toNat % 2 ^ logn then (if d.toNat / 2 ^ logn % 2 = 0 then 1 else -1) else 0) k) := by
  refine (wBitPoly_monoList hW d hp).eq_of_negacyclic_eq hW1 (Nat.two_pow_pos logn) (wBitPoly_map_range hW _ _) ?_
  rw [negacyclic_monoList hW d hp, negacyclic_map_range hW, sum_negaMul (negaRoot_pow W _) (Nat.two_pow_pos logn),
    ← negacyclic_eq_sum hp.1, sum_monomial (negaRoot_pow W _) (Nat.two_pow_pos logn), mul_comm]

include hq

theorem permList_add {d : BitVec 64} (hd : d.getLsbD 0 = true) : permList W logn d (List.zipWith (addCoef W) p q)
    = List.zipWith (addCoef W) (permList W logn d p) (permList W logn d q) := by
  obtain ⟨σ, hσ⟩ := exists_automorphism W (2 ^ logn) (getLsbD_zero_eq_true_iff.1 hd)
  have hp' := wBitPoly_permList hW d hp
  have hq' := wBitPoly_permList hW d hq
  have sum := hp.add hW hq
  refine (wBitPoly_permList hW d sum).eq_of_negacyclic_eq hW1 (Nat.two_pow_pos logn) (hp'.add hW hq') ?_
  rw [negacyclic_permList hW hd hσ sum, negacyclic_add hW hp hq, negacyclic_add hW hp' hq',
    negacyclic_permList hW hd hσ hp, negacyclic_permList hW hd hσ hq, map_add]

theorem permList_mul {d : BitVec 64} (hd : d.getLsbD 0 = true) : permList W logn d (mulList W (2 ^ logn) p q)
    = mulList W (2 ^ logn) (permList W logn d p) (permList W logn d q) := by
  obtain ⟨σ, hσ⟩ := exists_automorphism W (2 ^ logn) (getLsbD_zero_eq_true_iff.1 hd)
  have hN := Nat.two_pow_pos logn
  have product := wBitPoly_mulList hW (2 ^ logn)
  refine (wBitPoly_permList hW d (product p q)).eq_of_negacyclic_eq hW1 hN (product _ _) ?_
  have hp' := wBitPoly_permList hW d hp
  have hq' := wBitPoly_permList hW d hq
  rw [negacyclic_permList hW hd hσ (product p q), negacyclic_mulList hW hN hp.1 hq.1,
    negacyclic_mulList hW hN hp'.1 hq'.1, negacyclic_permList hW hd hσ hp, negacyclic_permList hW hd hσ hq, map_mul]

end

/-- The index map of PERM by an odd degree is a bijection (R201). -/
theorem existsUnique_perm_index {logn : Nat} {d : BitVec 64} (hd : d.getLsbD 0 = true) {k : Nat} (hk : k < 2 ^ logn) :
    ∃! i, i < 2 ^ logn ∧ d.toNat * i % (2 * 2 ^ logn) % 2 ^ logn = k := by
  have injective := (relabels_perm (logn := logn) (getLsbD_zero_eq_true_iff.1 hd)).injOn
  simp only [Nat.mod_mod_of_dvd _ (Nat.dvd_mul_left (2 ^ logn) 2)]
  exact existsUnique_of_injOn (fun i _ => Nat.mod_lt _ (Nat.two_pow_pos logn)) injective hk

/-- Settles O33: MONO multiplies by ζ^d, PERM is the endomorphism that sends ζ to ζ^d. -/
theorem monoPermLaws : Obligations.MonoPermLaws := by
  unfold Obligations.MonoPermLaws
  intro W logn p q hW1 hW hl hp hq
  exact ⟨monoList_monoList hW hW1 hp hl, monoList_degree hW hW1 hp hl, monoList_two_degree hW hW1 hp hl,
    fun _ _ => permList_permList hW hW1 hp hl, fun _ e hd => permList_monoList hW hW1 hp hl hd e,
    fun _ => permList_add hW hW1 hp hq, fun _ => permList_mul hW hW1 hp hq, monoList_eq_product hW hW1 hp,
    fun _ hd _ => existsUnique_perm_index hd⟩

end Sys2Proof.Machine
end

section
/-! PROOFS. The permutation index table (R203): lane `PIDX(d)[k]` is the one lane whose evaluation exponent is ±d times
that of lane k, with the sign that makes it ≡ 1 (mod 4); so the table permutes the lanes, and the group law of FPERM is
that of the odd residues. -/

namespace Sys2Proof.Machine

/-! ## Bit reversal undone -/

theorem brev_two_pow_add {k b : Nat} (hb : b < 2 ^ k) : brev (k + 1) (2 ^ k + b) = 2 * brev k b + 1 := by
  induction k generalizing b with
  | zero =>
    obtain rfl : b = 0 := by omega
    rfl
  | succ k ih =>
    have low : (2 ^ (k + 1) + b) % 2 = b % 2 := by omega
    have rest : (2 ^ (k + 1) + b) / 2 = 2 ^ k + b / 2 := by omega
    rw [brev_succ, low, rest, ih (by omega), brev_succ k]
    ring

/-- Reversing twice gives the index back (R9). -/
theorem brev_brev {k i : Nat} (hi : i < 2 ^ k) : brev k (brev k i) = i := by
  induction k generalizing i with
  | zero =>
    obtain rfl : i = 0 := by omega
    rfl
  | succ k ih =>
    have hlt := brev_lt k (i / 2)
    have half := ih (i := i / 2) (by omega)
    rw [brev_succ k i]
    rcases Nat.mod_two_eq_zero_or_one i with h | h
    · rw [h, Nat.zero_mul, Nat.zero_add, brev_succ_of_lt hlt, half]
      omega
    · rw [h, Nat.one_mul, brev_two_pow_add hlt, half]
      omega

/-! ## Evaluation exponents (R102) -/

theorem two_degree_eq {logn : Nat} (hl : 1 ≤ logn) : 2 ^ (logn + 1) = 4 * 2 ^ (logn - 1) := by
  obtain ⟨L, rfl⟩ : ∃ L, logn = L + 1 := ⟨logn - 1, by omega⟩
  rw [Nat.add_sub_cancel]
  ring

theorem four_dvd_two_degree {logn : Nat} (hl : 1 ≤ logn) : 4 ∣ 2 ^ (logn + 1) :=
  two_degree_eq hl ▸ Nat.dvd_mul_right 4 _

theorem emod_two_degree_emod_four {logn : Nat} (hl : 1 ≤ logn) (z : Int) :
    z % (2 ^ (logn + 1) : Nat) % 4 = z % 4 :=
  Int.emod_emod_of_dvd z (Int.natCast_dvd_natCast.2 (four_dvd_two_degree hl))

theorem natCast_laneExp (logn k : Nat) :
    (laneExp logn k : Int) = (1 - 4 * brev (logn - 1) k : Int) % (2 ^ (logn + 1) : Nat) :=
  Int.toNat_of_nonneg (Int.emod_nonneg _ (by positivity))

theorem laneExp_lt (logn k : Nat) : laneExp logn k < 2 ^ (logn + 1) := by
  have := Int.emod_lt_of_pos (1 - 4 * brev (logn - 1) k : Int) (by positivity : (0 : Int) < (2 ^ (logn + 1) : Nat))
  rw [← natCast_laneExp] at this
  exact_mod_cast this

theorem eq_of_cast_laneExp {logn i j : Nat}
    (h : (laneExp logn i : ZMod (2 ^ (logn + 1))) = laneExp logn j) : laneExp logn i = laneExp logn j :=
  ((ZMod.natCast_eq_natCast_iff _ _ _).1 h).eq_of_lt_of_lt (laneExp_lt ..) (laneExp_lt ..)

/-- The sign that makes an odd d ≡ 1 (mod 4): minus where FPERM by d conjugates. -/
def oddSign (d : Nat) : Int := if PCONJ d then -1 else 1

/-- The evaluation exponent FPERM by d needs in lane k: ±d·e_k, the sign that of `oddSign` (R203). -/
def imageExp (logn d k : Nat) : Int := oddSign d * (laneExp logn k * d : Nat) % (2 ^ (logn + 1) : Nat)

theorem PCONJ_iff (d : Nat) : PCONJ d = true ↔ d % 4 = 3 := beq_iff_eq

theorem oddSign_mul_self (d : Nat) : oddSign d * oddSign d = 1 := by
  unfold oddSign
  split <;> rfl

theorem cast_oddSign_mul_self (m d : Nat) : (oddSign d * oddSign d : ZMod m) = 1 := by
  rw [← Int.cast_mul, oddSign_mul_self, Int.cast_one]

theorem oddSign_mul_emod_four {d : Nat} (hd : d % 2 = 1) : oddSign d * d % 4 = 1 := by
  unfold oddSign
  split
  case isTrue h => rw [PCONJ_iff] at h; omega
  case isFalse h => rw [PCONJ_iff] at h; omega

theorem PIDX_eq (logn d k : Nat) : PIDX logn d k
    = brev (logn - 1) ((1 - imageExp logn d k) / 4 % (2 ^ (logn - 1) : Nat)).toNat := by
  unfold PIDX imageExp oddSign
  split <;> simp

theorem PIDX_lt (logn d k : Nat) : PIDX logn d k < 2 ^ (logn - 1) := brev_lt _ _

section
variable {logn : Nat} (hl : 1 ≤ logn)
include hl

theorem laneExp_emod_four (k : Nat) : (laneExp logn k : Int) % 4 = 1 := by
  rw [natCast_laneExp, emod_two_degree_emod_four hl]
  omega

/-- Lanes are determined by their evaluation exponents. -/
theorem laneExp_injOn : Set.InjOn (laneExp logn) (Set.Iio (2 ^ (logn - 1))) := fun i hi j hj h => by
  have exponents : (1 - 4 * brev (logn - 1) i : Int) % (2 ^ (logn + 1) : Nat)
      = (1 - 4 * brev (logn - 1) j : Int) % (2 ^ (logn + 1) : Nat) := by
    rw [← natCast_laneExp, ← natCast_laneExp, h]
  have hi' := brev_lt (logn - 1) i
  have hj' := brev_lt (logn - 1) j
  obtain ⟨c, hc⟩ := Int.ModEq.dvd exponents
  rw [two_degree_eq hl] at hc
  push_cast at hc
  have multiple : ((2 ^ (logn - 1) : Nat) : Int) ∣ brev (logn - 1) i - brev (logn - 1) j :=
    ⟨c, by push_cast; linarith⟩
  have reversed := Int.eq_zero_of_abs_lt_dvd multiple (abs_lt.2 (by omega))
  have reversed : brev (logn - 1) i = brev (logn - 1) j := by omega
  rw [← brev_brev hi, reversed, brev_brev hj]

/-- Every exponent ≡ 1 (mod 4) is that of a lane. -/
theorem laneExp_brev {x : Int} (hx : x % 4 = 1) :
    (laneExp logn (brev (logn - 1) ((1 - x) / 4 % (2 ^ (logn - 1) : Nat)).toNat) : Int)
      = x % (2 ^ (logn + 1) : Nat) := by
  have positive : (0 : Int) < (2 ^ (logn - 1) : Nat) := by positivity
  have hlt := Int.emod_lt_of_pos ((1 - x) / 4) positive
  have hge := Int.emod_nonneg ((1 - x) / 4) positive.ne'
  have split := Int.emod_add_mul_ediv ((1 - x) / 4) (2 ^ (logn - 1) : Nat)
  rw [natCast_laneExp, brev_brev (by omega), Int.toNat_of_nonneg hge, two_degree_eq hl]
  push_cast at *
  generalize (2 : Int) ^ (logn - 1) = n at *
  have moved : 1 - 4 * ((1 - x) / 4 % n) = x + 4 * n * ((1 - x) / 4 / n) := by
    have : 4 * ((1 - x) / 4) = 1 - x := by omega
    linear_combination -this - 4 * split
  rw [moved, Int.add_mul_emod_self_left]

variable {d : Nat} (hd : d % 2 = 1)
include hd

theorem imageExp_emod_four (k : Nat) : imageExp logn d k % 4 = 1 := by
  have factors : oddSign d * (laneExp logn k * d : Nat) = oddSign d * d * laneExp logn k := by push_cast; ring
  rw [imageExp, emod_two_degree_emod_four hl, factors, Int.mul_emod, oddSign_mul_emod_four hd, laneExp_emod_four hl]
  rfl

/-- The lane of the table has the exponent the permutation needs. -/
theorem laneExp_PIDX (k : Nat) : (laneExp logn (PIDX logn d k) : Int) = imageExp logn d k := by
  rw [PIDX_eq, laneExp_brev hl (imageExp_emod_four hl hd k), imageExp, Int.emod_emod_of_dvd _ (dvd_refl _)]

theorem cast_laneExp_PIDX (k : Nat) : (laneExp logn (PIDX logn d k) : ZMod (2 ^ (logn + 1)))
    = oddSign d * d * laneExp logn k := by
  have exponent := congrArg (Int.cast : Int → ZMod (2 ^ (logn + 1))) (laneExp_PIDX hl hd k)
  rw [imageExp, ZMod.intCast_mod] at exponent
  push_cast at exponent
  rw [exponent]
  ring

/-- The table is injective, for the odd ±d is a unit modulo 2N. -/
theorem PIDX_injOn : Set.InjOn (PIDX logn d) (Set.Iio (2 ^ (logn - 1))) := fun i hi j hj h => by
  have exponents : (oddSign d * d * laneExp logn i : ZMod (2 ^ (logn + 1))) = oddSign d * d * laneExp logn j := by
    rw [← cast_laneExp_PIDX hl hd, ← cast_laneExp_PIDX hl hd, h]
  have coprime : d.Coprime (2 ^ (logn + 1)) := (Nat.coprime_two_right.2 (Nat.odd_iff.2 hd)).pow_right _
  have unit : IsUnit (oddSign d * d : ZMod (2 ^ (logn + 1))) :=
    (IsUnit.of_mul_eq_one _ (cast_oddSign_mul_self _ d)).mul ((ZMod.isUnit_iff_coprime _ _).2 coprime)
  exact laneExp_injOn hl hi hj (eq_of_cast_laneExp (unit.mul_left_cancel exponents))

end

/-! ## The table -/

/-- Settles O31: the exponents of the lanes are the residues ≡ 1 (mod 4), which ±d permutes. -/
theorem permutationTable : Obligations.PermutationTable := by
  unfold Obligations.PermutationTable
  intro logn d hl _ hd n e e'
  have exponent : ∀ k, e k = laneExp logn k := fun k => (natCast_laneExp logn k).symm
  have image : ∀ k, e' k = imageExp logn d k := fun k => by
    simp only [e', exponent, imageExp, oddSign, PCONJ_iff]
    rcases Nat.odd_mod_four_iff.1 hd with h | h <;> simp [h]
  refine ⟨fun k hk => ⟨PIDX_lt .., ?_, ?_, ?_⟩,
    fun k hk => existsUnique_of_injOn (fun _ _ => PIDX_lt ..) (PIDX_injOn hl hd) hk, PCONJ_iff d⟩
  · rw [image, imageExp_emod_four hl hd]
  · rw [image, PIDX_eq]
  · rw [image, exponent, laneExp_PIDX hl hd]

/-! ## The group law of FPERM -/

theorem mul_emod_four {logn : Nat} (hl : 1 ≤ logn) (d₁ d₂ : Nat) :
    d₁ * d₂ % 2 ^ (logn + 1) % 4 = d₁ % 4 * (d₂ % 4) % 4 := by
  rw [Nat.mod_mod_of_dvd _ (four_dvd_two_degree hl), Nat.mul_mod]

section
variable {logn : Nat} (hl : 1 ≤ logn) {d₁ d₂ : Nat} (h₁ : d₁ % 2 = 1) (h₂ : d₂ % 2 = 1)
include hl h₁ h₂

theorem PCONJ_mul : PCONJ (d₁ * d₂ % 2 ^ (logn + 1)) = (PCONJ d₁ ^^ PCONJ d₂) := by
  rw [PCONJ, PCONJ, PCONJ, mul_emod_four hl]
  rcases Nat.odd_mod_four_iff.1 h₁ with h | h
  · rcases Nat.odd_mod_four_iff.1 h₂ with h' | h' <;> simp [h, h']
  · rcases Nat.odd_mod_four_iff.1 h₂ with h' | h' <;> simp [h, h']

theorem oddSign_mul : oddSign (d₁ * d₂ % 2 ^ (logn + 1)) = oddSign d₁ * oddSign d₂ := by
  rw [oddSign, oddSign, oddSign, PCONJ_mul hl h₁ h₂]
  cases PCONJ d₁ <;> cases PCONJ d₂ <;> rfl

theorem PIDX_PIDX (k : Nat) : PIDX logn d₁ (PIDX logn d₂ k) = PIDX logn (d₁ * d₂ % 2 ^ (logn + 1)) k := by
  have odd : d₁ * d₂ % 2 ^ (logn + 1) % 2 = 1 := by
    rw [Nat.mod_mod_of_dvd _ (Dvd.intro_left _ (pow_succ 2 logn).symm), Nat.mul_mod, h₁, h₂]
  refine laneExp_injOn hl (PIDX_lt ..) (PIDX_lt ..) (eq_of_cast_laneExp ?_)
  rw [cast_laneExp_PIDX hl h₁, cast_laneExp_PIDX hl h₂, cast_laneExp_PIDX hl odd, oddSign_mul hl h₁ h₂,
    ZMod.natCast_mod]
  push_cast
  ring

end

theorem cconj_cconj (x : Cplx) : cconj (cconj x) = x := by
  rw [cconj, cconj, fneg_fneg]

/-- Settles O32: the tables compose, and so do the conjugations. -/
theorem fpermGroupLaw : Obligations.FpermGroupLaw := by
  unfold Obligations.FpermGroupLaw
  intro logn d₁ d₂ F hl _ _ _ h₁ h₂
  refine List.map_congr_left fun k hk => ?_
  have inner : (permuteLanes cconj ⟨0, 0⟩ logn d₁ F).getD (PIDX logn d₂ k) ⟨0, 0⟩
      = if PCONJ d₁ then cconj (F.getD (PIDX logn d₁ (PIDX logn d₂ k)) ⟨0, 0⟩)
        else F.getD (PIDX logn d₁ (PIDX logn d₂ k)) ⟨0, 0⟩ := by
    simp [permuteLanes, PIDX_lt]
  simp only [inner, PIDX_PIDX hl h₁ h₂, PCONJ_mul hl h₁ h₂]
  cases PCONJ d₁ <;> cases PCONJ d₂ <;> simp [cconj_cconj]

end Sys2Proof.Machine
end

section
/-! PROOFS. Permuting lanes is permuting coefficients (R202): in the exact layer because both evaluate the polynomial at
the d-th powers of the lanes' roots; at the float layer because FPERM and PERM are the two sides of `PermRoundTrip`. -/

namespace Sys2Proof.Machine

/-! ## The exact layer -/

/-- Powers of ζ are determined by their exponents modulo 2N. -/
theorem zeta_zpow_congr {logn : Nat} {a b : Int} (h : (a : ZMod (2 ^ (logn + 1))) = b) :
    zeta logn ^ a = zeta logn ^ b := by
  have period : zeta logn ^ ((2 ^ (logn + 1) : ℕ) : ℤ) = 1 := by
    push_cast
    rw [pow_succ, zpow_mul, zeta_pow_degree]
    norm_num
  obtain ⟨c, hc⟩ := ((ZMod.intCast_eq_intCast_iff _ _ _).1 h).dvd
  rw [eq_add_of_sub_eq' hc, zpow_add₀ (zeta_ne_zero logn), zpow_mul, period, one_zpow, mul_one]

/-- The conjugation FPERM by d makes in the exact layer, as a ring homomorphism. -/
noncomputable def laneConj (d : Nat) : ℂ →+* ℂ := if PCONJ d then starRingEnd ℂ else RingHom.id ℂ

theorem laneConj_zeta_zpow (logn d : Nat) (m : Int) : laneConj d (zeta logn ^ m) = zeta logn ^ (oddSign d * m) := by
  unfold laneConj oddSign
  split
  · rw [neg_one_mul, zpow_neg, zeta_zpow, conj_cis]
  · rw [one_mul]; rfl

section
variable {logn d : Nat} (hl : 1 ≤ logn)
include hl

/-- The N-th power of the root of every lane is −1 (R102). -/
theorem zeta_pow_laneExp_degree (k : Nat) : (zeta logn ^ laneExp logn k) ^ 2 ^ logn = -1 := by
  rw [degree_eq_two_halves hl, pow_add, zeta_pow_laneExp_pow hl, Complex.I_mul_I]

/-- The transform of a(X^d) evaluates at the d-th powers of the roots. -/
theorem exactForward_permuted (v : Nat → Int) {k : Nat} (hk : k < 2 ^ (logn - 1)) :
    exactForward logn (fun j => ⟨permuted (2 ^ logn) d v j, permuted (2 ^ logn) d v (j + 2 ^ (logn - 1))⟩) k
      = ∑ i ∈ Finset.range (2 ^ logn), (v i : ℂ) * (zeta logn ^ laneExp logn k) ^ (d * i) := by
  rw [exactForward_eq hl _ hk, permuted_eq]
  simp only [pow_mul (zeta logn)]
  exact sum_relabeled (zeta_pow_laneExp_degree hl k) (Nat.two_pow_pos logn) _ v

/-- The root of the lane of the table, conjugated where FPERM does, is the d-th power of the root of lane k. -/
theorem laneConj_root (hd : d % 2 = 1) (k j : Nat) :
    laneConj d (zeta logn ^ (laneExp logn (PIDX logn d k) * j)) = (zeta logn ^ laneExp logn k) ^ (d * j) := by
  rw [← zpow_natCast, laneConj_zeta_zpow, ← pow_mul, ← zpow_natCast]
  refine zeta_zpow_congr ?_
  push_cast
  rw [cast_laneExp_PIDX hl hd]
  linear_combination (d * laneExp logn k * j : ZMod (2 ^ (logn + 1))) * cast_oddSign_mul_self (2 ^ (logn + 1)) d

theorem permuteLanes_fwdExact (hd : d % 2 = 1) (v : Nat → Int) :
    permuteLanes (starRingEnd ℂ) 0 logn d (fwdExact logn v) = fwdExact logn (permuted (2 ^ logn) d v) := by
  rw [fwdExact_eq, fwdExact_eq, tabulate_start (exactForward logn fun j => ⟨permuted _ _ _ j, _⟩)]
  refine List.map_congr_left fun k hk => ?_
  have conjugated : ∀ x : ℂ, (if PCONJ d then (starRingEnd ℂ) x else x) = laneConj d x := fun x => by
    unfold laneConj; split <;> rfl
  rw [exactForward_permuted hl v (List.mem_range.1 hk), conjugated, getD_tabulate _ (PIDX_lt ..),
    exactForward_eq hl v (PIDX_lt ..), map_sum]
  exact Finset.sum_congr rfl fun j _ => by rw [map_mul, map_intCast, laneConj_root hl hd]

end

/-! ## The commands -/

/-- PERM does not depend on how SGN reads the patterns (R201). -/
theorem permList_eq_permuted (c : Conf) {imm : BitVec 64} (hodd : imm.getLsbD 0 = true) {a : List Coef}
    (ha : WBitPoly c.width c.degree a) : permList c.width c.log imm a
      = (List.range c.degree).map fun k =>
        wrap c.width (permuted c.degree (degreeOf c.log imm) (polyValue c a) k) := by
  rw [permList]
  refine ((relabels_perm (degreeOf_odd c.log hodd)).remap_eq ha).trans (List.map_congr_left fun k _ => ?_)
  refine wrap_eq_of_cast ?_
  simp only [permuted, relabeled, placed, Int.cast_sum, Int.cast_ite, Int.cast_neg, polyValue, cast_val,
    Int.cast_natCast]
  rfl

/-- Within the budget FFT, FPERM and IFFT give what PERM gives (R202). -/
theorem exec_fft_fperm_ifft {s : State} {rtBits : Config.Budget} {fd fe : FreqSlot} {pa pd pe : PolySlot}
    {imm : BitVec 64} (hi : s.Inv) (hrt : PermRoundTrip s.caps rtBits)
    (hb : InRoundTripBudget rtBits s.conf (s.coefs pa)) (hr : s.ready ⟨.freq fd, false, [.poly pa]⟩ = true)
    (hfe : s.takes (.freq fe) = true) (hpd : s.takes (.poly pd) = true) (hpe : s.takes (.poly pe) = true)
    (hne : fe ≠ fd) (hne' : pe ≠ pa) (hodd : imm.getLsbD 0 = true) :
    ∃ t₁ t₂ t₃ t, exec (.fft fd pa) s = .next t₁ ∧ exec (.fperm fe fd imm) t₁ = .next t₂
      ∧ exec (.ifft pd fe) t₂ = .next t₃ ∧ exec (.perm pe pa imm) s = .next t ∧ t₃.coefs pd = t.coefs pe := by
  have hc := State.cfgd_of_ready hr
  obtain ⟨t₁, h₁, w₁⟩ := exec_fft_of_ready hi hr
  have hi₁ : t₁.Inv := hi.exec_of_ready (i := .fft fd pa) rfl hr rfl h₁
  have hr₁ : t₁.ready ⟨.freq fe, false, [.freq fd]⟩ = true :=
    (t₁.ready_iff _).2 ⟨by rwa [w₁.conf], w₁.takes hfe, by simpa using w₁.holds_same (State.takes_rd_of_ready hr).1⟩
  obtain ⟨t₂, h₂, w₂⟩ := exec_fperm_of_ready hr₁ hne hodd
  have hi₂ : t₂.Inv := hi₁.exec_of_ready (i := .fperm fe fd imm) rfl hr₁ (automorphismError_of_odd hodd hne) h₂
  have conf₂ : t₂.conf = s.conf := w₂.conf.trans w₁.conf
  obtain ⟨t₃, h₃, w₃⟩ := exec_ifft_of_ready hi₂
    (w₂.ready_poly (by rwa [w₁.conf]) (State.takes_rd_of_ready hr₁).1 (w₁.takes hpd))
  have hr' : s.ready ⟨.poly pe, false, [.poly pa]⟩ = true :=
    (s.ready_iff _).2 ⟨hc, hpe, fun x hx => State.holds_of_ready hr hx⟩
  obtain ⟨t, h, w⟩ := exec_perm_of_ready hr' hne' hodd
  have lanes : ∀ k, k < s.conf.laneCount → t₂.lane fe k
      = fpermLane s.conf.log (degreeOf s.conf.log imm) (floatForward s.conf.log s.draw (s.value pa)) k := fun k hk => by
    rw [w₂.lane (by rwa [w₁.conf]), w₁.conf, fpermLane, w₁.lane (PIDX_lt ..), fpermLane]
  have remapped : t.coefs pe = permList s.conf.width s.conf.log imm (s.coefs pa) :=
    w.coefs.trans (remap_eq_map_range ..).symm
  obtain ⟨hmin, hmax⟩ := hi.logn_bounds hc
  refine ⟨t₁, t₂, t₃, t, h₁, h₂, h₃, h, ?_⟩
  rw [w₃.coefs, conf₂, remapped, permList_eq_permuted s.conf hodd hb.1]
  refine List.map_congr_left fun j hj => storeRounded_of_map_eq ?_ _
  have hj := List.mem_range.1 hj
  rw [floatInverse_congr (hi.log_bounds hc).1 t₂.draw lanes hj]
  exact hrt s.conf s.draw t₂.draw _ _ hmin hmax hb (Nat.mod_lt _ (by positivity)) (degreeOf_odd _ hodd) j hj

/-- Settles O47: both sides evaluate at the d-th powers of the roots; the commands compute the two sides of
`PermRoundTrip`. -/
theorem fpermIsPermExactly : Obligations.FpermIsPermExactly := by
  unfold Obligations.FpermIsPermExactly
  exact ⟨fun _ _ v hl _ hd => permuteLanes_fwdExact hl hd v,
    fun _ _ _ _ _ _ _ _ hi hrt hb hr hfe hpd hpe hne hne' hodd =>
      exec_fft_fperm_ifft hi hrt hb hr hfe hpd hpe hne hne' hodd⟩

end Sys2Proof.Machine
end

section
/-! PROOFS. The error stop and the order of the errors (R222, R223), and what the two resets give (R250, R251). -/

namespace Sys2Proof.Machine

/-! ## The error stop (R223) -/

/-- A command of a BUSY engine, END apart, completes and leaves the engine BUSY, or takes the error stop. -/
theorem exec_busy_or_stopped {i : Instr} {s t : State} (h : exec i s = .next t) (hb : s.runstate = .busy)
    (hi : i ≠ .endCmd) : t.runstate = .busy ∨ (Stopped s t t.errcode ∧ t.errcode ≠ .none) := by
  cases executed_of_exec h with
  | stopped e he => exact .inr ⟨rfl, he⟩
  | ended hend => exact absurd hend hi
  | constructed => exact .inl hb
  | completed => exact .inl ((State.writeResult_runstate ..).trans hb)

/-- Settles O20: an engine that ends in ERR found no command at CP, or ran one that stopped; END ends in DONE. -/
theorem errorStopIsPrecise : Obligations.ErrorStopIsPrecise := by
  unfold Obligations.ErrorStopIsPrecise
  refine ⟨fun s t h hb herr => ?_, fun _ _ _ => exec_busy_or_stopped⟩
  obtain ⟨hn, -⟩ | ⟨-, -, rfl⟩ | ⟨-, i, -, hx⟩ := engineStep_cases h
  · exact absurd hb hn
  · exact ⟨rfl, by simp⟩
  · have notEnd : i ≠ .endCmd := by
      rintro rfl
      cases hx
      cases herr
    exact (exec_busy_or_stopped hx hb notEnd).resolve_left (by simp [herr])

/-! ## The checks common to the ring commands (R222(2), (4), (5)) -/

section
variable {s : State} {o : Operands} {extra : Option ErrCode}

theorem State.ringError_of_not_cfgd (hc : s.conf.cfgd = false) : s.ringError o extra = some .notConfigured := by
  simp [State.ringError, hc]

theorem State.ringError_of_badSlot (hc : s.conf.cfgd = true) (hb : s.BadSlotCause o) :
    s.ringError o extra = some .badSlot := by
  simp [State.ringError, hc, (s.badSlot_iff o).2 hb]

theorem State.ringError_of_degreeMismatch (hc : s.conf.cfgd = true) (hb : ¬ s.BadSlotCause o)
    (hd : s.DegreeMismatchCause o) : s.ringError o extra = some .degreeMismatch := by
  simp [State.ringError, hc, mt (s.badSlot_iff o).1 hb, (s.degreeMismatch_iff o).2 hd]

/-- Once the common checks pass, the command's own checks decide. -/
theorem State.ringError_of_no_cause (hc : s.conf.cfgd = true) (hb : ¬ s.BadSlotCause o)
    (hd : ¬ s.DegreeMismatchCause o) : s.ringError o extra = extra := by
  simp [State.ringError, hc, mt (s.badSlot_iff o).1 hb, mt (s.degreeMismatch_iff o).1 hd]

end

/-! ## The checks of MONO, PERM and FPERM (R222(6), (7)) -/

theorem overlapError_of_eq {rd ra : BitVec 8} (h : rd = ra) : overlapError rd ra = some .overlap := if_pos h

/-- With an odd degree immediate only `Overlap` can arise. -/
theorem automorphismError_eq_overlapError (rd ra : BitVec 8) {imm : BitVec 64} (h : ¬ imm.getLsbD 0 = false) :
    automorphismError rd ra imm = overlapError rd ra := if_neg h

theorem ownError_of_invalidDegree {i : Instr} (h : i.InvalidDegreeCause) : i.ownError = some .invalidDegree := by
  cases i
  case perm pd pa imm => exact automorphismError_of_even pd pa h
  case fperm fd fa imm => exact automorphismError_of_even fd fa h
  all_goals exact h.elim

theorem ownError_of_overlap {i : Instr} (hd : ¬ i.InvalidDegreeCause) (h : i.OverlapCause) :
    i.ownError = some .overlap := by
  cases i
  case mono => exact overlapError_of_eq h
  case perm pd pa imm => exact (automorphismError_eq_overlapError pd pa hd).trans (overlapError_of_eq h)
  case fperm fd fa imm => exact (automorphismError_eq_overlapError fd fa hd).trans (overlapError_of_eq h)
  all_goals exact h.elim

theorem ownError_of_no_cause {i : Instr} (hd : ¬ i.InvalidDegreeCause) (h : ¬ i.OverlapCause) :
    i.ownError = none := by
  cases i
  case mono => exact overlapError_of_ne h
  case perm pd pa imm => exact (automorphismError_eq_overlapError pd pa hd).trans (overlapError_of_ne h)
  case fperm fd fa imm => exact (automorphismError_eq_overlapError fd fa hd).trans (overlapError_of_ne h)
  all_goals rfl

/-! ## One error, the first in the fixed order (R222) -/

section
variable {i : Instr} {s : State} {o : Operands} (ho : i.operands = some o)
include ho

theorem exec_of_ringError {e : ErrCode} (h : s.ringError o i.ownError = some e) :
    exec i s = .next (s.raise e) := by
  rw [exec_of_operands ho, ringCommand_eq, h]

theorem exec_of_no_ringError (h : s.ringError o i.ownError = none) :
    exec i s = .next (s.writeResult i o.rd).advance := by
  rw [exec_of_operands ho, ringCommand_eq, h]

end

@[simp] theorem State.writeResult_errcode (s : State) (i : Instr) (x : Slot) :
    (s.writeResult i x).errcode = s.errcode := by
  cases x <;> rfl

/-- A STRAT other than the reserved 3 is the code of a strategy (R73). -/
theorem exists_code_of_ne_three {strat : BitVec 2} (h : strat ≠ 3) : ∃ st : Strat, strat.toNat = st.code := by
  have small : ∀ v : BitVec 2, v ≠ 3 → v = 0 ∨ v = 1 ∨ v = 2 := by decide
  obtain rfl | rfl | rfl := small strat h
  · exact ⟨.auto, rfl⟩
  · exact ⟨.split, rfl⟩
  · exact ⟨.kara, rfl⟩

/-- A fetch beyond command memory or of an illegal encoding finds no command (R222(1)). -/
theorem State.fetch_illegal {s : State} (h : s.caps.ncmd ≤ s.cp.toNat
    ∨ ∃ w, s.cp.toNat < s.caps.ncmd ∧ s.cmd.read s.cp.toNat = some w ∧ IllegalEncoding w) : s.fetch = .illegal := by
  obtain hcp | ⟨w, hcp, hw, hill⟩ := h
  · exact State.fetch_of_ge hcp
  · obtain ⟨e, hd⟩ := illegalEncoding_iff.1 hill
    exact State.fetch_of_decode_error hcp hw hd

/-- Settles O21: each cause decides its check of `ringError`, and the first check that fails decides the error. -/
theorem firstErrorIsReported : Obligations.FirstErrorIsReported := by
  unfold Obligations.FirstErrorIsReported
  refine ⟨fun s hb h => engineStep_of_illegal hb (State.fetch_illegal h),
    fun s logn wsel strat sgn lb lc kt hne hbad => ?config,
    fun i s o ho => ⟨fun hc => exec_of_ringError ho (State.ringError_of_not_cfgd hc),
      fun hc hb => exec_of_ringError ho (State.ringError_of_badSlot hc hb),
      fun hc hb hd => exec_of_ringError ho (State.ringError_of_degreeMismatch hc hb hd),
      fun hc hb hd hi => exec_of_ringError ho ((State.ringError_of_no_cause hc hb hd).trans
        (ownError_of_invalidDegree hi)),
      fun hc hb hd hi hv => exec_of_ringError ho ((State.ringError_of_no_cause hc hb hd).trans
        (ownError_of_overlap hi hv)),
      fun hc hb hd hi hv => ⟨_, exec_of_no_ringError ho ((State.ringError_of_no_cause hc hb hd).trans
        (ownError_of_no_cause hi hv)), ?completed⟩⟩⟩
  case config =>
    obtain ⟨st, hst⟩ := exists_code_of_ne_three hne
    rw [exec_cfg_of_code hst]
    exact if_pos (configError_eq_true.2 hbad)
  case completed => simp [State.tagLogn_writeResult]

/-! ## The two resets (R250, R251) -/

theorem State.hardReset_eq (s : State) : s.hardReset
    = { State.reset with caps := s.caps, draws := s.draws, turns := s.turns, hostData := s.hostData } := rfl

theorem State.softReset_eq (s : State) : s.softReset = { State.reset with
    cmd := s.cmd, caps := s.caps, draws := s.draws, turns := s.turns, hostData := s.hostData } := rfl

theorem step_of_hardReset_turn {s : State} {rest : List Turn} (h : s.turns = .hardReset :: rest) :
    step s = .next { s with turns := rest }.hardReset := by
  rw [step, h]

/-- Settles O12: the step takes the reset from the list of moves and has its effect, `hardReset_eq`. -/
theorem hardResetTakesTheResetState : Obligations.HardResetTakesTheResetState := by
  unfold Obligations.HardResetTakesTheResetState
  intro s rest h
  rw [step_of_hardReset_turn h, State.hardReset_eq]

/-- Settles O13: a write of CTRL is allowed in every run state, and SRST goes before GO. -/
theorem softResetKeepsCommandMemory : Obligations.SoftResetKeepsCommandMemory := by
  unfold Obligations.SoftResetKeepsCommandMemory
  intro s v h
  rw [hostAccess_writeCsr (.inr (.inl rfl)), State.writeCsr_zero, if_pos h, State.softReset_eq]

end Sys2Proof.Machine
end
